-- ==== Sys2Proof/Word.lean ====
section
/-! DEFINITION. The words of the part: bytes of a frame or a layout, and the 16 bit words of keys and checks.
Quantities the manual counts with (serials, amounts, times) are plain numbers: its arithmetic is exact
(00_scope.md, Numbers and ranges). -/

namespace Sys2Proof

/-- One byte of a frame, an image or a record. -/
abbrev Byte := BitVec 8

/-- A key word or a check word (R1, R5, R7). -/
abbrev Word16 := BitVec 16

end Sys2Proof
end

