-- ==== Sys2Proof/Machine/Bytes.lean ====
section
/-! DEFINITION. Byte order and the check generator: multi-byte fields are sent most significant byte first (11, opening),
and one generator serves every check in the part (00_scope.md, The check generator; R5). -/

namespace Sys2Proof.Machine

/-- The k low bytes of n, most significant first. -/
def beBytes : Nat → Nat → List Byte
  | 0, _ => []
  | k + 1, n => BitVec.ofNat 8 (n / 256 ^ k) :: beBytes k n

/-- The number the bytes spell, most significant first. -/
def beNat (bs : List Byte) : Nat := bs.foldl (fun acc b => acc * 256 + b.toNat) 0

/-- A signed quantity in 24 bits, two's complement (layout tables of 11). -/
def be24 (i : Int) : List Byte := beBytes 3 (i % 16777216).toNat

/-- The signed quantity that 24 bits spell in two's complement. -/
def signed24 (n : Nat) : Int := if n < 8388608 then (n : Int) else (n : Int) - 16777216

/-- The number in the `len` bytes from byte `at_` on. -/
def fieldAt (bs : List Byte) (at_ len : Nat) : Nat := beNat ((bs.drop at_).take len)

/-- One byte holding the low 8 bits of n. -/
def byteOf (n : Nat) : Byte := BitVec.ofNat 8 n

/-- A bit as a number. -/
def bitNat (b : Bool) : Nat := if b then 1 else 0

/-- One bit into the check generator: shift toward the most significant end and combine with 1021h when the bit differs
from the bit shifted out (R5). -/
def crcBit (r : Word16) (bit : Bool) : Word16 :=
  if xor bit r.msb then (r <<< 1) ^^^ 0x1021#16 else r <<< 1

/-- One byte into the check generator, most significant bit first (R5). -/
def crcByte (r : Word16) (b : Byte) : Word16 :=
  [7, 6, 5, 4, 3, 2, 1, 0].foldl (fun acc i => crcBit acc (b.getLsbD i)) r

/-- The check over the bytes from the initial register value; the result is not inverted (R5). -/
def crc (init : Word16) (bs : List Byte) : Word16 := bs.foldl crcByte init

/-- The initial register value of the frames, the tariff bank and the journal records (00_scope.md, The check generator). -/
def crcInit : Word16 := 0xFFFF#16

/-- A check word as the two bytes of a layout. -/
def checkBytes (w : Word16) : List Byte := beBytes 2 w.toNat

end Sys2Proof.Machine
end

