-- ==== Sys2Proof/Config.lean ====
section
/-! DEFINITION. What one manufactured part fixes, the capacities the manual fixes, and the values it leaves open. -/

namespace Sys2Proof.Config

/-- The 32 bit unit serial fixed at manufacture (R195). UNVERIFIED, log 12: the manual gives no value, so none is given here. -/
opaque unitSerial : BitVec 32

/-- A byte the manual does not state, by the number of free values used before it. Log 13. -/
opaque freeByte : Nat → Byte

/-- The deny list holds at most 4096 entries (R15). -/
def denyCap : Nat := 4096

/-- The deny list holds at most 64 LOCAL entries (R15). -/
def localCap : Nat := 64

/-- The seen table holds at most 512 entries (R27). -/
def seenCap : Nat := 512

/-- The Torn-Write Table holds at most 8 records (R94). -/
def tornCap : Nat := 8

/-- The Credit Queue never holds more than 4 entries (R125). -/
def creditCap : Nat := 4

/-- The body counters run 0..7 (R113). -/
def bodyCap : Nat := 7

/-- The held records, queued appends and reserved slots share 1024 places (R160, R165). -/
def ringCap : Nat := 1024

/-- The last record number (R161). -/
def lastNumber : Nat := 4294967295

/-- A fare reservation needs this many free slots before it (R165). -/
def reserveNeed : Nat := 33

/-- The append queue holds fewer than this many unreserved appends when one is admitted (R164). -/
def unreservedCap : Nat := 6

/-- JOURNAL_HIGH holds from this held record count (R167). -/
def highMark : Nat := 896

/-- Captured intervals and elapsed times saturate here (00_scope.md, Aisle timing; R139, R147, R150). -/
def capture16 : Nat := 65535

/-- Vendor code, part code and silicon revision (R195). -/
def vendorCode : Nat := 0x2C17

/-- The part code (R195). -/
def partCode : Nat := 4120

/-- The silicon revision (R195). -/
def siliconRevision : Nat := 1

end Sys2Proof.Config
end

