-- ==== Sys2Proof/Syntax.lean ====
section
/-! DEFINITION. The commands: one constructor for each row of spec/opcode_table.json. A lane command carries its port and
the payload of its frame (R185, R186); a station command carries the address and the payload of its frame (R190, R193);
the part's own events carry what tells one from another. -/

namespace Sys2Proof

/-- The two lane ports (00_scope.md, Block overview). -/
inductive Port where
  | a
  | b
deriving DecidableEq, Repr

/-- The nine filtered inputs: six beams, two end stops and EMERG (R107, R143, R155). -/
inductive Input where
  | aOuter
  | aInner
  | l1
  | l2
  | bInner
  | bOuter
  | openStop
  | closedStop
  | emerg
deriving DecidableEq, Repr

/-- The commands and events of the part, row by row. -/
inductive Instr where
  -- resets
  | powerOn
  | lineReset
  -- lane commands (R186)
  | tap (p : Port) (payload : List Byte)
  | readVerdict (p : Port) (payload : List Byte)
  | written (p : Port) (payload : List Byte)
  | notWritten (p : Port) (payload : List Byte)
  | uncertain (p : Port) (payload : List Byte)
  | cancel (p : Port) (payload : List Byte)
  | readStatus (p : Port) (payload : List Byte)
  | readHalt (p : Port) (payload : List Byte)
  | faultClear (p : Port) (payload : List Byte)
  | portReset (p : Port) (payload : List Byte)
  | laneUnknownCommand (p : Port) (code : Byte) (payload : List Byte)
  | laneFrameDiscard (p : Port)
  -- the engine and the journal
  | evaluationBegin
  | verdictReadyEvent
  | applyWaitingFrame
  | heldActivationTest
  | confirmTimerExpiry (p : Port)
  | appendCompletion
  -- the aisle
  | rawLevelChange (i : Input) (level : Bool)
  | filteredChange (i : Input)
  | settleEnd
  | travelTimeoutExpiry
  | blankWindowEnd
  | zoneClearTimerExpiry
  | alarmTimerExpiry
  | loiterLimitReached
  | holdWindowExpiry
  | idleTimerExpiry
  -- time
  | clockAdvance
  | tornRecordExpiry (serial : Nat)
  | linkWatchExpiry
  | standaloneTimerExpiry
  -- broadcast station frames (R192)
  | time (addr : Byte) (payload : List Byte)
  | sighting (addr : Byte) (payload : List Byte)
  | emergency (addr : Byte) (payload : List Byte)
  | denyBaseBegin (addr : Byte) (payload : List Byte)
  | denyBaseAdd (addr : Byte) (payload : List Byte)
  | denyBaseEnd (addr : Byte) (payload : List Byte)
  | denyDelta (addr : Byte) (payload : List Byte)
  | tariffBegin (addr : Byte) (payload : List Byte)
  | tariffData (addr : Byte) (payload : List Byte)
  | tariffEnd (addr : Byte) (payload : List Byte)
  -- addressed station frames (R192)
  | poll (addr : Byte) (payload : List Byte)
  | collected (addr : Byte) (payload : List Byte)
  | keyLoad (addr : Byte) (payload : List Byte)
  | configure (addr : Byte) (payload : List Byte)
  | identify (addr : Byte) (payload : List Byte)
  | restore (addr : Byte) (payload : List Byte)
  | stationFaultClear (addr : Byte) (payload : List Byte)
  | journalClear (addr : Byte) (payload : List Byte)
  | forceCheckFault (addr : Byte)
  | maintUnknownOperation (addr : Byte) (payload : List Byte)
  | reset (addr : Byte) (payload : List Byte)
  | stationUnknownCommand (addr : Byte) (code : Byte) (payload : List Byte)
  -- the line
  | frameOverrun (addr : Byte) (code : Byte) (payload : List Byte)
  | stationFrameIgnored (addr : Byte) (code : Byte) (payload : List Byte) (check : Word16)
  | stationFrameAbandon
  | stationReplyEnd
deriving DecidableEq, Repr

end Sys2Proof
end

