-- ==== Sys2Proof/WellFormed.lean ====
section
/-! DEFINITION. Which terms of Instr are the row of the table they are built as: payloads within the length the framing
carries (R185, R190), command codes that are really undefined (R186, R192), an operation that is really unknown (R195), a
frame that is really ignored (R190), a serial that names a card (R1). exec answers a next state on the other terms too. -/

namespace Sys2Proof

/-- A lane payload that a frame can carry (R185). -/
def lanePayload (payload : List Byte) : Bool := decide (payload.length ≤ 40)

/-- A station payload that a frame can carry (R190). -/
def stationPayload (payload : List Byte) : Bool := decide (payload.length ≤ 96)

/-- A lane command code that R186 defines. -/
def laneCodeDefined (code : Byte) : Bool := decide (0x01 ≤ code.toNat ∧ code.toNat ≤ 0x0A)

/-- A station command code that R192 defines. -/
def stationCodeDefined (code : Byte) : Bool :=
  decide ((0x20 ≤ code.toNat ∧ code.toNat ≤ 0x29) ∨ (0x40 ≤ code.toNat ∧ code.toNat ≤ 0x49))

/-- A code of a broadcast command (R192). -/
def broadcastCode (code : Byte) : Bool := decide (0x20 ≤ code.toNat ∧ code.toNat ≤ 0x29)

/-- The check of a station frame, over its address, command, length and payload (R190). -/
def frameCheck (addr code : Byte) (payload : List Byte) : Word16 :=
  Machine.crc Machine.crcInit (addr :: code :: BitVec.ofNat 8 payload.length :: payload)

/-- The term is one that its row of the table names. -/
def wellFormed : Instr → Bool
  | .tap _ payload => lanePayload payload
  | .readVerdict _ payload => lanePayload payload
  | .written _ payload => lanePayload payload
  | .notWritten _ payload => lanePayload payload
  | .uncertain _ payload => lanePayload payload
  | .cancel _ payload => lanePayload payload
  | .readStatus _ payload => lanePayload payload
  | .readHalt _ payload => lanePayload payload
  | .faultClear _ payload => lanePayload payload
  | .portReset _ payload => lanePayload payload
  | .laneUnknownCommand _ code payload => !laneCodeDefined code && lanePayload payload
  | .tornRecordExpiry serial => decide (0 < serial ∧ serial < 4294967295)
  | .time _ payload => stationPayload payload
  | .sighting _ payload => stationPayload payload
  | .emergency _ payload => stationPayload payload
  | .denyBaseBegin _ payload => stationPayload payload
  | .denyBaseAdd _ payload => stationPayload payload
  | .denyBaseEnd _ payload => stationPayload payload
  | .denyDelta _ payload => stationPayload payload
  | .tariffBegin _ payload => stationPayload payload
  | .tariffData _ payload => stationPayload payload
  | .tariffEnd _ payload => stationPayload payload
  | .poll _ payload => stationPayload payload
  | .collected _ payload => stationPayload payload
  | .keyLoad _ payload => stationPayload payload
  | .configure _ payload => stationPayload payload
  | .identify _ payload => stationPayload payload
  | .restore _ payload => stationPayload payload
  | .stationFaultClear _ payload => stationPayload payload
  | .journalClear _ payload => stationPayload payload
  | .maintUnknownOperation _ payload => stationPayload payload && payload != [0x01#8]
  | .reset _ payload => stationPayload payload
  | .stationUnknownCommand _ code payload => !stationCodeDefined code && stationPayload payload
  | .frameOverrun _ _ payload => stationPayload payload
  | .stationFrameIgnored addr code payload check =>
    stationPayload payload && (check != frameCheck addr code payload || addr != 0 || !broadcastCode code)
  | .powerOn => true
  | .lineReset => true
  | .laneFrameDiscard _ => true
  | .evaluationBegin => true
  | .verdictReadyEvent => true
  | .applyWaitingFrame => true
  | .heldActivationTest => true
  | .confirmTimerExpiry _ => true
  | .appendCompletion => true
  | .rawLevelChange _ _ => true
  | .filteredChange _ => true
  | .settleEnd => true
  | .travelTimeoutExpiry => true
  | .blankWindowEnd => true
  | .zoneClearTimerExpiry => true
  | .alarmTimerExpiry => true
  | .loiterLimitReached => true
  | .holdWindowExpiry => true
  | .idleTimerExpiry => true
  | .clockAdvance => true
  | .linkWatchExpiry => true
  | .standaloneTimerExpiry => true
  | .forceCheckFault _ => true
  | .stationFrameAbandon => true
  | .stationReplyEnd => true

end Sys2Proof
end

