-- ==== Sys2Proof/Decode.lean ====
section
/-! DEFINITION. Which command the bytes of a lane selection and of a station frame name (R185, R186, R190, R192), and the bytes
that a command is sent as. The table of the commands gives no row any bits, so no word spells a command. -/

namespace Sys2Proof

/-- The command that a word spells by the table's bits: the table gives no row any bits, so none. -/
def decodeTableWord (_nbits _w : Nat) : Option Instr := none

/-! ## Lane selections (R185, R186) -/

/-- The lane command of a code, by the Code column of R186. -/
def laneCommand (p : Port) (code : Byte) (payload : List Byte) : Instr :=
  if code = 0x01 then .tap p payload
  else if code = 0x02 then .readVerdict p payload
  else if code = 0x03 then .written p payload
  else if code = 0x04 then .notWritten p payload
  else if code = 0x05 then .uncertain p payload
  else if code = 0x06 then .cancel p payload
  else if code = 0x07 then .readStatus p payload
  else if code = 0x08 then .readHalt p payload
  else if code = 0x09 then .faultClear p payload
  else if code = 0x0A then .portReset p payload
  else .laneUnknownCommand p code payload

/-- A length, payload and check as they stand in the bytes after a frame's opening bytes: none where the length exceeds the
limit or the bytes end before the last check byte. -/
def takeBody (limit : Nat) (len : Byte) (rest : List Byte) : Option (List Byte × Word16) :=
  if limit < len.toNat ∨ rest.length < len.toNat + 2 then none
  else some (rest.take len.toNat, BitVec.ofNat 16 (Machine.beNat ((rest.drop len.toNat).take 2)))

/-- The check of a lane frame, over its code, length and payload (R185). -/
def laneCheck (code : Byte) (payload : List Byte) : Word16 :=
  Machine.crc Machine.crcInit (code :: BitVec.ofNat 8 payload.length :: payload)

/-- The code and payload of the frame that the bytes of a selection begin with: none where the selection ends before its last
check byte, its length exceeds 40 or its check does not match (R185). -/
def takenFrame : List Byte → Option (Byte × List Byte)
  | code :: len :: rest =>
    match takeBody 40 len rest with
    | none => none
    | some (payload, check) => if check = laneCheck code payload then some (code, payload) else none
  | _ => none

/-- The command of the bytes that one selection of a port carries; bytes after the frame are not taken (R185). -/
def decodeSelection (p : Port) (clocked : List Byte) : Instr :=
  match takenFrame clocked with
  | none => .laneFrameDiscard p
  | some (code, payload) => laneCommand p code payload

/-- The bytes of a lane frame (R185). -/
def laneFrameBytes (code : Byte) (payload : List Byte) : List Byte :=
  code :: BitVec.ofNat 8 payload.length :: payload ++ Machine.checkBytes (laneCheck code payload)

/-- The bytes that a lane command is sent as. -/
def laneCommandBytes : Instr → Option (Port × List Byte)
  | .tap p payload => some (p, laneFrameBytes 0x01 payload)
  | .readVerdict p payload => some (p, laneFrameBytes 0x02 payload)
  | .written p payload => some (p, laneFrameBytes 0x03 payload)
  | .notWritten p payload => some (p, laneFrameBytes 0x04 payload)
  | .uncertain p payload => some (p, laneFrameBytes 0x05 payload)
  | .cancel p payload => some (p, laneFrameBytes 0x06 payload)
  | .readStatus p payload => some (p, laneFrameBytes 0x07 payload)
  | .readHalt p payload => some (p, laneFrameBytes 0x08 payload)
  | .faultClear p payload => some (p, laneFrameBytes 0x09 payload)
  | .portReset p payload => some (p, laneFrameBytes 0x0A payload)
  | .laneUnknownCommand p code payload => some (p, laneFrameBytes code payload)
  | _ => none

/-! ## Station frames (R190, R192) -/

/-- The station command of a code, by the Code column of R192; a MAINT is FORCE_CHECK_FAULT where its operation is 1 (R195). -/
def stationCommand (addr code : Byte) (payload : List Byte) : Instr :=
  if code = 0x20 then .time addr payload
  else if code = 0x21 then .sighting addr payload
  else if code = 0x22 then .emergency addr payload
  else if code = 0x23 then .denyBaseBegin addr payload
  else if code = 0x24 then .denyBaseAdd addr payload
  else if code = 0x25 then .denyBaseEnd addr payload
  else if code = 0x26 then .denyDelta addr payload
  else if code = 0x27 then .tariffBegin addr payload
  else if code = 0x28 then .tariffData addr payload
  else if code = 0x29 then .tariffEnd addr payload
  else if code = 0x40 then .poll addr payload
  else if code = 0x41 then .collected addr payload
  else if code = 0x42 then .keyLoad addr payload
  else if code = 0x43 then .configure addr payload
  else if code = 0x44 then .identify addr payload
  else if code = 0x45 then .restore addr payload
  else if code = 0x46 then .stationFaultClear addr payload
  else if code = 0x47 then .journalClear addr payload
  else if code = 0x48 then (if payload = [0x01#8] then .forceCheckFault addr else .maintUnknownOperation addr payload)
  else if code = 0x49 then .reset addr payload
  else .stationUnknownCommand addr code payload

/-- The frame from its start marker on: abandoned when it is too long or cut short, ignored on a bad check (R190). Whether its
address is this unit's is tested when it is taken. -/
def decodeStationFrame : List Byte → Instr
  | _ :: addr :: code :: len :: rest =>
    match takeBody 96 len rest with
    | none => .stationFrameAbandon
    | some (payload, check) =>
      if check = frameCheck addr code payload then stationCommand addr code payload
      else .stationFrameIgnored addr code payload check
  | _ => .stationFrameAbandon

/-- The command of the characters of the station line: a frame begins at the first A5h; without one there is none (R190). -/
def decodeStation (bs : List Byte) : Option Instr :=
  let frame := bs.dropWhile (fun b => b != 0xA5)
  if frame = [] then none else some (decodeStationFrame frame)

/-- The bytes of a station frame (R190). -/
def stationFrameBytes (addr code : Byte) (payload : List Byte) : List Byte :=
  0xA5#8 :: addr :: code :: BitVec.ofNat 8 payload.length :: payload ++ Machine.checkBytes (frameCheck addr code payload)

/-- The bytes that a station command is sent as. -/
def stationCommandBytes : Instr → Option (List Byte)
  | .time addr payload => some (stationFrameBytes addr 0x20 payload)
  | .sighting addr payload => some (stationFrameBytes addr 0x21 payload)
  | .emergency addr payload => some (stationFrameBytes addr 0x22 payload)
  | .denyBaseBegin addr payload => some (stationFrameBytes addr 0x23 payload)
  | .denyBaseAdd addr payload => some (stationFrameBytes addr 0x24 payload)
  | .denyBaseEnd addr payload => some (stationFrameBytes addr 0x25 payload)
  | .denyDelta addr payload => some (stationFrameBytes addr 0x26 payload)
  | .tariffBegin addr payload => some (stationFrameBytes addr 0x27 payload)
  | .tariffData addr payload => some (stationFrameBytes addr 0x28 payload)
  | .tariffEnd addr payload => some (stationFrameBytes addr 0x29 payload)
  | .poll addr payload => some (stationFrameBytes addr 0x40 payload)
  | .collected addr payload => some (stationFrameBytes addr 0x41 payload)
  | .keyLoad addr payload => some (stationFrameBytes addr 0x42 payload)
  | .configure addr payload => some (stationFrameBytes addr 0x43 payload)
  | .identify addr payload => some (stationFrameBytes addr 0x44 payload)
  | .restore addr payload => some (stationFrameBytes addr 0x45 payload)
  | .stationFaultClear addr payload => some (stationFrameBytes addr 0x46 payload)
  | .journalClear addr payload => some (stationFrameBytes addr 0x47 payload)
  | .forceCheckFault addr => some (stationFrameBytes addr 0x48 [0x01#8])
  | .maintUnknownOperation addr payload => some (stationFrameBytes addr 0x48 payload)
  | .reset addr payload => some (stationFrameBytes addr 0x49 payload)
  | .stationUnknownCommand addr code payload => some (stationFrameBytes addr code payload)
  | _ => none

end Sys2Proof
end

