-- ==== Sys2Proof/Machine/State.lean ====
section
/-! DEFINITION. Everything the manual gives the part to hold, as plain data, and the part right after power-on from the
factory. Times are end times or start times on the millisecond time base (`State.now`). -/

namespace Sys2Proof.Machine

/-! ## Names the manual fixes -/

/-- A direction through the aisle (00_scope.md, Directions and sides). NONE is the absence of one. -/
inductive Dir where
  | ab
  | ba
deriving DecidableEq, Repr

/-- Port tap states (R65). -/
inductive TapState where
  | idle
  | queued
  | evaluating
  | verdictReady
  | awaitingWrite
  | committing
deriving DecidableEq, Repr

/-- Last results of a lane port (R186). -/
inductive LastResult where
  | ok
  | busy
  | noTap
  | wrongState
  | refused
deriving DecidableEq, Repr

/-- Verdict codes, in the order of R78. -/
inductive VCode where
  | accept
  | resumed
  | emergency
  | outOfService
  | offline
  | badFormat
  | cardInUse
  | damaged
  | unknownKey
  | badCheck
  | denied
  | clone
  | exhausted
  | passback
  | passExpired
  | insufficient
  | aisleFull
deriving DecidableEq, Repr

/-- Journal record kinds (R162). -/
inductive RecKind where
  | entry
  | exit
  | exitFree
  | cloneAlert
  | unusedPassage
  | tailgate
  | contraflow
  | leafFault
  | lockout
  | tornUnresolved
  | tariffActivated
  | linkMode
deriving DecidableEq, Repr

/-- The side field of a journal record (R162). -/
inductive Side where
  | none
  | a
  | b
  | station
deriving DecidableEq, Repr

/-- Active violation kinds (R120). NONE is the absence of one. -/
inductive Violation where
  | tailgate
  | contraflow
deriving DecidableEq, Repr

/-- Leaf drive states (R142). -/
inductive Leaf where
  | closed
  | opening
  | opened
  | closing
  | released
deriving DecidableEq, Repr

/-- The target of a leaf motion (R142). -/
inductive Target where
  | toOpen
  | toClosed
deriving DecidableEq, Repr

/-- Link modes (R179). -/
inductive LinkMode where
  | unsynced
  | resync
  | linked
  | standalone
deriving DecidableEq, Repr

/-- Crossing detector states (R111). -/
inductive Detector where
  | idle
  | inO
  | inOI
  | inI
  | outI
  | outIO
  | outO
  | ambig
deriving DecidableEq, Repr

/-- Card key entry states (R7). -/
inductive KeyState where
  | absent
  | active
  | retired
deriving DecidableEq, Repr

/-- Tariff bank states (R38). -/
inductive BankState where
  | empty
  | loading
  | ready
  | active
  | retired
deriving DecidableEq, Repr

/-- Tariff reject reasons (R41). -/
inductive Reject where
  | none
  | check
  | bands
  | step
deriving DecidableEq, Repr

/-- Halt codes (R152). Field 0 of an empty halt record is the absence of one. -/
inductive HaltCode where
  | doubleFault
  | stopConflict
deriving DecidableEq, Repr

/-- The stages of an evaluation, in order (the table before R69). -/
inductive Stage where
  | gate
  | form
  | inFlight
  | torn
  | keyCheck
  | deny
  | clone
  | exhaustion
  | fare
  | reservations
deriving DecidableEq, Repr

/-! ## Lane ports -/

/-- A verdict record (R77), with the record kind and zones the commit needs (R64, R86). -/
structure Verdict where
  code      : VCode
  detail    : Nat
  charge    : Nat
  balance   : Int
  dir       : Option Dir
  version   : Nat
  image     : Option (List Byte)
  kind      : Option RecKind
  entryZone : Nat
  exitZone  : Nat
deriving DecidableEq, Repr

/-- The tap slot of a port with a tap in hand (R65). -/
structure TapSlot where
  image   : List Byte
  verdict : Option Verdict
deriving DecidableEq, Repr

/-- The status record of a port (R187). -/
structure StatusRecord where
  leaf            : Leaf
  dir             : Option Dir
  reserved        : Nat
  granted         : Nat
  inAisle         : Nat
  bodiesAB        : Nat
  bodiesBA        : Nat
  aOuter          : Bool
  aInner          : Bool
  l1              : Bool
  l2              : Bool
  bInner          : Bool
  bOuter          : Bool
  link            : LinkMode
  emergency       : Bool
  lockedOut       : Bool
  faultInProgress : Bool
  suspect         : Bool
  journalHigh     : Bool
  entryStop       : Bool
  loiter          : Bool
  frameError      : Bool
  violation       : Option Violation
  tap             : TapState
deriving DecidableEq, Repr

/-- One lane port (R65, R85, R185, R186, R187). `shiftOut` is the reply that follows the last frame
in its selection, none after a non-read or a discarded one; 00h is shifted out past its end (R185). -/
structure LanePort where
  tap        : TapState
  slot       : Option TapSlot
  last       : LastResult
  confirmEnd : Option Nat
  frameError : Bool
  snapshot   : Option StatusRecord
  shiftOut   : List Byte
deriving DecidableEq, Repr

/-! ## Verdict Engine -/

/-- PENDING with its holding port, or UNRESOLVED with its window remaining (R94, R95). -/
inductive TornState where
  | pending (holder : Port)
  | unresolved (window : Nat)
deriving DecidableEq, Repr

/-- A Torn-Write Table record (R94), with the signed new image that R4, R9 and R64 keep in it (log 40). -/
structure TornRecord where
  serial    : Nat
  state     : TornState
  origin    : Port
  dir       : Option Dir
  oldSeq    : Nat
  oldCheck  : Word16
  newSeq    : Nat
  newCheck  : Word16
  newImage  : List Byte
  kind      : RecKind
  charge    : Nat
  balance   : Int
  version   : Nat
  entryZone : Nat
  exitZone  : Nat
deriving DecidableEq, Repr

/-- What the fare stage hands the Verdict Engine (R49). -/
structure FareResult where
  kind      : RecKind
  charge    : Nat
  balance   : Int
  version   : Nat
  entryZone : Nat
  exitZone  : Nat
  image     : List Byte
deriving DecidableEq, Repr

/-- The evaluation in progress (R68): `stage` is the next stage to make, `verdict` the verdict once one is reached,
`freeExit` the kind fixed at the gate (R69), `held` the serial of the torn record it holds (R99, R105), `creditMade` and
`slotMade` the reservations made so far (R73, R74). -/
structure Evaluation where
  port        : Port
  image       : List Byte
  stage       : Stage
  freeExit    : Bool
  gateVersion : Nat
  held        : Option Nat
  fare        : Option FareResult
  creditMade  : Bool
  slotMade    : Bool
  verdict     : Option Verdict
deriving DecidableEq, Repr

/-- The Verdict Engine (R67, R68, R76, R94). -/
structure VerdictEngine where
  queue    : List Port
  eval     : Option Evaluation
  inFlight : List (Nat × Port)
  torn     : List TornRecord
deriving DecidableEq, Repr

/-! ## Screening Unit -/

/-- A card key table entry (R7). -/
structure KeyEntry where
  state : KeyState
  word  : Word16
deriving DecidableEq, Repr

/-- The source of a deny list entry: STATION with its stale mark, LOCAL with its local order number (R15). -/
inductive DenySource where
  | station (stale : Bool)
  | localEntry (order : Nat)
deriving DecidableEq, Repr

/-- A deny list entry (R15). -/
structure DenyEntry where
  serial : Nat
  reason : Nat
  source : DenySource
deriving DecidableEq, Repr

/-- The deny list with its version, load state and flags (R15, R16). -/
structure DenyList where
  entries  : List DenyEntry
  version  : Nat
  loading  : Bool
  pending  : Nat
  full     : Bool
  mismatch : Bool
deriving DecidableEq, Repr

/-- A seen table entry (R27). -/
structure SeenEntry where
  serial : Nat
  seq    : Nat
  check  : Word16
  stamp  : Nat
  second : Nat
deriving DecidableEq, Repr

/-- The Screening Unit: key table, deny list, seen table in recency order, least recent first (R7, R15, R27). -/
structure Screening where
  keys : List KeyEntry
  deny : DenyList
  seen : List SeenEntry
deriving DecidableEq, Repr

/-! ## Fare Unit -/

/-- A tariff bank: `contents` holds its 314 positions in the order of R37. -/
structure Bank where
  state    : BankState
  version  : Nat
  effDay   : Nat
  contents : List Nat
deriving DecidableEq, Repr

/-- The Fare Unit (R36, R41) with the activation test that waits for the end of an evaluation (R46). -/
structure FareUnit where
  bank0    : Bank
  bank1    : Bank
  reject   : Reject
  heldTest : Bool
deriving DecidableEq, Repr

/-! ## Aisle Controller -/

/-- A filtered input: raw level, filtered level, end time of a running filter interval (R107). -/
structure Line where
  raw       : Bool
  filtered  : Bool
  filterEnd : Option Nat
deriving DecidableEq, Repr

/-- The nine filtered inputs (R107, R143, R155). -/
structure Inputs where
  aOuter     : Line
  aInner     : Line
  l1         : Line
  l2         : Line
  bInner     : Line
  bOuter     : Line
  openStop   : Line
  closedStop : Line
  emerg      : Line
deriving DecidableEq, Repr

/-- RESERVED with its grant bar; GRANTED with its record number, the time of the grant and the end of the hold window
that runs for it, if one does; IN_AISLE with the time of becoming so (R124, R136). -/
inductive CreditState where
  | reserved (barred : Bool)
  | granted (recordNo grantedAt : Nat) (holdEnd : Option Nat)
  | inAisle (recordNo grantedAt since : Nat)
deriving DecidableEq, Repr

/-- A Credit Queue entry (R124). -/
structure Credit where
  state  : CreditState
  dir    : Dir
  serial : Nat
  port   : Port
deriving DecidableEq, Repr

/-- The motion record of the leaf drive (R142, R146). `blankTaken` is the model's mark that the end of the blank window
has been taken as an event (log 2). -/
structure Motion where
  start      : Nat
  timeout    : Nat
  full       : Bool
  blankEnd   : Option Nat
  blankTaken : Bool
deriving DecidableEq, Repr

/-- The halt record (R152). -/
structure HaltRecord where
  valid      : Bool
  code       : Option HaltCode
  leaf       : Leaf
  target     : Option Target
  reserved   : Nat
  granted    : Nat
  inAisle    : Nat
  bodiesAB   : Nat
  bodiesBA   : Nat
  aOuter     : Bool
  aInner     : Bool
  l1         : Bool
  l2         : Bool
  bInner     : Bool
  bOuter     : Bool
  openStop   : Bool
  closedStop : Bool
  stamp      : Nat
  second     : Nat
  timeValid  : Bool
deriving DecidableEq, Repr

/-- The Aisle Controller (chapters 06, 07 and 08). -/
structure Aisle where
  inputs           : Inputs
  settleEnd        : Option Nat
  detA             : Detector
  detB             : Detector
  bodiesAB         : Nat
  bodiesBA         : Nat
  alarmEnd         : Option Nat
  violation        : Option Violation
  loiter           : Bool
  credits          : List Credit
  captures         : List Nat
  histDir          : Option Dir
  lastAB           : Option Nat
  lastBA           : Option Nat
  idleEnd          : Option Nat
  leaf             : Leaf
  motion           : Option Motion
  openHist         : List Nat
  closeHist        : List Nat
  reversals        : Nat
  obstructHold     : Bool
  zoneClearEnd     : Option Nat
  faultInProgress  : Bool
  lockedOut        : Bool
  halt             : HaltRecord
  stationEmergency : Bool
deriving DecidableEq, Repr

/-! ## Journal -/

/-- The content a requester gives a record (R162), apart from the flags and the service time. -/
structure Content where
  kind      : RecKind
  side      : Side
  serial    : Nat := 0
  seqAfter  : Nat := 0
  charge    : Nat := 0
  balance   : Int := 0
  version   : Nat := 0
  entryZone : Nat := 0
  exitZone  : Nat := 0
  detail    : Nat := 0
deriving DecidableEq, Repr

/-- A journal record (R162). -/
structure JRecord where
  number     : Nat
  content    : Content
  standalone : Bool
  resumed    : Bool
  remote     : Bool
  forced     : Bool
  day        : Nat
  second     : Nat
  check      : Word16
deriving DecidableEq, Repr

/-- A queued append; `commit` is the port whose commit its completion completes, for a reserved append (R163, R164). -/
structure Append where
  record : JRecord
  commit : Option Port
deriving DecidableEq, Repr

/-- The error capture (R169). -/
structure Capture where
  valid  : Bool
  number : Nat
  lost   : Bool
deriving DecidableEq, Repr

/-- The Journal (chapter 09): held records oldest first, append queue oldest first. -/
structure Journal where
  held       : List JRecord
  durable    : Nat
  assigned   : Nat
  queue      : List Append
  reserved   : Nat
  suspect    : Bool
  capture    : Capture
  alertsLost : Bool
  armed      : Bool
  queueMark  : Bool
deriving DecidableEq, Repr

/-! ## Time and Link Unit -/

/-- The Time and Link Unit (R175, R179, R181). -/
structure TimeLink where
  valid         : Bool
  day           : Nat
  second        : Nat
  phase         : Option Nat
  mode          : LinkMode
  resync        : Option Nat
  watchEnd      : Option Nat
  standaloneEnd : Option Nat
  entryStop     : Bool
deriving DecidableEq, Repr

/-! ## Station Line Interface -/

/-- A complete station frame whose check matched (R190). -/
structure Frame where
  addr    : Byte
  code    : Byte
  payload : List Byte
deriving DecidableEq, Repr

/-- A reply being sent (R190); `resets` marks the reply to RESET (R195). -/
structure Reply where
  bytes  : List Byte
  resets : Bool
deriving DecidableEq, Repr

/-- The Station Line Interface (R190, R191); `next` is a reply formed while another is sent, which follows it (log 34);
`resetDue` holds from the end of the reply to RESET to LINE_RESET (R195). -/
structure StationLine where
  slot     : Option Frame
  overrun  : Bool
  tx       : Option Reply
  next     : Option Reply
  resetDue : Bool
deriving DecidableEq, Repr

/-! ## Stored settings -/

/-- The 19 CONFIGURE items (R194), in code order. -/
structure Settings where
  unitAddress     : Nat
  stationNumber   : Nat
  stationZone     : Nat
  signingKey      : Nat
  filterTime      : Nat
  avgDepth        : Nat
  flowBase        : Nat
  holdFactor      : Nat
  minHold         : Nat
  maxHold         : Nat
  idleClear       : Nat
  blankFactor     : Nat
  travelBase      : Nat
  alarmTime       : Nat
  confirmLimit    : Nat
  tornWindow      : Nat
  loiterLimit     : Nat
  linkWatch       : Nat
  standaloneLimit : Nat
deriving DecidableEq, Repr

/-! ## The whole part -/

/-- The part: `now` is the present time on the millisecond time base, `free` counts the free values used (log 13),
`pending` holds the commands that wait, oldest first. -/
structure State where
  now     : Nat
  free    : Nat
  pending : List Instr
  portA   : LanePort
  portB   : LanePort
  ve      : VerdictEngine
  su      : Screening
  fu      : FareUnit
  ac      : Aisle
  jn      : Journal
  tl      : TimeLink
  sl      : StationLine
  cfg     : Settings
deriving DecidableEq, Repr

/-- Why a step can stop with a fault. The manual names no event after which the part stops, and no meaning raises this
one: it stands so that the type has a name to give. Safe: it is never the answer of a step. -/
inductive Fault where
  /-- Raised by nobody. Safe. -/
  | unreachable
deriving DecidableEq, Repr

/-- Why a command can be refused by the model. -/
inductive Refusal where
  /-- Raised by exec's arm for a command without a meaning yet, by its name in the table; no arm does now. Safe. -/
  | notModelled (mnemonic : String)
deriving DecidableEq, Repr

/-! ## Reset values -/

/-- A lane port after either reset (R92, R189). -/
def resetPort : LanePort :=
  { tap := .idle, slot := none, last := .ok, confirmEnd := none, frameError := false, snapshot := none, shiftOut := [] }

/-- An input line whose pin is clear, right after a reset (R110, log 8). -/
def clearLine : Line := { raw := false, filtered := false, filterEnd := none }

/-- The halt record from the factory: invalid, every field 0 (R152). -/
def factoryHalt : HaltRecord :=
  { valid := false, code := none, leaf := .closed, target := none, reserved := 0, granted := 0, inAisle := 0,
    bodiesAB := 0, bodiesBA := 0, aOuter := false, aInner := false, l1 := false, l2 := false, bInner := false,
    bOuter := false, openStop := false, closedStop := false, stamp := 0, second := 0, timeValid := false }

/-- A tariff bank in EMPTY (R38, R43). -/
def emptyBank : Bank := { state := .empty, version := 0, effDay := 0, contents := List.replicate 314 0 }

/-- The defaults of the CONFIGURE items (R194). -/
def factorySettings : Settings :=
  { unitAddress := 1, stationNumber := 0, stationZone := 0, signingKey := 0, filterTime := 8, avgDepth := 4,
    flowBase := 2000, holdFactor := 192, minHold := 1500, maxHold := 8000, idleClear := 10, blankFactor := 40,
    travelBase := 600, alarmTime := 3, confirmLimit := 2000, tornWindow := 120, loiterLimit := 10, linkWatch := 30,
    standaloneLimit := 240 }

/-- The Aisle Controller right after power-on from the factory (R110, R113, R121, R141, R159). -/
def factoryAisle : Aisle :=
  { inputs := { aOuter := clearLine, aInner := clearLine, l1 := clearLine, l2 := clearLine, bInner := clearLine,
                bOuter := clearLine, openStop := clearLine, closedStop := clearLine, emerg := clearLine },
    settleEnd := some 8, detA := .idle, detB := .idle, bodiesAB := 0, bodiesBA := 0, alarmEnd := none,
    violation := none, loiter := false, credits := [], captures := [], histDir := none, lastAB := none,
    lastBA := none, idleEnd := some 10000, leaf := .released, motion := none, openHist := [], closeHist := [],
    reversals := 0, obstructHold := false, zoneClearEnd := none, faultInProgress := false, lockedOut := false,
    halt := factoryHalt, stationEmergency := false }

/-- The part from the factory, right after power-on (R65, R92, R7, R16, R27, R38, R110, R141, R159, R174, R184, R189, R191,
R194). The values the manual does not give are those of logs 8, 9 and 13. -/
def State.reset : State :=
  { now := 0, free := 0, pending := [], portA := resetPort, portB := resetPort,
    ve := { queue := [], eval := none, inFlight := [], torn := [] },
    su := { keys := List.replicate 8 { state := .absent, word := 0 },
            deny := { entries := [], version := 0, loading := false, pending := 0, full := false, mismatch := false },
            seen := [] },
    fu := { bank0 := emptyBank, bank1 := emptyBank, reject := .none, heldTest := false },
    ac := factoryAisle,
    jn := { held := [], durable := 0, assigned := 0, queue := [], reserved := 0, suspect := false,
            capture := { valid := false, number := 0, lost := false }, alertsLost := false, armed := false,
            queueMark := false },
    tl := { valid := false, day := 0, second := 0, phase := none, mode := .unsynced, resync := none, watchEnd := none,
            standaloneEnd := none, entryStop := false },
    sl := { slot := none, overrun := false, tx := none, next := none, resetDue := false },
    cfg := factorySettings }

end Sys2Proof.Machine
end

