-- ==== Sys2Proof/Machine/Flags.lean ====
section
/-! DEFINITION. The conditions and flags that are functions of the state, the codes of the layouts, the status record of a
port, the station status summary and the output pins (R129, R144, R155, R167, R187, R188, R192, layouts of 11). -/

namespace Sys2Proof.Machine

/-! ## Codes of the layouts (11) -/

def portCode : Port → Nat
  | .a => 1
  | .b => 2

def dirCode : Option Dir → Nat
  | none => 0
  | some .ab => 1
  | some .ba => 2

def tapCode : TapState → Nat
  | .idle => 0
  | .queued => 1
  | .evaluating => 2
  | .verdictReady => 3
  | .awaitingWrite => 4
  | .committing => 5

def lastCode : LastResult → Nat
  | .ok => 0
  | .busy => 1
  | .noTap => 2
  | .wrongState => 3
  | .refused => 4

/-- Verdict codes numbered from 1 in the order of R78; 0 is NONE. -/
def verdictCode : VCode → Nat
  | .accept => 1
  | .resumed => 2
  | .emergency => 3
  | .outOfService => 4
  | .offline => 5
  | .badFormat => 6
  | .cardInUse => 7
  | .damaged => 8
  | .unknownKey => 9
  | .badCheck => 10
  | .denied => 11
  | .clone => 12
  | .exhausted => 13
  | .passback => 14
  | .passExpired => 15
  | .insufficient => 16
  | .aisleFull => 17

def leafCode : Leaf → Nat
  | .closed => 0
  | .opening => 1
  | .opened => 2
  | .closing => 3
  | .released => 4

def targetCode : Option Target → Nat
  | none => 0
  | some .toOpen => 1
  | some .toClosed => 2

def haltCodeNum : Option HaltCode → Nat
  | none => 0
  | some .doubleFault => 1
  | some .stopConflict => 2

def linkCode : LinkMode → Nat
  | .unsynced => 0
  | .resync => 1
  | .linked => 2
  | .standalone => 3

def violationCode : Option Violation → Nat
  | none => 0
  | some .tailgate => 1
  | some .contraflow => 2

def bankCode : BankState → Nat
  | .empty => 0
  | .loading => 1
  | .ready => 2
  | .active => 3
  | .retired => 4

def rejectCode : Reject → Nat
  | .none => 0
  | .check => 1
  | .bands => 2
  | .step => 3

def keyStateCode : KeyState → Nat
  | .absent => 0
  | .active => 1
  | .retired => 2

def kindCode : RecKind → Nat
  | .entry => 1
  | .exit => 2
  | .exitFree => 3
  | .cloneAlert => 16
  | .unusedPassage => 17
  | .tailgate => 18
  | .contraflow => 19
  | .leafFault => 20
  | .lockout => 21
  | .tornUnresolved => 22
  | .tariffActivated => 23
  | .linkMode => 24

def sideCode : Side → Nat
  | .none => 0
  | .a => 1
  | .b => 2
  | .station => 3

/-- The side of a lane port (R86). -/
def portSide : Port → Side
  | .a => .a
  | .b => .b

/-- Eight flags as a byte, bit 0 first. -/
def flagByte (bs : List Bool) : Nat :=
  bs.foldr (fun b acc => bitNat b + 2 * acc) 0

/-! ## Conditions of the aisle -/

/-- The other direction. -/
def Dir.other : Dir → Dir
  | .ab => .ba
  | .ba => .ab

/-- The emergency state: the filtered EMERG input or the station emergency flag (R155). -/
def emergencyActive (a : Aisle) : Bool := a.inputs.emerg.filtered || a.stationEmergency

/-- RESERVED, barred or not (R124). -/
def Credit.isReserved (c : Credit) : Bool :=
  match c.state with
  | .reserved _ => true
  | _ => false

/-- GRANTED (R124). -/
def Credit.isGranted (c : Credit) : Bool :=
  match c.state with
  | .granted _ _ _ => true
  | _ => false

/-- IN_AISLE (R124). -/
def Credit.isInAisle (c : Credit) : Bool :=
  match c.state with
  | .inAisle _ _ _ => true
  | _ => false

/-- The body counter of a direction (R113). -/
def bodies (a : Aisle) : Dir → Nat
  | .ab => a.bodiesAB
  | .ba => a.bodiesBA

/-- The current aisle direction (R129). -/
def direction (a : Aisle) : Option Dir :=
  match a.credits.find? (fun c => !c.isReserved) with
  | some c => some c.dir
  | none => if 0 < a.bodiesAB then some .ab else if 0 < a.bodiesBA then some .ba else none

/-- The leaf demand, true for OPEN (R144). -/
def demandOpen (a : Aisle) : Bool :=
  (emergencyActive a && !a.lockedOut) || a.credits.any (fun c => !c.isReserved)

/-- The aisle is idle: the Credit Queue is empty and both body counters are 0 (R133). -/
def aisleIdle (a : Aisle) : Bool := a.credits.isEmpty && a.bodiesAB == 0 && a.bodiesBA == 0

/-- L1 and L2 both clear (R145, R149). -/
def zoneClear (a : Aisle) : Bool := !a.inputs.l1.filtered && !a.inputs.l2.filtered

/-! ## Flags of the other blocks -/

/-- JOURNAL_HIGH (R167). -/
def journalHigh (j : Journal) : Bool := Config.highMark ≤ j.held.length

/-- The signing key is present (R8). -/
def signingPresent (su : Screening) (cfg : Settings) : Bool :=
  su.keys[cfg.signingKey]?.map (·.state) == some .active

/-! ## The status record (R187) -/

/-- The port of a state. -/
def State.port (s : State) : Port → LanePort
  | .a => s.portA
  | .b => s.portB

/-- The status record of a port as it stands (R187). -/
def statusRecord (s : State) (p : Port) : StatusRecord :=
  { leaf := s.ac.leaf
    dir := direction s.ac
    reserved := s.ac.credits.countP Credit.isReserved
    granted := s.ac.credits.countP Credit.isGranted
    inAisle := s.ac.credits.countP Credit.isInAisle
    bodiesAB := s.ac.bodiesAB
    bodiesBA := s.ac.bodiesBA
    aOuter := s.ac.inputs.aOuter.filtered
    aInner := s.ac.inputs.aInner.filtered
    l1 := s.ac.inputs.l1.filtered
    l2 := s.ac.inputs.l2.filtered
    bInner := s.ac.inputs.bInner.filtered
    bOuter := s.ac.inputs.bOuter.filtered
    link := s.tl.mode
    emergency := emergencyActive s.ac
    lockedOut := s.ac.lockedOut
    faultInProgress := s.ac.faultInProgress
    suspect := s.jn.suspect
    journalHigh := journalHigh s.jn
    entryStop := s.tl.entryStop
    loiter := s.ac.loiter
    frameError := (s.port p).frameError
    violation := s.ac.violation
    tap := (s.port p).tap }

/-- The 11 bytes of a status record (Status record layout). -/
def statusBytes (r : StatusRecord) : List Byte :=
  [ byteOf (leafCode r.leaf), byteOf (dirCode r.dir), byteOf r.reserved, byteOf r.granted, byteOf r.inAisle,
    byteOf (r.bodiesAB + 16 * r.bodiesBA),
    byteOf (flagByte [r.aOuter, r.aInner, r.l1, r.l2, r.bInner, r.bOuter]),
    byteOf (linkCode r.link),
    byteOf (flagByte [r.emergency, r.lockedOut, r.faultInProgress, r.suspect, r.journalHigh, r.entryStop, r.loiter,
      r.frameError]),
    byteOf (violationCode r.violation), byteOf (tapCode r.tap) ]

/-! ## The station status summary (R192) -/

/-- The 14 bytes of the status summary (Station status summary layout). -/
def summaryBytes (s : State) : List Byte :=
  [ byteOf (linkCode s.tl.mode),
    byteOf (flagByte [emergencyActive s.ac, s.ac.lockedOut, s.ac.faultInProgress, s.jn.suspect, journalHigh s.jn,
      s.tl.entryStop, s.ac.loiter, false]) ]
  ++ beBytes 2 s.jn.held.length
  ++ [ byteOf (flagByte [s.jn.alertsLost, s.sl.overrun, s.su.deny.loading, s.su.deny.full, s.su.deny.mismatch,
      s.ac.halt.valid]) ]
  ++ beBytes 2 s.su.deny.version
  ++ [byteOf (bankCode s.fu.bank0.state)] ++ beBytes 2 s.fu.bank0.version
  ++ [byteOf (bankCode s.fu.bank1.state)] ++ beBytes 2 s.fu.bank1.version
  ++ [byteOf (rejectCode s.fu.reject)]

/-! ## Output pins -/

/-- A snapshot or record with FRAME_ERROR left out of the comparison (R188). -/
def StatusRecord.shown (r : StatusRecord) : StatusRecord := { r with frameError := false }

/-- The attention output of a port is asserted (driven low): a verdict is unread, or the snapshot is absent or differs from
the status record in a field other than FRAME_ERROR (R188). A level without a latch: DESIGN CHOICE, log 38. -/
def attention (s : State) (p : Port) : Bool :=
  (s.port p).tap == .verdictReady ||
    match (s.port p).snapshot with
    | none => true
    | some r => r.shown != (statusRecord s p).shown

/-- The drive outputs LD_OPEN, LD_CLOSE, LD_HOLD (R142). -/
def driveOutputs : Leaf → Bool × Bool × Bool
  | .opening => (true, false, false)
  | .closing => (false, true, false)
  | .closed => (false, false, true)
  | .opened => (false, false, true)
  | .released => (false, false, false)

/-- The ALARM output is asserted while the alarm timer runs (R120). -/
def alarmOutput (a : Aisle) : Bool := a.alarmEnd.isSome

/-- STN_TXEN is asserted while a reply is sent (R190). -/
def txEnable (s : State) : Bool := s.sl.tx.isSome

end Sys2Proof.Machine
end

