-- ==== Sys2Proof/Machine/Drive.lean ====
section
/-! DEFINITION. The leaf drive: travel timing, motions, obstruction, leaf faults and lockout (R142 to R152, R154). -/

namespace Sys2Proof.Machine

/-- What the Aisle Controller reads from the other blocks: the present time, the settings, the service clock. -/
structure Env where
  now : Nat
  cfg : Settings
  tl  : TimeLink

/-- The Aisle Controller in the middle of an event, with the alerts it has requested, in order. -/
structure AisleRun where
  ac     : Aisle
  alerts : List Content

/-- One more alert requested by the event. -/
def AisleRun.post (r : AisleRun) (c : Content) : AisleRun := { r with alerts := r.alerts ++ [c] }

/-- The event goes on with the aisle changed. -/
def AisleRun.upd (r : AisleRun) (f : Aisle → Aisle) : AisleRun := { r with ac := f r.ac }

/-- The service minute stamp (R175). -/
def minuteStamp (t : TimeLink) : Nat := t.day * 1440 + t.second / 60

/-- The second within the minute (R175). -/
def secondInMinute (t : TimeLink) : Nat := t.second - 60 * (t.second / 60)

/-- The newest n of a history, oldest first. -/
def keepNewest (n : Nat) (l : List Nat) : List Nat := l.drop (l.length - n)

/-- An interval in ms, taken as 65,535 when greater. -/
def capInterval (since now : Nat) : Nat := min (now - since) Config.capture16

/-! ## Travel timing (R147) -/

/-- The travel base of a kind: the average of its captures, or the default travel base (R147). -/
def travelBaseOf (cfg : Settings) (hist : List Nat) : Nat :=
  if hist = [] then cfg.travelBase else hist.sum / hist.length

/-- The travel history of a target's kind (R147). -/
def travelHist (a : Aisle) : Target → List Nat
  | .toOpen => a.openHist
  | .toClosed => a.closeHist

/-- The travel timeout of a kind: 2 × base + 100 ms within 300..3000 ms (R147). -/
def travelTimeoutOf (cfg : Settings) (hist : List Nat) : Nat :=
  min 3000 (max 300 (2 * travelBaseOf cfg hist + 100))

/-- The blank window (R147). -/
def blankWindowOf (cfg : Settings) (a : Aisle) : Nat := travelBaseOf cfg a.closeHist * cfg.blankFactor / 128

/-! ## Motions (R142, R143, R146) -/

/-- The state that moves toward a target (R142). -/
def movingLeaf : Target → Leaf
  | .toOpen => .opening
  | .toClosed => .closing

/-- The target stop is active and the other clear (R143, Completion). -/
def stopsAt (a : Aisle) : Target → Bool
  | .toOpen => a.inputs.openStop.filtered && !a.inputs.closedStop.filtered
  | .toClosed => a.inputs.closedStop.filtered && !a.inputs.openStop.filtered

/-- The drive enters OPEN or CLOSED: the motion record is absent, and CLOSED sets the reversal count to 0 (R142, R149). -/
def arrive (tgt : Target) (a : Aisle) : Aisle :=
  match tgt with
  | .toOpen => { a with leaf := .opened, motion := none }
  | .toClosed => { a with leaf := .closed, motion := none, reversals := 0 }

/-- The motion record a motion takes at its start (R146). -/
def newMotion (env : Env) (tgt : Target) (full : Bool) (a : Aisle) : Motion :=
  { start := env.now
    timeout := travelTimeoutOf env.cfg (travelHist a tgt)
    full := full
    blankEnd := match tgt with
      | .toOpen => none
      | .toClosed => some (env.now + blankWindowOf env.cfg a)
    blankTaken := false }

/-- A motion starts; one that finds its target stop active and the other clear completes at once, without a capture (R146). -/
def startMotion (env : Env) (tgt : Target) (full : Bool) (a : Aisle) : Aisle :=
  let a1 := { a with leaf := movingLeaf tgt, motion := some (newMotion env tgt full a) }
  if stopsAt a tgt then arrive tgt a1 else a1

/-- The travel histories with the time of a full motion captured (R147). -/
def captureTravel (env : Env) (tgt : Target) (a : Aisle) : Aisle :=
  match a.motion with
  | none => a
  | some m =>
    if m.full then
      let c := capInterval m.start env.now
      match tgt with
      | .toOpen => { a with openHist := keepNewest 4 (a.openHist ++ [c]) }
      | .toClosed => { a with closeHist := keepNewest 4 (a.closeHist ++ [c]) }
    else a

/-- A running motion completes (R143, R147). -/
def completeMotion (env : Env) (tgt : Target) (a : Aisle) : Aisle := arrive tgt (captureTravel env tgt a)

/-- The drive acts on the demand, the zone and the obstruction hold (R145). -/
def driveAct (env : Env) (a : Aisle) : Aisle :=
  match a.leaf with
  | .closed => if demandOpen a then startMotion env .toOpen true a else a
  | .opened => if !demandOpen a && zoneClear a && !a.obstructHold then startMotion env .toClosed true a else a
  | .closing => if demandOpen a then startMotion env .toOpen false a else a
  | .opening => a
  | .released => a

/-! ## Obstruction (R148, R149) -/

/-- The obstruction hold is set, its zone-clear timer running when the zone is clear (R149). -/
def setHold (env : Env) (a : Aisle) : Aisle :=
  if a.obstructHold then a
  else { a with obstructHold := true, zoneClearEnd := if zoneClear a then some (env.now + 1000) else none }

/-- An obstructed close is reversed: OPENING, not full, the reversal count up by 1, the hold set at 3 (R148, R149). -/
def obstruct (env : Env) (a : Aisle) : Aisle :=
  let a1 := startMotion env .toOpen false { a with reversals := min 3 (a.reversals + 1) }
  if 3 ≤ a.reversals + 1 then setHold env a1 else a1

/-- The leaf zone is watched: CLOSING after the blank window has ended (R148). -/
def zoneWatched (env : Env) (a : Aisle) : Bool :=
  a.leaf == .closing &&
    match a.motion with
    | some m => match m.blankEnd with
      | some e => decide (e ≤ env.now)
      | none => false
    | none => false

/-- A filtered change of L1 or L2, already taken, at the leaf drive (R148, R149). -/
def zoneChange (env : Env) (occupied : Bool) (a : Aisle) : Aisle :=
  let a1 :=
    if a.obstructHold then
      { a with zoneClearEnd := if occupied then none else if zoneClear a then some (env.now + 1000) else a.zoneClearEnd }
    else a
  if occupied && zoneWatched env a1 then obstruct env a1 else a1

/-! ## Withdrawal of credits (R128, R139) -/

/-- The end at which a passage in a direction begins (R139). -/
def startSide : Dir → Side
  | .ab => .a
  | .ba => .b

/-- The cause of a withdrawal as the exit zone carries it (R139). -/
inductive Cause where
  | holdExpired
  | emergency
  | lockout
deriving DecidableEq, Repr

def causeCode : Cause → Nat
  | .holdExpired => 1
  | .emergency => 2
  | .lockout => 3

/-- The UNUSED_PASSAGE alert of an entry granted at a time under a record number (R139). -/
def unusedAlert (env : Env) (cause : Cause) (dir : Dir) (serial recordNo grantedAt : Nat) : Content :=
  { kind := .unusedPassage, side := startSide dir, serial := serial, seqAfter := capInterval grantedAt env.now,
    exitZone := causeCode cause, detail := recordNo % 65536 }

/-- The UNUSED_PASSAGE alert of a GRANTED entry (R139). -/
def grantedAlert (env : Env) (cause : Cause) (c : Credit) : Option Content :=
  match c.state with
  | .granted no at_ _ => some (unusedAlert env cause c.dir c.serial no at_)
  | _ => none

/-- Every RESERVED entry is barred (R128). -/
def barCredit (c : Credit) : Credit :=
  match c.state with
  | .reserved _ => { c with state := .reserved true }
  | _ => c

/-- Every GRANTED entry is removed, oldest first, each with its UNUSED_PASSAGE alert (R151, R156). -/
def withdrawGranted (env : Env) (cause : Cause) (r : AisleRun) : AisleRun :=
  { ac := { r.ac with credits := r.ac.credits.filter (fun c => !c.isGranted) },
    alerts := r.alerts ++ r.ac.credits.filterMap (grantedAlert env cause) }

/-! ## Faults and lockout (R150, R151, R152) -/

/-- The target of the drive: that of the motion in progress, or the position held (R150, R152). -/
def leafTarget : Leaf → Option Target
  | .opening => some .toOpen
  | .opened => some .toOpen
  | .closing => some .toClosed
  | .closed => some .toClosed
  | .released => none

/-- The halt record of the aisle at a fault (R152). -/
def captureHalt (env : Env) (code : HaltCode) (a : Aisle) : HaltRecord :=
  { valid := true, code := some code, leaf := a.leaf, target := leafTarget a.leaf,
    reserved := a.credits.countP Credit.isReserved, granted := a.credits.countP Credit.isGranted,
    inAisle := a.credits.countP Credit.isInAisle, bodiesAB := a.bodiesAB, bodiesBA := a.bodiesBA,
    aOuter := a.inputs.aOuter.filtered, aInner := a.inputs.aInner.filtered, l1 := a.inputs.l1.filtered,
    l2 := a.inputs.l2.filtered, bInner := a.inputs.bInner.filtered, bOuter := a.inputs.bOuter.filtered,
    openStop := a.inputs.openStop.filtered, closedStop := a.inputs.closedStop.filtered,
    stamp := if env.tl.valid then minuteStamp env.tl else 0,
    second := if env.tl.valid then secondInMinute env.tl else 0,
    timeValid := env.tl.valid }

/-- The drive is RELEASED and the motion record, the reversal count, the obstruction hold and its timer are cleared
(R151, step 3). -/
def releaseDrive (a : Aisle) : Aisle :=
  { a with leaf := .released, motion := none, reversals := 0, obstructHold := false, zoneClearEnd := none }

/-- Entry into LOCKED_OUT, its effects in the order of R151. -/
def lockout (env : Env) (code : HaltCode) (r : AisleRun) : AisleRun :=
  let r1 := r.upd (fun a => releaseDrive { a with halt := captureHalt env code a, lockedOut := true })
  let r2 := r1.post { kind := .lockout, side := .none, detail := haltCodeNum (some code) }
  let r3 := r2.upd (fun a => { a with credits := a.credits.map barCredit })
  withdrawGranted env .lockout r3

/-- The halt code of a fault: DOUBLE_FAULT for a travel timeout, STOP_CONFLICT for a stop conflict (R152). -/
def faultHaltCode (conflict : Bool) : HaltCode := if conflict then .stopConflict else .doubleFault

/-- The LEAF_FAULT alert: the time from the start of the faulted motion, the target, the cause (R150). -/
def leafFaultAlert (env : Env) (conflict : Bool) (tgt : Target) (a : Aisle) : Content :=
  { kind := .leafFault, side := .none,
    seqAfter := match a.motion with
      | some m => capInterval m.start env.now
      | none => 0
    exitZone := targetCode (some tgt), detail := if conflict then 2 else 1 }

/-- A leaf fault: the first sets fault-in-progress, requests LEAF_FAULT and re-drives; a second locks the aisle out (R150). -/
def leafFault (env : Env) (conflict : Bool) (r : AisleRun) : AisleRun :=
  match leafTarget r.ac.leaf with
  | none => r
  | some tgt =>
    if r.ac.faultInProgress then lockout env (faultHaltCode conflict) r
    else
      (r.post (leafFaultAlert env conflict tgt r.ac)).upd
        (fun a => startMotion env tgt false { a with faultInProgress := true })

/-- A filtered change of an end stop, already taken, at the leaf drive: conflict, completion, or loss of the held stop (R143). -/
def stopChange (env : Env) (which : Target) (level : Bool) (r : AisleRun) : AisleRun :=
  match r.ac.leaf with
  | .released => r
  | leaf =>
    if r.ac.inputs.openStop.filtered && r.ac.inputs.closedStop.filtered then leafFault env true r
    else match leaf with
      | .opening => if stopsAt r.ac .toOpen then r.upd (completeMotion env .toOpen) else r
      | .closing => if stopsAt r.ac .toClosed then r.upd (completeMotion env .toClosed) else r
      | .opened => if which = .toOpen && !level then r.upd (startMotion env .toOpen false) else r
      | .closed => if which = .toClosed && !level then r.upd (startMotion env .toClosed false) else r
      | .released => r

end Sys2Proof.Machine
end

