-- ==== Sys2Proof/Machine/Crossings.lean ====
section
/-! DEFINITION. Beams, crossings, the Credit Queue, the flow history, the hold window and the emergency state
(R107 to R141, R153 to R159). Every event of the aisle ends in `settle`, which makes what R129, R132, R133, R136, R137, R145
and R122 say follows a change. -/

namespace Sys2Proof.Machine

/-! ## The nine inputs -/

def Inputs.line (x : Inputs) : Input → Line
  | .aOuter => x.aOuter
  | .aInner => x.aInner
  | .l1 => x.l1
  | .l2 => x.l2
  | .bInner => x.bInner
  | .bOuter => x.bOuter
  | .openStop => x.openStop
  | .closedStop => x.closedStop
  | .emerg => x.emerg

def Inputs.put (x : Inputs) (i : Input) (l : Line) : Inputs :=
  match i with
  | .aOuter => { x with aOuter := l }
  | .aInner => { x with aInner := l }
  | .l1 => { x with l1 := l }
  | .l2 => { x with l2 := l }
  | .bInner => { x with bInner := l }
  | .bOuter => { x with bOuter := l }
  | .openStop => { x with openStop := l }
  | .closedStop => { x with closedStop := l }
  | .emerg => { x with emerg := l }

/-- Every input line changed alike. -/
def Inputs.each (x : Inputs) (f : Line → Line) : Inputs :=
  { aOuter := f x.aOuter, aInner := f x.aInner, l1 := f x.l1, l2 := f x.l2, bInner := f x.bInner, bOuter := f x.bOuter,
    openStop := f x.openStop, closedStop := f x.closedStop, emerg := f x.emerg }

/-- A change of raw level: it cancels, starts or replaces the filter interval; during the settle interval it starts none
(R108, R109, R110). -/
def rawChange (env : Env) (i : Input) (level : Bool) (a : Aisle) : Aisle :=
  let l := a.inputs.line i
  if l.raw = level then a
  else
    let fe : Option Nat :=
      if a.settleEnd.isSome then l.filterEnd
      else if level = l.filtered then none
      else some (env.now + env.cfg.filterTime)
    { a with inputs := a.inputs.put i { raw := level, filtered := l.filtered, filterEnd := fe } }

/-! ## Credit Queue entries -/

/-- The first entry that a test picks is changed, or removed where the change gives none; the order is kept (R124). -/
def changeFirst (p : Credit → Bool) (f : Credit → Option Credit) : List Credit → List Credit
  | [] => []
  | c :: cs => if p c then (match f c with
      | some c' => c' :: cs
      | none => cs) else c :: changeFirst p f cs

/-- The newest entry that a test picks is changed or removed (R116). -/
def changeLast (p : Credit → Bool) (f : Credit → Option Credit) (cs : List Credit) : List Credit :=
  (changeFirst p f cs.reverse).reverse

/-- GRANTED of a direction. -/
def isGrantedDir (d : Dir) (c : Credit) : Bool := c.isGranted && c.dir == d

/-- IN_AISLE of a direction. -/
def isInAisleDir (d : Dir) (c : Credit) : Bool := c.isInAisle && c.dir == d

/-- RESERVED of a port (R126, R127). -/
def isReservedPort (p : Port) (c : Credit) : Bool := c.isReserved && c.port == p

/-- A claim: GRANTED becomes IN_AISLE at the present time (R114). -/
def claimCredit (now : Nat) (c : Credit) : Option Credit :=
  match c.state with
  | .granted no at_ _ => some { c with state := .inAisle no at_ now }
  | _ => some c

/-- A back-out's return: IN_AISLE becomes GRANTED, keeping its record number and time of grant (R116). -/
def returnCredit (c : Credit) : Option Credit :=
  match c.state with
  | .inAisle no at_ _ => some { c with state := .granted no at_ none }
  | _ => some c

/-- A commit's completion: a barred entry is removed, another becomes GRANTED (R127). -/
def grantEntry (now recordNo : Nat) (c : Credit) : Option Credit :=
  match c.state with
  | .reserved true => none
  | .reserved false => some { c with state := .granted recordNo now none }
  | _ => some c

/-- An IN_AISLE entry past the loiter limit at a time (R122). -/
def loitering (now limit : Nat) (c : Credit) : Bool :=
  match c.state with
  | .inAisle _ _ since => decide (limit * 1000 < now - since)
  | _ => false

/-- Some IN_AISLE entry is loitering (R122). -/
def anyLoitering (env : Env) (a : Aisle) : Bool := a.credits.any (loitering env.now env.cfg.loiterLimit)

/-! ## The flow history (R130 to R132) -/

/-- The flow history is cleared (R130). -/
def clearHistory (a : Aisle) : Aisle := { a with captures := [], histDir := none, lastAB := none, lastBA := none }

/-- The last completion time of a direction (R130). -/
def lastDone (a : Aisle) : Dir → Option Nat
  | .ab => a.lastAB
  | .ba => a.lastBA

/-- The last completion time of a direction becomes a time (R131, step 3). -/
def setLastDone (a : Aisle) (d : Dir) (t : Nat) : Aisle :=
  match d with
  | .ab => { a with lastAB := some t }
  | .ba => { a with lastBA := some t }

/-- A headway capture at a passage completion in direction d (R131, steps 1 to 3). -/
def headway (env : Env) (d : Dir) (a : Aisle) : Aisle :=
  let a1 :=
    match lastDone a d with
    | none => a
    | some t =>
      if a.histDir = some d.other then a
      else { a with captures := keepNewest env.cfg.avgDepth (a.captures ++ [capInterval t env.now]), histDir := some d }
  setLastDone a1 d env.now

/-- The history at a new current direction (R132). -/
def historyUpdate (a : Aisle) : Aisle :=
  match direction a with
  | none => a
  | some d =>
    match a.histDir with
    | none => { a with histDir := some d }
    | some h => if h = d then a else { clearHistory a with histDir := some d }

/-! ## The hold window (R134 to R137) -/

/-- The flow base (R134). -/
def flowBaseOf (env : Env) (a : Aisle) : Nat :=
  if a.captures = [] then env.cfg.flowBase else a.captures.sum / a.captures.length

/-- The hold of a window that starts now (R135). -/
def holdOf (env : Env) (a : Aisle) : Nat :=
  let h := flowBaseOf env a * env.cfg.holdFactor / 128
  if h < env.cfg.minHold then env.cfg.minHold else if env.cfg.maxHold < h then env.cfg.maxHold else h

/-- The entry with the window that should run for it: a running one is kept, a missing one starts (R136). -/
def withWindow (newEnd : Nat) (c : Credit) : Credit :=
  match c.state with
  | .granted no at_ none => { c with state := .granted no at_ (some newEnd) }
  | _ => c

/-- The entry without a window (R137). -/
def withoutWindow (c : Credit) : Credit :=
  match c.state with
  | .granted no at_ (some _) => { c with state := .granted no at_ none }
  | _ => c

/-- The window runs for the first entry that a test picks, the head, and for no other (R135 to R137). -/
def windowPass (head : Credit → Bool) (newEnd : Nat) : List Credit → List Credit
  | [] => []
  | c :: cs => if head c then withWindow newEnd c :: cs.map withoutWindow else withoutWindow c :: windowPass head newEnd cs

/-- The head test: GRANTED with the current aisle direction, while the leaves are OPEN (R135, R136). -/
def isHead (a : Aisle) (c : Credit) : Bool :=
  a.leaf == .opened && c.isGranted && (direction a == some c.dir)

/-- The window is compared with the head (R136, R137). -/
def windowUpdate (env : Env) (a : Aisle) : Aisle :=
  { a with credits := windowPass (isHead a) (env.now + holdOf env a) a.credits }

/-! ## What follows every event -/

/-- The idle timer starts when the aisle becomes idle and stops when it stops being idle (R133). -/
def idleUpdate (env : Env) (wasIdle : Bool) (a : Aisle) : Aisle :=
  if aisleIdle a then
    (if wasIdle then a else { a with idleEnd := some (env.now + env.cfg.idleClear * 1000) })
  else { a with idleEnd := none }

/-- LOITER is cleared when no IN_AISLE entry is loitering any longer (R122). -/
def loiterUpdate (env : Env) (a : Aisle) : Aisle := { a with loiter := a.loiter && anyLoitering env a }

/-- What follows a change of the queue, the counters, the demand or the drive, in the event that made it: the flow history
(R132), the drive (R145), the hold window (R136, R137), the idle timer (R133), LOITER (R122). -/
def settle (env : Env) (wasIdle : Bool) (a : Aisle) : Aisle :=
  loiterUpdate env (idleUpdate env wasIdle (windowUpdate env (driveAct env (historyUpdate a))))

/-- The event's aisle, settled against the aisle before the event. -/
def AisleRun.settled (r : AisleRun) (env : Env) (before : Aisle) : AisleRun := r.upd (settle env (aisleIdle before))

/-! ## Crossings (R111 to R120) -/

/-- A crossing at an end (R111). -/
inductive Crossing where
  | crossIn
  | crossOut
deriving DecidableEq, Repr

/-- The detector's table by the combination of outer and inner levels (R111). -/
def Detector.next (d : Detector) (outer inner : Bool) : Detector × Option Crossing :=
  match outer, inner with
  | true, false => match d with
    | .idle | .inO | .inOI | .inI => (.inO, none)
    | .outI | .outIO | .outO | .ambig => (.outO, none)
  | true, true => match d with
    | .idle | .ambig => (.ambig, none)
    | .inO | .inOI | .inI => (.inOI, none)
    | .outI | .outIO | .outO => (.outIO, none)
  | false, true => match d with
    | .idle | .outI | .outIO | .outO => (.outI, none)
    | .inO | .inOI | .inI | .ambig => (.inI, none)
  | false, false => match d with
    | .inOI | .inI => (.idle, some .crossIn)
    | .outIO | .outO => (.idle, some .crossOut)
    | .idle | .inO | .outI | .ambig => (.idle, none)

/-- The direction of a body that enters at an end, the ends named by their lane ports (R111). -/
def entryDir : Port → Dir
  | .a => .ab
  | .b => .ba

/-- The counter of a direction with a body more: it stays at 7 (R113). -/
def raiseBodies (d : Dir) (a : Aisle) : Aisle :=
  match d with
  | .ab => { a with bodiesAB := min Config.bodyCap (a.bodiesAB + 1) }
  | .ba => { a with bodiesBA := min Config.bodyCap (a.bodiesBA + 1) }

/-- The counter of a direction with a body less (R115, R116). -/
def lowerBodies (d : Dir) (a : Aisle) : Aisle :=
  match d with
  | .ab => { a with bodiesAB := a.bodiesAB - 1 }
  | .ba => { a with bodiesBA := a.bodiesBA - 1 }

/-- The violation of an unclaimed CROSS_IN by the direction that stood before it (R117). -/
def violationOf (d : Dir) (before : Option Dir) : Violation := if before = some d.other then .contraflow else .tailgate

/-- The alert of a violation: the end, the counter after the crossing and the direction before it (R119, R162). -/
def violationAlert (d : Dir) (before : Option Dir) (v : Violation) (a : Aisle) : Content :=
  { kind := match v with
      | .tailgate => .tailgate
      | .contraflow => .contraflow
    side := startSide d, detail := bodies a d * 256 + dirCode before }

/-- The alarm starts or restarts with the full alarm time (R120). -/
def startAlarm (env : Env) (v : Violation) (a : Aisle) : Aisle :=
  { a with alarmEnd := some (env.now + env.cfg.alarmTime * 1000), violation := some v }

/-- A CROSS_IN in direction d: the counter rises, the oldest GRANTED entry of the direction is claimed, or the crossing is
unclaimed and, outside emergency, a violation (R114, R117). -/
def crossIn (env : Env) (d : Dir) (r : AisleRun) : AisleRun :=
  let before := r.ac
  let r1 := r.upd (raiseBodies d)
  let r2 :=
    if before.credits.any (isGrantedDir d) then
      r1.upd (fun a => { a with credits := changeFirst (isGrantedDir d) (claimCredit env.now) a.credits })
    else if emergencyActive before then r1
    else
      let v := violationOf d (direction before)
      (r1.post (violationAlert d (direction before) v r1.ac)).upd (startAlarm env v)
  r2.settled env before

/-- The newest IN_AISLE entry of a direction. -/
def newestInAisle (d : Dir) (cs : List Credit) : Option Credit := cs.reverse.find? (isInAisleDir d)

/-- The UNUSED_PASSAGE alert of an IN_AISLE entry that a back-out removes under lockout (R116, R139). -/
def backOutAlert (env : Env) (c : Credit) : List Content :=
  match c.state with
  | .inAisle no at_ _ => [unusedAlert env .lockout c.dir c.serial no at_]
  | _ => []

/-- A back-out of a body travelling d (R116). -/
def backOut (env : Env) (d : Dir) (r : AisleRun) : AisleRun :=
  let r1 := r.upd (lowerBodies d)
  match newestInAisle d r.ac.credits with
  | none => r1
  | some c =>
    if r.ac.lockedOut then
      { ac := { r1.ac with credits := changeLast (isInAisleDir d) (fun _ => none) r1.ac.credits },
        alerts := r1.alerts ++ backOutAlert env c }
    else r1.upd (fun a => { a with credits := changeLast (isInAisleDir d) returnCredit a.credits })

/-- A departure of a body travelling d at the far end: the oldest IN_AISLE entry of d, if there is one, completes its
passage (R115, R131). -/
def depart (env : Env) (d : Dir) (a : Aisle) : Aisle :=
  let a1 := lowerBodies d a
  if a.credits.any (isInAisleDir d) then
    headway env d { a1 with credits := changeFirst (isInAisleDir d) (fun _ => none) a1.credits }
  else a1

/-- A CROSS_OUT at the far end of direction d: a departure, a back-out, or ignored (R115, R116). -/
def crossOut (env : Env) (d : Dir) (r : AisleRun) : AisleRun :=
  let before := r.ac
  if 0 < bodies r.ac d then (r.upd (depart env d)).settled env before
  else if 0 < bodies r.ac d.other then (backOut env d.other r).settled env before
  else r

/-- The detector of an end (R111). -/
def detectorOf (a : Aisle) : Port → Detector
  | .a => a.detA
  | .b => a.detB

/-- The detector of an end takes a state (R111). -/
def setDetector (a : Aisle) (e : Port) (d : Detector) : Aisle :=
  match e with
  | .a => { a with detA := d }
  | .b => { a with detB := d }

/-- The filtered levels of an end's outer and inner beams (R111). -/
def endLevels (a : Aisle) : Port → Bool × Bool
  | .a => (a.inputs.aOuter.filtered, a.inputs.aInner.filtered)
  | .b => (a.inputs.bOuter.filtered, a.inputs.bInner.filtered)

/-- An event at the detector of an end, and the crossing it reports (R111, R112). -/
def detectorEvent (env : Env) (e : Port) (r : AisleRun) : AisleRun :=
  let n := (detectorOf r.ac e).next (endLevels r.ac e).1 (endLevels r.ac e).2
  let r1 := r.upd (fun a => setDetector a e n.1)
  match n.2 with
  | none => r1
  | some .crossIn => crossIn env (entryDir e) r1
  | some .crossOut => crossOut env (entryDir e).other r1

/-! ## Emergency (R155 to R157) -/

/-- The emergency state becomes active (R156). -/
def emergencyBegin (env : Env) (before : Aisle) (r : AisleRun) : AisleRun :=
  let r1 := r.upd (fun a => { a with credits := a.credits.map barCredit })
  let r2 := withdrawGranted env .emergency r1
  let r3 := r2.upd (fun a => { a with credits := a.credits.filter (fun c => !c.isInAisle) })
  r3.settled env before

/-- The emergency state ends (R157). -/
def emergencyEnd (env : Env) (before : Aisle) (r : AisleRun) : AisleRun :=
  (r.upd (fun a => clearHistory { a with bodiesAB := 0, bodiesBA := 0 })).settled env before

/-- The passage between inactive and active that an event made (R155). -/
def emergencyEdge (env : Env) (before : Aisle) (r : AisleRun) : AisleRun :=
  if !emergencyActive before && emergencyActive r.ac then emergencyBegin env before r
  else if emergencyActive before && !emergencyActive r.ac then emergencyEnd env before r
  else r

/-! ## Filtered changes and the settle (R108, R110, R159) -/

/-- A filtered change, already taken, at the user of its input (R107, R143, R155). -/
def handFilteredChange (env : Env) (before : Aisle) (i : Input) (level : Bool) (r : AisleRun) : AisleRun :=
  match i with
  | .aOuter => detectorEvent env .a r
  | .aInner => detectorEvent env .a r
  | .bInner => detectorEvent env .b r
  | .bOuter => detectorEvent env .b r
  | .l1 => (r.upd (zoneChange env level)).settled env before
  | .l2 => (r.upd (zoneChange env level)).settled env before
  | .openStop => (stopChange env .toOpen level r).settled env before
  | .closedStop => (stopChange env .toClosed level r).settled env before
  | .emerg => emergencyEdge env before r

/-- The end of a filter interval: the filtered level takes the raw level and the change goes to its user (R108). -/
def endFilter (env : Env) (i : Input) (r : AisleRun) : AisleRun :=
  let l := r.ac.inputs.line i
  let r1 := r.upd (fun a => { a with inputs := a.inputs.put i { raw := l.raw, filtered := l.raw, filterEnd := none } })
  if l.raw = l.filtered then r1 else handFilteredChange env r.ac i l.raw r1

/-- The drive's first state at the settle's end (R159); where the home close is complete at its start see log 36. -/
def firstDrive (env : Env) (a : Aisle) : Aisle :=
  if a.lockedOut then a
  else if emergencyActive a then startMotion env .toOpen false a
  else startMotion env .toClosed false a

/-- The end of the settle interval: filtered levels take raw levels, the emergency state follows, each detector takes its
settle event, the drive takes its first state (R110, R143, R159). -/
def settleInputs (env : Env) (r : AisleRun) : AisleRun :=
  let before := r.ac
  let r1 := r.upd (fun a => { a with
    settleEnd := none
    inputs := a.inputs.each (fun l => { raw := l.raw, filtered := l.raw, filterEnd := none }) })
  let r2 := emergencyEdge env before r1
  let r3 := detectorEvent env .b (detectorEvent env .a r2)
  (r3.upd (firstDrive env)).settled env r3.ac

/-! ## Credits asked for, released and granted (R125 to R127) -/

/-- A reservation request: none when the queue holds 4 entries (R125). -/
def reserveCredit (env : Env) (serial : Nat) (d : Dir) (p : Port) (a : Aisle) : Option Aisle :=
  if a.credits.length < Config.creditCap then
    some (settle env (aisleIdle a)
      { a with credits := a.credits ++
          [{ state := .reserved (emergencyActive a || a.lockedOut), dir := d, serial := serial, port := p }] })
  else none

/-- The RESERVED entry of a port is removed (R126). -/
def releaseCredit (env : Env) (p : Port) (a : Aisle) : Aisle :=
  settle env (aisleIdle a) { a with credits := changeFirst (isReservedPort p) (fun _ => none) a.credits }

/-- The RESERVED entry of a port at its commit's completion (R127). -/
def grantCredit (env : Env) (p : Port) (recordNo : Nat) (a : Aisle) : Aisle :=
  settle env (aisleIdle a) { a with credits := changeFirst (isReservedPort p) (grantEntry env.now recordNo) a.credits }

/-! ## Timers of the aisle -/

/-- The end time of the hold window, if one runs (R136). -/
def holdEndOf (c : Credit) : Option Nat :=
  match c.state with
  | .granted _ _ e => e
  | _ => none

/-- The end of the hold window that runs. -/
def windowEnd (a : Aisle) : Option Nat := a.credits.findSome? holdEndOf

/-- The expiry of the hold window: its entry is removed with UNUSED_PASSAGE, cause HOLD_EXPIRED (R138). -/
def expireHold (env : Env) (r : AisleRun) : AisleRun :=
  match r.ac.credits.find? (fun c => (holdEndOf c).isSome) with
  | none => r
  | some c =>
    let r1 := r.upd (fun a => { a with credits := changeFirst (fun c => (holdEndOf c).isSome) (fun _ => none) a.credits })
    { (r1.settled env r.ac) with alerts := r.alerts ++ (grantedAlert env .holdExpired c).toList }

/-- The end of the blank window: the close is reversed if the zone is occupied (R148). -/
def endBlank (env : Env) (m : Motion) (a : Aisle) : Aisle :=
  let a1 := { a with motion := some { m with blankTaken := true } }
  settle env (aisleIdle a) (if a.leaf = .closing && !zoneClear a then obstruct env a1 else a1)

/-- The expiry of the zone-clear timer (R149). -/
def endZoneClear (env : Env) (a : Aisle) : Aisle :=
  settle env (aisleIdle a) { a with obstructHold := false, reversals := 0, zoneClearEnd := none }

/-- The first time at which an IN_AISLE entry is past the loiter limit (R122; DEDUCED, log 18). -/
def loiterTime (limit : Nat) (c : Credit) : Option Nat :=
  match c.state with
  | .inAisle _ _ since => some (since + limit * 1000 + 1)
  | _ => none

/-- The earliest such time of the queue. -/
def nextLoiter (env : Env) (a : Aisle) : Option Nat := (a.credits.filterMap (loiterTime env.cfg.loiterLimit)).min?

/-- The aisle under changed settings: the captures list is cut to the averaging depth and LOITER is tested against the
limit as it stands (R122, R140). -/
def reconfigureAisle (env : Env) (a : Aisle) : Aisle :=
  { a with captures := keepNewest env.cfg.avgDepth a.captures, loiter := anyLoitering env a }

/-- RESTORE's effects on a LOCKED_OUT aisle; during the settle interval the drive stays RELEASED (R154). That a re-home which
is complete at its start is CLOSED before the demand acts is DESIGN CHOICE, log 36. -/
def restoreAisle (env : Env) (a : Aisle) : Aisle :=
  let a1 := { a with lockedOut := false, faultInProgress := false, halt := { a.halt with valid := false },
                     reversals := 0, obstructHold := false, zoneClearEnd := none }
  settle env (aisleIdle a) (if a.settleEnd.isSome then a1 else startMotion env .toClosed false a1)

/-- The values of the Aisle Controller after a reset; `keep` keeps the station emergency flag, as LINE_RESET does
(R110, R113, R121, R122, R141, R147, R149, R155, R159). -/
def resetAisle (env : Env) (keep : Bool) (a : Aisle) : Aisle :=
  { inputs := a.inputs.each (fun l => { raw := l.raw, filtered := false, filterEnd := none })
    settleEnd := some (env.now + env.cfg.filterTime)
    detA := .idle, detB := .idle, bodiesAB := 0, bodiesBA := 0, alarmEnd := none, violation := none, loiter := false
    credits := [], captures := [], histDir := none, lastAB := none, lastBA := none
    idleEnd := some (env.now + env.cfg.idleClear * 1000)
    leaf := .released, motion := none, openHist := [], closeHist := [], reversals := 0, obstructHold := false
    zoneClearEnd := none, faultInProgress := a.faultInProgress, lockedOut := a.lockedOut, halt := a.halt
    stationEmergency := keep && a.stationEmergency }

end Sys2Proof.Machine
end

