-- ==== Sys2Proof/Machine/Journaling.lean ====
section
/-! DEFINITION. The Journal: records and their check, admission to the append queue, free slots and reservations, completion,
read-out and collection (R160 to R174). -/

namespace Sys2Proof.Machine

/-- Bytes 0 to 29 of a journal record, the bytes its check covers (R163, Journal record layout). -/
def recordBody (r : JRecord) : List Byte :=
  beBytes 4 r.number ++ [byteOf (kindCode r.content.kind),
      byteOf (flagByte [r.standalone, r.resumed, r.remote, r.forced])]
    ++ beBytes 2 r.day ++ beBytes 3 r.second ++ [byteOf (sideCode r.content.side)] ++ beBytes 4 r.content.serial
    ++ beBytes 2 r.content.seqAfter ++ beBytes 3 r.content.charge ++ be24 r.content.balance
    ++ beBytes 2 r.content.version ++ [byteOf (r.content.entryZone * 16 + r.content.exitZone), byteOf 0]
    ++ beBytes 2 r.content.detail

/-- The 32 bytes of a journal record (Journal record layout). -/
def recordBytes (r : JRecord) : List Byte := recordBody r ++ checkBytes r.check

/-- The check of a record's bytes (R163). -/
def recordCheck (r : JRecord) : Word16 := crc crcInit (recordBody r)

/-- The stored check agrees with the bytes (R168). -/
def recordGood (r : JRecord) : Bool := recordCheck r == r.check

/-- The queued unreserved appends (R164). -/
def unreservedCount (j : Journal) : Nat := j.queue.countP (fun a => a.commit.isNone)

/-- The free-slot count: the lesser of the capacity free and the numbering free (R165). -/
def freeSlots (j : Journal) : Nat :=
  min (Config.ringCap - j.held.length - j.queue.length - j.reserved) (Config.lastNumber - j.assigned - j.reserved)

/-- The flags a fare record may carry besides STANDALONE and FORCED (R162). -/
inductive FareFlag where
  | plain
  | resumed
  | remote
deriving DecidableEq, Repr

/-- The record an append takes at its admission: the next number, STANDALONE when the link mode is not LINKED, the service
time, FORCED while armed, and its check, inverted when forced (R161, R163, R172, R180). -/
def newRecord (t : TimeLink) (flag : FareFlag) (c : Content) (j : Journal) : JRecord :=
  let r : JRecord :=
    { number := j.assigned + 1, content := c, standalone := t.mode != .linked, resumed := flag == .resumed,
      remote := flag == .remote, forced := j.armed, day := if t.valid then t.day else 0,
      second := if t.valid then t.second else 0, check := 0 }
  { r with check := if j.armed then ~~~(recordCheck r) else recordCheck r }

/-- An append is admitted at the newest end of the queue (R161, R163, R172, R174). -/
def enqueue (t : TimeLink) (flag : FareFlag) (commit : Option Port) (c : Content) (j : Journal) : Journal :=
  { j with
    queue := j.queue ++ [{ record := newRecord t flag c j, commit := commit }]
    assigned := j.assigned + 1
    armed := false
    queueMark := j.queueMark || j.queue.isEmpty }

/-- An unreserved append has a queue place and a free slot (R164). -/
def unreservedFits (j : Journal) : Bool := decide (unreservedCount j < Config.unreservedCap) && decide (1 ≤ freeSlots j)

/-- An alert is admitted, or dropped with ALERTS_LOST (R164, R166). -/
def requestAlert (t : TimeLink) (c : Content) (j : Journal) : Journal :=
  if unreservedFits j then enqueue t .plain none c j else { j with alertsLost := true }

/-- Alerts one at a time in the order the event makes them (R164). -/
def requestAlerts (t : TimeLink) (cs : List Content) (j : Journal) : Journal :=
  cs.foldl (fun acc c => requestAlert t c acc) j

/-- A REMOTE_EVIDENCE fare append, admitted or refused to the Verdict Engine (R103, R164). -/
def requestRemote (t : TimeLink) (c : Content) (j : Journal) : Option Journal :=
  if unreservedFits j then some (enqueue t .remote none c j) else none

/-- A reserved fare append: always admitted, consuming the tap's reservation (R164). -/
def requestFare (t : TimeLink) (flag : FareFlag) (p : Port) (c : Content) (j : Journal) : Journal :=
  { enqueue t flag (some p) c j with reserved := j.reserved - 1 }

/-- A fare reservation: granted while the free-slot count before it is at least 33 (R165). -/
def reserveSlot (j : Journal) : Option Journal :=
  if Config.reserveNeed ≤ freeSlots j then some { j with reserved := j.reserved + 1 } else none

/-- A reservation is released (R165). -/
def releaseSlot (j : Journal) : Journal := { j with reserved := j.reserved - 1 }

/-- The oldest queued append completes: its record joins the held records, the durable number becomes its number, and the
queue mark is cleared with the last one (R163, R174). -/
def completeAppend (a : Append) (rest : List Append) (j : Journal) : Journal :=
  { j with
    held := j.held ++ [a.record]
    durable := a.record.number
    queue := rest
    queueMark := if rest.isEmpty then false else j.queueMark }

/-- A check failure at read-out (R169). -/
def takeFailure (j : Journal) (number : Nat) : Journal :=
  if !j.capture.valid then { j with suspect := true, capture := { valid := true, number := number, lost := false } }
  else if j.capture.number = number then j
  else { j with capture := { j.capture with lost := true } }

/-- The records a POLL delivers: the oldest held, up to 4 (R168). -/
def polled (j : Journal) : List JRecord := j.held.take 4

/-- The failures of a POLL, in ascending order (R168, R169). -/
def pollFailures (j : Journal) : Journal :=
  ((polled j).filter (fun r => !recordGood r)).foldl (fun acc r => takeFailure acc r.number) j

/-- The command data of a POLL reply: the count, the capture byte, the first failing number, and each record with its mark
(R168, command data layout). -/
def pollData (j : Journal) : List Byte :=
  [byteOf (polled j).length, byteOf (flagByte [j.capture.valid, j.capture.lost])] ++ beBytes 4 j.capture.number
    ++ (polled j).flatMap (fun r => byteOf (bitNat (!recordGood r)) :: recordBytes r)

/-- COLLECTED n: every held record numbered n or below leaves from the oldest end (R173). -/
def collect (n : Nat) (j : Journal) : Journal := { j with held := j.held.dropWhile (fun r => decide (r.number ≤ n)) }

/-- JOURNAL_CLEAR with no record held (R171). -/
def clearJournal (j : Journal) : Journal :=
  { j with suspect := false, capture := { valid := false, number := 0, lost := false } }

/-- The Journal after power-on (R161, R174). -/
def powerOnJournal (j : Journal) : Journal :=
  { j with assigned := j.durable, queue := [], reserved := 0, alertsLost := j.alertsLost || j.queueMark, armed := false,
           queueMark := false }

/-- The Journal after LINE_RESET (R161, R174). -/
def lineResetJournal (j : Journal) : Journal :=
  { j with assigned := j.durable, queue := [], reserved := 0, alertsLost := j.alertsLost || !j.queue.isEmpty,
           armed := false, queueMark := false }

end Sys2Proof.Machine
end

