-- ==== Sys2Proof/Machine/Operands.lean ====
section
/-! DEFINITION. The operand forms: the card image of a TAP (R1, R2, layout of 11) and the payloads of the station commands
(R193, layout of 11). -/

namespace Sys2Proof.Machine

/-! ## The card image -/

/-- The named fields of a card image (R1, R2), the must-be-zero positions among them (R3). -/
structure CardImage where
  serial       : Nat
  format       : Nat
  keyIndex     : Nat
  pass         : Bool
  cls          : Nat
  spareBit     : Bool
  seq          : Nat
  balance      : Int
  journeyIn    : Bool
  overdraft    : Bool
  exitRecorded : Bool
  unusedFlags  : Nat
  entryStation : Nat
  entryZone    : Nat
  entryDay     : Nat
  entryMinute  : Nat
  spareByte    : Nat
  exitDay      : Nat
  exitMinute   : Nat
  spendDay     : Nat
  daySpend     : Nat
  passExpiry   : Nat
  zoneLow      : Nat
  zoneHigh     : Nat
  check        : Word16
deriving DecidableEq, Repr

/-- The fields of the 32 bytes of a card image (layout table of 11). -/
def parseImage (bs : List Byte) : CardImage :=
  { serial := fieldAt bs 0 4
    format := fieldAt bs 4 1
    keyIndex := fieldAt bs 5 1 / 32
    pass := fieldAt bs 5 1 / 16 % 2 = 1
    cls := fieldAt bs 5 1 / 2 % 8
    spareBit := fieldAt bs 5 1 % 2 = 1
    seq := fieldAt bs 6 2
    balance := signed24 (fieldAt bs 8 3)
    journeyIn := fieldAt bs 11 1 % 2 = 1
    overdraft := fieldAt bs 11 1 / 2 % 2 = 1
    exitRecorded := fieldAt bs 11 1 / 4 % 2 = 1
    unusedFlags := fieldAt bs 11 1 / 8
    entryStation := fieldAt bs 12 2 / 16
    entryZone := fieldAt bs 12 2 % 16
    entryDay := fieldAt bs 14 2
    entryMinute := fieldAt bs 16 2
    spareByte := fieldAt bs 18 1
    exitDay := fieldAt bs 19 2
    exitMinute := fieldAt bs 21 2
    spendDay := fieldAt bs 23 2
    daySpend := fieldAt bs 25 2
    passExpiry := fieldAt bs 27 2
    zoneLow := fieldAt bs 29 1 % 16
    zoneHigh := fieldAt bs 29 1 / 16
    check := BitVec.ofNat 16 (fieldAt bs 30 2) }

/-- Bytes 0 to 29 of an image, the bytes its check word covers (R5). -/
def imageBody (c : CardImage) : List Byte :=
  beBytes 4 c.serial ++ beBytes 1 c.format
    ++ beBytes 1 (c.keyIndex * 32 + bitNat c.pass * 16 + c.cls * 2 + bitNat c.spareBit)
    ++ beBytes 2 c.seq ++ be24 c.balance
    ++ beBytes 1 (c.unusedFlags * 8 + bitNat c.exitRecorded * 4 + bitNat c.overdraft * 2 + bitNat c.journeyIn)
    ++ beBytes 2 (c.entryStation * 16 + c.entryZone) ++ beBytes 2 c.entryDay ++ beBytes 2 c.entryMinute
    ++ beBytes 1 c.spareByte ++ beBytes 2 c.exitDay ++ beBytes 2 c.exitMinute ++ beBytes 2 c.spendDay
    ++ beBytes 2 c.daySpend ++ beBytes 2 c.passExpiry ++ beBytes 1 (c.zoneHigh * 16 + c.zoneLow)

/-- The 32 bytes of an image (layout table of 11). -/
def imageBytes (c : CardImage) : List Byte := imageBody c ++ checkBytes c.check

/-- The check word of an image's bytes under a key word: over bytes 0 to 29 (R5). -/
def checkWord (key : Word16) (bs : List Byte) : Word16 := crc key (bs.take 30)

/-- Serials 0 and 4,294,967,295 are invalid (00_scope.md, Serials and cards; R1). -/
def serialValid (n : Nat) : Bool := n != 0 && n != 4294967295

/-- The reason detail of the first condition of R3's table that holds, or none for a well-formed image:
SERIAL 1, FORMAT 2, SPARE 3, MINUTE 4, ZONES 5. -/
def formDetail (c : CardImage) : Option Nat :=
  if !serialValid c.serial then some 1
  else if c.format ≠ 1 then some 2
  else if c.spareBit || c.unusedFlags ≠ 0 || c.spareByte ≠ 0 then some 3
  else if (c.journeyIn && c.entryMinute > 1439) || (c.exitRecorded && c.exitMinute > 1439) then some 4
  else if c.pass && c.zoneLow > c.zoneHigh then some 5
  else none

/-! ## Station payloads -/

/-- A list in chunks of k, each whole; used on payloads whose length is a multiple of k. -/
def chunks (k : Nat) : Nat → List Byte → List (List Byte)
  | 0, _ => []
  | n + 1, bs => bs.take k :: chunks k n (bs.drop k)

/-- One sighting (R31, layout of SIGHTING). -/
structure Sighting where
  serial : Nat
  seq    : Nat
  check  : Word16
  origin : Nat
  day    : Nat
  minute : Nat
  second : Nat
deriving DecidableEq, Repr

/-- The 15 bytes of a sighting; bits 15 to 12 of its origin are ignored (layout of SIGHTING). -/
def parseSighting (bs : List Byte) : Sighting :=
  { serial := fieldAt bs 0 4, seq := fieldAt bs 4 2, check := BitVec.ofNat 16 (fieldAt bs 6 2),
    origin := fieldAt bs 8 2 % 4096, day := fieldAt bs 10 2, minute := fieldAt bs 12 2, second := fieldAt bs 14 1 }

/-- The sightings of a SIGHTING payload; none where its length does not fit (R31, R193). -/
def parseSightings (bs : List Byte) : Option (List Sighting) :=
  if bs.length % 15 = 0 ∧ bs ≠ [] then some ((chunks 15 (bs.length / 15) bs).map parseSighting) else none

/-- A deny pair: serial and reason; bits 7 to 4 of the reason byte are ignored (layout of DENY_BASE_ADD). -/
def parsePair (bs : List Byte) : Nat × Nat := (fieldAt bs 0 4, fieldAt bs 4 1 % 16)

/-- The pairs of a DENY_BASE_ADD payload: 1 to 16 (R20, R193). -/
def parsePairs (bs : List Byte) : Option (List (Nat × Nat)) :=
  if bs.length % 5 = 0 ∧ bs ≠ [] ∧ bs.length / 5 ≤ 16 then some ((chunks 5 (bs.length / 5) bs).map parsePair) else none

/-- A DENY_DELTA payload (R22). -/
structure Delta where
  fromV   : Nat
  toV     : Nat
  removes : List Nat
  adds    : List (Nat × Nat)
deriving DecidableEq, Repr

/-- The delta of a DENY_DELTA payload: up to 8 removes and 8 adds, the length matching the counts (R22, R193). -/
def parseDelta (bs : List Byte) : Option Delta :=
  let r := fieldAt bs 4 1
  let a := fieldAt bs 5 1
  if 6 ≤ bs.length ∧ r ≤ 8 ∧ a ≤ 8 ∧ bs.length = 6 + 4 * r + 5 * a then
    some { fromV := fieldAt bs 0 2, toV := fieldAt bs 2 2,
           removes := (chunks 4 r (bs.drop 6)).map beNat,
           adds := (chunks 5 a (bs.drop (6 + 4 * r))).map parsePair }
  else none

/-- A TARIFF_DATA payload (R42). -/
structure TariffData where
  section_ : Nat
  first    : Nat
  values   : List Nat
deriving DecidableEq, Repr

/-- The section, first position and 1 to 40 values of a TARIFF_DATA payload (R42, R193). -/
def parseTariffData (bs : List Byte) : Option TariffData :=
  if 4 ≤ bs.length ∧ bs.length % 2 = 0 ∧ bs.length ≤ 82 then
    some { section_ := fieldAt bs 0 1, first := fieldAt bs 1 1,
           values := (chunks 2 ((bs.length - 2) / 2) (bs.drop 2)).map beNat }
  else none

/-- The items of a CONFIGURE payload, each an item code and a value (R193, R194). -/
def parseItems (bs : List Byte) : Option (List (Nat × Nat)) :=
  if bs.length % 3 = 0 then
    some ((chunks 3 (bs.length / 3) bs).map (fun c => (fieldAt c 0 1, fieldAt c 1 2)))
  else none

/-- The key state that a KEY_LOAD byte names: 0 ABSENT, 1 ACTIVE, 2 RETIRED (layout of KEY_LOAD). -/
def parseKeyState (n : Nat) : Option KeyState :=
  if n = 0 then some .absent else if n = 1 then some .active else if n = 2 then some .retired else none

end Sys2Proof.Machine
end

