-- ==== Sys2Proof/Machine/Screens.lean ====
section
/-! DEFINITION. The Screening Unit: the card key table, the deny list, the seen table, clone findings (R7 to R35). -/

namespace Sys2Proof.Machine

/-! ## The card key table -/

/-- The result of a KEY_LOAD that is refused (R11): RANGE 2, KEY_IN_USE 3; none when it is accepted. -/
def keyLoadRefusal (su : Screening) (signing : Nat) (index state : Nat) (word : Word16) : Option Nat :=
  match parseKeyState state with
  | none => some 2
  | some st =>
    if 7 < index then some 2
    else if index = signing ∧ st ≠ .active then some 3
    else if index = signing ∧ (su.keys[index]?.map (·.state)) = some .active
        ∧ (su.keys[index]?.map (·.word)) ≠ some word then some 3
    else none

/-- The entry a KEY_LOAD leaves: ABSENT has the word 0000h (R10). -/
def loadedKey (st : KeyState) (word : Word16) : KeyEntry :=
  { state := st, word := if st = .absent then 0 else word }

/-- The key table with one entry loaded (R10). -/
def loadKey (su : Screening) (index : Nat) (st : KeyState) (word : Word16) : Screening :=
  { su with keys := su.keys.set index (loadedKey st word) }

/-- The key state list of a KEY_LOAD reply (R12, command data layout). -/
def keyStateList (su : Screening) (cfg : Settings) : List Byte :=
  su.keys.map (fun k => byteOf (keyStateCode k.state))
    ++ [byteOf cfg.signingKey, byteOf (bitNat (signingPresent su cfg))]

/-- The key entry an image names, when it is not ABSENT (R6). -/
def usableKey (su : Screening) (index : Nat) : Option Word16 :=
  match su.keys[index]? with
  | some k => if k.state = .absent then none else some k.word
  | none => none

/-! ## The deny list -/

/-- LOCAL (R15). -/
def DenyEntry.isLocal (e : DenyEntry) : Bool :=
  match e.source with
  | .localEntry _ => true
  | .station _ => false

/-- A STATION entry with its stale mark set (R15). -/
def DenyEntry.isStale (e : DenyEntry) : Bool :=
  match e.source with
  | .station st => st
  | .localEntry _ => false

/-- The local count (R17). -/
def localCount (es : List DenyEntry) : Nat := es.countP DenyEntry.isLocal

/-- The entry of a serial (R18). -/
def denyLookup (es : List DenyEntry) (serial : Nat) : Option DenyEntry := es.find? (fun e => e.serial == serial)

/-- A LOCAL entry above a number that left moves down by one (R17). -/
def moveDown (order : Nat) (e : DenyEntry) : DenyEntry :=
  match e.source with
  | .localEntry n => if order < n then { e with source := .localEntry (n - 1) } else e
  | .station _ => e

/-- The local age order closes up after an entry has left it (R17). -/
def closeUp (gone : DenyEntry) (es : List DenyEntry) : List DenyEntry :=
  match gone.source with
  | .localEntry n => es.map (moveDown n)
  | .station _ => es

/-- The entry of a serial leaves the list (R17, R23). -/
def denyRemove (serial : Nat) (es : List DenyEntry) : List DenyEntry :=
  match denyLookup es serial with
  | none => es
  | some e => closeUp e (es.filter (fun x => x.serial != serial))

/-- An entry at its place in serial order (R15). -/
def denyInsert (e : DenyEntry) : List DenyEntry → List DenyEntry
  | [] => [e]
  | x :: xs => if e.serial < x.serial then e :: x :: xs else x :: denyInsert e xs

/-- A present entry becomes STATION with the reason and a clear stale mark; one that was LOCAL leaves the local age order
(R17, R20). -/
def denyConfirm (old : DenyEntry) (reason : Nat) (es : List DenyEntry) : List DenyEntry :=
  (closeUp old es).map (fun x =>
    if x.serial = old.serial then { x with reason := reason, source := .station false } else x)

/-- One pair of a DENY_BASE_ADD or of a delta's adds (R20, R23). -/
def denyAddPair (d : DenyList) (pr : Nat × Nat) : DenyList :=
  if !serialValid pr.1 then d
  else match denyLookup d.entries pr.1 with
    | some e => { d with entries := denyConfirm e pr.2 d.entries }
    | none =>
      if d.entries.length < Config.denyCap then
        { d with entries := denyInsert { serial := pr.1, reason := pr.2, source := .station false } d.entries }
      else { d with full := true }

/-- The stale mark of every STATION entry is set (R19). -/
def markStale (e : DenyEntry) : DenyEntry :=
  match e.source with
  | .station _ => { e with source := .station true }
  | .localEntry _ => e

/-- Every stale mark is cleared (R26). -/
def clearStale (e : DenyEntry) : DenyEntry :=
  match e.source with
  | .station _ => { e with source := .station false }
  | .localEntry _ => e

/-- DENY_BASE_BEGIN (R19). -/
def denyBegin (version : Nat) (d : DenyList) : DenyList :=
  { d with entries := d.entries.map markStale, loading := true, pending := version, full := false }

/-- DENY_BASE_ADD: ignored in IDLE (R20). -/
def denyAdd (prs : List (Nat × Nat)) (d : DenyList) : DenyList := if d.loading then prs.foldl denyAddPair d else d

/-- DENY_BASE_END: ignored in IDLE (R21). -/
def denyEnd (d : DenyList) : DenyList :=
  if d.loading then
    { d with entries := d.entries.filter (fun e => !e.isStale), version := d.pending, loading := false, mismatch := false }
  else d

/-- DENY_DELTA: removes, then adds, then the version; or VERSION_MISMATCH (R22, R23). -/
def denyDelta (dl : Delta) (d : DenyList) : DenyList :=
  if !d.loading && dl.fromV == d.version then
    { (dl.adds.foldl denyAddPair { d with entries := dl.removes.foldl (fun es s => denyRemove s es) d.entries })
      with version := dl.toV }
  else { d with mismatch := true }

/-- The listing outcomes of a local addition (R24). -/
inductive Listing where
  | listed
  | alreadyListed
  | notListed
deriving DecidableEq, Repr

/-- The listing outcome's number in the order of R25 (R162). -/
def listingCode : Listing → Nat
  | .listed => 1
  | .alreadyListed => 2
  | .notListed => 3

/-- The oldest LOCAL entry leaves when the local count is 64 (R24, step 2). -/
def evictOldestLocal (es : List DenyEntry) : List DenyEntry :=
  if localCount es = Config.localCap then
    match es.find? (fun e => e.source == .localEntry 1) with
    | some e => denyRemove e.serial es
    | none => es
  else es

/-- The local addition of a clone finding (R24). -/
def denyListLocally (serial : Nat) (es : List DenyEntry) : List DenyEntry × Listing :=
  match denyLookup es serial with
  | some _ => (es, .alreadyListed)
  | none =>
    let es1 := evictOldestLocal es
    if es1.length < Config.denyCap then
      (denyInsert { serial := serial, reason := 15, source := .localEntry (localCount es1 + 1) } es1, .listed)
    else (es1, .notListed)

/-- The deny list at a reset: an interrupted load is ended (R26). -/
def denyAfterReset (d : DenyList) : DenyList :=
  if d.loading then { d with entries := d.entries.map clearStale, loading := false } else d

/-! ## The seen table -/

/-- The entry of a serial (R27). -/
def seenLookup (t : List SeenEntry) (serial : Nat) : Option SeenEntry := t.find? (fun e => e.serial == serial)

/-- The entry, its fields as given, at the most recent end; the entry of its serial before is replaced (R28). -/
def seenTouch (e : SeenEntry) (t : List SeenEntry) : List SeenEntry := t.filter (fun x => x.serial != e.serial) ++ [e]

/-- An entry is written: replaced and touched when its serial is present, else inserted, the least recently touched entry
being removed first when the table holds 512 (R28, R30, R32). -/
def seenWrite (e : SeenEntry) (t : List SeenEntry) : List SeenEntry :=
  match seenLookup t e.serial with
  | some _ => seenTouch e t
  | none => if Config.seenCap ≤ t.length then t.drop 1 ++ [e] else t ++ [e]

/-- One commit stamp is later than another (R27). -/
def stampLater (stamp1 sec1 stamp2 sec2 : Nat) : Bool :=
  decide (stamp2 < stamp1) || (stamp1 == stamp2 && decide (sec2 < sec1))

/-- Clone kinds (R29). -/
inductive CloneKind where
  | rollback
  | divergent
deriving DecidableEq, Repr

/-- The clone kind's number in the order of R78 (R162). -/
def cloneCode : CloneKind → Nat
  | .rollback => 1
  | .divergent => 2

/-- The judgement of the clone stage against a present entry (R29). -/
def cloneFinding (e : SeenEntry) (seq : Nat) (check : Word16) : Option CloneKind :=
  if seq < e.seq then some .rollback
  else if seq = e.seq ∧ check ≠ e.check then some .divergent
  else none

/-! ## Clone findings and sightings -/

/-- The CLONE_ALERT of a finding (R25, R162). -/
def cloneAlert (side : Side) (serial seq : Nat) (balance : Int) (station : Nat) (k : CloneKind) (l : Listing) : Content :=
  { kind := .cloneAlert, side := side, serial := serial, seqAfter := seq, balance := balance, version := station,
    detail := cloneCode k * 256 + listingCode l }

/-- The serial of a finding is listed locally (R24). -/
def listLocally (serial : Nat) (su : Screening) : Screening × Listing :=
  let r := denyListLocally serial su.deny.entries
  ({ su with deny := { su.deny with entries := r.1 } }, r.2)

/-- The service minute stamp of a sighting (R31). -/
def Sighting.stamp (g : Sighting) : Nat := g.day * 1440 + g.minute

/-- A sighting that is skipped (R31). -/
def Sighting.skipped (g : Sighting) : Bool := !serialValid g.serial || decide (1439 < g.minute) || decide (59 < g.second)

/-- The seen table entry a sighting gives (R32). -/
def Sighting.entry (g : Sighting) : SeenEntry :=
  { serial := g.serial, seq := g.seq, check := g.check, stamp := g.stamp, second := g.second }

/-- The finding of a sighting against a present entry (R32). -/
def sightingFinding (g : Sighting) (e : SeenEntry) : Option CloneKind :=
  if g.seq = e.seq ∧ g.check ≠ e.check then some .divergent
  else if g.seq < e.seq ∧ stampLater g.stamp g.second e.stamp e.second then some .rollback
  else none

/-- The seen table after a sighting (R32). -/
def sightingSeen (g : Sighting) (t : List SeenEntry) : List SeenEntry :=
  match seenLookup t g.serial with
  | none => seenWrite g.entry t
  | some e =>
    if e.seq < g.seq then seenWrite g.entry t
    else if g.seq < e.seq && !stampLater g.stamp g.second e.stamp e.second then t
    else seenTouch e t

/-- One sighting merged: the seen table, the local addition and the CLONE_ALERT of a finding (R32, R33). -/
def mergeSighting (g : Sighting) (su : Screening) : Screening × List Content :=
  let su1 := { su with seen := sightingSeen g su.seen }
  match (seenLookup su.seen g.serial).bind (sightingFinding g) with
  | none => (su1, [])
  | some k =>
    let r := listLocally g.serial su1
    (r.1, [cloneAlert .station g.serial g.seq 0 g.origin k r.2])

end Sys2Proof.Machine
end

