-- ==== Sys2Proof/Machine/Settings.lean ====
section
/-! DEFINITION. The CONFIGURE items: their codes, ranges and limiting (R194). -/

namespace Sys2Proof.Machine

/-- The range of an item by its code (R194). -/
def itemRange : Nat → Nat × Nat
  | 1 => (1, 62)
  | 2 => (0, 4095)
  | 3 => (0, 15)
  | 4 => (0, 7)
  | 5 => (4, 32)
  | 6 => (1, 8)
  | 7 => (500, 20000)
  | 8 => (1, 255)
  | 9 => (500, 30000)
  | 10 => (500, 30000)
  | 11 => (1, 60)
  | 12 => (0, 128)
  | 13 => (200, 2000)
  | 14 => (1, 10)
  | 15 => (500, 5000)
  | 16 => (10, 600)
  | 17 => (3, 30)
  | 18 => (5, 255)
  | 19 => (1, 1440)
  | _ => (0, 65535)

/-- A value taken as the nearest bound of a range (R194). -/
def clampTo (r : Nat × Nat) (v : Nat) : Nat := if v < r.1 then r.1 else if v > r.2 then r.2 else v

/-- The value an item takes: the nearest bound, and for the filter time and the averaging depth the next allowed value
above one between two allowed values (R194). -/
def clampItem (code v : Nat) : Nat :=
  if code = 5 then (if v ≤ 4 then 4 else if v ≤ 8 then 8 else if v ≤ 16 then 16 else 32)
  else if code = 6 then (if v ≤ 1 then 1 else if v ≤ 2 then 2 else if v ≤ 4 then 4 else 8)
  else clampTo (itemRange code) v

/-- The settings with one item changed (R194). -/
def putItem (c : Settings) (code v : Nat) : Settings :=
  match code with
  | 1 => { c with unitAddress := v }
  | 2 => { c with stationNumber := v }
  | 3 => { c with stationZone := v }
  | 4 => { c with signingKey := v }
  | 5 => { c with filterTime := v }
  | 6 => { c with avgDepth := v }
  | 7 => { c with flowBase := v }
  | 8 => { c with holdFactor := v }
  | 9 => { c with minHold := v }
  | 10 => { c with maxHold := v }
  | 11 => { c with idleClear := v }
  | 12 => { c with blankFactor := v }
  | 13 => { c with travelBase := v }
  | 14 => { c with alarmTime := v }
  | 15 => { c with confirmLimit := v }
  | 16 => { c with tornWindow := v }
  | 17 => { c with loiterLimit := v }
  | 18 => { c with linkWatch := v }
  | 19 => { c with standaloneLimit := v }
  | _ => c

/-- The values of the 19 items in code order (R194). -/
def itemValues (c : Settings) : List Nat :=
  [c.unitAddress, c.stationNumber, c.stationZone, c.signingKey, c.filterTime, c.avgDepth, c.flowBase, c.holdFactor,
   c.minHold, c.maxHold, c.idleClear, c.blankFactor, c.travelBase, c.alarmTime, c.confirmLimit, c.tornWindow,
   c.loiterLimit, c.linkWatch, c.standaloneLimit]

/-- An item the frame may carry: a code of 1..19, and for the identity items (codes 1 to 4) a value in range, the signing
key index naming an ACTIVE entry (R13, R194). -/
def itemAllowed (keys : List KeyEntry) (it : Nat × Nat) : Bool :=
  if it.1 = 0 ∨ 19 < it.1 then false
  else if 4 < it.1 then true
  else decide ((itemRange it.1).1 ≤ it.2 ∧ it.2 ≤ (itemRange it.1).2)
    && (it.1 != 4 || (keys[it.2]?.map (·.state) == some .active))

/-- The settings after the items, each limited and applied in frame order (R194). -/
def applyItems (c : Settings) (items : List (Nat × Nat)) : Settings :=
  items.foldl (fun acc it => putItem acc it.1 (clampItem it.1 it.2)) c

/-- Whether any value of the items is limited (R194). -/
def anyClamped (items : List (Nat × Nat)) : Bool := items.any (fun it => clampItem it.1 it.2 != it.2)

end Sys2Proof.Machine
end

