-- ==== Sys2Proof/Machine/Tariff.lean ====
section
/-! DEFINITION. The Fare Unit: the tariff banks, their loading and activation (R36 to R48), and the fare computation stage by
stage (R49 to R63). -/

namespace Sys2Proof.Machine

/-! ## Contents of a bank (R36, R37) -/

/-- The size of a section (R37). -/
def sectionSize : Nat → Nat
  | 0 => 256
  | 1 => 17
  | 2 => 16
  | 3 => 16
  | 4 => 9
  | _ => 0

/-- Where a section begins among the 314 positions (R37). -/
def sectionStart : Nat → Nat
  | 0 => 0
  | 1 => 256
  | 2 => 273
  | 3 => 289
  | _ => 305

/-- The value at a position of a section. -/
def Bank.value (b : Bank) (sec pos : Nat) : Nat := b.contents.getD (sectionStart sec + pos) 0

def Bank.matrix (b : Bank) (z1 z2 : Nat) : Nat := b.value 0 (z1 * 16 + z2)
def Bank.bandCount (b : Bank) : Nat := b.value 1 0
def Bank.bandStart (b : Bank) (k : Nat) : Nat := b.value 1 (1 + 2 * k)
def Bank.bandFactor (b : Bank) (k : Nat) : Nat := b.value 1 (2 + 2 * k)
def Bank.weight (b : Bank) (cls : Nat) : Nat := b.value 2 cls
def Bank.dailyCap (b : Bank) (cls : Nat) : Nat := b.value 2 (8 + cls)
def Bank.penalty (b : Bank) (z : Nat) : Nat := b.value 3 z
def Bank.transferWindow (b : Bank) : Nat := b.value 4 0
def Bank.transferCredit (b : Bank) : Nat := b.value 4 1
def Bank.fareStep (b : Bank) : Nat := b.value 4 2
def Bank.overdraftLimit (b : Bank) : Nat := b.value 4 3
def Bank.entryMinimum (b : Bank) : Nat := b.value 4 4
def Bank.unclosedCharge (b : Bank) : Nat := b.value 4 5
def Bank.passback (b : Bank) : Nat := b.value 4 6
def Bank.maxJourney (b : Bank) : Nat := b.value 4 7
def Bank.overtimeCharge (b : Bank) : Nat := b.value 4 8

/-- The range of the content at a position (R36, R37). -/
def positionRange (sec pos : Nat) : Nat × Nat :=
  match sec with
  | 0 => (0, 65535)
  | 1 => if pos = 0 then (1, 8) else if pos % 2 = 1 then (0, 1439) else (0, 255)
  | 2 => if pos < 8 then (0, 256) else (0, 65535)
  | 3 => (0, 65535)
  | _ =>
    if pos = 0 then (0, 255)
    else if pos = 2 then (1, 250)
    else if pos = 6 then (0, 255)
    else if pos = 7 then (1, 1440)
    else (0, 65535)

/-- A value limited to the range of its position (R42). -/
def limitValue (sec pos v : Nat) : Nat :=
  let r := positionRange sec pos
  if v < r.1 then r.1 else if r.2 < v then r.2 else v

/-- Values written from a position of a section on, each limited (R42). -/
def writeValues (sec : Nat) : Nat → List Nat → List Nat → List Nat
  | _, [], contents => contents
  | pos, v :: vs, contents =>
    writeValues sec (pos + 1) vs (contents.set (sectionStart sec + pos) (limitValue sec pos v))

/-- The bank check: over the 314 positions in order, two bytes each (R37). -/
def bankCheck (b : Bank) : Word16 := crc crcInit (b.contents.flatMap (beBytes 2))

/-! ## The banks (R38, R39) -/

/-- The two banks by number. -/
def FareUnit.bank (f : FareUnit) (one : Bool) : Bank := if one then f.bank1 else f.bank0

/-- One bank changed. -/
def FareUnit.setBank (f : FareUnit) (one : Bool) (b : Bank) : FareUnit :=
  if one then { f with bank1 := b } else { f with bank0 := b }

/-- The bank in a state, bank 0 first; true names bank 1. -/
def FareUnit.bankIn (f : FareUnit) (st : BankState) : Option Bool :=
  if f.bank0.state = st then some false else if f.bank1.state = st then some true else none

/-- The ACTIVE bank (R38). -/
def FareUnit.activeBank (f : FareUnit) : Option Bank := (f.bankIn .active).map f.bank

/-- The version of the ACTIVE bank, or 0 when none is (R48, R77). -/
def FareUnit.activeVersion (f : FareUnit) : Nat := (f.activeBank.map (·.version)).getD 0

/-- The load target of a TARIFF_BEGIN (R39). -/
def FareUnit.loadTarget (f : FareUnit) : Bool :=
  match f.bankIn .active with
  | some one => !one
  | none => ((f.bankIn .loading).orElse (fun _ => f.bankIn .ready)).getD false

/-- A bank in EMPTY: contents, version and effective day are zero (R38, R43). -/
def clearedBank : Bank := { state := .empty, version := 0, effDay := 0, contents := List.replicate 314 0 }

/-- TARIFF_BEGIN with a version other than 0 (R40). -/
def tariffBegin (version day : Nat) (f : FareUnit) : FareUnit :=
  { f.setBank f.loadTarget { state := .loading, version := version, effDay := day, contents := List.replicate 314 0 }
    with reject := .none }

/-- TARIFF_DATA (R42). -/
def tariffData (td : TariffData) (f : FareUnit) : FareUnit :=
  match f.bankIn .loading with
  | none => f
  | some one =>
    if 4 < td.section_ ∨ td.values = [] ∨ 40 < td.values.length
        ∨ sectionSize td.section_ < td.first + td.values.length then f
    else
      let b := f.bank one
      f.setBank one { b with contents := writeValues td.section_ td.first td.values b.contents }

/-- The start minutes of the bands in use rise strictly: bands k and k + 1 for each k + 1 in use (R43). -/
def bandsRise (b : Bank) : Bool :=
  (List.range (b.bandCount - 1)).all (fun k => decide (b.bandStart k < b.bandStart (k + 1)))

/-- The outcome of TARIFF_END's validation: NONE when every test passes (R43). -/
def validateBank (check : Word16) (b : Bank) : Reject :=
  if bankCheck b ≠ check then .check
  else if b.bandCount = 0 ∨ b.bandStart 0 ≠ 0 ∨ !bandsRise b then .bands
  else if b.fareStep = 0 then .step
  else .none

/-- TARIFF_END, and whether it made a bank READY (R43). -/
def tariffEnd (check : Word16) (f : FareUnit) : FareUnit × Bool :=
  match f.bankIn .loading with
  | none => (f, false)
  | some one =>
    match validateBank check (f.bank one) with
    | .none => (f.setBank one { f.bank one with state := .ready }, true)
    | why => ({ f.setBank one clearedBank with reject := why }, false)

/-- The alert of an activation (R47). -/
def activationAlert (version old : Nat) : Content :=
  { kind := .tariffActivated, side := .none, version := version, detail := old }

/-- The ACTIVE bank becomes RETIRED (R45). -/
def retireBank (b : Bank) : Bank := if b.state = .active then { b with state := .retired } else b

/-- The activation test on the banks as they stand (R45, R47). -/
def activationTest (t : TimeLink) (f : FareUnit) : FareUnit × List Content :=
  match f.bankIn .ready with
  | none => (f, [])
  | some one =>
    if t.valid && decide ((f.bank one).effDay ≤ t.day) then
      (({ f with bank0 := retireBank f.bank0, bank1 := retireBank f.bank1 }).setBank one
          { f.bank one with state := .active },
        [activationAlert (f.bank one).version f.activeVersion])
    else (f, [])

/-- A bank at a reset: LOADING becomes EMPTY (R38). -/
def bankAfterReset (b : Bank) : Bank := if b.state = .loading then clearedBank else b

/-! ## The fare computation -/

/-- What the fare stage reads (R49): the bank T, the service day D and minute M, the station number and zone. -/
structure FareEnv where
  bank    : Bank
  day     : Nat
  minute  : Nat
  station : Nat
  zone    : Nat

/-- How a fare computation ends (R49): a refusal with its code, detail, charge and balance, or the charge, balance, record
kind, zones and the new image before it is signed. -/
inductive FareOutcome where
  | refused (code : VCode) (detail : Nat) (charge : Nat) (balance : Int)
  | done (kind : RecKind) (charge : Nat) (balance : Int) (entryZone exitZone : Nat) (image : CardImage)
deriving DecidableEq, Repr

/-- The service minute stamp of a day and minute. -/
def stampOf (day minute : Nat) : Nat := day * 1440 + minute

/-- The age of the card's entry: 0 when negative (R50, R54). -/
def entryAge (e : FareEnv) (c : CardImage) : Nat := stampOf e.day e.minute - stampOf c.entryDay c.entryMinute

/-- A zone within the pass zones low to high (R51, R54). -/
def inPassZones (c : CardImage) (z : Nat) : Bool := decide (c.zoneLow ≤ z) && decide (z ≤ c.zoneHigh)

/-- The new image of an accepted entry, before signing (R52). -/
def entryImage (e : FareEnv) (c : CardImage) (u : Nat) : CardImage :=
  { c with seq := c.seq + 1, balance := c.balance - u, journeyIn := true, entryStation := e.station, entryZone := e.zone,
           entryDay := e.day, entryMinute := e.minute }

/-- The unclosed charge U of an entry (R50). -/
def unclosedOf (e : FareEnv) (c : CardImage) : Nat := if c.journeyIn then e.bank.unclosedCharge else 0

/-- The least balance an entry needs after U (R51). -/
def entryNeed (e : FareEnv) (c : CardImage) : Nat :=
  if c.pass && inPassZones c e.zone then 0 else e.bank.entryMinimum

/-- The entry computation (R50 to R52). -/
def entryFare (e : FareEnv) (c : CardImage) : FareOutcome :=
  if c.pass ∧ c.passExpiry < e.day then .refused .passExpired 0 0 c.balance
  else if c.journeyIn ∧ c.entryStation = e.station ∧ entryAge e c ≤ e.bank.passback then
    .refused .passback (entryAge e c) 0 c.balance
  else if c.balance - unclosedOf e c < entryNeed e c then
    .refused .insufficient 1 (unclosedOf e c) (c.balance - unclosedOf e c)
  else
    .done .entry (unclosedOf e c) (c.balance - unclosedOf e c) e.zone 0 (entryImage e c (unclosedOf e c))

/-- The band of an entry minute: the last band in use whose start is not after it (R55). -/
def bandOf (b : Bank) (minute : Nat) : Nat :=
  (List.range b.bandCount).foldl (fun acc k => if b.bandStart k ≤ minute then k else acc) 0

/-- The banded fare (R55). -/
def bandedFare (b : Bank) (minute base : Nat) : Nat :=
  min 65535 ((base * b.bandFactor (bandOf b minute) + 32) / 64)

/-- The concession fare (R56). -/
def concessionFare (b : Bank) (cls banded : Nat) : Nat := (banded * b.weight cls + 128) / 256

/-- The transfer fare (R57). -/
def transferFare (b : Bank) (c : CardImage) (x : Nat) : Nat :=
  let entry := stampOf c.entryDay c.entryMinute
  let exit := stampOf c.exitDay c.exitMinute
  if c.exitRecorded ∧ exit ≤ entry ∧ entry - exit ≤ b.transferWindow then x - b.transferCredit else x

/-- The stepped fare (R58). -/
def steppedFare (s x : Nat) : Nat :=
  let r := (x + s / 2) / s * s
  if 65535 < r then 65535 / s * s else r

/-- The spent amount of the day (R59). -/
def spentToday (day : Nat) (c : CardImage) : Nat := if c.spendDay = day then c.daySpend else 0

/-- The capped fare (R59). -/
def cappedFare (cap spent r : Nat) : Nat := if cap = 0 then r else min r (cap - spent)

/-- The journey is covered by the pass (R54). -/
def covered (e : FareEnv) (c : CardImage) : Bool :=
  c.pass && decide (e.day ≤ c.passExpiry) && inPassZones c c.entryZone && inPassZones c e.zone

/-- The capped fare of a journey that no pass covers: base, band, concession, transfer, step and cap (R54 to R59). -/
def journeyFare (e : FareEnv) (c : CardImage) : Nat :=
  let base := e.bank.matrix c.entryZone e.zone
  let banded := bandedFare e.bank c.entryMinute base
  let conc := concessionFare e.bank c.cls banded
  let trans := transferFare e.bank c conc
  let step := steppedFare e.bank.fareStep trans
  cappedFare (e.bank.dailyCap c.cls) (spentToday e.day c) step

/-- The overtime stage (R60). -/
def withOvertime (e : FareEnv) (c : CardImage) (capped : Nat) : Nat :=
  if e.bank.maxJourney < entryAge e c then capped + e.bank.overtimeCharge else capped

/-- What both exit paths set in the new image (R62). -/
def exitImage (e : FareEnv) (c : CardImage) (nb : Int) (overdraft : Bool) : CardImage :=
  { c with seq := c.seq + 1, balance := nb, journeyIn := false, exitRecorded := true, exitDay := e.day,
           exitMinute := e.minute, overdraft := overdraft }

/-- The balance stage of an exit with its charge, zones, and the image whose spend fields are set (R61). -/
def balanceStage (e : FareEnv) (c : CardImage) (charge z1 z2 : Nat) (spend : CardImage → CardImage) : FareOutcome :=
  let nb : Int := c.balance - charge
  if 0 ≤ nb then .done .exit charge nb z1 z2 (spend (exitImage e c nb c.overdraft))
  else if c.overdraft then .refused .insufficient 2 charge nb
  else if nb < -(e.bank.overdraftLimit : Int) then .refused .insufficient 3 charge nb
  else .done .exit charge nb z1 z2 (spend (exitImage e c nb true))

/-- The spend fields after a journey charged by R59. -/
def spendFields (day : Nat) (spent capped : Nat) (c : CardImage) : CardImage :=
  { c with spendDay := day, daySpend := min 65535 (spent + capped) }

/-- The exit computation (R53 to R62). -/
def exitFare (e : FareEnv) (c : CardImage) : FareOutcome :=
  if !c.journeyIn then balanceStage e c (e.bank.penalty e.zone) 0 e.zone id
  else if covered e c then balanceStage e c (withOvertime e c 0) c.entryZone e.zone id
  else
    let capped := journeyFare e c
    balanceStage e c (withOvertime e c capped) c.entryZone e.zone
      (spendFields e.day (spentToday e.day c) capped)

/-- The new image of a free exit, before signing (R63). -/
def freeExitImage (day minute : Nat) (c : CardImage) : CardImage :=
  { c with seq := c.seq + 1, journeyIn := false, exitRecorded := true, exitDay := day, exitMinute := minute }

/-- The image signed: the signing key index in place, then the check word over the finished image (R4, R9). -/
def signImage (su : Screening) (signing : Nat) (c : CardImage) : CardImage :=
  let c1 := { c with keyIndex := signing }
  { c1 with check := crc ((su.keys[signing]?.map (·.word)).getD 0) (imageBody c1) }

end Sys2Proof.Machine
end

