-- ==== Sys2Proof/Machine/Ops.lean ====
section
/-! DEFINITION. The operations that reach over the blocks: time, alerts, the aisle's events, activation, torn records,
commit and abandon, lane replies and station replies. -/

namespace Sys2Proof.Machine

/-! ## Time and the blocks' surroundings -/

/-- What the Aisle Controller reads from the other blocks. -/
def State.env (s : State) : Env := { now := s.now, cfg := s.cfg, tl := s.tl }

/-- The time base has reached a time (log 2). -/
def reach (t : Nat) (s : State) : State := { s with now := max s.now t }

/-- One port changed. -/
def State.setPort (s : State) (p : Port) (l : LanePort) : State :=
  match p with
  | .a => { s with portA := l }
  | .b => { s with portB := l }

/-- Alerts requested from the Journal, one at a time in order (R164). -/
def postAlerts (cs : List Content) (s : State) : State := { s with jn := requestAlerts s.tl cs s.jn }

/-- An event of the Aisle Controller, then the alerts it requested. -/
def withAisle (f : Env → AisleRun → AisleRun) (s : State) : State :=
  let r := f s.env { ac := s.ac, alerts := [] }
  postAlerts r.alerts { s with ac := r.ac }

/-- An event of the Aisle Controller that requests no alert. -/
def withAisleOnly (f : Env → Aisle → Aisle) (s : State) : State := { s with ac := f s.env s.ac }

/-! ## The activation test (R45 to R47) -/

/-- The activation test made now, with its alert (R45, R47). -/
def runActivation (s : State) : State :=
  let r := activationTest s.tl s.fu
  postAlerts r.2 { s with fu := r.1 }

/-- An activation test falls due: made at once, or held until the end of the evaluation in progress (R46). -/
def dueActivation (s : State) : State :=
  if s.ve.eval.isSome then { s with fu := { s.fu with heldTest := true } } else runActivation s

/-- The held activation test is made, where one is held and no evaluation is in progress (R46). -/
def heldActivation (s : State) : State :=
  if s.fu.heldTest && s.ve.eval.isNone then runActivation { s with fu := { s.fu with heldTest := false } } else s

/-! ## The Torn-Write Table (R94 to R106) -/

/-- The window remaining of an UNRESOLVED record. -/
def TornRecord.window (r : TornRecord) : Option Nat :=
  match r.state with
  | .unresolved w => some w
  | .pending _ => none

/-- PENDING and held by a port. -/
def TornRecord.pendingAt (r : TornRecord) (p : Port) : Bool :=
  match r.state with
  | .pending h => h == p
  | .unresolved _ => false

/-- The UNRESOLVED record of a serial (R99, R102). -/
def unresolvedOf (t : List TornRecord) (serial : Nat) : Option TornRecord :=
  t.find? (fun r => r.serial == serial && r.window.isSome)

/-- The record PENDING at a port (R87, R101). -/
def pendingOf (t : List TornRecord) (p : Port) : Option TornRecord := t.find? (fun r => r.pendingAt p)

/-- The records of a serial are removed. -/
def tornDrop (serial : Nat) (t : List TornRecord) : List TornRecord := t.filter (fun r => r.serial != serial)

/-- The record PENDING at a port is removed (R98). -/
def tornDropPort (p : Port) (t : List TornRecord) : List TornRecord := t.filter (fun r => !r.pendingAt p)

/-- The record PENDING at a port becomes UNRESOLVED with the configured torn window, in its place (R98). -/
def tornUnresolve (window : Nat) (p : Port) (t : List TornRecord) : List TornRecord :=
  t.map (fun r => if r.pendingAt p then { r with state := .unresolved window } else r)

/-- Every PENDING record becomes UNRESOLVED at a reset (R106). -/
def tornAfterReset (window : Nat) (t : List TornRecord) : List TornRecord :=
  t.map (fun r => match r.state with
    | .pending _ => { r with state := .unresolved window }
    | .unresolved _ => r)

/-- The serial held by the evaluation in progress (R99, R105). -/
def heldSerial (v : VerdictEngine) : Option Nat := v.eval.bind (·.held)

/-- Details of TORN_UNRESOLVED, numbered in the order of R104 (R162). -/
inductive TornWhy where
  | expired
  | evicted
  | other
  | conflict
deriving DecidableEq, Repr

def tornWhyCode : TornWhy → Nat
  | .expired => 1
  | .evicted => 2
  | .other => 3
  | .conflict => 4

/-- The content of a torn record in the Journal: the fields of R101, R103 and R104. -/
def tornContent (r : TornRecord) (kind : RecKind) (detail : Nat) : Content :=
  { kind := kind, side := portSide r.origin, serial := r.serial, seqAfter := r.newSeq, charge := r.charge,
    balance := r.balance, version := r.version, entryZone := r.entryZone, exitZone := r.exitZone, detail := detail }

/-- The TORN_UNRESOLVED alert of a record (R104). -/
def tornAlert (r : TornRecord) (why : TornWhy) : Content := tornContent r .tornUnresolved (tornWhyCode why)

/-- The table of the Verdict Engine changed. -/
def State.setTorn (s : State) (t : List TornRecord) : State := { s with ve := { s.ve with torn := t } }

/-- A record removed with its TORN_UNRESOLVED alert (R104). -/
def tornReport (r : TornRecord) (why : TornWhy) (s : State) : State :=
  postAlerts [tornAlert r why] (s.setTorn (tornDrop r.serial s.ve.torn))

/-- The record of a serial expires when it is UNRESOLVED with no window remaining (R105). -/
def expireIfDue (serial : Nat) (s : State) : State :=
  match unresolvedOf s.ve.torn serial with
  | some r => if r.window = some 0 then tornReport r .expired s else s
  | none => s

/-- The record to evict: the oldest UNRESOLVED that no evaluation holds (R97). -/
def evictable (v : VerdictEngine) : Option TornRecord :=
  v.torn.find? (fun r => r.window.isSome && heldSerial v != some r.serial)

/-- A record joins the table at the newest end, the oldest free UNRESOLVED record being evicted from a full table (R97). -/
def tornCreate (r : TornRecord) (s : State) : State :=
  let s1 :=
    if Config.tornCap ≤ s.ve.torn.length then
      match evictable s.ve with
      | some old => tornReport old .evicted s
      | none => s
    else s
  s1.setTorn (s1.ve.torn ++ [r])

/-- One second of the service clock for every UNRESOLVED record's window (R105, R176). -/
def tornTick (r : TornRecord) : TornRecord :=
  match r.state with
  | .unresolved w => { r with state := .unresolved (w - 1) }
  | .pending _ => r

/-- A sighting at the Torn-Write Table (R102, R103). -/
def tornSighting (g : Sighting) (s : State) : State :=
  match unresolvedOf s.ve.torn g.serial with
  | none => s
  | some r =>
    if r.newSeq < g.seq ∨ (g.seq = r.newSeq ∧ g.check = r.newCheck) then
      match requestRemote s.tl (tornContent r r.kind g.origin) s.jn with
      | some j => { s.setTorn (tornDrop r.serial s.ve.torn) with jn := j }
      | none => s
    else if g.seq = r.newSeq then tornReport r .conflict s
    else s

/-- One sighting of a frame: skipped, or merged and handed to the Verdict Engine (R31; the order of the two is log 17). -/
def takeSighting (g : Sighting) (s : State) : State :=
  if g.skipped then s
  else
    let m := mergeSighting g s.su
    tornSighting g (postAlerts m.2 { s with su := m.1 })

/-! ## Abandon and commit (R84, R86, R87) -/

/-- What becomes of the torn record at an abandon (R84). -/
inductive TornFate where
  | remove
  | keep
deriving DecidableEq, Repr

/-- The port after its transaction has ended: tap slot empty, confirm timer stopped, IDLE (R84). -/
def LanePort.ended (l : LanePort) : LanePort := { l with tap := .idle, slot := none, confirmEnd := none }

/-- An abandon of the port's transaction (R84). -/
def abandon (p : Port) (fate : TornFate) (s : State) : State :=
  let s1 := withAisleOnly (fun env a => releaseCredit env p a) s
  let s2 := { s1 with jn := releaseSlot s1.jn }
  let s3 := s2.setTorn (match fate with
    | .remove => tornDropPort p s2.ve.torn
    | .keep => tornUnresolve s2.cfg.tornWindow p s2.ve.torn)
  let s4 := { s3 with ve := { s3.ve with inFlight := s3.ve.inFlight.filter (fun m => m.2 != p) } }
  s4.setPort p (s4.port p).ended

/-- The fare record of an accepted tap (R86). -/
def fareContent (p : Port) (slot : TapSlot) (v : Verdict) : Content :=
  { kind := v.kind.getD .entry, side := portSide p, serial := (parseImage slot.image).serial,
    seqAfter := ((v.image.map parseImage).map (·.seq)).getD 0, charge := v.charge, balance := v.balance,
    version := v.version, entryZone := v.entryZone, exitZone := v.exitZone, detail := 0 }

/-- The serial, new sequence and new check word that a commit at a port confirms: of the image written, or of the torn
record that a RESUMED tap holds (R30). -/
def committed (p : Port) (s : State) : Option (Nat × Nat × Word16) :=
  match (s.port p).slot with
  | none => none
  | some slot =>
    match slot.verdict.bind (·.image) with
    | some bs => some ((parseImage slot.image).serial, (parseImage bs).seq, (parseImage bs).check)
    | none => (pendingOf s.ve.torn p).map (fun r => (r.serial, r.newSeq, r.newCheck))

/-- The seen table write of a commit's completion (R30). -/
def seenCommit (p : Port) (s : State) : State :=
  match committed p s with
  | none => s
  | some (serial, seq, check) =>
    let e : SeenEntry :=
      { serial := serial, seq := seq, check := check, stamp := minuteStamp s.tl, second := secondInMinute s.tl }
    { s with su := { s.su with seen := seenWrite e s.su.seen } }

/-- The port at its commit's completion: IDLE, or VERDICT_READY with a RESUMED verdict (R87). -/
def commitPort (l : LanePort) : LanePort :=
  if (l.slot.bind (·.verdict)).map (·.code) = some .resumed then { l with tap := .verdictReady }
  else { l with tap := .idle, slot := none }

/-- The completion of a commit at a port under the number of its fare record (R87). -/
def completeCommit (p : Port) (recordNo : Nat) (s : State) : State :=
  let s1 := withAisleOnly (fun env a => grantCredit env p recordNo a) s
  let s2 := seenCommit p s1
  let s3 := s2.setTorn (tornDropPort p s2.ve.torn)
  let s4 := { s3 with ve := { s3.ve with inFlight := s3.ve.inFlight.filter (fun m => m.2 != p) } }
  s4.setPort p (commitPort (s4.port p))

/-! ## Lane replies (R185) -/

/-- A reply as the port shifts it out: length, payload, check (R185). -/
def laneReply (payload : List Byte) : List Byte :=
  let b := byteOf payload.length :: payload
  b ++ checkBytes (crc crcInit b)

/-- The port with a last result and nothing to shift out: a non-read command's end (R185, R186). -/
def LanePort.answered (l : LanePort) (r : LastResult) : LanePort := { l with last := r, shiftOut := [] }

/-- A frame discarded at a port: FRAME_ERROR, and 00h for the rest of the selection (R185). -/
def discardFrame (p : Port) (s : State) : State :=
  s.setPort p { s.port p with frameError := true, shiftOut := [] }

/-- A lane frame: one whose length exceeds 40 is discarded (R185). -/
def laneFrame (p : Port) (payload : List Byte) (act : State → State) (s : State) : State :=
  if 40 < payload.length then discardFrame p s else act s

/-- A non-read command that is refused or answered with a last result and has no other effect. -/
def laneAnswer (p : Port) (r : LastResult) (s : State) : State := s.setPort p ((s.port p).answered r)

/-- A non-read command whose row gives it no payload (R186). -/
def laneBare (p : Port) (payload : List Byte) (act : State → State) (s : State) : State :=
  laneFrame p payload (fun s => if payload = [] then act s else laneAnswer p .refused s) s

/-! ## Station replies (R190, R192) -/

/-- A reply frame: start marker, address, command, length, payload, check (R190). -/
def replyFrame (addr code : Byte) (payload : List Byte) : List Byte :=
  let b := addr :: code :: byteOf payload.length :: payload
  0xA5#8 :: b ++ checkBytes (crc crcInit b)

/-- Result codes of the station line (R192). -/
inductive Result where
  | ok
  | clamped
  | range
  | keyInUse
  | refused
  | notEmpty
deriving DecidableEq, Repr

def resultCode : Result → Nat
  | .ok => 0
  | .clamped => 1
  | .range => 2
  | .keyInUse => 3
  | .refused => 4
  | .notEmpty => 5

/-- The reply is formed, with the summary as it stands, and begins; forming it clears OVERRUN (R190, R191, R192). -/
def sendReply (f : Frame) (r : Result) (data : List Byte) (s : State) : State :=
  { s with sl := { s.sl with
      tx := some { bytes := replyFrame f.addr f.code (byteOf (resultCode r) :: summaryBytes s ++ data), resets := false }
      overrun := false } }

/-- The codes sent as broadcast (R192). -/
def isBroadcast (code : Byte) : Bool := decide (0x20 ≤ code.toNat ∧ code.toNat ≤ 0x29)

/-- The frame's address is this unit's (R190). -/
def toUnit (f : Frame) (s : State) : Bool := f.addr.toNat == s.cfg.unitAddress && f.addr.toNat != 0

/-- The frame is accepted by its address: broadcast commands at address 0, every command at this unit's (R190). That an
undefined code at address 0 is not accepted is DESIGN CHOICE, log 37. -/
def acceptedFrame (f : Frame) (s : State) : Bool := toUnit f s || (f.addr == 0 && isBroadcast f.code)

/-- The commands that wait for the end of an evaluation: screening-table frames and CONFIGURE (R34, R13). -/
def waitsForEvaluation (code : Byte) : Bool :=
  code == 0x21 || code == 0x23 || code == 0x24 || code == 0x25 || code == 0x26 || code == 0x42 || code == 0x43

/-- A broadcast command's end: answered OK when it was sent to this unit's address; an accepted frame has that address or 0
(R190). -/
def broadcastEnd (f : Frame) (s : State) : State := if f.addr = 0 then s else sendReply f .ok [] s

/-- An addressed command of a fixed payload length: RANGE where it does not fit (R193). -/
def fixedLength (f : Frame) (n : Nat) (act : State → State) (s : State) : State :=
  if f.payload.length = n then act s else sendReply f .range [] s

/-! ## The waitable frames (R31, R19 to R23, R10 to R13, R194) -/

/-- The deny list changed. -/
def withDeny (g : DenyList → DenyList) (s : State) : State := { s with su := { s.su with deny := g s.su.deny } }

/-- SIGHTING (R31). -/
def applySighting (f : Frame) (s : State) : State :=
  broadcastEnd f (match parseSightings f.payload with
    | some gs => gs.foldl (fun acc g => takeSighting g acc) s
    | none => s)

/-- DENY_BASE_BEGIN (R19). -/
def applyDenyBegin (f : Frame) (s : State) : State :=
  broadcastEnd f (if f.payload.length = 2 then withDeny (denyBegin (beNat f.payload)) s else s)

/-- DENY_BASE_ADD (R20). -/
def applyDenyAdd (f : Frame) (s : State) : State :=
  broadcastEnd f (match parsePairs f.payload with
    | some prs => withDeny (denyAdd prs) s
    | none => s)

/-- DENY_BASE_END (R21). -/
def applyDenyEnd (f : Frame) (s : State) : State :=
  broadcastEnd f (if f.payload = [] then withDeny denyEnd s else s)

/-- DENY_DELTA (R22, R23). -/
def applyDenyDelta (f : Frame) (s : State) : State :=
  broadcastEnd f (match parseDelta f.payload with
    | some dl => withDeny (denyDelta dl) s
    | none => s)

/-- The reply to a KEY_LOAD, with the key state list as it stands (R12). -/
def keyReply (f : Frame) (r : Result) (s : State) : State := sendReply f r (keyStateList s.su s.cfg) s

/-- The result code that a refusal number of R11 stands for. -/
def refusalResult (n : Nat) : Result := if n = 3 then .keyInUse else .range

/-- KEY_LOAD (R10 to R12). -/
def applyKeyLoad (f : Frame) (s : State) : State :=
  if f.payload = [] then keyReply f .ok s
  else if f.payload.length ≠ 4 then keyReply f .range s
  else
    let index := fieldAt f.payload 0 1
    let state := fieldAt f.payload 1 1
    let word : Word16 := BitVec.ofNat 16 (fieldAt f.payload 2 2)
    match keyLoadRefusal s.su s.cfg.signingKey index state word, parseKeyState state with
    | none, some st => keyReply f .ok { s with su := loadKey s.su index st word }
    | some n, _ => keyReply f (refusalResult n) s
    | none, none => keyReply f .range s

/-- The values of all 19 items as they stand (R194). -/
def settingsData (c : Settings) : List Byte := (itemValues c).flatMap (beBytes 2)

/-- The reply to a CONFIGURE (R194). -/
def configureReply (f : Frame) (r : Result) (s : State) : State := sendReply f r (settingsData s.cfg) s

/-- The items of a frame are refused whole (R194). -/
def itemsRefused (s : State) (items : List (Nat × Nat)) : Bool :=
  !decide (items.length ≤ 32) || items.any (fun it => !itemAllowed s.su.keys it)
    || decide ((applyItems s.cfg items).maxHold < (applyItems s.cfg items).minHold)

/-- The settings take new values, and the aisle what follows at once (R122, R140). -/
def changeSettings (c : Settings) (s : State) : State := withAisleOnly reconfigureAisle { s with cfg := c }

/-- CONFIGURE (R13, R194). -/
def applyConfigure (f : Frame) (s : State) : State :=
  if f.payload = [] then configureReply f .ok s
  else match parseItems f.payload with
    | none => configureReply f .range s
    | some items =>
      if itemsRefused s items then configureReply f .range s
      else configureReply f (if anyClamped items then .clamped else .ok)
        (changeSettings (applyItems s.cfg items) s)

/-- A frame that waited is applied by its command (R34, R35). -/
def applyByCode (f : Frame) (s : State) : State :=
  if f.code = 0x21 then applySighting f s
  else if f.code = 0x23 then applyDenyBegin f s
  else if f.code = 0x24 then applyDenyAdd f s
  else if f.code = 0x25 then applyDenyEnd f s
  else if f.code = 0x26 then applyDenyDelta f s
  else if f.code = 0x42 then applyKeyLoad f s
  else if f.code = 0x43 then applyConfigure f s
  else s

/-- The waiting frame leaves the slot and is applied, where one waits and no evaluation is in progress (R34, R35). -/
def applyWaiting (s : State) : State :=
  match s.sl.slot with
  | none => s
  | some f => if s.ve.eval.isSome then s else applyByCode f { s with sl := { s.sl with slot := none } }

/-- What waits for the end of an evaluation is made: the waiting frame, then the held activation test (R34, R46, R67). -/
def waitingWork (s : State) : State := heldActivation (applyWaiting s)

/-- A frame or an activation test waits for the end of an evaluation (R34, R46). -/
def workWaits (s : State) : Bool := s.sl.slot.isSome || s.fu.heldTest

/-- A frame that completes once the evaluation has ended, behind a frame or a test that waits for that end: these are made
first, which empties the slot, and the new one is then taken; where both frames are answered the second reply follows the
first (R46, R191; logs 34 and 39). -/
def afterWaiting (apply : State → State) (s : State) : State :=
  let s1 := waitingWork s
  match s1.sl.tx with
  | none => apply s1
  | some first =>
    let s2 := apply { s1 with sl := { s1.sl with tx := none } }
    { s2 with sl := { s2.sl with tx := some first, next := s2.sl.tx } }

/-- A complete station frame with a good check: lost while a reply is sent; ignored by address; while an evaluation is in
progress discarded with OVERRUN on a full slot, and kept in the slot where it has to wait; else applied, after a frame and a
test that still wait (R34, R46, R190, R191; logs 10, 16, 19, 34, 39). -/
def stationFrame (f : Frame) (apply : State → State) (s : State) : State :=
  if s.sl.tx.isSome then s
  else if !acceptedFrame f s || decide (96 < f.payload.length) then s
  else if s.ve.eval.isSome then
    if s.sl.slot.isSome then { s with sl := { s.sl with overrun := true } }
    else if waitsForEvaluation f.code then { s with sl := { s.sl with slot := some f } }
    else apply s
  else if workWaits s then afterWaiting apply s
  else apply s

end Sys2Proof.Machine
end

