-- ==== Sys2Proof/Machine/Addressed.lean ====
section
/-! DEFINITION. The addressed station commands (R192): each is answered with one reply, its result code, the status summary
as it stands after the command, and its data (R190). -/

namespace Sys2Proof.Machine

/-- POLL: the check failures are taken, the reply reports ALERTS_LOST as it stood, and the flag is cleared (R166, R168). -/
def takePoll (f : Frame) (s : State) : State :=
  let s1 := { s with jn := pollFailures s.jn }
  let s2 := sendReply f .ok (pollData s1.jn) s1
  { s2 with jn := { s2.jn with alertsLost := false } }

def execPoll (addr : Byte) (payload : List Byte) (s : State) : Host.Outcome State Fault Refusal :=
  let f : Frame := { addr := addr, code := 0x40, payload := payload }
  .next (stationFrame f (fixedLength f 0 (takePoll f)) s)

/-- COLLECTED (R173). -/
def takeCollected (f : Frame) (s : State) : State :=
  sendReply f .ok [] { s with jn := collect (beNat f.payload) s.jn }

def execCollected (addr : Byte) (payload : List Byte) (s : State) : Host.Outcome State Fault Refusal :=
  let f : Frame := { addr := addr, code := 0x41, payload := payload }
  .next (stationFrame f (fixedLength f 4 (takeCollected f)) s)

/-- KEY_LOAD (R10 to R12). -/
def execKeyLoad (addr : Byte) (payload : List Byte) (s : State) : Host.Outcome State Fault Refusal :=
  let f : Frame := { addr := addr, code := 0x42, payload := payload }
  .next (stationFrame f (applyKeyLoad f) s)

/-- CONFIGURE (R194). -/
def execConfigure (addr : Byte) (payload : List Byte) (s : State) : Host.Outcome State Fault Refusal :=
  let f : Frame := { addr := addr, code := 0x43, payload := payload }
  .next (stationFrame f (applyConfigure f) s)

/-- The data of an IDENTIFY reply (R195). -/
def identifyData : List Byte :=
  beBytes 2 Config.vendorCode ++ beBytes 2 Config.partCode ++ beBytes 1 Config.siliconRevision
    ++ beBytes 4 Config.unitSerial.toNat

/-- IDENTIFY (R195). -/
def execIdentify (addr : Byte) (payload : List Byte) (s : State) : Host.Outcome State Fault Refusal :=
  let f : Frame := { addr := addr, code := 0x44, payload := payload }
  .next (stationFrame f (fixedLength f 0 (sendReply f .ok identifyData)) s)

/-- RESTORE (R154). -/
def takeRestore (f : Frame) (s : State) : State :=
  if s.ac.lockedOut then sendReply f .ok [] (withAisleOnly restoreAisle s) else sendReply f .refused [] s

def execRestore (addr : Byte) (payload : List Byte) (s : State) : Host.Outcome State Fault Refusal :=
  let f : Frame := { addr := addr, code := 0x45, payload := payload }
  .next (stationFrame f (fixedLength f 0 (takeRestore f)) s)

/-- FAULT_CLEAR from the station (R153). -/
def takeStationFaultClear (f : Frame) (s : State) : State :=
  if s.ac.lockedOut then sendReply f .refused [] s
  else sendReply f .ok [] { s with ac := { s.ac with faultInProgress := false } }

def execStationFaultClear (addr : Byte) (payload : List Byte) (s : State) : Host.Outcome State Fault Refusal :=
  let f : Frame := { addr := addr, code := 0x46, payload := payload }
  .next (stationFrame f (fixedLength f 0 (takeStationFaultClear f)) s)

/-- JOURNAL_CLEAR (R171). -/
def takeJournalClear (f : Frame) (s : State) : State :=
  if s.jn.held = [] then sendReply f .ok [] { s with jn := clearJournal s.jn } else sendReply f .notEmpty [] s

def execJournalClear (addr : Byte) (payload : List Byte) (s : State) : Host.Outcome State Fault Refusal :=
  let f : Frame := { addr := addr, code := 0x47, payload := payload }
  .next (stationFrame f (fixedLength f 0 (takeJournalClear f)) s)

/-- MAINT: the operation FORCE_CHECK_FAULT (1) arms the forced check fault; any other is REFUSED (R172, R195). -/
def takeMaint (f : Frame) (s : State) : State :=
  if f.payload = [0x01#8] then sendReply f .ok [] { s with jn := { s.jn with armed := true } }
  else sendReply f .refused [] s

/-- MAINT with FORCE_CHECK_FAULT (R172). -/
def execForceCheckFault (addr : Byte) (s : State) : Host.Outcome State Fault Refusal :=
  let f : Frame := { addr := addr, code := 0x48, payload := [0x01#8] }
  .next (stationFrame f (fixedLength f 1 (takeMaint f)) s)

/-- MAINT with another operation (R195). -/
def execMaintUnknownOperation (addr : Byte) (payload : List Byte) (s : State) : Host.Outcome State Fault Refusal :=
  let f : Frame := { addr := addr, code := 0x48, payload := payload }
  .next (stationFrame f (fixedLength f 1 (takeMaint f)) s)

/-- The reply being sent is the one to RESET (R195). -/
def markReset (s : State) : State :=
  { s with sl := { s.sl with tx := s.sl.tx.map (fun r => { r with resets := true }) } }

/-- RESET: answered OK; LINE_RESET follows the reply (R195). -/
def execReset (addr : Byte) (payload : List Byte) (s : State) : Host.Outcome State Fault Refusal :=
  let f : Frame := { addr := addr, code := 0x49, payload := payload }
  .next (stationFrame f (fixedLength f 0 (fun s => markReset (sendReply f .ok [] s))) s)

/-- An addressed frame with an undefined command code is answered REFUSED (R192). -/
def execStationUnknownCommand (addr code : Byte) (payload : List Byte) (s : State) :
    Host.Outcome State Fault Refusal :=
  let f : Frame := { addr := addr, code := code, payload := payload }
  .next (stationFrame f (fun s => if f.addr = 0 then s else sendReply f .refused [] s) s)

end Sys2Proof.Machine
end

