-- ==== Sys2Proof/Machine/AisleEvents.lean ====
section
/-! DEFINITION. The events of the Aisle Controller: input changes and its timers (R108, R110, R120, R122, R133, R138, R146,
R148, R149; log 2 for what an expiry does to the time base). -/

namespace Sys2Proof.Machine

/-- RAW_LEVEL_CHANGE (R108). -/
def execRawLevelChange (i : Input) (level : Bool) (s : State) : Host.Outcome State Fault Refusal :=
  .next (withAisleOnly (fun env a => rawChange env i level a) s)

/-- FILTERED_CHANGE: the end of a running filter interval (R108). -/
def execFilteredChange (i : Input) (s : State) : Host.Outcome State Fault Refusal :=
  match (s.ac.inputs.line i).filterEnd with
  | none => .next s
  | some t => .next (withAisle (fun env r => endFilter env i r) (reach t s))

/-- SETTLE_END (R110, R159). -/
def execSettleEnd (s : State) : Host.Outcome State Fault Refusal :=
  match s.ac.settleEnd with
  | none => .next s
  | some t => .next (withAisle settleInputs (reach t s))

/-- TRAVEL_TIMEOUT_EXPIRY (R146, R150). -/
def execTravelTimeoutExpiry (s : State) : Host.Outcome State Fault Refusal :=
  match s.ac.motion with
  | none => .next s
  | some m => .next (withAisle (fun env r => (leafFault env false r).settled env r.ac) (reach (m.start + m.timeout) s))

/-- The blank window whose end has not been taken yet. -/
def blankDue (a : Aisle) : Option (Motion × Nat) :=
  match a.motion with
  | none => none
  | some m => if m.blankTaken then none else m.blankEnd.map (fun t => (m, t))

/-- BLANK_WINDOW_END (R148). -/
def execBlankWindowEnd (s : State) : Host.Outcome State Fault Refusal :=
  match blankDue s.ac with
  | none => .next s
  | some (m, t) => .next (withAisleOnly (fun env a => endBlank env m a) (reach t s))

/-- ZONE_CLEAR_TIMER_EXPIRY (R149). -/
def execZoneClearTimerExpiry (s : State) : Host.Outcome State Fault Refusal :=
  match s.ac.zoneClearEnd with
  | none => .next s
  | some t => .next (withAisleOnly endZoneClear (reach t s))

/-- ALARM_TIMER_EXPIRY (R120). -/
def execAlarmTimerExpiry (s : State) : Host.Outcome State Fault Refusal :=
  match s.ac.alarmEnd with
  | none => .next s
  | some t => .next (withAisleOnly (fun _ a => { a with alarmEnd := none, violation := none }) (reach t s))

/-- LOITER_LIMIT_REACHED (R122). -/
def execLoiterLimitReached (s : State) : Host.Outcome State Fault Refusal :=
  match nextLoiter s.env s.ac with
  | none => .next s
  | some t => .next (withAisleOnly (fun _ a => { a with loiter := true }) (reach t s))

/-- HOLD_WINDOW_EXPIRY (R138). -/
def execHoldWindowExpiry (s : State) : Host.Outcome State Fault Refusal :=
  match windowEnd s.ac with
  | none => .next s
  | some t => .next (withAisle expireHold (reach t s))

/-- IDLE_TIMER_EXPIRY (R133). -/
def execIdleTimerExpiry (s : State) : Host.Outcome State Fault Refusal :=
  match s.ac.idleEnd with
  | none => .next s
  | some t => .next (withAisleOnly (fun _ a => clearHistory { a with idleEnd := none }) (reach t s))

end Sys2Proof.Machine
end

