-- ==== Sys2Proof/Machine/Evaluating.lean ====
section
/-! DEFINITION. The Verdict Engine's evaluation, stage by stage (R67 to R79, R99 to R101): each stage is one function, an
evaluation is the stages in order, and the first that refuses gives the verdict. Logs 4 and 5. -/

namespace Sys2Proof.Machine

/-- The evaluation in progress changed. -/
def State.setEval (s : State) (e : Option Evaluation) : State := { s with ve := { s.ve with eval := e } }

/-- The presented image of an evaluation. -/
def Evaluation.card (e : Evaluation) : CardImage := parseImage e.image

/-! ## Verdict records (R77) -/

/-- The verdict record of a refusal that carries charge 0 and the presented balance (R77). -/
def refusal (e : Evaluation) (code : VCode) (detail : Nat) : Verdict :=
  { code := code, detail := detail, charge := 0, balance := e.card.balance, dir := none, version := e.gateVersion,
    image := none, kind := none, entryZone := 0, exitZone := 0 }

/-- The verdict record of INSUFFICIENT: the computed charge and balance, the latter not below −8,388,608, and the version of
the bank used (R51, R61, R77). -/
def insufficientVerdict (e : Evaluation) (detail charge : Nat) (balance : Int) (version : Nat) : Verdict :=
  { refusal e .insufficient detail with charge := charge, balance := max (-8388608) balance, version := version }

/-- The direction of the credit of a charging tap at a port (R73). -/
def tapDir : Port → Dir
  | .a => .ab
  | .b => .ba

/-- The verdict record of ACCEPT (R75, R77, R89). -/
def acceptVerdict (e : Evaluation) (f : FareResult) : Verdict :=
  { code := .accept, detail := 0, charge := f.charge, balance := f.balance,
    dir := if e.freeExit then none else some (tapDir e.port), version := f.version, image := some f.image,
    kind := some f.kind, entryZone := f.entryZone, exitZone := f.exitZone }

/-- The verdict record of RESUMED, from the torn record (R77, R100). -/
def resumedVerdict (r : TornRecord) : Verdict :=
  { code := .resumed, detail := portCode r.origin, charge := r.charge, balance := r.balance, dir := r.dir,
    version := r.version, image := none, kind := some r.kind, entryZone := r.entryZone, exitZone := r.exitZone }

/-- The evaluation has reached its verdict. -/
def decided (v : Verdict) (e : Evaluation) (s : State) : State := s.setEval (some { e with verdict := some v })

/-- The evaluation is refused with a code and detail. -/
def refused (code : VCode) (detail : Nat) (e : Evaluation) (s : State) : State := decided (refusal e code detail) e s

/-- The evaluation goes on to a stage. -/
def goOn (st : Stage) (e : Evaluation) (s : State) : State := s.setEval (some { e with stage := st })

/-! ## The stages -/

/-- The first test of the service gate that holds, with its verdict and reason detail (R69, R78). -/
def gateRefusal (p : Port) (free : Bool) (s : State) : Option (VCode × Nat) :=
  if emergencyActive s.ac && p == .a then some (.emergency, 0)
  else if s.ac.lockedOut then some (.outOfService, 1)
  else if !signingPresent s.su s.cfg then some (.outOfService, 2)
  else if s.jn.suspect && !free then some (.outOfService, 3)
  else if s.fu.activeBank.isNone && !free then some (.outOfService, 4)
  else if !s.tl.valid then some (.offline, 1)
  else if s.tl.entryStop && p == .a then some (.offline, 2)
  else none

/-- The kind fixed at the gate: an exit tap while the emergency state is active is a free exit (R69). -/
def isFreeExit (p : Port) (s : State) : Bool := p == .b && emergencyActive s.ac

/-- Service gate (R69). -/
def gateStage (e : Evaluation) (s : State) : State :=
  let e1 := { e with freeExit := isFreeExit e.port s, gateVersion := s.fu.activeVersion }
  match gateRefusal e.port (isFreeExit e.port s) s with
  | some (code, detail) => refused code detail e1 s
  | none => goOn .form e1 s

/-- Format (R3, R70). -/
def formStage (e : Evaluation) (s : State) : State :=
  match formDetail e.card with
  | some d => refused .badFormat d e s
  | none => goOn .inFlight e s

/-- The serial is in flight for the other port (R70, R76). -/
def inFlightElsewhere (e : Evaluation) (s : State) : Bool :=
  s.ve.inFlight.any (fun m => m.1 == e.card.serial && m.2 != e.port)

/-- In-flight (R70). -/
def inFlightStage (e : Evaluation) (s : State) : State :=
  if inFlightElsewhere e s then refused .cardInUse 0 e s else goOn .torn e s

/-- The aisle with the credit a tap asks for: as it is when it asks for none; none when the queue is full (R73, R100). -/
def creditFor (dir : Option Dir) (e : Evaluation) (s : State) : Option Aisle :=
  match dir with
  | none => some s.ac
  | some d => reserveCredit s.env e.card.serial d e.port s.ac

/-- The credit is released again when the Journal refuses the slot (R74, R100). -/
def uncredit (dir : Option Dir) (e : Evaluation) (s : State) : State :=
  match dir with
  | none => s
  | some _ => withAisleOnly (fun env a => releaseCredit env e.port a) s

/-- The reservations of a tap: a credit in a direction, then a journal slot; with both, the verdict (R73, R74, R100). -/
def reserveBoth (dir : Option Dir) (v : Verdict) (e : Evaluation) (s : State) : State :=
  match creditFor dir e s with
  | none => refused .aisleFull 0 e s
  | some a =>
    let s1 := { s with ac := a }
    match reserveSlot s1.jn with
    | none => refused .outOfService 5 e (uncredit dir e s1)
    | some j => decided v { e with creditMade := dir.isSome, slotMade := true } { s1 with jn := j }

/-- Torn record: an UNRESOLVED record of the serial is held and resolved against the image (R99, R100). -/
def tornStage (e : Evaluation) (s : State) : State :=
  match unresolvedOf s.ve.torn e.card.serial with
  | none => goOn .keyCheck e s
  | some r =>
    let e1 := { e with held := some r.serial }
    match usableKey s.su e.card.keyIndex with
    | none => refused .damaged 1 e1 s
    | some key =>
      if checkWord key e.image ≠ e.card.check then refused .damaged 2 e1 s
      else if e.card.seq = r.newSeq ∧ e.card.check = r.newCheck then reserveBoth r.dir (resumedVerdict r) e1 s
      else if e.card.seq = r.oldSeq ∧ e.card.check = r.oldCheck then
        goOn .keyCheck e1 (s.setTorn (tornDrop r.serial s.ve.torn))
      else goOn .keyCheck e1 (tornReport r .other s)

/-- Key and check (R6). -/
def keyCheckStage (e : Evaluation) (s : State) : State :=
  match usableKey s.su e.card.keyIndex with
  | none => refused .unknownKey e.card.keyIndex e s
  | some key =>
    if checkWord key e.image ≠ e.card.check then refused .badCheck e.card.keyIndex e s else goOn .deny e s

/-- Deny (R18). -/
def denyStage (e : Evaluation) (s : State) : State :=
  match denyLookup s.su.deny.entries e.card.serial with
  | some d => refused .denied d.reason e s
  | none => goOn .clone e s

/-- Clone: the entry is touched; a finding lists the serial locally, requests CLONE_ALERT and refuses (R29, R24, R25, R71). -/
def cloneStage (e : Evaluation) (s : State) : State :=
  match seenLookup s.su.seen e.card.serial with
  | none => goOn .exhaustion e s
  | some x =>
    let su1 := { s.su with seen := seenTouch x s.su.seen }
    match cloneFinding x e.card.seq e.card.check with
    | none => goOn .exhaustion e { s with su := su1 }
    | some k =>
      let r := listLocally e.card.serial su1
      refused .clone (cloneCode k) e
        (postAlerts [cloneAlert (portSide e.port) e.card.serial e.card.seq e.card.balance s.cfg.stationNumber k r.2]
          { s with su := r.1 })

/-- Exhaustion (R71). -/
def exhaustionStage (e : Evaluation) (s : State) : State :=
  if e.card.seq = 65535 then refused .exhausted 0 e s else goOn .fare e s

/-- What the fare stage reads (R49). -/
def fareEnv (s : State) (b : Bank) : FareEnv :=
  { bank := b, day := s.tl.day, minute := s.tl.second / 60, station := s.cfg.stationNumber, zone := s.cfg.stationZone }

/-- The signed image as the 32 bytes the part hands out (R4, R9). -/
def signedBytes (s : State) (c : CardImage) : List Byte := imageBytes (signImage s.su s.cfg.signingKey c)

/-- The fare result of a free exit (R63, R48). -/
def freeResult (e : Evaluation) (s : State) : FareResult :=
  { kind := .exitFree, charge := 0, balance := e.card.balance, version := s.fu.activeVersion, entryZone := 0,
    exitZone := s.cfg.stationZone, image := signedBytes s (freeExitImage s.tl.day (s.tl.second / 60) e.card) }

/-- The outcome of a charging tap's computation with the ACTIVE bank (R49, R72). -/
def chargingOutcome (e : Evaluation) (b : Bank) (s : State) : FareOutcome :=
  match e.port with
  | .a => entryFare (fareEnv s b) e.card
  | .b => exitFare (fareEnv s b) e.card

/-- The fare stage's end for an outcome with bank b (R49, R72, R77). -/
def fareEnd (e : Evaluation) (b : Bank) (s : State) : FareOutcome → State
  | .refused code detail charge balance =>
    if code = .insufficient then decided (insufficientVerdict e detail charge balance b.version) e s
    else refused code detail e s
  | .done kind charge balance ez xz img =>
    let fr : FareResult :=
      { kind := kind, charge := charge, balance := balance, version := b.version, entryZone := ez, exitZone := xz,
        image := signedBytes s img }
    goOn .reservations { e with fare := some fr } s

/-- Fare (R49, R63, R72). A charging tap without an ACTIVE bank was refused at the gate, and a bank once ACTIVE is always
present (R48); the arm for none repeats that refusal. -/
def fareStage (e : Evaluation) (s : State) : State :=
  if e.freeExit then goOn .reservations { e with fare := some (freeResult e s) } s
  else match s.fu.activeBank with
    | none => refused .outOfService 4 e s
    | some b => fareEnd e b s (chargingOutcome e b s)

/-- Reservations, then accept (R73 to R75, R89). An evaluation comes here with its fare result; the arm without one goes
back to the fare stage. -/
def reservationsStage (e : Evaluation) (s : State) : State :=
  match e.fare with
  | none => goOn .fare e s
  | some f => reserveBoth (if e.freeExit then none else some (tapDir e.port)) (acceptVerdict e f) e s

/-- One stage of the evaluation in progress; nothing once its verdict is reached. -/
def evalStep (s : State) : State :=
  match s.ve.eval with
  | none => s
  | some e =>
    if e.verdict.isSome then s
    else match e.stage with
      | .gate => gateStage e s
      | .form => formStage e s
      | .inFlight => inFlightStage e s
      | .torn => tornStage e s
      | .keyCheck => keyCheckStage e s
      | .deny => denyStage e s
      | .clone => cloneStage e s
      | .exhaustion => exhaustionStage e s
      | .fare => fareStage e s
      | .reservations => reservationsStage e s

/-- The stages that remain, at most n. -/
def evalRun : Nat → State → State
  | 0, s => s
  | n + 1, s => evalRun n (evalStep s)

/-- The stages that remain of the evaluation in progress, all of them made: ten at most from the gate on (R68; log 4). -/
def remainingStages (s : State) : State := evalRun 10 s

/-! ## The end of an evaluation (R79, R75, R101, R105) -/

/-- The hold of a torn record ends: an expiry that fell due meanwhile is made (R105). -/
def endHold (held : Option Nat) (s : State) : State :=
  match held with
  | none => s
  | some serial => expireIfDue serial s

/-- The serial joins the in-flight set for the port (R75). -/
def joinInFlight (serial : Nat) (p : Port) (s : State) : State :=
  { s with ve := { s.ve with inFlight := s.ve.inFlight ++ [(serial, p)] } }

/-- The torn record becomes PENDING, held by the presenting port (R101). -/
def tornResume (serial : Nat) (p : Port) (t : List TornRecord) : List TornRecord :=
  t.map (fun r => if r.serial = serial then { r with state := .pending p } else r)

/-- The port with its verdict in the tap slot and a tap state (R79). -/
def LanePort.withVerdict (l : LanePort) (image : List Byte) (v : Verdict) (t : TapState) : LanePort :=
  { l with tap := t, slot := some { image := image, verdict := some v } }

/-- The verdict-ready event of an ACCEPT: the confirm timer starts (R79, R85). -/
def readyAccept (e : Evaluation) (v : Verdict) (s : State) : State :=
  let s1 := joinInFlight e.card.serial e.port s
  let l := (s1.port e.port).withVerdict e.image v .verdictReady
  s1.setPort e.port { l with confirmEnd := some (s1.now + s1.cfg.confirmLimit) }

/-- The content of the resumed fare record (R101). -/
def resumedContent (r : TornRecord) (presenting : Port) : Content := tornContent r r.kind (portCode presenting)

/-- The verdict-ready event of a RESUMED: the port enters COMMITTING and the resumed fare append is requested (R79, R101). -/
def readyResumed (e : Evaluation) (v : Verdict) (s : State) : State :=
  let s1 := joinInFlight e.card.serial e.port s
  let s2 := s1.setPort e.port ((s1.port e.port).withVerdict e.image v .committing)
  match unresolvedOf s2.ve.torn e.card.serial with
  | none => s2
  | some r =>
    { s2.setTorn (tornResume r.serial e.port s2.ve.torn) with
      jn := requestFare s2.tl .resumed e.port (resumedContent r e.port) s2.jn }

/-- The verdict-ready event of a refusal (R79). -/
def readyRefusal (e : Evaluation) (v : Verdict) (s : State) : State :=
  s.setPort e.port ((s.port e.port).withVerdict e.image v .verdictReady)

/-- The verdict-ready event by the verdict code (R79). -/
def readyByCode (e : Evaluation) (v : Verdict) (s : State) : State :=
  match v.code with
  | .accept => readyAccept e v s
  | .resumed => readyResumed e v s
  | _ => readyRefusal e v s

/-- The evaluation in progress ends with its verdict, the stages that remain being made first (R68, R79). A frame
that waits is left to APPLY_WAITING_FRAME, and a held activation test to HELD_ACTIVATION_TEST, or both to the next station
frame or evaluation, which makes them first (R34, R46; logs 5, 34 and 39). -/
def endEvaluation (s : State) : State :=
  let s1 := remainingStages s
  match s1.ve.eval with
  | none => s1
  | some e =>
    match e.verdict with
    | none => s1
    | some v => endHold e.held (readyByCode e v (s1.setEval none))

/-- The evaluation in progress ends without a verdict: its reservations are released and its hold ends (R68, R74, R91). What
waits for its end is left as at any end of an evaluation (logs 34 and 39). -/
def dropEvaluation (e : Evaluation) (s : State) : State :=
  let s1 := s.setEval none
  let s2 := if e.creditMade then withAisleOnly (fun env a => releaseCredit env e.port a) s1 else s1
  let s3 := if e.slotMade then { s2 with jn := releaseSlot s2.jn } else s2
  endHold e.held s3

/-- An evaluation of a port's tap begins (R67, R68). -/
def beginEvaluation (p : Port) (rest : List Port) (s : State) : State :=
  let e : Evaluation :=
    { port := p, image := ((s.port p).slot.map (·.image)).getD [], stage := .gate, freeExit := false, gateVersion := 0,
      held := none, fare := none, creditMade := false, slotMade := false, verdict := none }
  ({ s with ve := { s.ve with queue := rest, eval := some e } }).setPort p { s.port p with tap := .evaluating }

/-- The free Verdict Engine applies what waits for the end of an evaluation, then takes the oldest port (R67). -/
def engineNext (s : State) : State :=
  if s.ve.eval.isSome || s.ve.queue.isEmpty then s
  else
    let s1 := waitingWork s
    match s1.ve.queue with
    | [] => s1
    | p :: rest => beginEvaluation p rest s1

end Sys2Proof.Machine
end

