-- ==== Sys2Proof/Machine/Clock.lean ====
section
/-! DEFINITION. The service clock, the link modes and their timers, and the torn windows (R105, R175 to R184). -/

namespace Sys2Proof.Machine

/-- The clock one second on: the day rollover at 86,400, the day code staying at 65,535 (R176). -/
def advanceClock (phase : Nat) (t : TimeLink) : TimeLink :=
  if t.second + 1 = 86400 then { t with phase := some (phase + 1000), second := 0, day := min 65535 (t.day + 1) }
  else { t with phase := some (phase + 1000), second := t.second + 1 }

/-- An advance that is a day rollover (R176). -/
def rollsOver (t : TimeLink) : Bool := t.second + 1 == 86400

/-- One advance: the clock, the torn windows, and at a rollover the activation test (R105, R176). -/
def takeAdvance (phase : Nat) (s : State) : State :=
  let s1 := { s with tl := advanceClock phase s.tl, ve := { s.ve with torn := s.ve.torn.map tornTick } }
  if rollsOver s.tl then dueActivation s1 else s1

/-- CLOCK_ADVANCE: 1000 ms have passed since the second phase of a valid clock (R176). -/
def execClockAdvance (s : State) : Host.Outcome State Fault Refusal :=
  match s.tl.valid, s.tl.phase with
  | true, some ph => .next (takeAdvance ph (reach (ph + 1000) s))
  | _, _ => .next s

/-- TORN_RECORD_EXPIRY: the record of the serial has no window remaining and no evaluation holds it (R105; log 20). -/
def execTornRecordExpiry (serial : Nat) (s : State) : Host.Outcome State Fault Refusal :=
  .next (if heldSerial s.ve = some serial then s else expireIfDue serial s)

/-- The LINK_MODE alert of a change of mode (R182). -/
def linkAlert (old new : LinkMode) (watch : Bool) : Content :=
  { kind := .linkMode, side := .none, seqAfter := if new = .resync then 1 else 0, entryZone := linkCode old,
    exitZone := linkCode new, detail := if watch then 2 else 1 }

/-- STANDALONE is entered: the count is cleared, the watch stays stopped, the standalone timer starts or runs on
(R179, R181). -/
def enterStandalone (now : Nat) (cfg : Settings) (t : TimeLink) : TimeLink :=
  { t with mode := .standalone, resync := none, watchEnd := none,
           standaloneEnd := some (t.standaloneEnd.getD (now + cfg.standaloneLimit * 60000)) }

/-- The watch's expiry in RESYNC or LINKED (R179). -/
def watchExpired (s : State) : State :=
  if s.tl.mode = .resync ∨ s.tl.mode = .linked then
    postAlerts [linkAlert s.tl.mode .standalone true] { s with tl := enterStandalone s.now s.cfg s.tl }
  else { s with tl := { s.tl with watchEnd := none } }

/-- LINK_WATCH_EXPIRY (R179). -/
def execLinkWatchExpiry (s : State) : Host.Outcome State Fault Refusal :=
  match s.tl.watchEnd with
  | none => .next s
  | some t => .next (watchExpired (reach t s))

/-- STANDALONE_TIMER_EXPIRY (R181). -/
def execStandaloneTimerExpiry (s : State) : Host.Outcome State Fault Refusal :=
  match s.tl.standaloneEnd with
  | none => .next s
  | some t =>
    let s1 := reach t s
    .next { s1 with tl := { s1.tl with standaloneEnd := none, entryStop := true } }

/-! ## TIME frames (R177, R178) -/

/-- The clock set to a frame's value (R178). -/
def setClock (now day second : Nat) (t : TimeLink) : TimeLink :=
  { t with valid := true, day := day, second := second, phase := some now }

/-- The link mode, count and timers after a well-formed TIME frame, the clock apart (R177, R181). -/
def linkAfterFrame (now : Nat) (cfg : Settings) (t : TimeLink) : TimeLink :=
  let w := some (now + cfg.linkWatch * 1000)
  match t.mode with
  | .unsynced => { t with mode := .resync, resync := some 1, watchEnd := w }
  | .resync =>
    if t.resync = some 2 then
      { t with mode := .linked, resync := none, watchEnd := w, standaloneEnd := none, entryStop := false }
    else { t with resync := some 2, watchEnd := w }
  | .linked => { t with watchEnd := w }
  | .standalone => { t with mode := .resync, resync := some 1, watchEnd := w }

/-- A well-formed TIME frame: the clock unless STANDALONE, the mode with its LINK_MODE alert, then the activation test of the
setting (R177, R178, R182; log 17 for the order of the alerts). -/
def takeTime (day second : Nat) (s : State) : State :=
  let sets := s.tl.mode != .standalone
  let t1 := if sets then setClock s.now day second s.tl else s.tl
  let t2 := linkAfterFrame s.now s.cfg t1
  let s1 := postAlerts (if t2.mode = s.tl.mode then [] else [linkAlert s.tl.mode t2.mode false]) { s with tl := t2 }
  if sets then dueActivation s1 else s1

/-- The effect of a TIME payload; one that is not a day code and a second below 86,400 is ignored whole. The gate and the fare
stage of an evaluation in progress have each read the clock before a TIME frame is taken, so the stages that remain come
first, and the frame does not alter the verdict (R68, R177; log 4). -/
def applyTimePayload (payload : List Byte) (s : State) : State :=
  if payload.length = 5 ∧ fieldAt payload 2 3 < 86400 then
    takeTime (fieldAt payload 0 2) (fieldAt payload 2 3) (remainingStages s)
  else s

end Sys2Proof.Machine
end

