-- ==== Sys2Proof/Machine/Broadcast.lean ====
section
/-! DEFINITION. The broadcast station commands (R192): each is a frame at the station line, applied at once or kept in the
receive slot (R34), and answered only when it was sent to this unit's address (R190). -/

namespace Sys2Proof.Machine

/-- TIME (R177). -/
def execTime (addr : Byte) (payload : List Byte) (s : State) : Host.Outcome State Fault Refusal :=
  let f : Frame := { addr := addr, code := 0x20, payload := payload }
  .next (stationFrame f (fun s => broadcastEnd f (applyTimePayload payload s)) s)

/-- SIGHTING (R31). -/
def execSighting (addr : Byte) (payload : List Byte) (s : State) : Host.Outcome State Fault Refusal :=
  let f : Frame := { addr := addr, code := 0x21, payload := payload }
  .next (stationFrame f (applySighting f) s)

/-- The station emergency flag takes a value, and the emergency state follows (R155). -/
def setStationEmergency (v : Bool) (env : Env) (r : AisleRun) : AisleRun :=
  emergencyEdge env r.ac (r.upd (fun a => { a with stationEmergency := v }))

/-- The effect of an EMERGENCY payload: 00h CLEAR, 01h SET, any other ignored (R155). -/
def applyEmergencyPayload (payload : List Byte) (s : State) : State :=
  if payload = [0x00#8] then withAisle (setStationEmergency false) s
  else if payload = [0x01#8] then withAisle (setStationEmergency true) s
  else s

/-- EMERGENCY (R155). -/
def execEmergency (addr : Byte) (payload : List Byte) (s : State) : Host.Outcome State Fault Refusal :=
  let f : Frame := { addr := addr, code := 0x22, payload := payload }
  .next (stationFrame f (fun s => broadcastEnd f (applyEmergencyPayload payload s)) s)

/-- DENY_BASE_BEGIN (R19). -/
def execDenyBaseBegin (addr : Byte) (payload : List Byte) (s : State) : Host.Outcome State Fault Refusal :=
  let f : Frame := { addr := addr, code := 0x23, payload := payload }
  .next (stationFrame f (applyDenyBegin f) s)

/-- DENY_BASE_ADD (R20). -/
def execDenyBaseAdd (addr : Byte) (payload : List Byte) (s : State) : Host.Outcome State Fault Refusal :=
  let f : Frame := { addr := addr, code := 0x24, payload := payload }
  .next (stationFrame f (applyDenyAdd f) s)

/-- DENY_BASE_END (R21). -/
def execDenyBaseEnd (addr : Byte) (payload : List Byte) (s : State) : Host.Outcome State Fault Refusal :=
  let f : Frame := { addr := addr, code := 0x25, payload := payload }
  .next (stationFrame f (applyDenyEnd f) s)

/-- DENY_DELTA (R22, R23). -/
def execDenyDelta (addr : Byte) (payload : List Byte) (s : State) : Host.Outcome State Fault Refusal :=
  let f : Frame := { addr := addr, code := 0x26, payload := payload }
  .next (stationFrame f (applyDenyDelta f) s)

/-- The effect of a TARIFF_BEGIN payload; a version of 0 or another length is ignored whole (R40). -/
def applyTariffBegin (payload : List Byte) (s : State) : State :=
  if payload.length = 4 ∧ fieldAt payload 0 2 ≠ 0 then
    { s with fu := tariffBegin (fieldAt payload 0 2) (fieldAt payload 2 2) s.fu }
  else s

/-- TARIFF_BEGIN (R40). -/
def execTariffBegin (addr : Byte) (payload : List Byte) (s : State) : Host.Outcome State Fault Refusal :=
  let f : Frame := { addr := addr, code := 0x27, payload := payload }
  .next (stationFrame f (fun s => broadcastEnd f (applyTariffBegin payload s)) s)

/-- The effect of a TARIFF_DATA payload (R42). -/
def applyTariffData (payload : List Byte) (s : State) : State :=
  match parseTariffData payload with
  | some td => { s with fu := tariffData td s.fu }
  | none => s

/-- TARIFF_DATA (R42). -/
def execTariffData (addr : Byte) (payload : List Byte) (s : State) : Host.Outcome State Fault Refusal :=
  let f : Frame := { addr := addr, code := 0x28, payload := payload }
  .next (stationFrame f (fun s => broadcastEnd f (applyTariffData payload s)) s)

/-- The effect of a TARIFF_END payload: validation, then the activation test of a bank made READY (R43, R45). -/
def applyTariffEnd (payload : List Byte) (s : State) : State :=
  if payload.length = 2 then
    let r := tariffEnd (BitVec.ofNat 16 (fieldAt payload 0 2)) s.fu
    if r.2 then dueActivation { s with fu := r.1 } else { s with fu := r.1 }
  else s

/-- TARIFF_END (R43). -/
def execTariffEnd (addr : Byte) (payload : List Byte) (s : State) : Host.Outcome State Fault Refusal :=
  let f : Frame := { addr := addr, code := 0x29, payload := payload }
  .next (stationFrame f (fun s => broadcastEnd f (applyTariffEnd payload s)) s)

end Sys2Proof.Machine
end

