-- ==== Sys2Proof/Machine/Engine.lean ====
section
/-! DEFINITION. The events of the Verdict Engine, of the confirm timers and of the append queue (R34, R46, R67, R79, R85, R163). -/

namespace Sys2Proof.Machine

/-- EVALUATION_BEGIN: the free Verdict Engine takes the oldest port (R67; logs 5 and 6). -/
def execEvaluationBegin (s : State) : Host.Outcome State Fault Refusal := .next (engineNext s)

/-- VERDICT_READY_EVENT (R79). -/
def execVerdictReadyEvent (s : State) : Host.Outcome State Fault Refusal := .next (endEvaluation s)

/-- APPLY_WAITING_FRAME (R34, R35). -/
def execApplyWaitingFrame (s : State) : Host.Outcome State Fault Refusal := .next (applyWaiting s)

/-- HELD_ACTIVATION_TEST (R46). -/
def execHeldActivationTest (s : State) : Host.Outcome State Fault Refusal := .next (heldActivation s)

/-- The confirm timer's expiry by tap state (R85). -/
def confirmExpired (p : Port) (s : State) : State :=
  match (s.port p).tap with
  | .verdictReady => abandon p .remove s
  | .awaitingWrite => abandon p .keep s
  | _ => s.setPort p { s.port p with confirmEnd := none }

/-- CONFIRM_TIMER_EXPIRY (R85). -/
def execConfirmTimerExpiry (p : Port) (s : State) : Host.Outcome State Fault Refusal :=
  match (s.port p).confirmEnd with
  | none => .next s
  | some t => .next (confirmExpired p (reach t s))

/-- The completion of the oldest append, and of the commit it completes (R163, R87). -/
def takeCompletion (a : Append) (rest : List Append) (s : State) : State :=
  let s1 := { s with jn := completeAppend a rest s.jn }
  match a.commit with
  | none => s1
  | some p => completeCommit p a.record.number s1

/-- APPEND_COMPLETION (R163). -/
def execAppendCompletion (s : State) : Host.Outcome State Fault Refusal :=
  match s.jn.queue with
  | [] => .next s
  | a :: rest => .next (takeCompletion a rest s)

end Sys2Proof.Machine
end

