-- ==== Sys2Proof/Machine/Lane.lean ====
section
/-! DEFINITION. The lane commands (R66, R80 to R84, R91, R93, R153, R185 to R189). -/

namespace Sys2Proof.Machine

/-! ## TAP (R66, R67) -/

/-- The port with a presented image in its tap slot, QUEUED, last result OK (R66). -/
def LanePort.tapped (l : LanePort) (image : List Byte) : LanePort :=
  { l with tap := .queued, slot := some { image := image, verdict := none }, last := .ok, shiftOut := [] }

/-- A port joins the wait queue (R66). -/
def joinQueue (p : Port) (s : State) : State := { s with ve := { s.ve with queue := s.ve.queue ++ [p] } }

/-- A TAP whose frame is taken (R66; log 14 for the order of its tests). -/
def takeTap (p : Port) (payload : List Byte) (s : State) : State :=
  if payload.length ≠ 32 then laneAnswer p .refused s
  else if (s.port p).tap ≠ .idle then laneAnswer p .busy s
  else
    let s1 := joinQueue p (s.setPort p ((s.port p).tapped payload))
    if s.ve.eval.isNone && s.ve.queue.isEmpty then engineNext s1 else s1

/-- TAP (R66). -/
def execTap (p : Port) (payload : List Byte) (s : State) : Host.Outcome State Fault Refusal :=
  .next (laneFrame p payload (takeTap p payload) s)

/-! ## READ_VERDICT (R80, R96, R97) -/

/-- The bytes of a verdict record in a READ_VERDICT reply, from byte 2 on (Lane read replies). -/
def verdictBytes (v : Verdict) : List Byte :=
  byteOf (verdictCode v.code) :: (beBytes 2 v.detail ++ beBytes 3 v.charge ++ be24 v.balance ++ [byteOf (dirCode v.dir)]
    ++ beBytes 2 v.version ++ v.image.getD [])

/-- The bytes of a READ_VERDICT reply that holds no verdict record: the code NONE, then bytes the manual does not state
(R80; log 13). -/
def noVerdictBytes (free : Nat) : List Byte := byteOf 0 :: (List.range 11).map (fun i => Config.freeByte (free + i))

/-- The verdict record a port holds to give: in VERDICT_READY and in AWAITING_WRITE (R80). -/
def givenVerdict (l : LanePort) : Option Verdict :=
  if l.tap = .verdictReady ∨ l.tap = .awaitingWrite then l.slot.bind (·.verdict) else none

/-- The start of every read reply to READ_VERDICT: last result and tap state as they stand when it is taken (log 11). -/
def readHead (l : LanePort) : List Byte := [byteOf (lastCode l.last), byteOf (tapCode l.tap)]

/-- The PENDING torn record of an ACCEPT that is read (R64, R94, R96). -/
def pendingRecord (p : Port) (slot : TapSlot) (v : Verdict) : TornRecord :=
  let old := parseImage slot.image
  let newImage := v.image.getD []
  let new := parseImage newImage
  { serial := old.serial, state := .pending p, origin := p, dir := v.dir, oldSeq := old.seq, oldCheck := old.check,
    newSeq := new.seq, newCheck := new.check, newImage := newImage, kind := v.kind.getD .entry, charge := v.charge,
    balance := v.balance, version := v.version, entryZone := v.entryZone, exitZone := v.exitZone }

/-- The change at the port that gave a verdict record (R80). -/
def afterRead (p : Port) (v : Verdict) (s : State) : State :=
  let l := s.port p
  if l.tap = .awaitingWrite then s
  else if v.code = .accept then
    match l.slot with
    | some slot => tornCreate (pendingRecord p slot v) (s.setPort p { l with tap := .awaitingWrite })
    | none => s
  else s.setPort p { l with tap := .idle, slot := none }

/-- READ_VERDICT whose frame is taken (R80). -/
def takeReadVerdict (p : Port) (s : State) : State :=
  let l := s.port p
  match givenVerdict l with
  | none =>
    { s.setPort p { l with shiftOut := laneReply (readHead l ++ noVerdictBytes s.free) } with free := s.free + 11 }
  | some v => afterRead p v (s.setPort p { l with shiftOut := laneReply (readHead l ++ verdictBytes v) })

/-- READ_VERDICT; its payload is ignored (R80, R186). -/
def execReadVerdict (p : Port) (payload : List Byte) (s : State) : Host.Outcome State Fault Refusal :=
  .next (laneFrame p payload (takeReadVerdict p) s)

/-! ## Reports of the card write (R81 to R83, R86, R93) -/

/-- The last result of a report or CANCEL out of place (R93). -/
def outOfPlace (p : Port) (s : State) : State :=
  laneAnswer p (if (s.port p).tap = .idle then .noTap else .wrongState) s

/-- The fare append of the tap in the port's slot is requested (R81, R86). -/
def requestTapFare (p : Port) (s : State) : State :=
  match (s.port p).slot with
  | some { image := image, verdict := some v } =>
    { s with jn := requestFare s.tl .plain p (fareContent p { image := image, verdict := some v } v) s.jn }
  | _ => s

/-- WRITTEN (R81). -/
def takeWritten (p : Port) (s : State) : State :=
  if (s.port p).tap = .awaitingWrite then
    let s1 := requestTapFare p s
    s1.setPort p { (s1.port p).answered .ok with tap := .committing, confirmEnd := none }
  else outOfPlace p s

def execWritten (p : Port) (payload : List Byte) (s : State) : Host.Outcome State Fault Refusal :=
  .next (laneBare p payload (takeWritten p) s)

/-- NOT_WRITTEN (R82). -/
def takeNotWritten (p : Port) (s : State) : State :=
  if (s.port p).tap = .awaitingWrite then laneAnswer p .ok (abandon p .remove s) else outOfPlace p s

def execNotWritten (p : Port) (payload : List Byte) (s : State) : Host.Outcome State Fault Refusal :=
  .next (laneBare p payload (takeNotWritten p) s)

/-- UNCERTAIN (R83). -/
def takeUncertain (p : Port) (s : State) : State :=
  if (s.port p).tap = .awaitingWrite then laneAnswer p .ok (abandon p .keep s) else outOfPlace p s

def execUncertain (p : Port) (payload : List Byte) (s : State) : Host.Outcome State Fault Refusal :=
  .next (laneBare p payload (takeUncertain p) s)

/-- The port leaves the wait queue (R67). -/
def leaveQueue (p : Port) (s : State) : State :=
  { s with ve := { s.ve with queue := s.ve.queue.filter (fun q => q != p) } }

/-- The tap slot of a port holds an ACCEPT. -/
def holdsAccept (l : LanePort) : Bool := (l.slot.bind (·.verdict)).map (·.code) == some .accept

/-- A verdict that is not read further: an ACCEPT is abandoned as NOT_WRITTEN, another verdict is discarded (R82, R91). -/
def discardVerdict (p : Port) (s : State) : State :=
  if holdsAccept (s.port p) then abandon p .remove s else s.setPort p (s.port p).ended

/-- A tap in the wait queue is withdrawn (R82, R91). -/
def withdrawQueued (p : Port) (s : State) : State :=
  let s1 := leaveQueue p s
  s1.setPort p (s1.port p).ended

/-- CANCEL (R82, R93). -/
def takeCancel (p : Port) (s : State) : State :=
  match (s.port p).tap with
  | .queued => laneAnswer p .ok (withdrawQueued p s)
  | .verdictReady => laneAnswer p .ok (discardVerdict p s)
  | .awaitingWrite => laneAnswer p .ok (abandon p .remove s)
  | _ => outOfPlace p s

def execCancel (p : Port) (payload : List Byte) (s : State) : Host.Outcome State Fault Refusal :=
  .next (laneBare p payload (takeCancel p) s)

/-! ## READ_STATUS and READ_HALT (R152, R186, R187) -/

/-- READ_STATUS whose frame is taken (R187). -/
def takeReadStatus (p : Port) (s : State) : State :=
  let l := s.port p
  let r := statusRecord s p
  s.setPort p { l with
    shiftOut := laneReply (byteOf (lastCode l.last) :: statusBytes r)
    snapshot := some r
    frameError := false }

def execReadStatus (p : Port) (payload : List Byte) (s : State) : Host.Outcome State Fault Refusal :=
  .next (laneFrame p payload (takeReadStatus p) s)

/-- Bytes 1 to 17 of a READ_HALT reply (Lane read replies). -/
def haltBytes (h : HaltRecord) : List Byte :=
  [ byteOf (bitNat h.valid), byteOf (haltCodeNum h.code), byteOf (leafCode h.leaf), byteOf (targetCode h.target),
    byteOf h.reserved, byteOf h.granted, byteOf h.inAisle, byteOf h.bodiesAB, byteOf h.bodiesBA,
    byteOf (flagByte [h.aOuter, h.aInner, h.l1, h.l2, h.bInner, h.bOuter]),
    byteOf (flagByte [h.openStop, h.closedStop]) ]
  ++ beBytes 4 h.stamp ++ [byteOf h.second, byteOf (bitNat h.timeValid)]

/-- READ_HALT whose frame is taken (R152, R186). -/
def takeReadHalt (p : Port) (s : State) : State :=
  let l := s.port p
  s.setPort p { l with shiftOut := laneReply (byteOf (lastCode l.last) :: haltBytes s.ac.halt) }

def execReadHalt (p : Port) (payload : List Byte) (s : State) : Host.Outcome State Fault Refusal :=
  .next (laneFrame p payload (takeReadHalt p) s)

/-! ## FAULT_CLEAR, PORT_RESET and the rest (R153, R91, R189, R186, R185) -/

/-- Fault-in-progress is cleared (R153). -/
def clearFault (s : State) : State := { s with ac := { s.ac with faultInProgress := false } }

/-- FAULT_CLEAR at a lane port (R153). -/
def takeFaultClear (p : Port) (s : State) : State :=
  if s.ac.lockedOut then laneAnswer p .refused s else laneAnswer p .ok (clearFault s)

def execFaultClear (p : Port) (payload : List Byte) (s : State) : Host.Outcome State Fault Refusal :=
  .next (laneBare p payload (takeFaultClear p) s)

/-- The evaluation of a port's tap ends without a verdict (R91). -/
def dropTap (p : Port) (s : State) : State :=
  let s1 := match s.ve.eval with
    | some e => if e.port = p then dropEvaluation e s else s
    | none => s
  s1.setPort p (s1.port p).ended

/-- PORT_RESET's effect on the tap, by tap state (R91). -/
def resetTap (p : Port) (s : State) : State :=
  match (s.port p).tap with
  | .idle => s
  | .queued => withdrawQueued p s
  | .evaluating => dropTap p s
  | .verdictReady => discardVerdict p s
  | .awaitingWrite => abandon p .keep s
  | .committing => s

/-- PORT_RESET (R91, R189). -/
def takePortReset (p : Port) (s : State) : State :=
  let s1 := resetTap p s
  s1.setPort p { (s1.port p).answered .ok with snapshot := none, frameError := false }

def execPortReset (p : Port) (payload : List Byte) (s : State) : Host.Outcome State Fault Refusal :=
  .next (laneBare p payload (takePortReset p) s)

/-- A taken frame with an undefined command code (R186). -/
def execLaneUnknownCommand (p : Port) (_code : Byte) (payload : List Byte) (s : State) :
    Host.Outcome State Fault Refusal :=
  .next (laneFrame p payload (laneAnswer p .refused) s)

/-- A frame cut short, with a bad check or with a length over 40 (R185). -/
def execLaneFrameDiscard (p : Port) (s : State) : Host.Outcome State Fault Refusal := .next (discardFrame p s)

end Sys2Proof.Machine
end

