-- ==== Sys2Proof/Machine/LineEvents.lean ====
section
/-! DEFINITION. The events of the Station Line Interface (R190, R191). -/

namespace Sys2Proof.Machine

/-- A frame accepted by address and check completes: on a full receive slot it is discarded and OVERRUN is set (R191); where
the slot is not full nothing is discarded (log 6). -/
def takeOverrun (f : Frame) (s : State) : State :=
  if s.sl.tx.isNone && acceptedFrame f s && decide (f.payload.length ≤ 96) && s.sl.slot.isSome then
    { s with sl := { s.sl with overrun := true } }
  else s

/-- FRAME_OVERRUN (R191). -/
def execFrameOverrun (addr code : Byte) (payload : List Byte) (s : State) : Host.Outcome State Fault Refusal :=
  .next (takeOverrun { addr := addr, code := code, payload := payload } s)

/-- STATION_FRAME_IGNORED: an ignored frame changes nothing and sets no flag (R190). -/
def execStationFrameIgnored (_addr _code : Byte) (_payload : List Byte) (_check : Word16) (s : State) :
    Host.Outcome State Fault Refusal := .next s

/-- STATION_FRAME_ABANDON: an abandoned frame changes nothing and sets no flag (R190). -/
def execStationFrameAbandon (s : State) : Host.Outcome State Fault Refusal := .next s

/-- The reply has been sent, and one that follows it begins; after the reply to RESET the part is to perform LINE_RESET
(R190, R195; log 34). -/
def replyEnded (r : Reply) (s : State) : State :=
  { s with sl := { s.sl with tx := s.sl.next, next := none, resetDue := s.sl.resetDue || r.resets } }

/-- STATION_REPLY_END (R190). -/
def execStationReplyEnd (s : State) : Host.Outcome State Fault Refusal :=
  match s.sl.tx with
  | none => .next s
  | some r => .next (replyEnded r s)

end Sys2Proof.Machine
end

