-- ==== Sys2Proof/Machine/Resets.lean ====
section
/-! DEFINITION. POWER_ON and LINE_RESET: the values each block takes (R26, R38, R92, R106, R110, R141, R159, R174, R184,
R189, R191). -/

namespace Sys2Proof.Machine

/-- A lane port after either reset (R92, R189). -/
def portAfterReset : LanePort :=
  { tap := .idle, slot := none, last := .ok, confirmEnd := none, frameError := false, snapshot := none, shiftOut := [] }

/-- The Verdict Engine after either reset (R67, R76, R92, R106). -/
def engineAfterReset (window : Nat) (v : VerdictEngine) : VerdictEngine :=
  { queue := [], eval := none, inFlight := [], torn := tornAfterReset window v.torn }

/-- The Screening Unit after either reset (R7, R26, R27). -/
def screeningAfterReset (u : Screening) : Screening := { u with deny := denyAfterReset u.deny, seen := [] }

/-- The Fare Unit after either reset (R38). -/
def fareAfterReset (f : FareUnit) : FareUnit :=
  { f with bank0 := bankAfterReset f.bank0, bank1 := bankAfterReset f.bank1, heldTest := false }

/-- The Station Line Interface after either reset (R191). -/
def lineAfterReset : StationLine := 
  { slot := none, overrun := false, tx := none, next := none, resetDue := false }

/-- The Time and Link Unit after power-on (R184). -/
def powerOnTime : TimeLink :=
  { valid := false, day := 0, second := 0, phase := none, mode := .unsynced, resync := none, watchEnd := none,
    standaloneEnd := none, entryStop := false }

/-- UNRESOLVED records with no window remaining expire at the reset, in creation order (R106). That this follows the reset
values of the Journal and the clock, so that its alerts stand in the new queue, is DESIGN CHOICE, log 35. -/
def expireAtReset (s : State) : State :=
  (s.ve.torn.map (·.serial)).foldl (fun acc serial => expireIfDue serial acc) s

/-- The values every block takes at either reset, the time base standing at `now` and the Journal and the Time and Link
Unit as given (R92, R189). -/
def resetBlocks (now : Nat) (keepEmergency : Bool) (j : Journal) (t : TimeLink) (s : State) : State :=
  { s with
    now := now
    portA := portAfterReset
    portB := portAfterReset
    ve := engineAfterReset s.cfg.tornWindow s.ve
    su := screeningAfterReset s.su
    fu := fareAfterReset s.fu
    ac := resetAisle { now := now, cfg := s.cfg, tl := t } keepEmergency s.ac
    jn := j
    tl := t
    sl := lineAfterReset }

/-- POWER_ON: volatile state takes its power-on values and retained state is kept; the time base starts anew (log 9). -/
def execPowerOn (s : State) : Host.Outcome State Fault Refusal :=
  .next (expireAtReset (resetBlocks 0 false (powerOnJournal s.jn) powerOnTime s))

/-- LINE_RESET: every block takes its LINE_RESET values; an activation test that a discarded evaluation held is made on the
banks as they stand after it (R46, R195; logs 7 and 17). -/
def execLineReset (s : State) : Host.Outcome State Fault Refusal :=
  let s1 := expireAtReset (resetBlocks s.now true (lineResetJournal s.jn) s.tl s)
  .next (if s.fu.heldTest then runActivation s1 else s1)

end Sys2Proof.Machine
end

