-- ==== Sys2Proof/Machine/Dispatch.lean ====
section
/-! DEFINITION. The meaning of every command: one arm for each row of the table, each a direct call of its meaning. -/

namespace Sys2Proof.Machine

/-- What a command does to everything but the queue. -/
def exec (i : Instr) (s : State) : Host.Outcome State Fault Refusal :=
  match i with
  | .powerOn => Sys2Proof.Machine.execPowerOn s
  | .lineReset => Sys2Proof.Machine.execLineReset s
  | .tap p payload => Sys2Proof.Machine.execTap p payload s
  | .readVerdict p payload => Sys2Proof.Machine.execReadVerdict p payload s
  | .written p payload => Sys2Proof.Machine.execWritten p payload s
  | .notWritten p payload => Sys2Proof.Machine.execNotWritten p payload s
  | .uncertain p payload => Sys2Proof.Machine.execUncertain p payload s
  | .cancel p payload => Sys2Proof.Machine.execCancel p payload s
  | .readStatus p payload => Sys2Proof.Machine.execReadStatus p payload s
  | .readHalt p payload => Sys2Proof.Machine.execReadHalt p payload s
  | .faultClear p payload => Sys2Proof.Machine.execFaultClear p payload s
  | .portReset p payload => Sys2Proof.Machine.execPortReset p payload s
  | .laneUnknownCommand p code payload => Sys2Proof.Machine.execLaneUnknownCommand p code payload s
  | .laneFrameDiscard p => Sys2Proof.Machine.execLaneFrameDiscard p s
  | .evaluationBegin => Sys2Proof.Machine.execEvaluationBegin s
  | .verdictReadyEvent => Sys2Proof.Machine.execVerdictReadyEvent s
  | .applyWaitingFrame => Sys2Proof.Machine.execApplyWaitingFrame s
  | .heldActivationTest => Sys2Proof.Machine.execHeldActivationTest s
  | .confirmTimerExpiry p => Sys2Proof.Machine.execConfirmTimerExpiry p s
  | .appendCompletion => Sys2Proof.Machine.execAppendCompletion s
  | .rawLevelChange line level => Sys2Proof.Machine.execRawLevelChange line level s
  | .filteredChange line => Sys2Proof.Machine.execFilteredChange line s
  | .settleEnd => Sys2Proof.Machine.execSettleEnd s
  | .travelTimeoutExpiry => Sys2Proof.Machine.execTravelTimeoutExpiry s
  | .blankWindowEnd => Sys2Proof.Machine.execBlankWindowEnd s
  | .zoneClearTimerExpiry => Sys2Proof.Machine.execZoneClearTimerExpiry s
  | .alarmTimerExpiry => Sys2Proof.Machine.execAlarmTimerExpiry s
  | .loiterLimitReached => Sys2Proof.Machine.execLoiterLimitReached s
  | .holdWindowExpiry => Sys2Proof.Machine.execHoldWindowExpiry s
  | .idleTimerExpiry => Sys2Proof.Machine.execIdleTimerExpiry s
  | .clockAdvance => Sys2Proof.Machine.execClockAdvance s
  | .tornRecordExpiry serial => Sys2Proof.Machine.execTornRecordExpiry serial s
  | .linkWatchExpiry => Sys2Proof.Machine.execLinkWatchExpiry s
  | .standaloneTimerExpiry => Sys2Proof.Machine.execStandaloneTimerExpiry s
  | .time addr payload => Sys2Proof.Machine.execTime addr payload s
  | .sighting addr payload => Sys2Proof.Machine.execSighting addr payload s
  | .emergency addr payload => Sys2Proof.Machine.execEmergency addr payload s
  | .denyBaseBegin addr payload => Sys2Proof.Machine.execDenyBaseBegin addr payload s
  | .denyBaseAdd addr payload => Sys2Proof.Machine.execDenyBaseAdd addr payload s
  | .denyBaseEnd addr payload => Sys2Proof.Machine.execDenyBaseEnd addr payload s
  | .denyDelta addr payload => Sys2Proof.Machine.execDenyDelta addr payload s
  | .tariffBegin addr payload => Sys2Proof.Machine.execTariffBegin addr payload s
  | .tariffData addr payload => Sys2Proof.Machine.execTariffData addr payload s
  | .tariffEnd addr payload => Sys2Proof.Machine.execTariffEnd addr payload s
  | .poll addr payload => Sys2Proof.Machine.execPoll addr payload s
  | .collected addr payload => Sys2Proof.Machine.execCollected addr payload s
  | .keyLoad addr payload => Sys2Proof.Machine.execKeyLoad addr payload s
  | .configure addr payload => Sys2Proof.Machine.execConfigure addr payload s
  | .identify addr payload => Sys2Proof.Machine.execIdentify addr payload s
  | .restore addr payload => Sys2Proof.Machine.execRestore addr payload s
  | .stationFaultClear addr payload => Sys2Proof.Machine.execStationFaultClear addr payload s
  | .journalClear addr payload => Sys2Proof.Machine.execJournalClear addr payload s
  | .forceCheckFault addr => Sys2Proof.Machine.execForceCheckFault addr s
  | .maintUnknownOperation addr payload => Sys2Proof.Machine.execMaintUnknownOperation addr payload s
  | .reset addr payload => Sys2Proof.Machine.execReset addr payload s
  | .stationUnknownCommand addr code payload => Sys2Proof.Machine.execStationUnknownCommand addr code payload s
  | .frameOverrun addr code payload => Sys2Proof.Machine.execFrameOverrun addr code payload s
  | .stationFrameIgnored addr code payload check => Sys2Proof.Machine.execStationFrameIgnored addr code payload check s
  | .stationFrameAbandon => Sys2Proof.Machine.execStationFrameAbandon s
  | .stationReplyEnd => Sys2Proof.Machine.execStationReplyEnd s

end Sys2Proof.Machine
end

