-- ==== Sys2Proof/Machine/Tick.lean ====
section
/-! DEFINITION. What the part does by itself when no command waits (log 3): an event of its own that is due, by its meaning;
else one stage of the evaluation in progress, or the evaluation's end; else one millisecond passes. -/

namespace Sys2Proof.Machine

/-- The end time of the second that runs (R176). -/
def secondEnd (t : TimeLink) : Option Nat := if t.valid then t.phase.map (· + 1000) else none

/-- The end of the travel timeout that runs (R146). -/
def travelEnd (a : Aisle) : Option Nat := a.motion.map (fun m => m.start + m.timeout)

/-- The time at which LOITER is to be set, while it is clear (R122). -/
def loiterEnd (s : State) : Option Nat := if s.ac.loiter then none else nextLoiter s.env s.ac

/-- The timers of the part, each with the event that its end is (log 3 for their order). -/
def timers (s : State) : List (Option Nat × Instr) :=
  [ (s.portA.confirmEnd, .confirmTimerExpiry .a), (s.portB.confirmEnd, .confirmTimerExpiry .b),
    (s.ac.settleEnd, .settleEnd),
    (s.ac.inputs.aOuter.filterEnd, .filteredChange .aOuter), (s.ac.inputs.aInner.filterEnd, .filteredChange .aInner),
    (s.ac.inputs.l1.filterEnd, .filteredChange .l1), (s.ac.inputs.l2.filterEnd, .filteredChange .l2),
    (s.ac.inputs.bInner.filterEnd, .filteredChange .bInner), (s.ac.inputs.bOuter.filterEnd, .filteredChange .bOuter),
    (s.ac.inputs.openStop.filterEnd, .filteredChange .openStop),
    (s.ac.inputs.closedStop.filterEnd, .filteredChange .closedStop),
    (s.ac.inputs.emerg.filterEnd, .filteredChange .emerg),
    (travelEnd s.ac, .travelTimeoutExpiry), ((blankDue s.ac).map Prod.snd, .blankWindowEnd),
    (s.ac.zoneClearEnd, .zoneClearTimerExpiry), (s.ac.alarmEnd, .alarmTimerExpiry), (loiterEnd s, .loiterLimitReached),
    (windowEnd s.ac, .holdWindowExpiry), (s.ac.idleEnd, .idleTimerExpiry), (secondEnd s.tl, .clockAdvance),
    (s.tl.watchEnd, .linkWatchExpiry), (s.tl.standaloneEnd, .standaloneTimerExpiry) ]

/-- An end time that has been reached. -/
def reached (now : Nat) (e : Option Nat) : Bool :=
  match e with
  | some t => decide (t ≤ now)
  | none => false

/-- The first timer whose end has been reached. -/
def dueTimer (s : State) : Option Instr := ((timers s).find? (fun x => reached s.now x.1)).map Prod.snd

/-- The first torn record with no window remaining that no evaluation holds (R105). -/
def dueTorn (s : State) : Option Instr :=
  (s.ve.torn.find? (fun r => r.window == some 0 && heldSerial s.ve != some r.serial)).map
    (fun r => .tornRecordExpiry r.serial)

/-- What waits for a free Verdict Engine, and a LINE_RESET that is due (R34, R46, R67, R195). -/
def dueWork (s : State) : Option Instr :=
  if s.sl.resetDue then some .lineReset
  else if s.ve.eval.isSome then none
  else if s.sl.slot.isSome then some .applyWaitingFrame
  else if s.fu.heldTest then some .heldActivationTest
  else if s.ve.queue.isEmpty then none
  else some .evaluationBegin

/-- The event of the part's own that comes next, if one is due. -/
def dueEvent (s : State) : Option Instr := (dueTimer s).orElse (fun _ => (dueTorn s).orElse (fun _ => dueWork s))

/-- A step with no command waiting. -/
def tick (s : State) : Host.Outcome State Fault Refusal :=
  match dueEvent s with
  | some c => exec c s
  | none =>
    match s.ve.eval with
    | some e => if e.verdict.isSome then exec .verdictReadyEvent s else .next (evalStep s)
    | none => .next { s with now := s.now + 1 }

end Sys2Proof.Machine
end

