-- ==== Sys2Proof/Machine/Selection.lean ====
section
/-! DEFINITION. One selection of a lane port, byte by byte (R185): the bytes that the lane processor clocks in name one command,
and each of them clocks one byte out. Logs 10 and 11. -/

namespace Sys2Proof.Machine

/-- The byte a port shifts out as the k-th one, counted from 0, after the last check byte of a frame it has taken: the reply's,
and 00h past the reply's end or after a non-read frame, which has none (R185). -/
def LanePort.shifted (l : LanePort) (k : Nat) : Byte := l.shiftOut.getD k 0

/-- The bytes a port shifts out while a selection's bytes are clocked in, one for each, the port standing as the selection's
command leaves it: 00h while the frame is received, then what follows it; 00h throughout where the frame is discarded
(R185). -/
def shiftedOut (clocked : List Byte) (l : LanePort) : List Byte :=
  match takenFrame clocked with
  | none => List.replicate clocked.length 0
  | some (_, payload) =>
    let frame := 4 + payload.length
    List.replicate frame 0 ++ (List.range (clocked.length - frame)).map l.shifted

/-- A selection of a port: the effect of the command that the bytes clocked in name, and the bytes shifted out meanwhile.
How many bytes are clocked after the frame changes what is shifted out alone (R185). -/
def laneSelection (p : Port) (clocked : List Byte) (s : State) : Host.Outcome (State × List Byte) Fault Refusal :=
  match exec (decodeSelection p clocked) s with
  | .next t => .next (t, shiftedOut clocked (t.port p))
  | .fault f => .fault f
  | .refused r => .refused r

/-- The bits of bytes in the order in which a lane port takes and shifts them: most significant bit first (R185). -/
def sentBits (bs : List Byte) : List Bool := bs.flatMap (fun b => (List.range 8).map (fun i => b.getLsbD (7 - i)))

end Sys2Proof.Machine
end

