-- ==== Sys2Proof/Safety.lean ====
section
/-! DEFINITION. What the manual says of the part as a whole, block by block: the conditions that hold from reset on and that
every step keeps. Claims are stated in these terms. -/

namespace Sys2Proof.Machine

/-! ## Aisle Controller (chapters 06 to 08) -/

/-- The passage credits and the body counters (R113, R125, R128, R142, R151, R156): at most 4 entries; counters 0..7; never
more IN_AISLE entries of a direction than its counter; during emergency nothing but barred RESERVED entries; in LOCKED_OUT
no GRANTED entry, every RESERVED entry barred and the drive RELEASED. -/
def CreditsOk (a : Aisle) : Prop :=
  a.credits.length ≤ 4 ∧ a.bodiesAB ≤ 7 ∧ a.bodiesBA ≤ 7
    ∧ (∀ d, a.credits.countP (isInAisleDir d) ≤ bodies a d)
    ∧ (emergencyActive a = true → ∀ c ∈ a.credits, c.state = .reserved true)
    ∧ (a.lockedOut = true →
        a.leaf = .released ∧ ∀ c ∈ a.credits, c.state = .reserved true ∨ c.isInAisle = true)

/-- The leaf drive (R142, R144, R145, R149): a motion record exactly while OPENING or CLOSING; the reversal count 0..3; no
closing and no closed leaf while the demand is OPEN; an OPEN leaf without demand only before an occupied zone or under the
obstruction hold. -/
def DriveOk (a : Aisle) : Prop :=
  (a.motion.isSome = true ↔ a.leaf = .opening ∨ a.leaf = .closing)
    ∧ a.reversals ≤ 3
    ∧ (a.leaf = .closed ∨ a.leaf = .closing → demandOpen a = false)
    ∧ (a.leaf = .opened → demandOpen a = true ∨ zoneClear a = false ∨ a.obstructHold = true)

/-- The hold window (R135 to R137): the entries a window runs for are exactly the head, if there is one. -/
def WindowOk (a : Aisle) : Prop :=
  a.credits.filter (fun c => (holdEndOf c).isSome) = (a.credits.find? (isHead a)).toList

/-- The idle timer and LOITER (R122, R133): the timer runs only in an idle aisle; LOITER shows only with an IN_AISLE entry. -/
def IdleOk (a : Aisle) : Prop :=
  (a.idleEnd.isSome = true → aisleIdle a = true) ∧ (a.loiter = true → a.credits.any Credit.isInAisle = true)

/-! ## Screening Unit (chapter 02) -/

/-- The local order numbers of the list (R17). -/
def localOrders (es : List DenyEntry) : List Nat :=
  es.filterMap (fun e => match e.source with
    | .localEntry n => some n
    | .station _ => none)

/-- The deny list (R15, R17, R23): ascending by serial without repeats, at most 4096 entries, at most 64 LOCAL ones whose
numbers run from 1 to their count without gaps and whose reason is 15; no stale mark outside a load. -/
def DenyOk (d : DenyList) : Prop :=
  d.entries.Pairwise (fun x y => x.serial < y.serial) ∧ d.entries.length ≤ 4096 ∧ localCount d.entries ≤ 64
    ∧ (localOrders d.entries).Nodup
    ∧ (∀ n ∈ localOrders d.entries, 1 ≤ n ∧ n ≤ localCount d.entries)
    ∧ (∀ e ∈ d.entries, e.isLocal = true → e.reason = 15)
    ∧ (d.loading = false → ∀ e ∈ d.entries, e.isStale = false)

/-- The seen table (R27): at most 512 entries, no serial twice. -/
def SeenOk (t : List SeenEntry) : Prop := t.length ≤ 512 ∧ (t.map (·.serial)).Nodup

/-- The card key table (R7, R10): eight entries, an ABSENT one with the word 0000h. -/
def KeysOk (ks : List KeyEntry) : Prop := ks.length = 8 ∧ ∀ k ∈ ks, k.state = .absent → k.word = 0

/-! ## Fare Unit (chapter 03) -/

/-- The tariff banks (R36, R38): 314 positions each, and not both ACTIVE. -/
def BanksOk (f : FareUnit) : Prop :=
  f.bank0.contents.length = 314 ∧ f.bank1.contents.length = 314
    ∧ ¬ (f.bank0.state = .active ∧ f.bank1.state = .active)

/-! ## Journal (chapter 09) -/

/-- A record's stored check is its computed one, or its inverse for a forced record (R163, R172). -/
def checkStored (r : JRecord) : Prop := r.check = if r.forced then ~~~(recordCheck r) else recordCheck r

/-- The Journal (R160, R161, R163, R164, R174): held numbers without a gap up to the durable number, queued numbers from
there to the assigned one, at most 6 unreserved appends queued, the queue mark set exactly while an append is queued, and
every record with its check. -/
def JournalOk (j : Journal) : Prop :=
  j.held.length ≤ j.durable
    ∧ j.held.map (·.number) = List.range' (j.durable + 1 - j.held.length) j.held.length
    ∧ j.queue.map (fun a => a.record.number) = List.range' (j.durable + 1) j.queue.length
    ∧ j.assigned = j.durable + j.queue.length
    ∧ unreservedCount j ≤ 6
    ∧ j.queueMark = !j.queue.isEmpty
    ∧ (∀ r ∈ j.held, checkStored r)
    ∧ (∀ a ∈ j.queue, checkStored a.record)

/-! ## Time and Link Unit (chapter 10) -/

/-- The clock and the link mode (R175, R179, R181): the ranges of the clock; an invalid clock is 0 with no phase, and means
UNSYNCED; a resync count of 1 or 2 exactly in RESYNC; the watch runs exactly in RESYNC and LINKED; no standalone timer and no
entry stop in UNSYNCED and LINKED. -/
def TimeOk (t : TimeLink) : Prop :=
  t.day ≤ 65535 ∧ t.second < 86400
    ∧ (t.valid = false → t.day = 0 ∧ t.second = 0)
    ∧ (t.phase.isSome = t.valid)
    ∧ (t.valid = false ↔ t.mode = .unsynced)
    ∧ (t.mode = .resync → t.resync = some 1 ∨ t.resync = some 2)
    ∧ (t.mode ≠ .resync → t.resync = none)
    ∧ (t.watchEnd.isSome = true ↔ t.mode = .resync ∨ t.mode = .linked)
    ∧ (t.mode = .unsynced ∨ t.mode = .linked → t.standaloneEnd = none ∧ t.entryStop = false)

/-! ## Stored settings (chapter 11) -/

/-- Every CONFIGURE item is in its range, and the minimum hold does not exceed the maximum hold (R194). -/
def SettingsOk (c : Settings) : Prop :=
  (1 ≤ c.unitAddress ∧ c.unitAddress ≤ 62) ∧ c.stationNumber ≤ 4095 ∧ c.stationZone ≤ 15 ∧ c.signingKey ≤ 7
    ∧ (c.filterTime = 4 ∨ c.filterTime = 8 ∨ c.filterTime = 16 ∨ c.filterTime = 32)
    ∧ (c.avgDepth = 1 ∨ c.avgDepth = 2 ∨ c.avgDepth = 4 ∨ c.avgDepth = 8)
    ∧ (500 ≤ c.flowBase ∧ c.flowBase ≤ 20000) ∧ (1 ≤ c.holdFactor ∧ c.holdFactor ≤ 255)
    ∧ (500 ≤ c.minHold ∧ c.minHold ≤ 30000) ∧ (500 ≤ c.maxHold ∧ c.maxHold ≤ 30000)
    ∧ (1 ≤ c.idleClear ∧ c.idleClear ≤ 60) ∧ c.blankFactor ≤ 128
    ∧ (200 ≤ c.travelBase ∧ c.travelBase ≤ 2000) ∧ (1 ≤ c.alarmTime ∧ c.alarmTime ≤ 10)
    ∧ (500 ≤ c.confirmLimit ∧ c.confirmLimit ≤ 5000) ∧ (10 ≤ c.tornWindow ∧ c.tornWindow ≤ 600)
    ∧ (3 ≤ c.loiterLimit ∧ c.loiterLimit ≤ 30) ∧ (5 ≤ c.linkWatch ∧ c.linkWatch ≤ 255)
    ∧ (1 ≤ c.standaloneLimit ∧ c.standaloneLimit ≤ 1440) ∧ c.minHold ≤ c.maxHold

/-! ## The tap protocol (chapter 04) -/

/-- The appends in the queue that complete a commit at a port (R87, R163). -/
def commitsQueued (s : State) (p : Port) : Nat := s.jn.queue.countP (fun a => a.commit == some p)

/-- A port's tap state agrees with the rest of the part (R65, R67, R80, R85, R87): the slot is empty exactly in IDLE; the port
waits exactly in QUEUED and is served exactly in EVALUATING; it holds a verdict from VERDICT_READY on; it awaits a write only
for an ACCEPT; the confirm timer runs only for an ACCEPT that is not yet reported on; at most one append completes a commit
of the port, and only in COMMITTING. -/
def TapOk (s : State) (p : Port) : Prop :=
  ((s.port p).slot = none ↔ (s.port p).tap = .idle)
    ∧ (p ∈ s.ve.queue ↔ (s.port p).tap = .queued)
    ∧ (s.ve.eval.map (·.port) = some p ↔ (s.port p).tap = .evaluating)
    ∧ ((s.port p).tap = .verdictReady ∨ (s.port p).tap = .awaitingWrite ∨ (s.port p).tap = .committing →
        ((s.port p).slot.bind (·.verdict)).isSome = true)
    ∧ ((s.port p).tap = .awaitingWrite → holdsAccept (s.port p) = true)
    ∧ ((s.port p).confirmEnd.isSome = true →
        holdsAccept (s.port p) = true ∧ ((s.port p).tap = .verdictReady ∨ (s.port p).tap = .awaitingWrite))
    ∧ commitsQueued s p ≤ (if (s.port p).tap = .committing then 1 else 0)

/-- Both ports' taps, and a wait queue that names no port twice (R65, R67). -/
def TapsOk (s : State) : Prop := s.ve.queue.Nodup ∧ ∀ p, TapOk s p

/-- The serial of the image in a port's tap slot (R65). -/
def portSerial (l : LanePort) : Nat := (l.slot.map (fun x => (parseImage x.image).serial)).getD 0

/-- The port holds an ACCEPT that is not yet reported on (R80, R84). -/
def unreported (l : LanePort) : Bool := (l.tap == .verdictReady || l.tap == .awaitingWrite) && holdsAccept l

/-- The in-flight set (R76): exactly the serials of the ports with an unreported ACCEPT or a commit in progress, and no serial
for both ports. -/
def FlightOk (s : State) : Prop :=
  (∀ n p, (n, p) ∈ s.ve.inFlight ↔
      (unreported (s.port p) = true ∨ (s.port p).tap = .committing) ∧ portSerial (s.port p) = n)
    ∧ ∀ n, ¬ ((n, Port.a) ∈ s.ve.inFlight ∧ (n, Port.b) ∈ s.ve.inFlight)

/-- A stage that follows the in-flight stage (the table before R69). -/
def pastInFlight (g : Stage) : Prop := g ≠ .gate ∧ g ≠ .form ∧ g ≠ .inFlight

/-- The evaluation in progress against the tables (R70, R74, R75, R99, R100): past the in-flight stage its serial is not in
flight for the other port, past the torn stage the table has no record of it; an ACCEPT is reached at the reservations, a
RESUMED at the torn stage with its UNRESOLVED record held; a journal slot is reserved exactly for those two. -/
def EvalOk (v : VerdictEngine) (e : Evaluation) : Prop :=
  (pastInFlight e.stage → ∀ p, (e.card.serial, p) ∈ v.inFlight → p = e.port)
    ∧ (pastInFlight e.stage → e.stage ≠ .torn → ∀ r ∈ v.torn, r.serial ≠ e.card.serial)
    ∧ (∀ n, e.held = some n → n = e.card.serial)
    ∧ (∀ w, e.verdict = some w → w.code = .accept → e.stage = .reservations)
    ∧ (∀ w, e.verdict = some w → w.code = .resumed →
        e.stage = .torn ∧ e.held = some e.card.serial ∧ (unresolvedOf v.torn e.card.serial).isSome = true)
    ∧ (e.slotMade = true ↔ ∃ w, e.verdict = some w ∧ (w.code = .accept ∨ w.code = .resumed))

/-- The Torn-Write Table (R94, R95, R96): at most 8 records, one of a serial, one PENDING at a port; a PENDING record is of the
serial in hand at its port, which awaits a write or commits; a port whose ACCEPT is unread has no record of its serial yet. -/
def TornOk (s : State) : Prop :=
  s.ve.torn.length ≤ 8 ∧ (s.ve.torn.map (·.serial)).Nodup
    ∧ (∀ p, s.ve.torn.countP (·.pendingAt p) ≤ 1)
    ∧ (∀ r ∈ s.ve.torn, ∀ p, r.state = .pending p →
        ((s.port p).tap = .awaitingWrite ∨ (s.port p).tap = .committing) ∧ r.serial = portSerial (s.port p))
    ∧ (∀ p, (s.port p).tap = .verdictReady → holdsAccept (s.port p) = true →
        ∀ r ∈ s.ve.torn, r.serial ≠ portSerial (s.port p))
    ∧ FlightOk s ∧ ∀ e, s.ve.eval = some e → EvalOk s.ve e

/-- The journal slots that taps hold: one for each unreported ACCEPT, and one for an evaluation that has reserved its slot
(R74, R165). -/
def slotsHeld (s : State) : Nat :=
  bitNat (unreported s.portA) + bitNat (unreported s.portB) + bitNat ((s.ve.eval.map (·.slotMade)).getD false)

/-- The room of the Journal (R160, R161, R165): the slots reserved are those that taps hold; held records, queued appends and
reserved slots fit the 1024 places, and assigned numbers and reserved slots the numbering. -/
def RoomOk (s : State) : Prop :=
  s.jn.reserved = slotsHeld s ∧ s.jn.held.length + s.jn.queue.length + s.jn.reserved ≤ 1024
    ∧ s.jn.assigned + s.jn.reserved ≤ 4294967295

/-! ## Terms of the claims -/

/-- The Credit Queue with the hold window left out: entries in creation order, each with its state, direction, serial and
port (R124). -/
def entries (a : Aisle) : List Credit := a.credits.map withoutWindow

/-- What no aisle event reaches: everything but the Aisle Controller, the Journal and the time base. -/
def outsideAisle (s t : State) : Prop :=
  t.free = s.free ∧ t.pending = s.pending ∧ t.portA = s.portA ∧ t.portB = s.portB ∧ t.ve = s.ve ∧ t.su = s.su ∧ t.fu = s.fu
    ∧ t.tl = s.tl ∧ t.sl = s.sl ∧ t.cfg = s.cfg

/-- A passage is granted: an entry is GRANTED or IN_AISLE (R124). -/
def passages (a : Aisle) : Nat := a.credits.countP (fun c => !c.isReserved)

/-- The station line is ready for a broadcast frame at address 0: no reply is being sent, and no frame waits, nor an activation
test for the end of an evaluation that has ended (R46, R190, R191). -/
def lineOpen (s : State) : Prop := s.sl.tx = none ∧ s.sl.slot = none ∧ (s.ve.eval = none → s.fu.heldTest = false)

/-- The station line is ready for a frame to this unit: it is open, and the address is this unit's (R190, R191). -/
def lineReady (addr : Byte) (s : State) : Prop := lineOpen s ∧ addr.toNat = s.cfg.unitAddress ∧ addr ≠ 0

/-- The lane port of a lane command (R186). -/
def lanePort : Instr → Option Port
  | .tap p _ | .readVerdict p _ | .written p _ | .notWritten p _ | .uncertain p _ | .cancel p _ | .readStatus p _
  | .readHalt p _ | .faultClear p _ | .portReset p _ | .laneUnknownCommand p _ _ | .laneFrameDiscard p => some p
  | _ => none

/-- An image in range: what the 32 bytes of a card image can hold (R1, R2). -/
def ImageInRange (c : CardImage) : Prop :=
  c.serial < 4294967296 ∧ c.format < 256 ∧ c.keyIndex < 8 ∧ c.cls < 8 ∧ c.seq < 65536
    ∧ (-8388608 ≤ c.balance ∧ c.balance < 8388608) ∧ c.unusedFlags < 32 ∧ c.entryStation < 4096 ∧ c.entryZone < 16
    ∧ c.entryDay < 65536 ∧ c.entryMinute < 65536 ∧ c.spareByte < 256 ∧ c.exitDay < 65536 ∧ c.exitMinute < 65536
    ∧ c.spendDay < 65536 ∧ c.daySpend < 65536 ∧ c.passExpiry < 65536 ∧ c.zoneLow < 16 ∧ c.zoneHigh < 16

/-- The part after an abandon of a port's transaction (R84): its RESERVED credit and its journal slot are released, its torn
record is removed or becomes UNRESOLVED with the full window, its serial leaves the in-flight set, the port is IDLE with an
empty slot and a stopped timer. -/
def abandoned (p : Port) (removed : Bool) (s : State) : State :=
  let torn := if removed then s.ve.torn.filter (fun r => !r.pendingAt p)
    else s.ve.torn.map (fun r => if r.pendingAt p then { r with state := .unresolved s.cfg.tornWindow } else r)
  let t : State :=
    { s with ac := releaseCredit s.env p s.ac, jn := { s.jn with reserved := s.jn.reserved - 1 },
             ve := { s.ve with inFlight := s.ve.inFlight.filter (fun m => m.2 != p), torn := torn } }
  t.setPort p { s.port p with tap := .idle, slot := none, confirmEnd := none }

/-- What an activation test leaves of a state (R45, R47): with no READY bank, or one whose effective day no valid clock has
reached, the state as it is; else the READY bank is ACTIVE, the one ACTIVE before RETIRED, and TARIFF_ACTIVATED is requested
with both versions. -/
def activationMade (s t : State) : Prop :=
  let retire : Bank → Bank := fun b => if b.state = .active then { b with state := .retired } else b
  (s.fu.bankIn .ready = none → t = s)
    ∧ ∀ one, s.fu.bankIn .ready = some one →
      (s.tl.valid = false ∨ s.tl.day < (s.fu.bank one).effDay → t = s)
        ∧ (s.tl.valid = true → (s.fu.bank one).effDay ≤ s.tl.day → t = { s with
            fu := ({ s.fu with bank0 := retire s.fu.bank0, bank1 := retire s.fu.bank1 } : FareUnit).setBank one
              { s.fu.bank one with state := .active }
            jn := requestAlert s.tl
              { kind := .tariffActivated, side := .none, version := (s.fu.bank one).version,
                detail := (s.fu.activeBank.map (·.version)).getD 0 } s.jn })

/-- What the leaf drive's answer to a demand, OPEN where it is true, makes of an aisle (R143, R145, R146): under OPEN a CLOSED
drive starts a full motion to open, a CLOSING one a reversal that is not full; under CLOSE an OPEN drive with the zone clear and
no obstruction hold starts a full close; a motion that finds its stop active and the other clear completes at once; in every
other case the drive state and the motion record stay. -/
def driveAnswered (env : Env) (demand : Bool) (a t : Aisle) : Prop :=
  let atOpen : Prop := a.inputs.openStop.filtered = true ∧ a.inputs.closedStop.filtered = false
  let atClosed : Prop := a.inputs.closedStop.filtered = true ∧ a.inputs.openStop.filtered = false
  let drive : Leaf → Option Motion → Prop := fun leaf motion => t.leaf = leaf ∧ t.motion = motion
  let opens : Bool → Prop := fun full =>
    (atOpen → drive .opened none) ∧ (¬ atOpen → drive .opening (some (newMotion env .toOpen full a)))
  let free : Prop := a.inputs.l1.filtered = false ∧ a.inputs.l2.filtered = false ∧ a.obstructHold = false
  (demand = true → (a.leaf = .closed → opens true) ∧ (a.leaf = .closing → opens false))
    ∧ (demand = false → a.leaf = .opened → free →
        (atClosed → drive .closed none) ∧ (¬ atClosed → drive .closing (some (newMotion env .toClosed true a))))
    ∧ (a.leaf = .opening ∨ a.leaf = .released ∨ (a.leaf = .opened ∧ (demand = true ∨ ¬ free))
          ∨ ((a.leaf = .closed ∨ a.leaf = .closing) ∧ demand = false) →
        drive a.leaf a.motion)

/-- The evaluation at the start of its gate (R67, R69). -/
def freshEvaluation (p : Port) (image : List Byte) : Evaluation :=
  { port := p, image := image, stage := .gate, freeExit := false, gateVersion := 0, held := none, fare := none,
    creditMade := false, slotMade := false, verdict := none }

end Sys2Proof.Machine
end

