-- ==== Sys2Proof/Certificates/Slice0/Obligations.lean ====
section
/-! DEFINITION. What is stated of the model: the step, the conditions that every step keeps, rules of the whole part, and what
each command does, family by family. -/

section Statements

open Sys2Proof Sys2Proof.Machine

/-! ## The step -/

/-- A step takes the command at the front of the queue: it is exec of that command with the queue's rest. -/
def Obligations.StepRunsFrontCommand : Prop :=
  ∀ (c : Instr) (rest : List Instr) (s : State), s.pending = c :: rest → step s = exec c { s with pending := rest }

/-- The model's choice (logs 1, 3 and 4): with no command waiting, an event of the part's own that is due is taken by its
meaning; else the evaluation in progress makes one stage, or ends once it has its verdict; else 1 ms passes. While none is
due, every timer that runs ends later than the present time, no torn record without window is left that no evaluation holds,
no LINE_RESET is due and nothing waits for a free Verdict Engine. -/
def Obligations.EmptyQueueStep : Prop :=
  ∀ s : State, s.pending = [] →
    (∀ c, dueEvent s = some c → step s = exec c s)
      ∧ (dueEvent s = none → s.sl.resetDue = false
        ∧ (s.ve.eval = none → s.sl.slot = none ∧ s.fu.heldTest = false ∧ s.ve.queue = [])
        ∧ (∀ r ∈ s.ve.torn, r.state = .unresolved 0 → heldSerial s.ve = some r.serial)
        ∧ ∀ e, (∃ p, (s.port p).confirmEnd = some e) ∨ s.ac.settleEnd = some e
            ∨ (∃ i, (s.ac.inputs.line i).filterEnd = some e)
            ∨ (∃ m, s.ac.motion = some m ∧ e = m.start + m.timeout)
            ∨ (∃ m, s.ac.motion = some m ∧ m.blankTaken = false ∧ m.blankEnd = some e)
            ∨ s.ac.zoneClearEnd = some e ∨ s.ac.alarmEnd = some e ∨ (s.ac.loiter = false ∧ nextLoiter s.env s.ac = some e)
            ∨ windowEnd s.ac = some e ∨ s.ac.idleEnd = some e
            ∨ (∃ ph, s.tl.valid = true ∧ s.tl.phase = some ph ∧ e = ph + 1000) ∨ s.tl.watchEnd = some e
            ∨ s.tl.standaloneEnd = some e → s.now < e)
      ∧ (∀ e, dueEvent s = none → s.ve.eval = some e → e.verdict.isSome = true → step s = exec .verdictReadyEvent s)
      ∧ (∀ e, dueEvent s = none → s.ve.eval = some e → e.verdict = none → step s = .next (evalStep s))
      ∧ (dueEvent s = none → s.ve.eval = none → step s = .next { s with now := s.now + 1 })

/-- No command stops the part: every command, in every state, answers a next state, and none reaches the queue of commands.
That events which cannot occur change nothing, that operands which no frame carries are judged as frames are, and that a row
which names an untaken frame acts on every operand, is the model's choice (logs 6, 19 and 33). -/
def Obligations.EveryCommandGoesOn : Prop := ∀ (c : Instr) (s : State), ∃ t, exec c s = .next t ∧ t.pending = s.pending

/-! ## Conditions that every step keeps -/

/-- The part right after power-on from the factory meets every condition below. -/
def Obligations.ResetMeetsEveryCondition : Prop :=
  CreditsOk State.reset.ac ∧ DriveOk State.reset.ac ∧ WindowOk State.reset.ac ∧ IdleOk State.reset.ac
    ∧ DenyOk State.reset.su.deny ∧ SeenOk State.reset.su.seen ∧ KeysOk State.reset.su.keys ∧ BanksOk State.reset.fu
    ∧ JournalOk State.reset.jn ∧ TimeOk State.reset.tl ∧ SettingsOk State.reset.cfg ∧ TapsOk State.reset
    ∧ TornOk State.reset ∧ RoomOk State.reset

/-- At most 4 credits; counters 0..7; never more IN_AISLE entries of a direction than bodies; nothing but barred RESERVED
entries in emergency; no grant and a RELEASED drive in LOCKED_OUT (R113, R125, R128, R151, R156). -/
def Obligations.StepKeepsCredits : Prop := ∀ s t : State, CreditsOk s.ac → step s = .next t → CreditsOk t.ac

/-- The motion record is present exactly while the leaves move, the reversal count is 0..3, and the leaf drive has acted on
the demand, the zone and the hold; the hold window runs for the head and for no other entry; the idle timer runs only in an
idle aisle; LOITER shows only with an IN_AISLE entry (R122, R133, R135 to R137, R142, R144, R145, R149). -/
def Obligations.StepKeepsDriveAndTimers : Prop :=
  ∀ s t : State, DriveOk s.ac ∧ WindowOk s.ac ∧ IdleOk s.ac → step s = .next t →
    DriveOk t.ac ∧ WindowOk t.ac ∧ IdleOk t.ac

/-- The deny list stays sorted and within its sizes with its local age order gapless, the seen table within its size with no
serial twice (R15, R17, R27). -/
def Obligations.StepKeepsScreeningTables : Prop :=
  ∀ s t : State, DenyOk s.su.deny ∧ SeenOk s.su.seen → step s = .next t → DenyOk t.su.deny ∧ SeenOk t.su.seen

/-- Banks keep their 314 positions, never both are ACTIVE, and once a bank is ACTIVE one always is (R36, R38, R48). -/
def Obligations.StepKeepsTariffBanks : Prop :=
  ∀ s t : State, BanksOk s.fu → step s = .next t →
    BanksOk t.fu ∧ (s.fu.activeBank.isSome = true → t.fu.activeBank.isSome = true)

/-- Held numbers stay without a gap up to the durable number, queued ones up to the assigned number, at most 6 unreserved
appends wait, the queue mark shows a waiting append, every record carries its check: that no stored record decays is the
model's choice (log 32). While the taps and the Torn-Write Table are in order, at most 8 appends are queued, the reserved
slots are those of unreported ACCEPTs and of the evaluation, and held records, queued appends and reserved slots share 1024
places (R160, R161, R163 to R165, R174). -/
def Obligations.StepKeepsJournal : Prop :=
  (∀ s t : State, JournalOk s.jn → step s = .next t → JournalOk t.jn)
    ∧ (∀ s : State, JournalOk s.jn → TapsOk s → s.jn.queue.length ≤ 8)
    ∧ (∀ s t : State, JournalOk s.jn → TapsOk s → TornOk s → RoomOk s → step s = .next t → RoomOk t)

/-- The clock stays in its ranges and agrees with the link mode, the resync count and the timers (R175, R179, R181). -/
def Obligations.StepKeepsClockAndLink : Prop := ∀ s t : State, TimeOk s.tl → step s = .next t → TimeOk t.tl

/-- Every stored setting stays in its range, the minimum hold does not pass the maximum hold, the key table keeps eight
entries, an ABSENT one with the word 0000h, and the signing key, once present, stays present (R7, R8, R10, R194). -/
def Obligations.StepKeepsSettingsAndSigningKey : Prop :=
  ∀ s t : State, step s = .next t →
    (SettingsOk s.cfg → SettingsOk t.cfg) ∧ (KeysOk s.su.keys → KeysOk t.su.keys)
      ∧ (signingPresent s.su s.cfg = true → signingPresent t.su t.cfg = true)

/-- Each port's tap state agrees with its slot, the wait queue, the evaluation, its verdict, its timer and its queued commit
(R65, R67, R79, R80, R85, R87). With it the Torn-Write Table stays in order: at most 8 records, one of a serial, one PENDING
at a port, a PENDING one only of the tap that awaits its write or commits; the in-flight set is exactly the serials of
unreported ACCEPTs and commits, none at both ports; and an evaluation past its torn stage has no record of its serial (R76,
R94 to R96, R99). -/
def Obligations.StepKeepsTapStates : Prop :=
  (∀ s t : State, TapsOk s → step s = .next t → TapsOk t)
    ∧ (∀ s t : State, TapsOk s → TornOk s → step s = .next t → TornOk t)

/-! ## Rules of the whole part -/

/-- A passage is granted only at the completion of a durable append: no other command raises the number of GRANTED and
IN_AISLE entries (R127). -/
def Obligations.GrantsOnlyAtCompletion : Prop :=
  ∀ (c : Instr) (s t : State), exec c s = .next t → c ≠ .appendCompletion → passages t.ac ≤ passages s.ac

/-- Held records join only at a completion and leave only by COLLECTED; no other command changes one or the durable number
(R160). -/
def Obligations.HeldRecordsChangeOnlyByTwo : Prop :=
  ∀ (c : Instr) (s t : State), exec c s = .next t → c ≠ .appendCompletion → (∀ addr payload, c ≠ .collected addr payload) →
    t.jn.held = s.jn.held ∧ t.jn.durable = s.jn.durable

/-- A lane command at one port leaves the other port's tap state, slot, timer, snapshot, last result, FRAME_ERROR and reply
as they are (R91, R187, R188). -/
def Obligations.LaneCommandLeavesOtherPort : Prop :=
  ∀ (c : Instr) (p q : Port) (s t : State), lanePort c = some p → p ≠ q → exec c s = .next t → t.port q = s.port q

/-- LOCKED_OUT ends only by RESTORE, and fault-in-progress only by RESTORE or a FAULT_CLEAR of either party (R150, R153,
R154). -/
def Obligations.FaultStatesEndByTheirCommands : Prop :=
  ∀ (c : Instr) (s t : State), exec c s = .next t →
    ((s.ac.lockedOut = true ∧ t.ac.lockedOut = false) → ∃ addr payload, c = .restore addr payload)
      ∧ ((s.ac.faultInProgress = true ∧ t.ac.faultInProgress = false) →
          (∃ addr payload, c = .restore addr payload) ∨ (∃ p payload, c = .faultClear p payload)
            ∨ (∃ addr payload, c = .stationFaultClear addr payload))

/-- The layouts drop nothing. Card image: the fields of an image's bytes are its fields, and the bytes of 32 bytes' fields
are those bytes (Card image layout). Frames: the bytes a well-formed lane command is sent as, whatever is clocked after
them, are decoded as that command, and so are those of a station command, after any characters that are no start marker
(R185, R186, R190, R192). Where each field of a card image stands, most significant byte first, is written out (Card image);
a lane frame is code, length, payload, check, a lane reply length, payload, check, a station frame the marker A5h, address,
code, length, payload, check, each check from FFFFh over what stands between the marker and it; the codes are those of R186
and R192. A selection of a lane port has the effect of the command it carries, however many bytes are clocked after the
frame, and shifts out one byte for each byte clocked in: 00h while the frame is received, then the reply of a read command,
and 00h past the reply's end, after a non-read frame, and throughout where the frame is discarded. The bits of a byte go
most significant bit first (R185). -/
def Obligations.ImageBytesAndFieldsAgree : Prop :=
  (∀ c : CardImage, ImageInRange c → parseImage (imageBytes c) = c)
    ∧ (∀ bs : List Byte, bs.length = 32 → imageBytes (parseImage bs) = bs ∧ ImageInRange (parseImage bs))
    ∧ (∀ (c : Instr) (p : Port) (bytes rest : List Byte), wellFormed c = true → laneCommandBytes c = some (p, bytes) →
        decodeSelection p (bytes ++ rest) = c)
    ∧ (∀ (c : Instr) (bytes before rest : List Byte), wellFormed c = true → stationCommandBytes c = some bytes →
        (∀ b ∈ before, b ≠ 0xA5#8) → decodeStation (before ++ bytes ++ rest) = some c)
    ∧ (∀ (bs : List Byte) (c : CardImage), bs.length = 32 → c = parseImage bs →
        c.serial = fieldAt bs 0 4 ∧ c.format = fieldAt bs 4 1 ∧ c.keyIndex = fieldAt bs 5 1 / 32
          ∧ (c.pass = true ↔ fieldAt bs 5 1 / 16 % 2 = 1) ∧ c.cls = fieldAt bs 5 1 / 2 % 8
          ∧ (c.spareBit = true ↔ fieldAt bs 5 1 % 2 = 1) ∧ c.seq = fieldAt bs 6 2
          ∧ c.balance = (if fieldAt bs 8 3 < 8388608 then (fieldAt bs 8 3 : Int) else (fieldAt bs 8 3 : Int) - 16777216)
          ∧ (c.journeyIn = true ↔ fieldAt bs 11 1 % 2 = 1) ∧ (c.overdraft = true ↔ fieldAt bs 11 1 / 2 % 2 = 1)
          ∧ (c.exitRecorded = true ↔ fieldAt bs 11 1 / 4 % 2 = 1) ∧ c.unusedFlags = fieldAt bs 11 1 / 8
          ∧ c.entryStation = fieldAt bs 12 2 / 16 ∧ c.entryZone = fieldAt bs 12 2 % 16 ∧ c.entryDay = fieldAt bs 14 2
          ∧ c.entryMinute = fieldAt bs 16 2 ∧ c.spareByte = fieldAt bs 18 1 ∧ c.exitDay = fieldAt bs 19 2
          ∧ c.exitMinute = fieldAt bs 21 2 ∧ c.spendDay = fieldAt bs 23 2 ∧ c.daySpend = fieldAt bs 25 2
          ∧ c.passExpiry = fieldAt bs 27 2 ∧ c.zoneLow = fieldAt bs 29 1 % 16 ∧ c.zoneHigh = fieldAt bs 29 1 / 16
          ∧ c.check = BitVec.ofNat 16 (fieldAt bs 30 2))
    ∧ (∀ (bs : List Byte) (i n : Nat) (b : Byte), fieldAt bs i 0 = 0
        ∧ (bs[i + n]? = some b → fieldAt bs i (n + 1) = fieldAt bs i n * 256 + b.toNat))
    ∧ (∀ (bs : List Byte) (k n : Nat) (w : Word16), beNat bs = fieldAt bs 0 bs.length ∧ (beBytes k n).length = k
        ∧ fieldAt (beBytes k n) 0 k = n % 256 ^ k ∧ checkBytes w = [byteOf (w.toNat / 256), byteOf w.toNat])
    ∧ (∀ (p : Port) (code : Byte) (payload header : List Byte) (c : Instr), header = [code, byteOf payload.length] →
        (code, c) ∈ [(0x01#8, .tap p payload), (0x02#8, .readVerdict p payload), (0x03#8, .written p payload),
          (0x04#8, .notWritten p payload), (0x05#8, .uncertain p payload), (0x06#8, .cancel p payload),
          (0x07#8, .readStatus p payload), (0x08#8, .readHalt p payload), (0x09#8, .faultClear p payload),
          (0x0A#8, .portReset p payload), (code, .laneUnknownCommand p code payload)] →
        laneCheck code payload = crc 0xFFFF#16 (header ++ payload)
          ∧ laneCommandBytes c = some (p, header ++ payload ++ checkBytes (crc 0xFFFF#16 (header ++ payload))))
    ∧ (∀ payload : List Byte, laneReply payload
        = byteOf payload.length :: payload ++ checkBytes (crc 0xFFFF#16 (byteOf payload.length :: payload)))
    ∧ (∀ (addr code : Byte) (payload body : List Byte) (c : Instr), body = addr :: code :: byteOf payload.length :: payload →
        ((code, c) ∈ [(0x20#8, .time addr payload), (0x21#8, .sighting addr payload), (0x22#8, .emergency addr payload),
              (0x23#8, .denyBaseBegin addr payload), (0x24#8, .denyBaseAdd addr payload), (0x25#8, .denyBaseEnd addr payload),
              (0x26#8, .denyDelta addr payload), (0x27#8, .tariffBegin addr payload), (0x28#8, .tariffData addr payload),
              (0x29#8, .tariffEnd addr payload), (0x40#8, .poll addr payload), (0x41#8, .collected addr payload),
              (0x42#8, .keyLoad addr payload), (0x43#8, .configure addr payload), (0x44#8, .identify addr payload),
              (0x45#8, .restore addr payload), (0x46#8, .stationFaultClear addr payload),
              (0x47#8, .journalClear addr payload), (0x49#8, .reset addr payload)]
            ∨ code = 0x48#8 ∧ payload = [0x01#8] ∧ c = .forceCheckFault addr
            ∨ code = 0x48#8 ∧ payload ≠ [0x01#8] ∧ c = .maintUnknownOperation addr payload
            ∨ stationCodeDefined code = false ∧ c = .stationUnknownCommand addr code payload) →
        frameCheck addr code payload = crc 0xFFFF#16 body ∧ stationCommand addr code payload = c
          ∧ stationCommandBytes c = some (0xA5#8 :: body ++ checkBytes (crc 0xFFFF#16 body)))
    ∧ (∀ (p : Port) (clocked : List Byte) (s : State), ∃ t out, laneSelection p clocked s = .next (t, out)
        ∧ exec (decodeSelection p clocked) s = .next t ∧ out.length = clocked.length
        ∧ (decodeSelection p clocked = .laneFrameDiscard p → out = List.replicate clocked.length 0))
    ∧ (∀ (c : Instr) (p : Port) (bytes extra : List Byte) (s : State), wellFormed c = true →
        laneCommandBytes c = some (p, bytes) →
      ∃ t out, exec c s = .next t ∧ laneSelection p (bytes ++ extra) s = .next (t, out)
        ∧ (∀ k, k < bytes.length → out[k]? = some 0)
        ∧ (∀ k, k < extra.length → out[bytes.length + k]? = some ((t.port p).shiftOut.getD k 0))
        ∧ ((∀ l, c ≠ .readVerdict p l) → (∀ l, c ≠ .readStatus p l) → (∀ l, c ≠ .readHalt p l) →
            out = List.replicate (bytes.length + extra.length) 0))
    ∧ (sentBits [] = [] ∧ ∀ (b : Byte) (bs : List Byte), sentBits (b :: bs) = [b.getLsbD 7, b.getLsbD 6, b.getLsbD 5,
        b.getLsbD 4, b.getLsbD 3, b.getLsbD 2, b.getLsbD 1, b.getLsbD 0] ++ sentBits bs)
    ∧ (∀ code : Byte, stationCodeDefined code = true
        ↔ (32 ≤ code.toNat ∧ code.toNat ≤ 41) ∨ (64 ≤ code.toNat ∧ code.toNat ≤ 73))

/-- An image the part signs verifies: while the signing key is present, its bytes name the signing key index and their check
word is the one they carry; every other field is the image's own (R5, R6, R9). The signing key is present where its entry is
ACTIVE (R8). The check word is over bytes 0 to 29, most significant bit first, from the key word on: for each bit the
register moves up one place, and is combined with 1021h where the bit differs from its top bit; the generator of every other
check is the same (R5). -/
def Obligations.SignedImageVerifies : Prop :=
  (∀ (r : Word16) (b : Byte) (bs : List Byte) (next : Word16 → Bool → Word16),
      (∀ x bit, next x bit = if bit = x.getLsbD 15 then x <<< 1 else x <<< 1 ^^^ 0x1021#16) →
      crc r [] = r ∧ crc r (b :: bs) = crc (next (next (next (next (next (next (next (next r
        (b.getLsbD 7)) (b.getLsbD 6)) (b.getLsbD 5)) (b.getLsbD 4)) (b.getLsbD 3)) (b.getLsbD 2)) (b.getLsbD 1))
        (b.getLsbD 0)) bs)
    ∧ (∀ (key : Word16) (body rest : List Byte), body.length = 30 → checkWord key (body ++ rest) = crc key body)
    ∧ (∀ (su : Screening) (cfg : Settings), signingPresent su cfg = true ↔
        ∃ k, su.keys[cfg.signingKey]? = some k ∧ k.state = .active)
    ∧ (∀ (s : State) (c : CardImage), s.cfg.signingKey ≤ 7 → ImageInRange c → (signedBytes s c).length = 32
        ∧ ∃ check, parseImage (signedBytes s c) = { c with keyIndex := s.cfg.signingKey, check := check })
    ∧ ∀ (s : State) (c : CardImage), signingPresent s.su s.cfg = true → s.cfg.signingKey ≤ 7 → ImageInRange c →
    (parseImage (signedBytes s c)).keyIndex = s.cfg.signingKey
      ∧ ∃ key, usableKey s.su (parseImage (signedBytes s c)).keyIndex = some key
          ∧ checkWord key (signedBytes s c) = (parseImage (signedBytes s c)).check

/-- The fare. An accepted fare: the image before it is signed is the presented one of the same serial, key index, class and
pass with its sequence up by 1 (R4 sets the key index when it is signed); it carries the new balance, which is the old one
less the charge and no lower than the overdraft limit allows. Entry: PASS_EXPIRED, PASSBACK with the age, INSUFFICIENT below
the minimum, else the charge U and the entry fields. Exit: the charge is the penalty without a journey, nothing but overtime
on a covered one, else base, band, concession, transfer, step and cap, with overtime; the balance stage refuses INSUFFICIENT
(OVERDRAFT_USED 2, BEYOND_LIMIT 3) or sets the exit fields, the spend fields only after the cap stage. The fare stage hands
a refusal its charge and balance for INSUFFICIENT alone, held at −8,388,608, and else charge 0 and the presented balance; a
fare result goes to the reservations with its image signed; a free exit is never refused: EXIT_FREE, charge 0, the presented
balance (R4, R9, R50 to R63, R77). The detail numbers are read from the order of the manual's lists (log 23). -/
def Obligations.AcceptedFareKeepsItsBounds : Prop :=
  (∀ (e : FareEnv) (c img : CardImage) (k : RecKind) (charge z1 z2 : Nat) (b : Int) (p : Port),
    (match p with
      | .a => entryFare e c
      | .b => exitFare e c) = .done k charge b z1 z2 img →
    img.serial = c.serial ∧ img.keyIndex = c.keyIndex ∧ img.cls = c.cls ∧ img.pass = c.pass ∧ img.seq = c.seq + 1
      ∧ img.balance = b ∧ b = c.balance - charge ∧ -(e.bank.overdraftLimit : Int) ≤ b
      ∧ (p = .a → k = .entry ∧ img.journeyIn = true) ∧ (p = .b → k = .exit ∧ img.journeyIn = false))
    ∧ (∀ (e : FareEnv) (c : CardImage) (age u need : Nat),
      age = (e.day * 1440 + e.minute) - (c.entryDay * 1440 + c.entryMinute) →
      u = (if c.journeyIn then e.bank.unclosedCharge else 0) →
      need = (if c.pass ∧ c.zoneLow ≤ e.zone ∧ e.zone ≤ c.zoneHigh then 0 else e.bank.entryMinimum) →
      (c.pass = true → c.passExpiry < e.day → entryFare e c = .refused .passExpired 0 0 c.balance)
        ∧ (c.pass = false ∨ e.day ≤ c.passExpiry →
          (c.journeyIn = true → c.entryStation = e.station → age ≤ e.bank.passback →
              entryFare e c = .refused .passback age 0 c.balance)
            ∧ (c.journeyIn = false ∨ c.entryStation ≠ e.station ∨ e.bank.passback < age →
              (c.balance - u < need → entryFare e c = .refused .insufficient 1 u (c.balance - u))
                ∧ (need ≤ c.balance - u → entryFare e c = .done .entry u (c.balance - u) e.zone 0
                  { c with seq := c.seq + 1, balance := c.balance - u, journeyIn := true, entryStation := e.station,
                           entryZone := e.zone, entryDay := e.day, entryMinute := e.minute }))))
    ∧ (∀ (e : FareEnv) (c : CardImage) (late : Nat → Nat) (cover : Bool),
      (∀ x, late x = if e.bank.maxJourney < (e.day * 1440 + e.minute) - (c.entryDay * 1440 + c.entryMinute)
        then x + e.bank.overtimeCharge else x) →
      cover = (c.pass && decide (e.day ≤ c.passExpiry) && decide (c.zoneLow ≤ c.entryZone ∧ c.entryZone ≤ c.zoneHigh)
        && decide (c.zoneLow ≤ e.zone ∧ e.zone ≤ c.zoneHigh)) →
      let pays : Nat → Nat → (CardImage → CardImage) → Prop := fun charge z1 spend =>
        let nb : Int := c.balance - charge
        let out : Bool → CardImage := fun used => spend
          { c with seq := c.seq + 1, balance := nb, journeyIn := false, exitRecorded := true, exitDay := e.day,
                   exitMinute := e.minute, overdraft := used }
        (0 ≤ nb → exitFare e c = .done .exit charge nb z1 e.zone (out c.overdraft))
          ∧ (nb < 0 → c.overdraft = true → exitFare e c = .refused .insufficient 2 charge nb)
          ∧ (nb < 0 → c.overdraft = false → nb < -(e.bank.overdraftLimit : Int) →
              exitFare e c = .refused .insufficient 3 charge nb)
          ∧ (nb < 0 → c.overdraft = false → -(e.bank.overdraftLimit : Int) ≤ nb →
              exitFare e c = .done .exit charge nb z1 e.zone (out true))
      (c.journeyIn = false → pays (e.bank.penalty e.zone) 0 id)
        ∧ (c.journeyIn = true → cover = true → pays (late 0) c.entryZone id)
        ∧ (∀ k banded conc trans spent stepped capped, c.journeyIn = true → cover = false →
          (k < e.bank.bandCount ∧ e.bank.bandStart k ≤ c.entryMinute
            ∧ ∀ j, k < j → j < e.bank.bandCount → c.entryMinute < e.bank.bandStart j) →
          banded = min 65535 ((e.bank.matrix c.entryZone e.zone * e.bank.bandFactor k + 32) / 64) →
          conc = (banded * e.bank.weight c.cls + 128) / 256 →
          trans = (if c.exitRecorded ∧ c.exitDay * 1440 + c.exitMinute ≤ c.entryDay * 1440 + c.entryMinute
              ∧ (c.entryDay * 1440 + c.entryMinute) - (c.exitDay * 1440 + c.exitMinute) ≤ e.bank.transferWindow
            then conc - e.bank.transferCredit else conc) →
          stepped = (let r := (trans + e.bank.fareStep / 2) / e.bank.fareStep * e.bank.fareStep
            if r ≤ 65535 then r else 65535 / e.bank.fareStep * e.bank.fareStep) →
          spent = (if c.spendDay = e.day then c.daySpend else 0) →
          capped = (if e.bank.dailyCap c.cls = 0 then stepped else min stepped (e.bank.dailyCap c.cls - spent)) →
          pays (late capped) c.entryZone (fun x => { x with spendDay := e.day, daySpend := min 65535 (spent + capped) })))
    ∧ (∀ (s : State) (e : Evaluation), s.ve.eval = some e → e.verdict = none → e.stage = .fare →
      let card := parseImage e.image
      let takes : FareResult → Prop := fun f => evalStep s = { s with ve := { s.ve with
        eval := some { e with stage := .reservations, fare := some f } } }
      let refuses : VCode → Nat → Nat → Int → Nat → Prop := fun code detail charge balance version =>
        ∃ v : Verdict, v.code = code ∧ v.detail = detail ∧ v.charge = charge ∧ v.balance = balance ∧ v.dir = none
          ∧ v.version = version ∧ v.image = none
          ∧ evalStep s = { s with ve := { s.ve with eval := some { e with verdict := some v } } }
      (e.freeExit = true → takes
          { kind := .exitFree, charge := 0, balance := card.balance, version := (s.fu.activeBank.map (·.version)).getD 0,
            entryZone := 0, exitZone := s.cfg.stationZone,
            image := signedBytes s { card with seq := card.seq + 1, journeyIn := false, exitRecorded := true,
                                               exitDay := s.tl.day, exitMinute := s.tl.second / 60 } })
        ∧ (∀ b result, e.freeExit = false → s.fu.activeBank = some b →
          result = (let env : FareEnv := { bank := b, day := s.tl.day, minute := s.tl.second / 60,
                                           station := s.cfg.stationNumber, zone := s.cfg.stationZone }
            if e.port = .a then entryFare env card else exitFare env card) →
          (∀ k charge balance z1 z2 img, result = .done k charge balance z1 z2 img → takes
              { kind := k, charge := charge, balance := balance, version := b.version, entryZone := z1, exitZone := z2,
                image := signedBytes s img })
            ∧ (∀ detail charge balance, result = .refused .insufficient detail charge balance →
                refuses .insufficient detail charge (max (-8388608) balance) b.version)
            ∧ (∀ code detail charge balance, result = .refused code detail charge balance → code ≠ .insufficient →
                refuses code detail 0 card.balance e.gateVersion)))

/-! ## Lane commands: the tap (R66, R67, R79 to R93) -/

/-- TAP at a port in IDLE: while the Verdict Engine is busy or a port waits, the port takes the image and joins the wait
queue's end; with the engine free, no port, frame or test waiting, its evaluation begins at once. EVALUATION_BEGIN: the
oldest waiting port is taken. A frame that waits in the receive slot, and then a held activation test, are made before the
engine takes the port, in the TAP of a free engine and in EVALUATION_BEGIN alike (R34, R46, R66, R67; log 5). -/
def Obligations.TapIsTaken : Prop :=
  ∀ (p : Port) (image : List Byte) (s : State),
    (image.length = 32 → (s.port p).tap = .idle → (s.ve.eval.isSome = true ∨ s.ve.queue ≠ []) →
      exec (.tap p image) s = .next ({ s with ve := { s.ve with queue := s.ve.queue ++ [p] } }.setPort p
        { s.port p with tap := .queued, slot := some { image := image, verdict := none }, last := .ok, shiftOut := [] }))
      ∧ (image.length = 32 → (s.port p).tap = .idle → s.ve.eval = none → s.ve.queue = [] → s.sl.slot = none →
          s.fu.heldTest = false →
        exec (.tap p image) s = .next
          ({ s with ve := { s.ve with eval := some (freshEvaluation p image) } }.setPort p
            { s.port p with tap := .evaluating, slot := some { image := image, verdict := none }, last := .ok,
                            shiftOut := [] }))
      ∧ (∀ rest, s.ve.eval = none → s.ve.queue = p :: rest → s.sl.slot = none → s.fu.heldTest = false →
          (s.port p).slot = some { image := image, verdict := none } →
        exec .evaluationBegin s = .next
          ({ s with ve := { s.ve with queue := rest, eval := some (freshEvaluation p image) } }.setPort p
            { s.port p with tap := .evaluating }))
      ∧ (∀ joined u w : State, image.length = 32 → (s.port p).tap = .idle → s.ve.eval = none → s.ve.queue = [] →
          (s.sl.slot.isSome = true ∨ s.fu.heldTest = true) →
          joined = { s with ve := { s.ve with queue := [p] } }.setPort p
            { s.port p with tap := .queued, slot := some { image := image, verdict := none }, last := .ok, shiftOut := [] } →
          exec .applyWaitingFrame joined = .next u → exec .heldActivationTest u = .next w →
        exec (.tap p image) s = .next
          ({ w with ve := { w.ve with queue := [], eval := some (freshEvaluation p image) } }.setPort p
            { w.port p with tap := .evaluating }))
      ∧ (∀ (rest : List Port) (u w : State), s.ve.eval = none → s.ve.queue = p :: rest →
          (s.port p).slot = some { image := image, verdict := none } →
          exec .applyWaitingFrame s = .next u → exec .heldActivationTest u = .next w →
        exec .evaluationBegin s = .next
          ({ w with ve := { w.ve with queue := rest, eval := some (freshEvaluation p image) } }.setPort p
            { w.port p with tap := .evaluating }))

/-- Reports and CANCEL out of place: in IDLE the last result becomes NO_TAP, in another state to which the command does not
belong WRONG_STATE, and nothing else but the reply changes. The last result of a port stands until the next non-read command
at the port, or a reset, and every read reply begins with it (R93). -/
def Obligations.ReportsOutOfPlace : Prop :=
  (∀ (p : Port) (s : State) (c : Instr), c = .written p [] ∨ c = .notWritten p [] ∨ c = .uncertain p [] →
      ((s.port p).tap = .idle → exec c s = .next (s.setPort p { s.port p with last := .noTap, shiftOut := [] }))
        ∧ ((s.port p).tap ≠ .idle → (s.port p).tap ≠ .awaitingWrite →
            exec c s = .next (s.setPort p { s.port p with last := .wrongState, shiftOut := [] })))
    ∧ (∀ (p : Port) (s : State),
      ((s.port p).tap = .idle →
          exec (.cancel p []) s = .next (s.setPort p { s.port p with last := .noTap, shiftOut := [] }))
        ∧ ((s.port p).tap = .evaluating ∨ (s.port p).tap = .committing →
            exec (.cancel p []) s = .next (s.setPort p { s.port p with last := .wrongState, shiftOut := [] })))
    ∧ (∀ (c : Instr) (p : Port) (s t : State), exec c s = .next t → (t.port p).last ≠ (s.port p).last →
        ((c = .powerOn ∨ c = .lineReset) ∧ (t.port p).last = .ok)
          ∨ (lanePort c = some p ∧ (∀ l, c ≠ .readVerdict p l) ∧ (∀ l, c ≠ .readStatus p l) ∧ (∀ l, c ≠ .readHalt p l)))
    ∧ (∀ (p : Port) (payload : List Byte) (s : State) (c : Instr), payload.length ≤ 40 →
        c = .readVerdict p payload ∨ c = .readStatus p payload ∨ c = .readHalt p payload →
        ∃ t rest, exec c s = .next t ∧ (t.port p).shiftOut = laneReply (byteOf (lastCode (s.port p).last) :: rest))

/-- VERDICT_READY_EVENT of an evaluation that has its verdict: the port takes the verdict. A refusal brings it to
VERDICT_READY; an ACCEPT also starts the confirm timer and puts the serial in flight; a RESUMED brings it to COMMITTING,
puts the serial in flight and, with its torn record in the table, makes that record PENDING and requests the resumed fare
append. The hold of a torn record ends: one that is still UNRESOLVED with no window remaining expires then with its alert,
another stays (R75, R79, R85, R101, R104, R105). The number of the cause is read from the order of the manual's list (log
23). Of an evaluation that has no verdict yet, the event makes the stages that remain, at most ten, one after the other
until the verdict stands, and then ends it as above: that the event itself makes them is the model's choice (log 4). -/
def Obligations.VerdictReadyByCode : Prop :=
  (∀ (s : State) (e : Evaluation), s.ve.eval = some e → e.verdict = none →
    ∃ (n : Nat) (e' : Evaluation) (v : Verdict), 1 ≤ n ∧ n ≤ 10
      ∧ (∀ k, k < n → ∃ x, (evalStep^[k] s).ve.eval = some x ∧ x.verdict = none ∧ x.port = e.port ∧ x.image = e.image)
      ∧ (evalStep^[n] s).ve.eval = some e' ∧ e'.verdict = some v ∧ e'.port = e.port ∧ e'.image = e.image
      ∧ exec .verdictReadyEvent s = exec .verdictReadyEvent (evalStep^[n] s))
    ∧ ∀ (s : State) (e : Evaluation) (v : Verdict), s.ve.eval = some e → e.verdict = some v →
    let keeps : Prop := ∀ n r, e.held = some n → unresolvedOf s.ve.torn n = some r → r.state ≠ .unresolved 0
    (keeps → v.code ≠ .accept → v.code ≠ .resumed →
      exec .verdictReadyEvent s = .next ({ s with ve := { s.ve with eval := none } }.setPort e.port
        { s.port e.port with tap := .verdictReady, slot := some { image := e.image, verdict := some v } }))
      ∧ (keeps → v.code = .accept →
        let flying := s.ve.inFlight ++ [((parseImage e.image).serial, e.port)]
        exec .verdictReadyEvent s = .next ({ s with ve := { s.ve with eval := none, inFlight := flying } }.setPort e.port
          { s.port e.port with
            tap := .verdictReady
            slot := some { image := e.image, verdict := some v }
            confirmEnd := some (s.now + s.cfg.confirmLimit) }))
      ∧ (∀ n r, e.held = some n → unresolvedOf s.ve.torn n = some r → r.state = .unresolved 0 → v.code ≠ .accept →
          v.code ≠ .resumed →
        let content : Content :=
          { kind := .tornUnresolved, side := portSide r.origin, serial := n, seqAfter := r.newSeq, charge := r.charge,
            balance := r.balance, version := r.version, entryZone := r.entryZone, exitZone := r.exitZone, detail := 1 }
        exec .verdictReadyEvent s = .next ({ s with
            ve := { s.ve with eval := none, torn := s.ve.torn.filter (fun x => x.serial != n) }
            jn := requestAlert s.tl content s.jn }.setPort e.port
          { s.port e.port with tap := .verdictReady, slot := some { image := e.image, verdict := some v } }))
      ∧ (∀ r, v.code = .resumed → e.held = some (parseImage e.image).serial →
          unresolvedOf s.ve.torn (parseImage e.image).serial = some r →
        ∃ t, exec .verdictReadyEvent s = .next t
          ∧ t.port e.port
              = { s.port e.port with tap := .committing, slot := some { image := e.image, verdict := some v } }
          ∧ t.ve.eval = none ∧ t.ve.queue = s.ve.queue
          ∧ t.ve.inFlight = s.ve.inFlight ++ [((parseImage e.image).serial, e.port)]
          ∧ t.ve.torn
              = s.ve.torn.map (fun x => if x.serial = r.serial then { x with state := .pending e.port } else x)
          ∧ t.jn = requestFare s.tl .resumed e.port
              { kind := r.kind, side := portSide r.origin, serial := r.serial, seqAfter := r.newSeq, charge := r.charge,
                balance := r.balance, version := r.version, entryZone := r.entryZone, exitZone := r.exitZone,
                detail := portCode e.port } s.jn
          ∧ t.ac = s.ac ∧ t.su = s.su ∧ t.fu = s.fu ∧ t.tl = s.tl ∧ t.sl = s.sl ∧ t.cfg = s.cfg ∧ t.now = s.now)

/-- READ_VERDICT in VERDICT_READY: the reply is the last result, the tap state and the verdict record; a refusal then frees
the port, an ACCEPT brings it to AWAITING_WRITE and creates its PENDING torn record with the old and the new sequence and
check, at the newest end. In a full table the oldest UNRESOLVED record that no evaluation holds goes first, with its
TORN_UNRESOLVED alert of cause EVICTED. In AWAITING_WRITE only the reply changes. In another state the reply carries the
code NONE, and 11 bytes the manual does not state: whatever they are (R80, R94, R96, R97, R104). The torn record also keeps
the whole new image (R64; log 40). The verdict record, byte by byte: the code, numbered from 1 in R78's order; the detail in
2 bytes; the charge in 3; the balance in 3, two's complement; the direction (0 NONE, 1 AB, 2 BA); the version in 2; then the
new image where there is one (Lane read replies). Which last result and tap state the reply begins with, and the 11 bytes,
are the model's reading (logs 11 and 13); so is the number of the cause (log 23). -/
def Obligations.ReadVerdictByCode : Prop :=
  (∀ (v : Verdict) (code dir : Nat),
    [VCode.accept, .resumed, .emergency, .outOfService, .offline, .badFormat, .cardInUse, .damaged, .unknownKey, .badCheck,
      .denied, .clone, .exhausted, .passback, .passExpired, .insufficient, .aisleFull][code]? = some v.code →
    [none, some Dir.ab, some Dir.ba][dir]? = some v.dir →
    let fixed : List Byte := [byteOf (code + 1), byteOf (v.detail / 256), byteOf v.detail, byteOf (v.charge / 65536),
      byteOf (v.charge / 256), byteOf v.charge, BitVec.ofInt 8 (v.balance / 65536), BitVec.ofInt 8 (v.balance / 256),
      BitVec.ofInt 8 v.balance, byteOf dir, byteOf (v.version / 256), byteOf v.version]
    (v.image = none → verdictBytes v = fixed) ∧ (∀ new, v.image = some new → verdictBytes v = fixed ++ new))
    ∧ ([TapState.idle, .queued, .evaluating, .verdictReady, .awaitingWrite, .committing].map tapCode = [0, 1, 2, 3, 4, 5])
    ∧ (∀ (ve : VerdictEngine) (n : Nat), heldSerial ve = some n ↔ ∃ e, ve.eval = some e ∧ e.held = some n)
    ∧ ∀ (p : Port) (payload image : List Byte) (v : Verdict) (s : State), payload.length ≤ 40 →
    let created : TornRecord → Prop := fun r =>
      r.serial = (parseImage image).serial ∧ r.state = .pending p ∧ r.origin = p ∧ r.dir = v.dir
        ∧ r.oldSeq = (parseImage image).seq ∧ r.oldCheck = (parseImage image).check
        ∧ (∀ new, v.image = some new →
            r.newImage = new ∧ r.newSeq = (parseImage new).seq ∧ r.newCheck = (parseImage new).check)
        ∧ (∀ k, v.kind = some k → r.kind = k)
        ∧ r.charge = v.charge ∧ r.balance = v.balance ∧ r.version = v.version ∧ r.entryZone = v.entryZone
        ∧ r.exitZone = v.exitZone
    let awaiting : LanePort := { s.port p with
      tap := .awaitingWrite
      shiftOut := laneReply ([byteOf (lastCode (s.port p).last), byteOf 3] ++ verdictBytes v) }
    ((s.port p).tap = .verdictReady → (s.port p).slot = some { image := image, verdict := some v } → v.code ≠ .accept →
      exec (.readVerdict p payload) s = .next (s.setPort p { s.port p with
        tap := .idle
        slot := none
        shiftOut := laneReply ([byteOf (lastCode (s.port p).last), byteOf 3] ++ verdictBytes v) }))
      ∧ ((s.port p).tap = .verdictReady → (s.port p).slot = some { image := image, verdict := some v } →
          v.code = .accept → s.ve.torn.length < 8 →
        ∃ r, created r
          ∧ exec (.readVerdict p payload) s
              = .next ({ s with ve := { s.ve with torn := s.ve.torn ++ [r] } }.setPort p awaiting))
      ∧ (∀ (pre post : List TornRecord) (old : TornRecord) (w : Nat), (s.port p).tap = .verdictReady →
          (s.port p).slot = some { image := image, verdict := some v } → v.code = .accept → 8 ≤ s.ve.torn.length →
          s.ve.torn = pre ++ old :: post → old.state = .unresolved w → heldSerial s.ve ≠ some old.serial →
          (∀ x ∈ pre, (∃ q, x.state = .pending q) ∨ heldSerial s.ve = some x.serial) →
        let alert : Content :=
          { kind := .tornUnresolved, side := portSide old.origin, serial := old.serial, seqAfter := old.newSeq,
            charge := old.charge, balance := old.balance, version := old.version, entryZone := old.entryZone,
            exitZone := old.exitZone, detail := 2 }
        ∃ r, created r
          ∧ exec (.readVerdict p payload) s = .next ({ s with
              ve := { s.ve with torn := s.ve.torn.filter (fun x : TornRecord => x.serial != old.serial) ++ [r] }
              jn := requestAlert s.tl alert s.jn }.setPort p awaiting))
      ∧ ((s.port p).tap = .awaitingWrite → (s.port p).slot = some { image := image, verdict := some v } →
        exec (.readVerdict p payload) s = .next (s.setPort p { s.port p with
          shiftOut := laneReply ([byteOf (lastCode (s.port p).last), byteOf 4] ++ verdictBytes v) }))
      ∧ ((s.port p).tap ≠ .verdictReady → (s.port p).tap ≠ .awaitingWrite →
        ∃ bytes reply, bytes.length = 11
          ∧ reply = laneReply ([byteOf (lastCode (s.port p).last), byteOf (tapCode (s.port p).tap), byteOf 0] ++ bytes)
          ∧ exec (.readVerdict p payload) s
              = .next ({ s with free := s.free + 11 }.setPort p { s.port p with shiftOut := reply }))

/-- WRITTEN in AWAITING_WRITE: the fare append of the tap is requested with the content of R86, the confirm timer stops, the
port enters COMMITTING with the last result OK (R81, R86). What a request to the Journal does: a record that is admitted
joins the queue's newest end under the next number, with its content, STANDALONE where the link mode is not LINKED, the
service day and second of a valid clock or 0, FORCED where the forced check fault was armed, and its check; the arm is used
up and the queue mark shows the queue. An alert, or a REMOTE_EVIDENCE record, is admitted while fewer than 6 unreserved
appends are queued and a slot is free; an alert is dropped with ALERTS_LOST otherwise. A reserved fare append is always
admitted and consumes its reservation. A slot is reserved while at least 33 are free (R161, R163 to R166, R172, R174,
R180). -/
def Obligations.WrittenRequestsTheFare : Prop :=
  (∀ (p : Port) (image new : List Byte) (v : Verdict) (k : RecKind) (s : State),
    (s.port p).tap = .awaitingWrite → (s.port p).slot = some { image := image, verdict := some v } → v.image = some new →
      v.kind = some k →
    let content : Content :=
      { kind := k, side := portSide p, serial := (parseImage image).serial, seqAfter := (parseImage new).seq,
        charge := v.charge, balance := v.balance, version := v.version, entryZone := v.entryZone, exitZone := v.exitZone,
        detail := 0 }
    exec (.written p []) s = .next
      ({ s with jn := requestFare s.tl .plain p content s.jn }.setPort p
        { s.port p with tap := .committing, confirmEnd := none, last := .ok, shiftOut := [] }))
    ∧ (∀ (t : TimeLink) (c : Content) (j : Journal),
      let room : Nat := min (1024 - j.held.length - j.queue.length - j.reserved) (4294967295 - j.assigned - j.reserved)
      let fits : Prop := j.queue.countP (fun a => a.commit.isNone) < 6 ∧ 1 ≤ room
      let admitted : FareFlag → Option Port → Nat → Journal → Prop := fun flag commit reserved j' =>
        ∃ r : JRecord, r.number = j.assigned + 1 ∧ r.content = c ∧ (r.standalone = true ↔ t.mode ≠ .linked)
          ∧ (r.resumed = true ↔ flag = .resumed) ∧ (r.remote = true ↔ flag = .remote) ∧ r.forced = j.armed
          ∧ (t.valid = true → r.day = t.day ∧ r.second = t.second) ∧ (t.valid = false → r.day = 0 ∧ r.second = 0)
          ∧ r.check = (if r.forced then ~~~(crc 0xFFFF#16 (recordBody r)) else crc 0xFFFF#16 (recordBody r))
          ∧ j' = { j with queue := j.queue ++ [{ record := r, commit := commit }], assigned := j.assigned + 1,
                          reserved := reserved, armed := false, queueMark := j.queueMark || j.queue.isEmpty }
      (fits → admitted .plain none j.reserved (requestAlert t c j))
        ∧ (¬ fits → requestAlert t c j = { j with alertsLost := true })
        ∧ (∀ cs, requestAlerts t (c :: cs) j = requestAlerts t cs (requestAlert t c j) ∧ requestAlerts t [] j = j)
        ∧ (fits → ∃ j', requestRemote t c j = some j' ∧ admitted .remote none j.reserved j')
        ∧ (¬ fits → requestRemote t c j = none)
        ∧ (∀ flag p, admitted flag (some p) (j.reserved - 1) (requestFare t flag p c j))
        ∧ freeSlots j = room
        ∧ (33 ≤ room → reserveSlot j = some { j with reserved := j.reserved + 1 })
        ∧ (room < 33 → reserveSlot j = none))

/-- The transaction of an ACCEPT is abandoned by NOT_WRITTEN, UNCERTAIN, CANCEL, the confirm timer and PORT_RESET: the torn
record is removed where the card cannot have been written, and becomes UNRESOLVED where it may have been. CANCEL of a tap
that waits takes it out of the wait queue; CANCEL of another verdict, a refusal or RESUMED, discards it (R82 to R85, R91).
That an expiry brings the time base to its end time is the model's choice (log 2). -/
def Obligations.AbandonsByTheirCommands : Prop :=
  (∀ l : LanePort, holdsAccept l = true ↔ ∃ x v, l.slot = some x ∧ x.verdict = some v ∧ v.code = .accept)
    ∧ ∀ (p : Port) (s : State),
    ((s.port p).tap = .awaitingWrite →
      exec (.notWritten p []) s
          = .next ((abandoned p true s).setPort p { (abandoned p true s).port p with last := .ok, shiftOut := [] })
        ∧ exec (.cancel p []) s
          = .next ((abandoned p true s).setPort p { (abandoned p true s).port p with last := .ok, shiftOut := [] })
        ∧ exec (.uncertain p []) s
          = .next ((abandoned p false s).setPort p { (abandoned p false s).port p with last := .ok, shiftOut := [] })
        ∧ exec (.portReset p []) s
          = .next ((abandoned p false s).setPort p
              { (abandoned p false s).port p with last := .ok, shiftOut := [], snapshot := none, frameError := false })
        ∧ ∀ e, (s.port p).confirmEnd = some e →
            exec (.confirmTimerExpiry p) s = .next (abandoned p false { s with now := max s.now e }))
      ∧ ((s.port p).tap = .verdictReady → holdsAccept (s.port p) = true →
        exec (.cancel p []) s
            = .next ((abandoned p true s).setPort p { (abandoned p true s).port p with last := .ok, shiftOut := [] })
          ∧ exec (.portReset p []) s
            = .next ((abandoned p true s).setPort p
                { (abandoned p true s).port p with last := .ok, shiftOut := [], snapshot := none, frameError := false })
          ∧ ∀ e, (s.port p).confirmEnd = some e →
              exec (.confirmTimerExpiry p) s = .next (abandoned p true { s with now := max s.now e }))
      ∧ ((s.port p).tap = .queued →
        exec (.cancel p []) s = .next ({ s with ve := { s.ve with queue := s.ve.queue.filter (fun q => q != p) } }.setPort p
          { s.port p with tap := .idle, slot := none, confirmEnd := none, last := .ok, shiftOut := [] }))
      ∧ ((s.port p).tap = .verdictReady → holdsAccept (s.port p) = false →
        exec (.cancel p []) s = .next (s.setPort p
          { s.port p with tap := .idle, slot := none, confirmEnd := none, last := .ok, shiftOut := [] }))

/-- PORT_RESET otherwise: in IDLE and COMMITTING it clears only the port's snapshot, FRAME_ERROR and last result; a waiting
tap leaves the wait queue; an evaluation ends without a verdict, its reservations released and the hold of its torn record
ended, so that one still UNRESOLVED with no window remaining expires then with its alert, and another stays; a verdict that
is no ACCEPT is discarded (R91, R105, R189). That at this end of an evaluation a frame in the receive slot and a held
activation test stay as they are, to be made by APPLY_WAITING_FRAME and HELD_ACTIVATION_TEST or before the next frame or
evaluation, is the model's choice (logs 34 and 39). The number of the cause is read from the order of the manual's list (log
23). -/
def Obligations.PortResetByTapState : Prop :=
  ∀ (p : Port) (s : State),
    ((s.port p).tap = .idle ∨ (s.port p).tap = .committing →
      exec (.portReset p []) s = .next (s.setPort p
        { s.port p with last := .ok, shiftOut := [], snapshot := none, frameError := false }))
      ∧ ((s.port p).tap = .queued →
        exec (.portReset p []) s = .next
          ({ s with ve := { s.ve with queue := s.ve.queue.filter (fun q => q != p) } }.setPort p
            { s.port p with tap := .idle, slot := none, confirmEnd := none, last := .ok, shiftOut := [], snapshot := none,
                            frameError := false }))
      ∧ (∀ e, (s.port p).tap = .evaluating → s.ve.eval = some e → e.port = p →
        let released : Journal := if e.slotMade then { s.jn with reserved := s.jn.reserved - 1 } else s.jn
        let ended : LanePort := { s.port p with tap := .idle, slot := none, confirmEnd := none, last := .ok, shiftOut := [],
                                                snapshot := none, frameError := false }
        ((∀ n r, e.held = some n → unresolvedOf s.ve.torn n = some r → r.state ≠ .unresolved 0) →
          exec (.portReset p []) s = .next ({ s with
              ve := { s.ve with eval := none }
              ac := if e.creditMade then releaseCredit s.env p s.ac else s.ac
              jn := released }.setPort p ended))
          ∧ (∀ n r, e.held = some n → unresolvedOf s.ve.torn n = some r → r.state = .unresolved 0 →
            let content : Content :=
              { kind := .tornUnresolved, side := portSide r.origin, serial := n, seqAfter := r.newSeq, charge := r.charge,
                balance := r.balance, version := r.version, entryZone := r.entryZone, exitZone := r.exitZone, detail := 1 }
            exec (.portReset p []) s = .next ({ s with
                ve := { s.ve with eval := none, torn := s.ve.torn.filter (fun x => x.serial != n) }
                ac := if e.creditMade then releaseCredit s.env p s.ac else s.ac
                jn := requestAlert s.tl content released }.setPort p ended)))
      ∧ ((s.port p).tap = .verdictReady → holdsAccept (s.port p) = false →
        exec (.portReset p []) s = .next (s.setPort p
          { s.port p with tap := .idle, slot := none, confirmEnd := none, last := .ok, shiftOut := [], snapshot := none,
                          frameError := false }))

/-- READ_STATUS replies with the last result and the status record, which becomes the snapshot, and clears FRAME_ERROR.
READ_HALT replies with the last result and the halt record. Nothing else changes. Outputs: attention is asserted in
VERDICT_READY, without a snapshot, and while the snapshot differs from the status record in a field other than FRAME_ERROR,
as a level (log 38), so right after READ_STATUS it shows an unread verdict alone; ALARM while the alarm timer runs; STN_TXEN
while a reply is sent; LD_OPEN, LD_CLOSE and LD_HOLD follow the leaf drive (R120, R142, R152, R186 to R188, R190). The status
record gives each field of the state in its byte, and the halt record its own fields, with every code written out in the
order of the manual's lists (Lane read replies; Status record); OK, BUSY, NO_TAP, WRONG_STATE and REFUSED are 0 to 4 (R186).
Beams, flags and stops stand in their bits from bit 0 on: A-outer, A-inner, L1, L2, B-inner, B-outer; EMERGENCY, LOCKED_OUT,
FAULT_IN_PROGRESS, SUSPECT, JOURNAL_HIGH (896 held records), ENTRY_STOP, LOITER, FRAME_ERROR; OPEN_STOP, CLOSED_STOP. -/
def Obligations.ReadStatusAndHalt : Prop :=
  (∀ (p : Port) (payload : List Byte) (s : State), payload.length ≤ 40 →
    exec (.readStatus p payload) s = .next (s.setPort p { s.port p with
        shiftOut := laneReply (byteOf (lastCode (s.port p).last) :: statusBytes (statusRecord s p))
        snapshot := some (statusRecord s p)
        frameError := false })
      ∧ exec (.readHalt p payload) s = .next (s.setPort p { s.port p with
        shiftOut := laneReply (byteOf (lastCode (s.port p).last) :: haltBytes s.ac.halt) }))
    ∧ (∀ (p : Port) (s : State),
      (attention s p = true ↔ (s.port p).tap = .verdictReady ∨ (s.port p).snapshot = none
          ∨ ∃ r, (s.port p).snapshot = some r ∧ ({ r with frameError := true } : StatusRecord)
              ≠ { statusRecord s p with frameError := true })
        ∧ (∀ payload t, payload.length ≤ 40 → exec (.readStatus p payload) s = .next t →
            (attention t p = true ↔ (s.port p).tap = .verdictReady))
        ∧ (alarmOutput s.ac = true ↔ ∃ e, s.ac.alarmEnd = some e)
        ∧ (txEnable s = true ↔ ∃ r, s.sl.tx = some r))
    ∧ (∀ l : Leaf, driveOutputs l
        = (decide (l = .opening), decide (l = .closing), decide (l = .closed ∨ l = .opened)))
    ∧ ([LastResult.ok, .busy, .noTap, .wrongState, .refused].map lastCode = [0, 1, 2, 3, 4])
    ∧ (∀ (p : Port) (s : State) (leaf dir link viol tap : Nat),
      let bit : Bool → Nat := fun b => if b then 1 else 0
      [Leaf.closed, .opening, .opened, .closing, .released][leaf]? = some s.ac.leaf →
      [none, some Dir.ab, some Dir.ba][dir]? = some (direction s.ac) →
      [LinkMode.unsynced, .resync, .linked, .standalone][link]? = some s.tl.mode →
      [none, some Violation.tailgate, some Violation.contraflow][viol]? = some s.ac.violation →
      [TapState.idle, .queued, .evaluating, .verdictReady, .awaitingWrite, .committing][tap]? = some (s.port p).tap →
      statusBytes (statusRecord s p)
        = [byteOf leaf, byteOf dir, byteOf (s.ac.credits.countP Credit.isReserved),
           byteOf (s.ac.credits.countP Credit.isGranted), byteOf (s.ac.credits.countP Credit.isInAisle),
           byteOf (s.ac.bodiesAB + 16 * s.ac.bodiesBA),
           byteOf (bit s.ac.inputs.aOuter.filtered + 2 * bit s.ac.inputs.aInner.filtered + 4 * bit s.ac.inputs.l1.filtered
             + 8 * bit s.ac.inputs.l2.filtered + 16 * bit s.ac.inputs.bInner.filtered + 32 * bit s.ac.inputs.bOuter.filtered),
           byteOf link,
           byteOf (bit (s.ac.inputs.emerg.filtered || s.ac.stationEmergency) + 2 * bit s.ac.lockedOut
             + 4 * bit s.ac.faultInProgress + 8 * bit s.jn.suspect + 16 * bit (decide (896 ≤ s.jn.held.length))
             + 32 * bit s.tl.entryStop + 64 * bit s.ac.loiter + 128 * bit (s.port p).frameError),
           byteOf viol, byteOf tap])
    ∧ (∀ (h : HaltRecord) (code leaf tgt : Nat),
      let bit : Bool → Nat := fun b => if b then 1 else 0
      [none, some HaltCode.doubleFault, some HaltCode.stopConflict][code]? = some h.code →
      [Leaf.closed, .opening, .opened, .closing, .released][leaf]? = some h.leaf →
      [none, some Target.toOpen, some Target.toClosed][tgt]? = some h.target →
      haltBytes h
        = [byteOf (bit h.valid), byteOf code, byteOf leaf, byteOf tgt, byteOf h.reserved, byteOf h.granted, byteOf h.inAisle,
           byteOf h.bodiesAB, byteOf h.bodiesBA,
           byteOf (bit h.aOuter + 2 * bit h.aInner + 4 * bit h.l1 + 8 * bit h.l2 + 16 * bit h.bInner + 32 * bit h.bOuter),
           byteOf (bit h.openStop + 2 * bit h.closedStop), byteOf (h.stamp / 16777216), byteOf (h.stamp / 65536),
           byteOf (h.stamp / 256), byteOf h.stamp, byteOf h.second, byteOf (bit h.timeValid)])

/-- FAULT_CLEAR at a lane port and from the station: outside LOCKED_OUT fault-in-progress is clear afterwards and the result
is OK; in LOCKED_OUT it is REFUSED and the flag stays; nothing else of the aisle changes (R153). -/
def Obligations.FaultClearByLockout : Prop :=
  (∀ (p : Port) (s : State),
      (s.ac.lockedOut = false → exec (.faultClear p []) s = .next
        ({ s with ac := { s.ac with faultInProgress := false } }.setPort p { s.port p with last := .ok, shiftOut := [] }))
        ∧ (s.ac.lockedOut = true →
            exec (.faultClear p []) s = .next (s.setPort p { s.port p with last := .refused, shiftOut := [] })))
    ∧ (∀ (addr : Byte) (s : State), lineReady addr s →
      (s.ac.lockedOut = false → exec (.stationFaultClear addr []) s = .next
        (sendReply { addr := addr, code := 0x46, payload := [] } .ok [] { s with ac := { s.ac with faultInProgress := false } }))
        ∧ (s.ac.lockedOut = true → exec (.stationFaultClear addr []) s = .next
            (sendReply { addr := addr, code := 0x46, payload := [] } .refused [] s)))

/-- Frames that are turned away: a TAP of another length or with an image in hand; a lane command code that is not defined; a
report, CANCEL, FAULT_CLEAR or PORT_RESET with a payload, which its row does not give; a lane frame that is discarded: one
shorter than its header and check, one longer than 40, one with another check; a station frame that is ignored or abandoned,
which changes nothing on any operand (log 33): one too long or cut short is abandoned, one with another check ignored; a
station command given while a reply is sent is lost; one for another unit, and one that is no broadcast at address 0 (an
undefined code there: log 37), are ignored; one, of either address, that meets a full receive slot is discarded with OVERRUN;
an addressed command code that is not defined; an unknown MAINT operation (R66, R185, R186, R190 to R192, R195). That the
length test of TAP comes before the others, the address test before the slot's, and that the row of an undefined lane code
acts alike on a defined one, is the model's choice (logs 14, 16 and 33). -/
def Obligations.FramesTurnedAway : Prop :=
  (∀ (p : Port) (payload : List Byte) (s : State), payload.length ≤ 40 →
      (payload.length ≠ 32 →
          exec (.tap p payload) s = .next (s.setPort p { s.port p with last := .refused, shiftOut := [] }))
        ∧ (payload.length = 32 → (s.port p).tap ≠ .idle →
            exec (.tap p payload) s = .next (s.setPort p { s.port p with last := .busy, shiftOut := [] }))
        ∧ (∀ code, exec (.laneUnknownCommand p code payload) s
            = .next (s.setPort p { s.port p with last := .refused, shiftOut := [] }))
        ∧ (payload ≠ [] → ∀ c : Instr, c = .written p payload ∨ c = .notWritten p payload ∨ c = .uncertain p payload
              ∨ c = .cancel p payload ∨ c = .faultClear p payload ∨ c = .portReset p payload →
            exec c s = .next (s.setPort p { s.port p with last := .refused, shiftOut := [] })))
    ∧ (∀ (p : Port) (s : State),
        exec (.laneFrameDiscard p) s = .next (s.setPort p { s.port p with frameError := true, shiftOut := [] }))
    ∧ (∀ (p : Port) (code len : Byte) (bytes payload rest : List Byte) (check : Word16),
      (bytes.length < 2 → decodeSelection p bytes = .laneFrameDiscard p)
        ∧ (40 < len.toNat ∨ bytes.length < len.toNat + 2 → decodeSelection p (code :: len :: bytes) = .laneFrameDiscard p)
        ∧ (len.toNat = payload.length → check ≠ laneCheck code payload →
            decodeSelection p (code :: len :: payload ++ checkBytes check ++ rest) = .laneFrameDiscard p))
    ∧ (∀ (addr code : Byte) (payload : List Byte) (check : Word16) (s : State),
        exec (.stationFrameIgnored addr code payload check) s = .next s)
    ∧ (∀ s : State, exec .stationFrameAbandon s = .next s)
    ∧ (∀ (addr code len : Byte) (bytes payload rest : List Byte) (check : Word16),
      ((∀ b ∈ bytes, b ≠ 0xA5#8) → decodeStation bytes = none)
        ∧ (bytes.length < 3 → decodeStation (0xA5#8 :: bytes) = some .stationFrameAbandon)
        ∧ (96 < len.toNat ∨ bytes.length < len.toNat + 2 →
            decodeStation (0xA5#8 :: addr :: code :: len :: bytes) = some .stationFrameAbandon)
        ∧ (len.toNat = payload.length → payload.length ≤ 96 → check ≠ frameCheck addr code payload →
            decodeStation (0xA5#8 :: addr :: code :: len :: payload ++ checkBytes check ++ rest)
              = some (.stationFrameIgnored addr code payload check)))
    ∧ (∀ (addr code : Byte) (payload : List Byte) (s : State), payload.length ≤ 96 →
        (s.sl.tx = none → s.sl.slot.isSome = true → s.ve.eval.isSome = true → addr.toNat = s.cfg.unitAddress → addr ≠ 0 →
          exec (stationCommand addr code payload) s = .next { s with sl := { s.sl with overrun := true } })
          ∧ (s.sl.tx = none → s.sl.slot.isSome = true → addr.toNat = s.cfg.unitAddress → addr ≠ 0 →
            exec (.frameOverrun addr code payload) s = .next { s with sl := { s.sl with overrun := true } })
          ∧ (s.sl.tx.isSome = true → exec (stationCommand addr code payload) s = .next s)
          ∧ (addr ≠ 0 → addr.toNat ≠ s.cfg.unitAddress → exec (stationCommand addr code payload) s = .next s)
          ∧ (code.toNat < 32 ∨ 41 < code.toNat → exec (stationCommand 0 code payload) s = .next s)
          ∧ (s.sl.tx = none → s.sl.slot.isSome = true → 32 ≤ code.toNat → code.toNat ≤ 41 →
            (s.ve.eval.isSome = true →
                exec (stationCommand 0 code payload) s = .next { s with sl := { s.sl with overrun := true } })
              ∧ exec (.frameOverrun 0 code payload) s = .next { s with sl := { s.sl with overrun := true } })
          ∧ (lineReady addr s → stationCodeDefined code = false →
              exec (.stationUnknownCommand addr code payload) s = .next
                (sendReply { addr := addr, code := code, payload := payload } .refused [] s))
          ∧ (lineReady addr s → payload.length = 1 → payload ≠ [0x01#8] →
              exec (.maintUnknownOperation addr payload) s = .next
                (sendReply { addr := addr, code := 0x48, payload := payload } .refused [] s)))

/-! ## The evaluation and the commit -/

/-- The service gate of a tap at port A, and of one at port B outside emergency, in the order of its tests: emergency (entry
taps), lockout, no signing key, SUSPECT, no tariff, clock not valid, entry stop (entry taps); with none of them the
evaluation goes on to the format stage. A free exit passes SUSPECT and the want of a tariff. A refusal carries charge 0, the
presented balance, no direction, no image and the version of the bank ACTIVE at the gate, or 0 (R77). The kind and the
version fixed at the gate stay through the later stages (R69, R77). R69 gives the details by name; their numbers here,
OUT_OF_SERVICE 1 to 4 and OFFLINE 1 and 2, are read from the order of R78's list (log 23). -/
def Obligations.GateTestsInOrder : Prop :=
  (∀ (s : State) (e e' : Evaluation), s.ve.eval = some e → e.stage ≠ .gate → (evalStep s).ve.eval = some e' →
      e'.freeExit = e.freeExit ∧ e'.gateVersion = e.gateVersion ∧ e'.port = e.port ∧ e'.image = e.image)
    ∧ ∀ (s : State) (e : Evaluation), s.ve.eval = some e → e.verdict = none → e.stage = .gate →
    ∃ e' : Evaluation, evalStep s = { s with ve := { s.ve with eval := some e' } }
      ∧ e'.port = e.port ∧ e'.image = e.image ∧ e'.freeExit = (e.port == .b && emergencyActive s.ac)
      ∧ e'.gateVersion = (s.fu.activeBank.map (·.version)).getD 0
      ∧ (let refuses : VCode → Nat → Prop := fun code detail =>
          ∃ v : Verdict, e'.verdict = some v ∧ v.code = code ∧ v.detail = detail ∧ v.charge = 0
            ∧ v.balance = (parseImage e.image).balance ∧ v.dir = none
            ∧ v.version = (s.fu.activeBank.map (·.version)).getD 0 ∧ v.image = none
        (emergencyActive s.ac = true → e.port = .a → refuses .emergency 0)
          ∧ (¬ (emergencyActive s.ac = true ∧ e.port = .a) →
            (s.ac.lockedOut = true → refuses .outOfService 1)
              ∧ (s.ac.lockedOut = false →
                (signingPresent s.su s.cfg = false → refuses .outOfService 2)
                  ∧ (signingPresent s.su s.cfg = true →
                    (s.jn.suspect = true → e'.freeExit = false → refuses .outOfService 3)
                      ∧ ((s.jn.suspect = false ∨ e'.freeExit = true) →
                        (s.fu.activeBank = none → e'.freeExit = false → refuses .outOfService 4)
                          ∧ ((s.fu.activeBank.isSome = true ∨ e'.freeExit = true) →
                            (s.tl.valid = false → refuses .offline 1)
                              ∧ (s.tl.valid = true →
                                (s.tl.entryStop = true → e.port = .a → refuses .offline 2)
                                  ∧ (s.tl.entryStop = false ∨ e.port = .b →
                                      e'.verdict = none ∧ e'.stage = .form))))))))

/-- The stages from format to exhaustion and the reservations: each refuses with its code and detail or hands on to the
next. Torn record: without an UNRESOLVED record of the serial the evaluation goes on; with one it holds it, and an image
whose key is ABSENT or whose check fails is DAMAGED (KEY 1, CHECK 2), one that matches the new sequence and check makes the
reservations of the resumption, one that matches the old takes the record away, another does so with TORN_UNRESOLVED of
cause OTHER. The deny list is read as it stands; the clone stage touches the serial's seen entry, and a finding lists the
serial and requests CLONE_ALERT. Reservations: a credit in the direction, none for a free exit or a record without
direction, then a journal slot. A full queue refuses AISLE_FULL; fewer than 33 free slots refuse OUT_OF_SERVICE,
JOURNAL_FULL, and the credit is released again; with both the verdict is ACCEPT or RESUMED with the fare result's or the
record's values. A refusal carries charge 0, the presented balance and the version at the gate (R3, R6, R18, R24, R25, R29,
R70, R71, R73, R74, R77, R89, R99, R100). The format details are SERIAL 1, FORMAT 2, SPARE 3, MINUTE 4, ZONES 5, the first
whose condition holds (R3). A key index names a word to check by exactly where its entry is not ABSENT (R6). CLONE_ALERT
carries the serial, the sequence, charge and zones 0, the balance and the station it is given, the clone kind in the
detail's first byte and the listing outcome in its second (R25, R162). The detail numbers are read from the order of the
manual's lists (log 23). -/
def Obligations.StagesJudgeInOrder : Prop :=
  (∀ c : CardImage, formDetail c
      = if c.serial = 0 ∨ c.serial = 4294967295 then some 1
        else if c.format ≠ 1 then some 2
        else if c.spareBit = true ∨ c.unusedFlags ≠ 0 ∨ c.spareByte ≠ 0 then some 3
        else if (c.journeyIn = true ∧ 1439 < c.entryMinute) ∨ (c.exitRecorded = true ∧ 1439 < c.exitMinute) then some 4
        else if c.pass = true ∧ c.zoneHigh < c.zoneLow then some 5
        else none)
    ∧ (∀ (su : Screening) (index : Nat), (∀ key, usableKey su index = some key ↔
          ∃ k, su.keys[index]? = some k ∧ k.state ≠ .absent ∧ k.word = key)
        ∧ (index < su.keys.length →
            (usableKey su index = none ↔ ∃ k, su.keys[index]? = some k ∧ k.state = .absent)))
    ∧ (∀ (side : Side) (serial seq station : Nat) (balance : Int) (k : CloneKind) (l : Listing) (kind outcome : Nat),
      [CloneKind.rollback, .divergent][kind]? = some k → [Listing.listed, .alreadyListed, .notListed][outcome]? = some l →
      cloneCode k = kind + 1 ∧ cloneAlert side serial seq balance station k l
        = { kind := .cloneAlert, side := side, serial := serial, seqAfter := seq, charge := 0, balance := balance,
            version := station, entryZone := 0, exitZone := 0, detail := (kind + 1) * 256 + (outcome + 1) })
    ∧ (∀ (t : List TornRecord) (n : Nat),
      (unresolvedOf t n = none ↔ ∀ r ∈ t, r.serial = n → ∃ p, r.state = .pending p)
        ∧ ∀ r, unresolvedOf t n = some r → r ∈ t ∧ r.serial = n ∧ ∃ w, r.state = .unresolved w)
    ∧ (tapDir .a = .ab ∧ tapDir .b = .ba ∧ portCode .a = 1 ∧ portCode .b = 2 ∧ portSide .a = .a ∧ portSide .b = .b)
    ∧ ∀ (s : State) (e : Evaluation), s.ve.eval = some e → e.verdict = none →
    let card := parseImage e.image
    let refusedIn : Evaluation → VCode → Nat → State → Prop := fun e code detail t =>
      ∃ v : Verdict, v.code = code ∧ v.detail = detail ∧ v.charge = 0 ∧ v.balance = card.balance ∧ v.dir = none
        ∧ v.version = e.gateVersion ∧ v.image = none
        ∧ evalStep s = { t with ve := { t.ve with eval := some { e with verdict := some v } } }
    let refusedBy : VCode → Nat → State → Prop := refusedIn e
    let goesOn : Stage → State → Prop := fun st t =>
      evalStep s = { t with ve := { t.ve with eval := some { e with stage := st } } }
    let reserves : Evaluation → Option Dir → (Verdict → Prop) → Prop := fun e dir accepted =>
      (dir.isSome = true → 4 ≤ s.ac.credits.length → refusedIn e .aisleFull 0 s)
        ∧ (dir = none → freeSlots s.jn < 33 → refusedIn e .outOfService 5 s)
        ∧ (dir.isSome = true → s.ac.credits.length < 4 → freeSlots s.jn < 33 →
            (∀ c ∈ s.ac.credits, isReservedPort e.port c = false) →
          ∃ a, refusedIn e .outOfService 5 { s with ac := a } ∧ entries a = entries s.ac
            ∧ a.bodiesAB = s.ac.bodiesAB ∧ a.bodiesBA = s.ac.bodiesBA)
        ∧ (dir = none → 33 ≤ freeSlots s.jn →
          ∃ v, accepted v ∧ evalStep s = { s with
              jn := { s.jn with reserved := s.jn.reserved + 1 }
              ve := { s.ve with eval := some { e with verdict := some v, creditMade := false, slotMade := true } } })
        ∧ (∀ d, dir = some d → s.ac.credits.length < 4 → 33 ≤ freeSlots s.jn →
          ∃ a v, accepted v ∧ evalStep s = { s with
              ac := a
              jn := { s.jn with reserved := s.jn.reserved + 1 }
              ve := { s.ve with eval := some { e with verdict := some v, creditMade := true, slotMade := true } } }
            ∧ entries a = entries s.ac
                ++ [Credit.mk (.reserved (emergencyActive s.ac || s.ac.lockedOut)) d card.serial e.port])
    (e.stage = .form →
        (∀ d, formDetail card = some d → refusedBy .badFormat d s) ∧ (formDetail card = none → goesOn .inFlight s))
      ∧ (e.stage = .inFlight →
        ((∃ p, (card.serial, p) ∈ s.ve.inFlight ∧ p ≠ e.port) → refusedBy .cardInUse 0 s)
          ∧ ((∀ p, (card.serial, p) ∈ s.ve.inFlight → p = e.port) → goesOn .torn s))
      ∧ (e.stage = .torn → unresolvedOf s.ve.torn card.serial = none → goesOn .keyCheck s)
      ∧ (∀ r, e.stage = .torn → unresolvedOf s.ve.torn card.serial = some r →
        let holding := { e with held := some card.serial }
        let dropped := { s.ve with torn := s.ve.torn.filter (fun x => x.serial != card.serial) }
        let goesOnHolding : State → Prop := fun t =>
          evalStep s = { t with ve := { t.ve with eval := some { holding with stage := .keyCheck } } }
        (usableKey s.su card.keyIndex = none → refusedIn holding .damaged 1 s)
          ∧ (∀ key, usableKey s.su card.keyIndex = some key →
            (checkWord key e.image ≠ card.check → refusedIn holding .damaged 2 s)
              ∧ (checkWord key e.image = card.check →
                (card.seq = r.newSeq ∧ card.check = r.newCheck →
                  reserves holding r.dir (fun v => v.code = .resumed ∧ v.detail = portCode r.origin ∧ v.charge = r.charge
                    ∧ v.balance = r.balance ∧ v.dir = r.dir ∧ v.version = r.version ∧ v.image = none))
                  ∧ (¬ (card.seq = r.newSeq ∧ card.check = r.newCheck) →
                    (card.seq = r.oldSeq ∧ card.check = r.oldCheck → goesOnHolding { s with ve := dropped })
                      ∧ (¬ (card.seq = r.oldSeq ∧ card.check = r.oldCheck) →
                        goesOnHolding { s with
                          ve := dropped
                          jn := requestAlert s.tl
                            { kind := .tornUnresolved, side := portSide r.origin, serial := card.serial,
                              seqAfter := r.newSeq, charge := r.charge, balance := r.balance, version := r.version,
                              entryZone := r.entryZone, exitZone := r.exitZone, detail := 3 } s.jn })))))
      ∧ (e.stage = .keyCheck →
        (usableKey s.su card.keyIndex = none → refusedBy .unknownKey card.keyIndex s)
          ∧ (∀ key, usableKey s.su card.keyIndex = some key →
            (checkWord key e.image ≠ card.check → refusedBy .badCheck card.keyIndex s)
              ∧ (checkWord key e.image = card.check → goesOn .deny s)))
      ∧ (e.stage = .deny →
        (∀ d, denyLookup s.su.deny.entries card.serial = some d → refusedBy .denied d.reason s)
          ∧ (denyLookup s.su.deny.entries card.serial = none → goesOn .clone s))
      ∧ (e.stage = .clone →
        (seenLookup s.su.seen card.serial = none → goesOn .exhaustion s)
          ∧ (∀ x, seenLookup s.su.seen card.serial = some x →
            let touched := { s.su with seen := seenTouch x s.su.seen }
            (x.seq < card.seq ∨ (card.seq = x.seq ∧ card.check = x.check) → goesOn .exhaustion { s with su := touched })
              ∧ (∀ k, (card.seq < x.seq ∧ k = .rollback) ∨ (card.seq = x.seq ∧ card.check ≠ x.check ∧ k = .divergent) →
                let listed := denyListLocally card.serial s.su.deny.entries
                let alert :=
                  cloneAlert (portSide e.port) card.serial card.seq card.balance s.cfg.stationNumber k listed.2
                refusedBy .clone (cloneCode k)
                  { s with
                    su := { touched with deny := { s.su.deny with entries := listed.1 } }
                    jn := requestAlert s.tl alert s.jn })))
      ∧ (e.stage = .exhaustion →
        (card.seq = 65535 → refusedBy .exhausted 0 s) ∧ (card.seq ≠ 65535 → goesOn .fare s))
      ∧ (∀ f, e.stage = .reservations → e.fare = some f →
        reserves e (if e.freeExit then none else some (tapDir e.port)) (fun v => v.code = .accept ∧ v.charge = f.charge
          ∧ v.balance = f.balance ∧ v.version = f.version ∧ v.image = some f.image ∧ v.kind = some f.kind
          ∧ v.dir = if e.freeExit then none else some (tapDir e.port)))

/-- APPEND_COMPLETION: the oldest append's record joins the held records and the durable number is its number. For a fare
append the commit completes: the serial leaves the in-flight set, the torn record held by the port goes, the seen table is
written, the credit is granted or removed, and the port is IDLE for an ACCEPT and VERDICT_READY for a RESUMED (R30, R87,
R127, R163). The commit stamp is the minute stamp, day by 1440 and minute of day, and the second within the minute (R27,
R175). -/
def Obligations.CompletionCommits : Prop :=
  (∀ (t : List TornRecord) (p : Port), (pendingOf t p = none ↔ ∀ r ∈ t, r.state ≠ .pending p)
      ∧ (∀ r, pendingOf t p = some r → r ∈ t ∧ r.state = .pending p)
      ∧ ∀ r : TornRecord, r.pendingAt p = true ↔ r.state = .pending p)
    ∧ ∀ (s : State) (a : Append) (rest : List Append), s.jn.queue = a :: rest →
    (a.commit = none → exec .appendCompletion s = .next { s with jn := { s.jn with
        held := s.jn.held ++ [a.record], durable := a.record.number, queue := rest,
        queueMark := s.jn.queueMark && !rest.isEmpty } })
      ∧ (∀ (p : Port) (image new : List Byte) (v : Verdict), a.commit = some p →
          (s.port p).slot = some { image := image, verdict := some v } → v.code = .accept → v.image = some new →
        let seen : SeenEntry :=
          { serial := (parseImage image).serial, seq := (parseImage new).seq, check := (parseImage new).check,
            stamp := s.tl.day * 1440 + s.tl.second / 60, second := s.tl.second % 60 }
        ∃ t, exec .appendCompletion s = .next t
          ∧ t.jn = { s.jn with
              held := s.jn.held ++ [a.record], durable := a.record.number, queue := rest,
              queueMark := s.jn.queueMark && !rest.isEmpty }
          ∧ t.port p = { s.port p with tap := .idle, slot := none } ∧ (∀ q, q ≠ p → t.port q = s.port q)
          ∧ t.ac = grantCredit s.env p a.record.number s.ac
          ∧ t.ve = { s.ve with
              inFlight := s.ve.inFlight.filter (fun m => m.2 != p)
              torn := s.ve.torn.filter (fun r => !r.pendingAt p) }
          ∧ t.su = { s.su with seen := seenWrite seen s.su.seen }
          ∧ t.fu = s.fu ∧ t.tl = s.tl ∧ t.sl = s.sl ∧ t.cfg = s.cfg ∧ t.now = s.now ∧ t.free = s.free)
      ∧ (∀ (p : Port) (image : List Byte) (v : Verdict) (r : TornRecord), a.commit = some p →
          (s.port p).slot = some { image := image, verdict := some v } → v.code = .resumed → v.image = none →
          pendingOf s.ve.torn p = some r →
        let seen : SeenEntry :=
          { serial := r.serial, seq := r.newSeq, check := r.newCheck,
            stamp := s.tl.day * 1440 + s.tl.second / 60, second := s.tl.second % 60 }
        ∃ t, exec .appendCompletion s = .next t
          ∧ t.jn = { s.jn with
              held := s.jn.held ++ [a.record], durable := a.record.number, queue := rest,
              queueMark := s.jn.queueMark && !rest.isEmpty }
          ∧ t.port p = { s.port p with tap := .verdictReady } ∧ (∀ q, q ≠ p → t.port q = s.port q)
          ∧ t.ac = grantCredit s.env p a.record.number s.ac
          ∧ t.ve = { s.ve with
              inFlight := s.ve.inFlight.filter (fun m => m.2 != p)
              torn := s.ve.torn.filter (fun r => !r.pendingAt p) }
          ∧ t.su = { s.su with seen := seenWrite seen s.su.seen }
          ∧ t.fu = s.fu ∧ t.tl = s.tl ∧ t.sl = s.sl ∧ t.cfg = s.cfg ∧ t.now = s.now ∧ t.free = s.free)

/-- What a grant and a release do to the queue: the RESERVED entry of the port, the first one, becomes GRANTED with the
record number at the present time, or goes when it is barred; a release takes it away. The other entries keep their place,
and bodies, detectors, alarm, violation, inputs, emergency and lockout stay. The leaf drive answers the demand after the
change, which a grant makes OPEN (R126, R127, R144, R145). An entry without its window has the same state, direction, serial
and port. -/
def Obligations.GrantAndReleaseByBar : Prop :=
  (∀ (p : Port) (c : Credit), (isReservedPort p c = true ↔ c.port = p ∧ ∃ barred, c.state = .reserved barred)
      ∧ (∀ n at_ w, c.state = .granted n at_ w → withoutWindow c = { c with state := .granted n at_ none })
      ∧ ((∀ n at_ w, c.state ≠ .granted n at_ w) → withoutWindow c = c))
    ∧ ∀ (env : Env) (a : Aisle) (p : Port) (n : Nat) (pre post : List Credit) (c : Credit) (barred : Bool),
    a.credits = pre ++ c :: post → c.state = .reserved barred → c.port = p →
    (∀ x ∈ pre, isReservedPort p x = false) →
    (barred = true → entries (grantCredit env p n a) = (pre ++ post).map withoutWindow)
      ∧ (barred = false → entries (grantCredit env p n a)
          = (pre ++ { c with state := .granted n env.now none } :: post).map withoutWindow)
      ∧ entries (releaseCredit env p a) = (pre ++ post).map withoutWindow
      ∧ ∀ t : Aisle, t = grantCredit env p n a ∨ t = releaseCredit env p a →
          t.bodiesAB = a.bodiesAB ∧ t.bodiesBA = a.bodiesBA ∧ t.detA = a.detA ∧ t.detB = a.detB ∧ t.alarmEnd = a.alarmEnd
            ∧ t.violation = a.violation ∧ t.inputs = a.inputs ∧ t.settleEnd = a.settleEnd
            ∧ t.stationEmergency = a.stationEmergency ∧ t.lockedOut = a.lockedOut
            ∧ t.faultInProgress = a.faultInProgress ∧ t.halt = a.halt ∧ driveAnswered env (demandOpen t) a t

/-- HELD_ACTIVATION_TEST with a test held and no evaluation in progress: the mark is cleared; a READY bank whose effective
day a valid clock has reached becomes ACTIVE, the one ACTIVE before RETIRED, and TARIFF_ACTIVATED is requested with both
versions; a READY bank that is not due waits on, unchanged (R45 to R47). -/
def Obligations.HeldTestActivates : Prop :=
  ∀ (s : State) (one : Bool), s.fu.heldTest = true → s.ve.eval = none → BanksOk s.fu → s.fu.bankIn .ready = some one →
    let retire : Bank → Bank := fun b => if b.state = .active then { b with state := .retired } else b
    let retired : FareUnit :=
      { s.fu with heldTest := false, bank0 := retire s.fu.bank0, bank1 := retire s.fu.bank1 }
    let content : Content :=
      { kind := .tariffActivated, side := .none, version := (s.fu.bank one).version,
        detail := (s.fu.activeBank.map (·.version)).getD 0 }
    (s.tl.valid = true ∧ (s.fu.bank one).effDay ≤ s.tl.day →
      exec .heldActivationTest s = .next { s with
        fu := retired.setBank one { s.fu.bank one with state := .active }
        jn := requestAlert s.tl content s.jn })
      ∧ (s.tl.valid = false ∨ s.tl.day < (s.fu.bank one).effDay →
        exec .heldActivationTest s = .next { s with fu := { s.fu with heldTest := false } })

/-- A table frame or CONFIGURE that completes during an evaluation waits in the receive slot, and nothing else changes; one
whose length does not fit its row waits too and is judged when it is applied (log 16). APPLY_WAITING_FRAME gives it, with the
slot empty again, the effect its own command has; a held activation test stays held; a frame sent to this unit's address is
answered then (log 25). A frame that completes after the evaluation's end, behind a waiting one or a held test, finds the
waiting one applied, the slot emptied and the test made: it has the effect its own command has after APPLY_WAITING_FRAME and
HELD_ACTIVATION_TEST, and where the waiting one is answered, its reply is sent first and the other follows it (R34, R35, R46,
R67, R191). That the waiting frame is applied and the test made by these commands or before the next frame, and not by the
evaluation's end itself, is the model's choice (logs 34 and 39). -/
def Obligations.TableFramesWait : Prop :=
  (∀ (addr : Byte) (payload : List Byte) (s : State) (c : Instr) (code : Byte), payload.length ≤ 96 → s.sl.tx = none →
    (c = .sighting addr payload ∧ code = 0x21 ∨ c = .denyBaseBegin addr payload ∧ code = 0x23
      ∨ c = .denyBaseAdd addr payload ∧ code = 0x24 ∨ c = .denyBaseEnd addr payload ∧ code = 0x25
      ∨ c = .denyDelta addr payload ∧ code = 0x26 ∨ c = .keyLoad addr payload ∧ code = 0x42
      ∨ c = .configure addr payload ∧ code = 0x43) →
    acceptedFrame { addr := addr, code := code, payload := payload } s = true →
    (s.sl.slot = none → s.ve.eval.isSome = true →
      exec c s = .next { s with sl := { s.sl with slot := some { addr := addr, code := code, payload := payload } } })
      ∧ (s.sl.slot = some { addr := addr, code := code, payload := payload } → s.ve.eval = none →
        ∃ t, exec .applyWaitingFrame s = .next t ∧ t.fu = s.fu
          ∧ exec c { s with sl := { s.sl with slot := none }, fu := { s.fu with heldTest := false } }
              = .next { t with fu := { t.fu with heldTest := false } }))
    ∧ (∀ (addr code : Byte) (payload : List Byte) (s u w : State), payload.length ≤ 96 → s.sl.tx = none →
      (s.sl.slot.isSome = true ∨ s.fu.heldTest = true) → s.ve.eval = none → exec .applyWaitingFrame s = .next u →
      exec .heldActivationTest u = .next w → acceptedFrame { addr := addr, code := code, payload := payload } s = true →
      acceptedFrame { addr := addr, code := code, payload := payload } w = true →
      (w.sl.tx = none → exec (stationCommand addr code payload) s = exec (stationCommand addr code payload) w)
        ∧ (∀ first, w.sl.tx = some first →
          ∃ t, exec (stationCommand addr code payload) { w with sl := { w.sl with tx := none } } = .next t
            ∧ exec (stationCommand addr code payload) s = .next
                { t with sl := { t.sl with tx := some first, next := t.sl.tx } }))
    ∧ (∀ (f : Frame) (s : State), acceptedFrame f s = true ↔
        (f.addr ≠ 0 ∧ f.addr.toNat = s.cfg.unitAddress) ∨ (f.addr = 0 ∧ 32 ≤ f.code.toNat ∧ f.code.toNat ≤ 41))

/-! ## The aisle -/

/-- RAW_LEVEL_CHANGE to the level the input has changes nothing; another level cancels, starts or replaces the filter
interval, and during the settle interval starts none. FILTERED_CHANGE at the interval's end gives the filtered level the raw
one; the other inputs and everything outside the aisle and the Journal stay (R108, R110). That
the event brings the time base to its end time is the model's choice (log 2). -/
def Obligations.InputsAreFiltered : Prop :=
  (∀ (i : Input) (level : Bool) (s : State),
      let lineAfter : Bool → Line → Line := fun level l =>
        { raw := level, filtered := l.filtered,
          filterEnd := if s.ac.settleEnd.isSome then l.filterEnd else if level = l.filtered then none
            else some (s.now + s.cfg.filterTime) }
      ((s.ac.inputs.line i).raw = level → exec (.rawLevelChange i level) s = .next s)
        ∧ ((s.ac.inputs.line i).raw ≠ level → exec (.rawLevelChange i level) s = .next
            { s with ac := { s.ac with inputs := s.ac.inputs.put i (lineAfter level (s.ac.inputs.line i)) } }))
    ∧ (∀ (i : Input) (s : State) (e : Nat), (s.ac.inputs.line i).filterEnd = some e →
      ∃ t, exec (.filteredChange i) s = .next t ∧ t.now = max s.now e ∧ outsideAisle s t
        ∧ t.ac.inputs = s.ac.inputs.put i
            { raw := (s.ac.inputs.line i).raw, filtered := (s.ac.inputs.line i).raw, filterEnd := none }
        ∧ ((s.ac.inputs.line i).raw = (s.ac.inputs.line i).filtered → t.jn = s.jn))
    ∧ (∀ (x : Inputs) (i : Input) (l : Line) (f : Line → Line), (x.put i l).line i = l
        ∧ (∀ k, k ≠ i → (x.put i l).line k = x.line k) ∧ (x.each f).line i = f (x.line i)
        ∧ [Input.aOuter, .aInner, .l1, .l2, .bInner, .bOuter, .openStop, .closedStop, .emerg].map x.line
            = [x.aOuter, x.aInner, x.l1, x.l2, x.bInner, x.bOuter, x.openStop, x.closedStop, x.emerg])

/-- The crossing detector's table, by the combination of its two filtered levels after the event. A filtered change of a beam
is an event at the detector of its end, which takes its next state from the levels after the change; a CROSS_IN it reports is
one in the direction that begins at that end, a CROSS_OUT one in the direction that ends there, and what the crossing does to
the aisle and the alerts it requests are the effect of the event (R108, R111, R112). That the event brings the time base to
its end time is the model's choice (log 2). -/
def Obligations.DetectorFollowsItsTable : Prop :=
  (∀ d : Detector, d.next true false
      = (if d = .idle ∨ d = .inO ∨ d = .inOI ∨ d = .inI then (.inO, none) else (.outO, none)))
    ∧ (∀ d : Detector, d.next true true
      = (if d = .idle ∨ d = .ambig then (.ambig, none)
         else if d = .inO ∨ d = .inOI ∨ d = .inI then (.inOI, none) else (.outIO, none)))
    ∧ (∀ d : Detector, d.next false true
      = (if d = .inO ∨ d = .inOI ∨ d = .inI ∨ d = .ambig then (.inI, none) else (.outI, none)))
    ∧ (∀ d : Detector, d.next false false
      = (.idle, if d = .inOI ∨ d = .inI then some .crossIn else if d = .outIO ∨ d = .outO then some .crossOut else none))
    ∧ (∀ (i : Input) (p : Port) (s : State) (e : Nat), (i = .aOuter ∨ i = .aInner) ∧ p = .a ∨ (i = .bInner ∨ i = .bOuter) ∧ p = .b →
        (s.ac.inputs.line i).filterEnd = some e → (s.ac.inputs.line i).raw ≠ (s.ac.inputs.line i).filtered →
      let env : Env := { now := max s.now e, cfg := s.cfg, tl := s.tl }
      let inputs := s.ac.inputs.put i
        { raw := (s.ac.inputs.line i).raw, filtered := (s.ac.inputs.line i).raw, filterEnd := none }
      let next := match p with
        | .a => s.ac.detA.next inputs.aOuter.filtered inputs.aInner.filtered
        | .b => s.ac.detB.next inputs.bOuter.filtered inputs.bInner.filtered
      let a : Aisle := match p with
        | .a => { s.ac with inputs := inputs, detA := next.1 }
        | .b => { s.ac with inputs := inputs, detB := next.1 }
      let entering : Dir := match p with
        | .a => .ab
        | .b => .ba
      let r : AisleRun := match next.2 with
        | none => { ac := a, alerts := [] }
        | some .crossIn => crossIn env entering { ac := a, alerts := [] }
        | some .crossOut => crossOut env entering.other { ac := a, alerts := [] }
      exec (.filteredChange i) s = .next { s with
        now := max s.now e, ac := r.ac, jn := requestAlerts s.tl r.alerts s.jn })

/-- A CROSS_IN in direction d: the counter rises, up to 7, the other stays. The oldest GRANTED entry of d, if there is one,
becomes IN_AISLE at the present time; else in emergency nothing more, and outside it the alarm starts with the violation by
the direction before, and its alert is requested. The leaf drive answers the demand (R111, R113, R114, R117, R119, R120,
R145). -/
def Obligations.CrossingInClaims : Prop :=
  (Dir.ab.other = .ba ∧ Dir.ba.other = .ab ∧ startSide .ab = .a ∧ startSide .ba = .b
      ∧ ∀ (a : Aisle) (d : Dir) (c : Credit), bodies a .ab = a.bodiesAB ∧ bodies a .ba = a.bodiesBA
        ∧ (isGrantedDir d c = true ↔ c.dir = d ∧ ∃ n at_ w, c.state = .granted n at_ w))
    ∧ ∀ (env : Env) (d : Dir) (r : AisleRun),
    let content : RecKind → Content := fun k =>
      { kind := k, side := startSide d, detail := min 7 (bodies r.ac d + 1) * 256 + dirCode (direction r.ac) }
    bodies (crossIn env d r).ac d = min 7 (bodies r.ac d + 1)
      ∧ driveAnswered env (demandOpen r.ac) r.ac (crossIn env d r).ac
      ∧ bodies (crossIn env d r).ac d.other = bodies r.ac d.other
      ∧ (∀ (pre post : List Credit) (c : Credit) (n at_ : Nat) (w : Option Nat), r.ac.credits = pre ++ c :: post →
          c.state = .granted n at_ w → c.dir = d → (∀ x ∈ pre, isGrantedDir d x = false) →
        entries (crossIn env d r).ac = (pre ++ { c with state := .inAisle n at_ env.now } :: post).map withoutWindow
          ∧ (crossIn env d r).alerts = r.alerts ∧ (crossIn env d r).ac.alarmEnd = r.ac.alarmEnd
          ∧ (crossIn env d r).ac.violation = r.ac.violation)
      ∧ (r.ac.credits.any (isGrantedDir d) = false →
        entries (crossIn env d r).ac = entries r.ac
          ∧ (emergencyActive r.ac = true →
              (crossIn env d r).alerts = r.alerts ∧ (crossIn env d r).ac.alarmEnd = r.ac.alarmEnd
                ∧ (crossIn env d r).ac.violation = r.ac.violation)
          ∧ (emergencyActive r.ac = false →
              (crossIn env d r).ac.alarmEnd = some (env.now + env.cfg.alarmTime * 1000)
                ∧ (direction r.ac = some d.other → (crossIn env d r).ac.violation = some .contraflow
                    ∧ (crossIn env d r).alerts = r.alerts ++ [content .contraflow])
                ∧ (direction r.ac ≠ some d.other → (crossIn env d r).ac.violation = some .tailgate
                    ∧ (crossIn env d r).alerts = r.alerts ++ [content .tailgate])))

/-- A CROSS_OUT at the far end of d: with a body of d counted it is a departure, which completes the passage of the oldest
IN_AISLE entry of d; else with a body of the other direction it is a back-out, which returns the newest IN_AISLE entry of
that direction to GRANTED with its record number and grant time, or under lockout removes it with its alert; else it is
ignored. A completed passage is a headway capture: the time since the last completion of d, at most 65,535 ms, joins the
captures, of which the newest stay up to the averaging depth, and the history direction is d; without a completion of d
before, or with a history of the other direction, nothing is captured; the last completion time of d is the present time.
The leaf drive answers the demand after the crossing, which is CLOSE with the last entry gone (R115, R116, R131, R145). -/
def Obligations.CrossingOutDepartsOrReturns : Prop :=
  (∀ (d : Dir) (c : Credit), isInAisleDir d c = true ↔ c.dir = d ∧ ∃ n at_ since, c.state = .inAisle n at_ since)
    ∧ (∀ (env : Env) (d : Dir) (r : AisleRun),
      (0 < bodies r.ac d ∨ 0 < bodies r.ac d.other →
          driveAnswered env (demandOpen (crossOut env d r).ac) r.ac (crossOut env d r).ac)
        ∧ (0 < bodies r.ac d →
        bodies (crossOut env d r).ac d = bodies r.ac d - 1 ∧ bodies (crossOut env d r).ac d.other = bodies r.ac d.other
          ∧ (crossOut env d r).alerts = r.alerts
          ∧ (r.ac.credits.any (isInAisleDir d) = false → entries (crossOut env d r).ac = entries r.ac)
          ∧ (∀ (pre post : List Credit) (c : Credit), r.ac.credits = pre ++ c :: post → isInAisleDir d c = true →
              (∀ x ∈ pre, isInAisleDir d x = false) →
            entries (crossOut env d r).ac = (pre ++ post).map withoutWindow))
        ∧ (bodies r.ac d = 0 → 0 < bodies r.ac d.other →
          bodies (crossOut env d r).ac d = 0 ∧ bodies (crossOut env d r).ac d.other = bodies r.ac d.other - 1
            ∧ (r.ac.credits.any (isInAisleDir d.other) = false →
                entries (crossOut env d r).ac = entries r.ac ∧ (crossOut env d r).alerts = r.alerts)
            ∧ (∀ (pre post : List Credit) (c : Credit) (n at_ since : Nat), r.ac.credits = pre ++ c :: post →
                c.state = .inAisle n at_ since → c.dir = d.other → (∀ x ∈ post, isInAisleDir d.other x = false) →
              (r.ac.lockedOut = false →
                entries (crossOut env d r).ac = (pre ++ { c with state := .granted n at_ none } :: post).map withoutWindow
                  ∧ (crossOut env d r).alerts = r.alerts)
                ∧ (r.ac.lockedOut = true →
                  entries (crossOut env d r).ac = (pre ++ post).map withoutWindow
                    ∧ (crossOut env d r).alerts = r.alerts ++ [unusedAlert env .lockout c.dir c.serial n at_])))
        ∧ (bodies r.ac d = 0 → bodies r.ac d.other = 0 → crossOut env d r = r))
    ∧ (∀ (env : Env) (d : Dir) (r : AisleRun) (pre post : List Credit) (c : Credit), 0 < bodies r.ac d →
        r.ac.credits = pre ++ c :: post → isInAisleDir d c = true → (∀ x ∈ pre, isInAisleDir d x = false) →
      ∃ left : Aisle, left.credits = pre ++ post ∧ bodies left d = bodies r.ac d - 1
        ∧ bodies left d.other = bodies r.ac d.other ∧ left.captures = r.ac.captures ∧ left.histDir = r.ac.histDir
        ∧ left.lastAB = r.ac.lastAB ∧ left.lastBA = r.ac.lastBA
        ∧ crossOut env d r = { r with ac := settle env (aisleIdle r.ac) (headway env d left) })
    ∧ (∀ (env : Env) (d : Dir) (a : Aisle),
      let last : Aisle → Dir → Option Nat := fun a d => if d = .ab then a.lastAB else a.lastBA
      last (headway env d a) d = some env.now ∧ last (headway env d a) d.other = last a d.other
        ∧ (headway env d a).credits = a.credits
        ∧ (last a d = none ∨ a.histDir = some d.other →
            (headway env d a).captures = a.captures ∧ (headway env d a).histDir = a.histDir)
        ∧ (∀ t, last a d = some t → a.histDir ≠ some d.other →
          let all := a.captures ++ [min (env.now - t) 65535]
          (headway env d a).captures = all.drop (all.length - env.cfg.avgDepth) ∧ (headway env d a).histDir = some d))

/-- EMERGENCY at address 0. SET in an inactive state: every RESERVED entry is barred, every GRANTED one is withdrawn with
its alert, every IN_AISLE one goes, the bodies stay. CLEAR that ends the state: both counters 0, no alert, the flow history
clear. SET while active, and CLEAR that leaves the state as it is: the flag alone. Another payload: nothing. A filtered
change of the EMERG input that makes the state active, or ends it, has the same effects with the input's level in place of
the flag; with the flag set it changes the input alone. The leaf drive answers the demand: OPEN at the start outside
LOCKED_OUT, at the end OPEN only with an entry that is not RESERVED. The state is active by the filtered input or the flag.
UNUSED_PASSAGE carries the side its passage begins at, the serial, the time since the grant in the sequence field, the cause
(HOLD_EXPIRED 1, EMERGENCY 2, LOCKOUT 3) in the exit zone and the low half of the record number (R139, R145, R155 to R157,
R162). That an event brings the time base to its end time is the model's choice (log 2). -/
def Obligations.EmergencyFrameActs : Prop :=
  (∀ s : State, lineOpen s →
      (emergencyActive s.ac = false → ∃ t, exec (.emergency 0 [0x01#8]) s = .next t ∧ t.now = s.now ∧ outsideAisle s t
          ∧ t.ac.stationEmergency = true ∧ t.ac.inputs = s.ac.inputs
          ∧ t.ac.credits = (s.ac.credits.filter (fun c => c.isReserved)).map (fun c => { c with state := .reserved true })
          ∧ t.ac.bodiesAB = s.ac.bodiesAB ∧ t.ac.bodiesBA = s.ac.bodiesBA
          ∧ t.jn = requestAlerts s.tl (s.ac.credits.filterMap (grantedAlert s.env .emergency)) s.jn
          ∧ driveAnswered { now := s.now, cfg := s.cfg, tl := s.tl } (!s.ac.lockedOut) s.ac t.ac)
        ∧ (emergencyActive s.ac = true →
            exec (.emergency 0 [0x01#8]) s = .next { s with ac := { s.ac with stationEmergency := true } })
        ∧ (s.ac.stationEmergency = true → s.ac.inputs.emerg.filtered = false →
            ∃ t, exec (.emergency 0 [0x00#8]) s = .next t ∧ t.now = s.now ∧ outsideAisle s t
              ∧ t.ac.stationEmergency = false ∧ t.ac.bodiesAB = 0 ∧ t.ac.bodiesBA = 0 ∧ t.jn = s.jn
              ∧ entries t.ac = entries s.ac ∧ driveAnswered { now := s.now, cfg := s.cfg, tl := s.tl }
                (s.ac.credits.any (fun c => !c.isReserved)) s.ac t.ac)
        ∧ (s.ac.stationEmergency = false ∨ s.ac.inputs.emerg.filtered = true →
            exec (.emergency 0 [0x00#8]) s = .next { s with ac := { s.ac with stationEmergency := false } })
        ∧ (∀ payload, payload ≠ [0x00#8] → payload ≠ [0x01#8] → exec (.emergency 0 payload) s = .next s))
    ∧ (∀ (s : State) (e : Nat), s.ac.inputs.emerg.filterEnd = some e →
      let inputs : Inputs := { s.ac.inputs with
        emerg := { raw := s.ac.inputs.emerg.raw, filtered := s.ac.inputs.emerg.raw, filterEnd := none } }
      (emergencyActive s.ac = false → s.ac.inputs.emerg.raw = true →
        ∃ t, exec (.filteredChange .emerg) s = .next t ∧ t.now = max s.now e ∧ outsideAisle s t
          ∧ t.ac.stationEmergency = false ∧ t.ac.inputs = inputs
          ∧ t.ac.credits = (s.ac.credits.filter (fun c => c.isReserved)).map (fun c => { c with state := .reserved true })
          ∧ t.ac.bodiesAB = s.ac.bodiesAB ∧ t.ac.bodiesBA = s.ac.bodiesBA
          ∧ t.jn = requestAlerts s.tl (s.ac.credits.filterMap
              (grantedAlert { now := max s.now e, cfg := s.cfg, tl := s.tl } .emergency)) s.jn
          ∧ driveAnswered { now := max s.now e, cfg := s.cfg, tl := s.tl } (!s.ac.lockedOut) s.ac t.ac)
        ∧ (s.ac.stationEmergency = false → s.ac.inputs.emerg.filtered = true → s.ac.inputs.emerg.raw = false →
          ∃ t, exec (.filteredChange .emerg) s = .next t ∧ t.now = max s.now e ∧ outsideAisle s t
            ∧ t.ac.stationEmergency = false ∧ t.ac.inputs = inputs ∧ t.ac.bodiesAB = 0 ∧ t.ac.bodiesBA = 0
            ∧ t.ac.captures = [] ∧ t.ac.lastAB = none ∧ t.ac.lastBA = none ∧ t.jn = s.jn ∧ entries t.ac = entries s.ac
            ∧ driveAnswered { now := max s.now e, cfg := s.cfg, tl := s.tl }
              (s.ac.credits.any (fun c => !c.isReserved)) s.ac t.ac)
        ∧ (s.ac.stationEmergency = true → exec (.filteredChange .emerg) s = .next { s with
            now := max s.now e, ac := { s.ac with inputs := inputs } }))
    ∧ (∀ s t : State, lineOpen s → s.ac.stationEmergency = true → s.ac.inputs.emerg.filtered = false →
      exec (.emergency 0 [0x00#8]) s = .next t → t.ac.captures = [] ∧ t.ac.lastAB = none ∧ t.ac.lastBA = none)
    ∧ (∀ a : Aisle, emergencyActive a = true ↔ a.inputs.emerg.filtered = true ∨ a.stationEmergency = true)
    ∧ (∀ (env : Env) (c : Credit) (cause : Nat) (why : Cause), [Cause.holdExpired, .emergency, .lockout][cause]? = some why →
      (∀ n at_ w, c.state = .granted n at_ w → grantedAlert env why c = some
          { kind := .unusedPassage, side := if c.dir = .ab then .a else .b, serial := c.serial,
            seqAfter := min (env.now - at_) 65535, exitZone := cause + 1, detail := n % 65536 })
        ∧ ((∀ n at_ w, c.state ≠ .granted n at_ w) → grantedAlert env why c = none))

/-- SETTLE_END: the settle interval is over, every filtered level is the raw one with no interval running, and the drive of
an aisle that is not LOCKED_OUT leaves RELEASED; everything outside the aisle and the Journal stays. Each detector takes one
event with the levels of its two beams: from IDLE, with both occupied, it is AMBIG. The drive: RELEASED in LOCKED_OUT; with
the emergency state active a motion to open, not full, complete at once on its stop; else the close of the re-home, not
full, complete at once on its stop, on which the demand then acts as in CLOSED or CLOSING (R110, R111, R143, R145, R146,
R159). That a re-home complete at its start is CLOSED before the demand acts is the model's choice (log 36). That a settle
which finds both end stops active is no stop conflict, so that LOCKED_OUT never begins here, is the model's reading (log
22); that the event brings the time base to its end time is its choice (log 2). -/
def Obligations.SettleEndTakesLevels : Prop :=
  ∀ (s : State) (e : Nat), s.ac.settleEnd = some e →
    ∃ t, exec .settleEnd s = .next t ∧ t.now = max s.now e ∧ outsideAisle s t ∧ t.ac.settleEnd = none
      ∧ t.ac.inputs = s.ac.inputs.each (fun l => { raw := l.raw, filtered := l.raw, filterEnd := none })
      ∧ t.ac.lockedOut = s.ac.lockedOut ∧ (s.ac.lockedOut = false → t.ac.leaf ≠ .released)
      ∧ t.ac.detA = (s.ac.detA.next s.ac.inputs.aOuter.raw s.ac.inputs.aInner.raw).1
      ∧ t.ac.detB = (s.ac.detB.next s.ac.inputs.bOuter.raw s.ac.inputs.bInner.raw).1
      ∧ (s.ac.detA = .idle → s.ac.inputs.aOuter.raw = true → s.ac.inputs.aInner.raw = true → t.ac.detA = .ambig)
      ∧ (s.ac.detB = .idle → s.ac.inputs.bOuter.raw = true → s.ac.inputs.bInner.raw = true → t.ac.detB = .ambig)
      ∧ (s.ac.lockedOut = true → s.ac.leaf = .released → t.ac.leaf = .released)
      ∧ (s.ac.lockedOut = false →
        let env : Env := { now := max s.now e, cfg := s.cfg, tl := s.tl }
        let atOpen : Prop := s.ac.inputs.openStop.raw = true ∧ s.ac.inputs.closedStop.raw = false
        let atClosed : Prop := s.ac.inputs.closedStop.raw = true ∧ s.ac.inputs.openStop.raw = false
        let drive : Leaf → Option Motion → Prop := fun leaf motion => t.ac.leaf = leaf ∧ t.ac.motion = motion
        let opens : Prop := (atOpen → drive .opened none) ∧ (¬ atOpen → drive .opening (some (newMotion env .toOpen false s.ac)))
        (s.ac.inputs.emerg.raw = true ∨ s.ac.stationEmergency = true → opens)
          ∧ (s.ac.inputs.emerg.raw = false → s.ac.stationEmergency = false →
            (demandOpen t.ac = false → (atClosed → drive .closed none)
                ∧ (¬ atClosed → drive .closing (some (newMotion env .toClosed false s.ac))))
              ∧ (demandOpen t.ac = true → (atClosed → drive .opening (some (newMotion env .toOpen true s.ac)))
                ∧ (¬ atClosed → opens))))

/-- TRAVEL_TIMEOUT_EXPIRY of a moving drive, and a stop conflict: a filtered change that leaves both end stops active. The
first fault sets fault-in-progress, requests LEAF_FAULT with the time since the motion's start (0 at a held position), the
target and the cause TIMEOUT or STOP_CONFLICT, and drives again to the same target with a fresh motion record that is not
full. A fault with the flag set locks the aisle out: the halt record is taken, the drive is RELEASED, RESERVED entries are
barred, GRANTED ones withdrawn, with LOCKOUT and their alerts in order. A motion record has the present time, the travel
timeout of its kind: twice its travel base and 100 ms, within 300..3000 ms, and toward closed the blank window's end: the
closing base by the blank factor, over 128; a travel base is the average of its kind's captures, or without one the default.
The halt record: the leaf state, the target, the numbers of RESERVED, GRANTED and IN_AISLE entries and the body counters
before the entries change, the six beams and both stops as filtered, the minute stamp and the second within the minute, 0
without a valid clock, and whether the clock is valid (R143, R146, R147, R150 to R152, R175). That an event brings the time
base to its end time is the model's choice (log 2). The numbers of the causes are read from the order of the manual's lists
(log 23). -/
def Obligations.TravelTimeoutFaults : Prop :=
  let halted : State → HaltCode → Target → Bool → Bool → HaltRecord := fun s code tgt openStop closedStop =>
    { valid := true, code := some code, leaf := s.ac.leaf, target := some tgt,
      reserved := s.ac.credits.countP (fun c => match c.state with
        | .reserved _ => true
        | _ => false)
      granted := s.ac.credits.countP (fun c => match c.state with
        | .granted _ _ _ => true
        | _ => false)
      inAisle := s.ac.credits.countP (fun c => match c.state with
        | .inAisle _ _ _ => true
        | _ => false)
      bodiesAB := s.ac.bodiesAB, bodiesBA := s.ac.bodiesBA, aOuter := s.ac.inputs.aOuter.filtered,
      aInner := s.ac.inputs.aInner.filtered, l1 := s.ac.inputs.l1.filtered, l2 := s.ac.inputs.l2.filtered,
      bInner := s.ac.inputs.bInner.filtered, bOuter := s.ac.inputs.bOuter.filtered, openStop := openStop,
      closedStop := closedStop, stamp := if s.tl.valid then s.tl.day * 1440 + s.tl.second / 60 else 0,
      second := if s.tl.valid then s.tl.second % 60 else 0, timeValid := s.tl.valid }
  let barred : Credit → Credit := fun c => match c.state with
    | .reserved _ => { c with state := .reserved true }
    | _ => c
  (∀ (s : State) (m : Motion) (tgt : Target), s.ac.motion = some m → s.ac.leaf = movingLeaf tgt →
      (s.ac.faultInProgress = false → stopsAt s.ac tgt = false → DriveOk s.ac →
        ∃ t, exec .travelTimeoutExpiry s = .next t ∧ t.now = max s.now (m.start + m.timeout) ∧ outsideAisle s t
          ∧ t.ac.faultInProgress = true ∧ t.ac.lockedOut = s.ac.lockedOut ∧ t.ac.leaf = s.ac.leaf
          ∧ t.ac.motion.map (fun m => (m.start, m.full)) = some (max s.now (m.start + m.timeout), false)
          ∧ entries t.ac = entries s.ac
          ∧ t.jn = requestAlert s.tl
              { kind := .leafFault, side := .none, seqAfter := min (max s.now (m.start + m.timeout) - m.start) 65535,
                exitZone := targetCode (some tgt), detail := 1 } s.jn)
        ∧ (s.ac.faultInProgress = true →
          ∃ t, exec .travelTimeoutExpiry s = .next t ∧ t.now = max s.now (m.start + m.timeout) ∧ outsideAisle s t
            ∧ t.ac.lockedOut = true ∧ t.ac.leaf = .released ∧ t.ac.motion = none ∧ t.ac.reversals = 0
            ∧ t.ac.obstructHold = false ∧ t.ac.zoneClearEnd = none ∧ t.ac.faultInProgress = true
            ∧ t.ac.halt
                = halted s .doubleFault tgt s.ac.inputs.openStop.filtered s.ac.inputs.closedStop.filtered
            ∧ t.ac.credits = (s.ac.credits.filter (fun c => !c.isGranted)).map barred
            ∧ t.ac.bodiesAB = s.ac.bodiesAB ∧ t.ac.bodiesBA = s.ac.bodiesBA ∧ t.ac.inputs = s.ac.inputs
            ∧ t.jn = requestAlerts s.tl ({ kind := .lockout, side := .none, detail := 1 }
                :: s.ac.credits.filterMap
                    (grantedAlert { now := max s.now (m.start + m.timeout), cfg := s.cfg, tl := s.tl } .lockout)) s.jn))
    ∧ (∀ (s : State) (i : Input) (e : Nat) (tgt : Target), (i = .openStop ∧ s.ac.inputs.closedStop.filtered = true
          ∨ i = .closedStop ∧ s.ac.inputs.openStop.filtered = true) → (s.ac.inputs.line i).filterEnd = some e →
        (s.ac.inputs.line i).raw = true → (s.ac.inputs.line i).filtered = false → leafTarget s.ac.leaf = some tgt →
      let env : Env := { now := max s.now e, cfg := s.cfg, tl := s.tl }
      (s.ac.faultInProgress = false → DriveOk s.ac →
        ∃ t, exec (.filteredChange i) s = .next t ∧ t.now = max s.now e ∧ outsideAisle s t
          ∧ t.ac.faultInProgress = true ∧ t.ac.lockedOut = s.ac.lockedOut ∧ t.ac.leaf = movingLeaf tgt
          ∧ t.ac.motion = some (newMotion env tgt false s.ac) ∧ entries t.ac = entries s.ac
          ∧ t.jn = requestAlert s.tl
              { kind := .leafFault, side := .none,
                seqAfter := (s.ac.motion.map (fun m => min (max s.now e - m.start) 65535)).getD 0,
                exitZone := targetCode (some tgt), detail := 2 } s.jn)
        ∧ (s.ac.faultInProgress = true →
          ∃ t, exec (.filteredChange i) s = .next t ∧ t.now = max s.now e ∧ outsideAisle s t
            ∧ t.ac.lockedOut = true ∧ t.ac.leaf = .released ∧ t.ac.motion = none ∧ t.ac.reversals = 0
            ∧ t.ac.obstructHold = false ∧ t.ac.zoneClearEnd = none ∧ t.ac.faultInProgress = true
            ∧ t.ac.halt = halted s .stopConflict tgt true true
            ∧ t.ac.credits = (s.ac.credits.filter (fun c => !c.isGranted)).map barred
            ∧ t.ac.bodiesAB = s.ac.bodiesAB ∧ t.ac.bodiesBA = s.ac.bodiesBA
            ∧ t.ac.inputs = s.ac.inputs.put i { raw := true, filtered := true, filterEnd := none }
            ∧ t.jn = requestAlerts s.tl ({ kind := .lockout, side := .none, detail := 2 }
                :: s.ac.credits.filterMap (grantedAlert env .lockout)) s.jn))
    ∧ (∀ (env : Env) (tgt : Target) (full : Bool) (a : Aisle) (base : List Nat → Nat),
        (∀ hist, base hist = if hist = [] then env.cfg.travelBase else hist.sum / hist.length) →
      newMotion env tgt full a
        = { start := env.now
            timeout := max 300 (min 3000 (2 * base (if tgt = .toOpen then a.openHist else a.closeHist) + 100))
            full := full
            blankEnd := if tgt = .toOpen then none else some (env.now + base a.closeHist * env.cfg.blankFactor / 128)
            blankTaken := false })
    ∧ (movingLeaf .toOpen = .opening ∧ movingLeaf .toClosed = .closing
        ∧ [Leaf.closed, .opening, .opened, .closing, .released].map leafTarget
            = [some .toClosed, some .toOpen, some .toOpen, some .toClosed, none])

/-- BLANK_WINDOW_END of a closing drive: with the zone clear the close goes on, its window's end taken; with the zone
occupied it is reversed, the reversal count up by 1, and at 3 the obstruction hold is set. ZONE_CLEAR_TIMER_EXPIRY ends the
hold and sets the count to 0, and the drive answers the demand. A filtered change of L1 or L2: occupied in a close past its
blank window reverses it, elsewhere the drive stays; under the hold an occupied zone stops the zone-clear timer, and a zone
that becomes clear starts it with 1000 ms; an OPEN leaf without demand and hold closes when the zone becomes clear. A
filtered change of an end stop: a motion whose stop is then active and the other clear completes, and a full one is captured
among the newest 4 of its kind; a held stop that is lost is driven to again, not full; released, the stops act on nothing
(R142, R143, R145 to R149). The mark of a taken end, and that an event brings the time base to its end time, are the model's
choice (log 2). -/
def Obligations.DriveTimersAct : Prop :=
  let reversed : Env → Aisle → Aisle → Prop := fun env a t =>
    (stopsAt a .toOpen = true → t.leaf = .opened ∧ t.motion = none)
      ∧ (stopsAt a .toOpen = false → t.leaf = .opening ∧ t.motion = some (newMotion env .toOpen false a))
  ((∀ (s : State) (m : Motion) (e : Nat), s.ac.motion = some m → m.blankEnd = some e → m.blankTaken = false →
        s.ac.leaf = .closing → DriveOk s.ac →
        (zoneClear s.ac = true → ∃ t, exec .blankWindowEnd s = .next t ∧ t.now = max s.now e ∧ t.jn = s.jn ∧ outsideAisle s t
            ∧ t.ac.leaf = .closing ∧ t.ac.motion = some { m with blankTaken := true } ∧ t.ac.reversals = s.ac.reversals)
          ∧ (zoneClear s.ac = false → ∃ t, exec .blankWindowEnd s = .next t ∧ t.now = max s.now e ∧ t.jn = s.jn
            ∧ outsideAisle s t ∧ reversed { now := max s.now e, cfg := s.cfg, tl := s.tl } s.ac t.ac
            ∧ t.ac.reversals = min 3 (s.ac.reversals + 1) ∧ (2 ≤ s.ac.reversals → t.ac.obstructHold = true)))
      ∧ (∀ (s : State) (e : Nat), s.ac.zoneClearEnd = some e →
        ∃ t, exec .zoneClearTimerExpiry s = .next t ∧ t.now = max s.now e ∧ t.jn = s.jn ∧ outsideAisle s t
          ∧ t.ac.obstructHold = false ∧ t.ac.reversals = 0 ∧ t.ac.zoneClearEnd = none ∧ entries t.ac = entries s.ac
          ∧ driveAnswered { now := max s.now e, cfg := s.cfg, tl := s.tl } (demandOpen s.ac)
            { s.ac with obstructHold := false } t.ac))
    ∧ (∀ (s : State) (i : Input) (e : Nat), (i = .l1 ∨ i = .l2) → (s.ac.inputs.line i).filterEnd = some e →
        (s.ac.inputs.line i).raw ≠ (s.ac.inputs.line i).filtered → DriveOk s.ac →
      let other := if i = .l1 then s.ac.inputs.l2.filtered else s.ac.inputs.l1.filtered
      let watched : Prop := s.ac.leaf = .closing ∧ ∃ m b, s.ac.motion = some m ∧ m.blankEnd = some b ∧ b ≤ max s.now e
      let stays : Aisle → Prop := fun a => a.leaf = s.ac.leaf ∧ a.motion = s.ac.motion ∧ a.reversals = s.ac.reversals
        ∧ a.obstructHold = s.ac.obstructHold
      ∃ t, exec (.filteredChange i) s = .next t ∧ t.now = max s.now e ∧ t.jn = s.jn ∧ outsideAisle s t
        ∧ entries t.ac = entries s.ac
        ∧ ((s.ac.inputs.line i).raw = true →
          (watched → reversed { now := max s.now e, cfg := s.cfg, tl := s.tl } s.ac t.ac
              ∧ t.ac.reversals = min 3 (s.ac.reversals + 1)
              ∧ (2 ≤ s.ac.reversals → t.ac.obstructHold = true))
            ∧ (¬ watched → stays t.ac
              ∧ t.ac.zoneClearEnd = if s.ac.obstructHold then none else s.ac.zoneClearEnd))
        ∧ ((s.ac.inputs.line i).raw = false →
          (s.ac.obstructHold = true → stays t.ac
              ∧ t.ac.zoneClearEnd = if other then s.ac.zoneClearEnd else some (max s.now e + 1000))
            ∧ (s.ac.obstructHold = false → s.ac.leaf = .opened → demandOpen s.ac = false → other = false →
              t.ac.leaf = .closing ∧ t.ac.motion
                  = some (newMotion { now := max s.now e, cfg := s.cfg, tl := s.tl } .toClosed true s.ac)
                ∨ t.ac.leaf = .closed ∧ stopsAt s.ac .toClosed = true)
            ∧ (s.ac.obstructHold = false → s.ac.leaf ≠ .opened ∨ demandOpen s.ac = true ∨ other = true → stays t.ac)))
    ∧ (∀ (s : State) (i : Input) (e : Nat), (i = .openStop ∨ i = .closedStop) →
        (s.ac.inputs.line i).filterEnd = some e → (s.ac.inputs.line i).raw ≠ (s.ac.inputs.line i).filtered → DriveOk s.ac →
      let env : Env := { now := max s.now e, cfg := s.cfg, tl := s.tl }
      let stops : Bool × Bool := if i = .openStop then (s.ac.inputs.openStop.raw, s.ac.inputs.closedStop.filtered)
        else (s.ac.inputs.openStop.filtered, s.ac.inputs.closedStop.raw)
      let newest : Motion → List Nat → List Nat := fun m hist =>
        if m.full then (hist ++ [min (max s.now e - m.start) 65535]).drop (hist.length + 1 - 4) else hist
      ¬ (stops = (true, true) ∧ s.ac.leaf ≠ .released) →
      ∃ t, exec (.filteredChange i) s = .next t ∧ t.now = max s.now e ∧ t.jn = s.jn ∧ outsideAisle s t
        ∧ entries t.ac = entries s.ac
        ∧ (∀ m, s.ac.motion = some m → s.ac.leaf = .opening → stops = (true, false) →
            t.ac.openHist = newest m s.ac.openHist ∧ t.ac.closeHist = s.ac.closeHist
              ∧ (demandOpen s.ac = true ∨ zoneClear s.ac = false ∨ s.ac.obstructHold = true →
                  t.ac.leaf = .opened ∧ t.ac.motion = none)
              ∧ (demandOpen s.ac = false → zoneClear s.ac = true → s.ac.obstructHold = false →
                  t.ac.leaf = .closing ∧ t.ac.motion = some (newMotion env .toClosed true s.ac)))
        ∧ (∀ m, s.ac.motion = some m → s.ac.leaf = .closing → stops = (false, true) →
            t.ac.closeHist = newest m s.ac.closeHist ∧ t.ac.openHist = s.ac.openHist
              ∧ t.ac.leaf = .closed ∧ t.ac.motion = none ∧ t.ac.reversals = 0)
        ∧ (s.ac.leaf = .opened → i = .openStop → stops.1 = false →
            t.ac.leaf = .opening ∧ t.ac.motion = some (newMotion env .toOpen false s.ac))
        ∧ (s.ac.leaf = .closed → i = .closedStop → stops.2 = false →
            t.ac.leaf = .closing ∧ t.ac.motion = some (newMotion env .toClosed false s.ac))
        ∧ (s.ac.leaf = .released → t.ac.leaf = .released ∧ t.ac.motion = s.ac.motion))
    ∧ (∀ a : Aisle, (zoneClear a = true ↔ a.inputs.l1.filtered = false ∧ a.inputs.l2.filtered = false)
        ∧ (stopsAt a .toOpen = true ↔ a.inputs.openStop.filtered = true ∧ a.inputs.closedStop.filtered = false)
        ∧ (stopsAt a .toClosed = true ↔ a.inputs.closedStop.filtered = true ∧ a.inputs.openStop.filtered = false))

/-- ALARM_TIMER_EXPIRY ends the alarm and the violation; LOITER_LIMIT_REACHED sets LOITER; IDLE_TIMER_EXPIRY stops the idle
timer and clears the flow history; nothing else but the time base changes. HOLD_WINDOW_EXPIRY: the entry whose window runs
leaves the queue, and UNUSED_PASSAGE with the cause HOLD_EXPIRED is requested with its direction's end, its serial, the time
since its grant and the low half of its record number; the aisle is then settled. What settling does after any change:
without a direction, or in the history's, the flow history stays and takes a direction it lacks, at a turn it is cleared;
the hold window runs for the oldest GRANTED entry of the direction in an OPEN aisle, as it ran or with the hold from the
present time: the flow base, the average of the captures or the configured one, by the hold factor over 128, within the hold
limits; the idle timer starts when the aisle becomes idle, and stops when it is not; LOITER stays while an IN_AISLE entry is
past the limit; the leaf drive answers the demand: a CLOSED drive opens, a CLOSING one is reversed, an OPEN one with the
zone clear and no hold closes. The demand is OPEN in the emergency state outside LOCKED_OUT and with a GRANTED or IN_AISLE
entry; the direction is that of the oldest such entry, else of a body (R120, R122, R129, R130, R132 to R139, R144, R145).
That an event brings the time base to its end time is the model's choice (log 2); that LOITER is due 1 ms past the limit is
read from R122 (log 18). -/
def Obligations.AisleTimersAct : Prop :=
  (∀ (s : State) (e : Nat),
      (s.ac.alarmEnd = some e →
        exec .alarmTimerExpiry s = .next { s with
          now := max s.now e, ac := { s.ac with alarmEnd := none, violation := none } })
        ∧ (nextLoiter s.env s.ac = some e →
          exec .loiterLimitReached s = .next { s with now := max s.now e, ac := { s.ac with loiter := true } })
        ∧ (s.ac.idleEnd = some e →
          exec .idleTimerExpiry s = .next { s with
            now := max s.now e
            ac := { s.ac with idleEnd := none, captures := [], histDir := none, lastAB := none, lastBA := none } })
        ∧ (∀ (pre post : List Credit) (c : Credit) (n at_ : Nat), s.ac.credits = pre ++ c :: post →
            c.state = .granted n at_ (some e) → (∀ x ∈ pre, holdEndOf x = none) →
          let content : Content :=
            { kind := .unusedPassage, side := startSide c.dir, serial := c.serial, seqAfter := min (max s.now e - at_) 65535,
              exitZone := 1, detail := n % 65536 }
          ∃ t, exec .holdWindowExpiry s = .next t ∧ t.now = max s.now e ∧ outsideAisle s t
            ∧ entries t.ac = (pre ++ post).map withoutWindow ∧ t.ac.bodiesAB = s.ac.bodiesAB ∧ t.ac.bodiesBA = s.ac.bodiesBA
            ∧ t.jn = requestAlert s.tl content s.jn))
    ∧ (∀ (s : State) (e : Nat) (pre post : List Credit) (c : Credit) (n at_ : Nat), s.ac.credits = pre ++ c :: post →
        c.state = .granted n at_ (some e) → (∀ x ∈ pre, holdEndOf x = none) →
      ∃ t, exec .holdWindowExpiry s = .next t ∧ t.ac = settle { now := max s.now e, cfg := s.cfg, tl := s.tl }
        (aisleIdle s.ac) { s.ac with credits := pre ++ post })
    ∧ (∀ (env : Env) (wasIdle : Bool) (a t : Aisle), t = settle env wasIdle a →
      let base := if t.captures = [] then env.cfg.flowBase else t.captures.sum / t.captures.length
      let hold := base * env.cfg.holdFactor / 128
      let within := if hold < env.cfg.minHold then env.cfg.minHold
        else if env.cfg.maxHold < hold then env.cfg.maxHold else hold
      (direction a = none → t.captures = a.captures ∧ t.histDir = a.histDir ∧ t.lastAB = a.lastAB ∧ t.lastBA = a.lastBA)
        ∧ (∀ d, direction a = some d → (a.histDir = none ∨ a.histDir = some d) →
            t.captures = a.captures ∧ t.histDir = some d ∧ t.lastAB = a.lastAB ∧ t.lastBA = a.lastBA)
        ∧ (∀ d, direction a = some d → a.histDir = some d.other →
            t.captures = [] ∧ t.histDir = some d ∧ t.lastAB = none ∧ t.lastBA = none)
        ∧ (∀ (pre post : List Credit) (c : Credit) (n at_ : Nat) (w : Option Nat), t.leaf = .opened →
            a.credits = pre ++ c :: post → c.state = .granted n at_ w → direction a = some c.dir →
            (∀ x ∈ pre, isGrantedDir c.dir x = false) →
          t.credits = pre.map withoutWindow
            ++ { c with state := .granted n at_ (some (w.getD (env.now + within))) } :: post.map withoutWindow)
        ∧ (t.leaf ≠ .opened ∨ (∀ d, direction a = some d → a.credits.any (isGrantedDir d) = false) →
            t.credits = a.credits.map withoutWindow)
        ∧ (a.credits = [] → a.bodiesAB = 0 → a.bodiesBA = 0 →
            t.idleEnd = if wasIdle then a.idleEnd else some (env.now + env.cfg.idleClear * 1000))
        ∧ (a.credits ≠ [] ∨ 0 < a.bodiesAB ∨ 0 < a.bodiesBA → t.idleEnd = none)
        ∧ (t.loiter = true ↔ a.loiter = true ∧ ∃ c ∈ a.credits, ∃ n at_ since, c.state = .inAisle n at_ since
            ∧ env.cfg.loiterLimit * 1000 < env.now - since)
        ∧ driveAnswered env (demandOpen a) a t)
    ∧ (∀ a : Aisle,
      let passing : Credit → Prop := fun c =>
        (∃ n at_ w, c.state = .granted n at_ w) ∨ ∃ n at_ since, c.state = .inAisle n at_ since
      (demandOpen a = true ↔ (emergencyActive a = true ∧ a.lockedOut = false) ∨ ∃ c ∈ a.credits, passing c)
        ∧ (∀ (pre post : List Credit) (c : Credit), a.credits = pre ++ c :: post → passing c → (∀ x ∈ pre, ¬ passing x) →
            direction a = some c.dir)
        ∧ (∀ env e, nextLoiter env a = some e →
          (∃ c ∈ a.credits, ∃ n at_ since, c.state = .inAisle n at_ since ∧ e = since + env.cfg.loiterLimit * 1000 + 1)
            ∧ ∀ c ∈ a.credits, ∀ n at_ since, c.state = .inAisle n at_ since → e ≤ since + env.cfg.loiterLimit * 1000 + 1)
        ∧ ((∀ c ∈ a.credits, ¬ passing c) →
            direction a = if 0 < a.bodiesAB then some .ab else if 0 < a.bodiesBA then some .ba else none))

/-! ## Time and the link -/

/-- CLOCK_ADVANCE of a valid clock: the second rises by 1 and the phase by 1000 ms, at 86,399 the day rises instead, up to
65,535; every UNRESOLVED window falls by 1 down to 0, PENDING records stay; at the day's end the activation test is made with
the new day, or held while an evaluation is in progress. TORN_RECORD_EXPIRY takes an UNRESOLVED record with no window
remaining, which no evaluation holds, out of the table with its alert of cause EXPIRED. LINK_WATCH_EXPIRY in RESYNC or
LINKED: STANDALONE, no count, no watch, the standalone timer started unless it runs, and LINK_MODE requested.
STANDALONE_TIMER_EXPIRY sets the entry stop and stops the timer (R45, R46, R104, R105, R176, R179, R181, R182). That an event
brings the time base to its end time, and that a record's expiry is a step of its own, are the model's choice (logs 2 and
20). The numbers of the causes are read from the order of the manual's lists (log 23). -/
def Obligations.ClockAndLinkTimersAct : Prop :=
  (∀ (s : State) (ph : Nat), s.tl.valid = true → s.tl.phase = some ph →
      ∃ t, exec .clockAdvance s = .next t ∧ t.now = max s.now (ph + 1000)
        ∧ t.tl = (if s.tl.second = 86399
            then { s.tl with second := 0, day := min 65535 (s.tl.day + 1), phase := some (ph + 1000) }
            else { s.tl with second := s.tl.second + 1, phase := some (ph + 1000) })
        ∧ t.ve = { s.ve with torn := s.ve.torn.map (fun r => match r.state with
            | .unresolved w => { r with state := .unresolved (w - 1) }
            | .pending _ => r) }
        ∧ (s.tl.second ≠ 86399 → t.fu = s.fu ∧ t.jn = s.jn)
        ∧ (s.tl.second = 86399 → s.ve.eval.isSome = true → t.fu = { s.fu with heldTest := true } ∧ t.jn = s.jn)
        ∧ (s.tl.second = 86399 → s.ve.eval = none → activationMade { s with now := t.now, tl := t.tl, ve := t.ve } t)
        ∧ t.portA = s.portA ∧ t.portB = s.portB ∧ t.su = s.su ∧ t.ac = s.ac ∧ t.sl = s.sl ∧ t.cfg = s.cfg)
    ∧ (∀ (s : State) (r : TornRecord), unresolvedOf s.ve.torn r.serial = some r → r.state = .unresolved 0 →
        heldSerial s.ve ≠ some r.serial →
      let content : Content :=
        { kind := .tornUnresolved, side := portSide r.origin, serial := r.serial, seqAfter := r.newSeq, charge := r.charge,
          balance := r.balance, version := r.version, entryZone := r.entryZone, exitZone := r.exitZone, detail := 1 }
      exec (.tornRecordExpiry r.serial) s = .next { s with
        ve := { s.ve with torn := s.ve.torn.filter (fun x => x.serial != r.serial) }
        jn := requestAlert s.tl content s.jn })
    ∧ (∀ (s : State) (e : Nat),
      let limit := s.tl.standaloneEnd.getD (max s.now e + s.cfg.standaloneLimit * 60000)
      let link := { s.tl with mode := .standalone, resync := none, watchEnd := none, standaloneEnd := some limit }
      let content : Content :=
        { kind := .linkMode, side := .none, entryZone := linkCode s.tl.mode, exitZone := 3, detail := 2 }
      (s.tl.watchEnd = some e → s.tl.mode = .resync ∨ s.tl.mode = .linked →
          exec .linkWatchExpiry s = .next
            { s with now := max s.now e, tl := link, jn := requestAlert link content s.jn })
        ∧ (s.tl.standaloneEnd = some e →
          exec .standaloneTimerExpiry s = .next
            { s with now := max s.now e, tl := { s.tl with standaloneEnd := none, entryStop := true } }))

/-- TIME at address 0 with a second below 86,400: the clock is set, except in STANDALONE; UNSYNCED and STANDALONE become
RESYNC with the count 1, RESYNC with the count 1 counts 2, with the count 2 becomes LINKED, which stops the standalone timer
and clears the entry stop; the link watch restarts. While the mode does not become LINKED the standalone timer runs on, or
stays stopped, and the entry stop stays as it is. A change of mode requests LINK_MODE with the old and the new mode and the
cause TIME; entering RESYNC its count 1 shows as the new sequence. The setting of the clock is then followed by the
activation test, held while an evaluation is in progress; in STANDALONE there is none. A payload of another form changes
nothing (R45, R46, R177, R178, R181, R182). A TIME frame taken during an evaluation does not alter its verdict: the
evaluation ends with the verdict it ends with where no TIME frame is taken, since the stages it has left, the gate and the
fare stage with their reading of the clock among them, come before the frame's own effects (R68, R177). That they come in
the frame's own event is the model's reading (log 4); that LINK_MODE comes before the test's alert, and its detail and
count, are too (logs 17 and 23). -/
def Obligations.TimeFrameSetsClockAndMode : Prop :=
  ∀ (payload : List Byte) (s : State), lineOpen s →
    (∀ m : State, m = evalStep^[10] s → payload.length = 5 → fieldAt payload 2 3 < 86400 →
      ∃ t u, exec (.time 0 payload) s = .next t
        ∧ (s.ve.eval = none → m = s)
        ∧ (∀ e, s.ve.eval = some e →
          ∃ e' v w x, t.ve.eval = some e' ∧ e'.verdict = some v ∧ e'.port = e.port ∧ e'.image = e.image
            ∧ (e.verdict.isSome = true → m = s)
            ∧ exec .verdictReadyEvent s = .next w ∧ (w.port e.port).slot = some { image := e.image, verdict := some v }
            ∧ exec .verdictReadyEvent t = .next x ∧ (x.port e.port).slot = some { image := e.image, verdict := some v })
        ∧ u = { m with
            tl := t.tl
            jn := if t.tl.mode = s.tl.mode then m.jn else requestAlert t.tl
              { kind := .linkMode, side := .none, seqAfter := if t.tl.mode = .resync then 1 else 0,
                entryZone := linkCode s.tl.mode, exitZone := linkCode t.tl.mode, detail := 1 } m.jn }
        ∧ (s.tl.mode = .standalone → t = u)
        ∧ (s.tl.mode ≠ .standalone → s.ve.eval = none → activationMade u t)
        ∧ (s.tl.mode ≠ .standalone → s.ve.eval.isSome = true → t = { u with fu := { s.fu with heldTest := true } })
        ∧ t.tl.watchEnd = some (s.now + s.cfg.linkWatch * 1000)
        ∧ (s.tl.mode ≠ .standalone → t.tl.valid = true ∧ t.tl.day = fieldAt payload 0 2
            ∧ t.tl.second = fieldAt payload 2 3 ∧ t.tl.phase = some s.now)
        ∧ (s.tl.mode = .standalone → t.tl.valid = s.tl.valid ∧ t.tl.day = s.tl.day ∧ t.tl.second = s.tl.second
            ∧ t.tl.phase = s.tl.phase)
        ∧ (s.tl.mode = .unsynced ∨ s.tl.mode = .standalone → t.tl.mode = .resync ∧ t.tl.resync = some 1)
        ∧ (s.tl.mode = .resync → s.tl.resync = some 1 → t.tl.mode = .resync ∧ t.tl.resync = some 2)
        ∧ (s.tl.mode = .resync → s.tl.resync = some 2 → t.tl.mode = .linked ∧ t.tl.resync = none
            ∧ t.tl.standaloneEnd = none ∧ t.tl.entryStop = false)
        ∧ (s.tl.mode = .linked → t.tl.mode = .linked ∧ t.tl.resync = s.tl.resync)
        ∧ (¬ (s.tl.mode = .resync ∧ s.tl.resync = some 2) →
            t.tl.standaloneEnd = s.tl.standaloneEnd ∧ t.tl.entryStop = s.tl.entryStop)
        ∧ t.now = s.now ∧ t.portA = s.portA ∧ t.portB = s.portB ∧ t.ve = m.ve ∧ t.su = m.su ∧ t.ac = m.ac ∧ t.sl = s.sl
        ∧ t.cfg = s.cfg)
      ∧ (payload.length ≤ 96 → payload.length ≠ 5 ∨ 86400 ≤ fieldAt payload 2 3 → exec (.time 0 payload) s = .next s)

/-! ## The station line -/

/-- A reply carries the start marker, the address and command, the length, the result code, the 14 bytes of the status
summary as it stood, the data and the check over all but the marker; forming it clears OVERRUN and changes nothing else
(R190 to R192). The summary, byte by byte: link mode; the flags with bit 7 at 0; the held record count in 2 bytes;
ALERTS_LOST, OVERRUN, LOADING, FULL, VERSION_MISMATCH and halt valid in bits 0 to 5; the deny version in 2 bytes; state and
version of each bank in 1 and 2; the reject reason (Station status summary). The result codes are OK 0, CLAMPED 1, RANGE 2,
KEY_IN_USE 3, REFUSED 4 and NOT_EMPTY 5 (R192). -/
def Obligations.ReplyCarriesResultAndSummary : Prop :=
  (∀ (s : State) (link one two rejected : Nat),
    let bit : Bool → Nat := fun b => if b then 1 else 0
    let bankStates : List BankState := [.empty, .loading, .ready, .active, .retired]
    [LinkMode.unsynced, .resync, .linked, .standalone][link]? = some s.tl.mode → bankStates[one]? = some s.fu.bank0.state →
    bankStates[two]? = some s.fu.bank1.state → [Reject.none, .check, .bands, .step][rejected]? = some s.fu.reject →
    summaryBytes s
      = [byteOf link,
         byteOf (bit (s.ac.inputs.emerg.filtered || s.ac.stationEmergency) + 2 * bit s.ac.lockedOut
           + 4 * bit s.ac.faultInProgress + 8 * bit s.jn.suspect + 16 * bit (decide (896 ≤ s.jn.held.length))
           + 32 * bit s.tl.entryStop + 64 * bit s.ac.loiter),
         byteOf (s.jn.held.length / 256), byteOf s.jn.held.length,
         byteOf (bit s.jn.alertsLost + 2 * bit s.sl.overrun + 4 * bit s.su.deny.loading + 8 * bit s.su.deny.full
           + 16 * bit s.su.deny.mismatch + 32 * bit s.ac.halt.valid),
         byteOf (s.su.deny.version / 256), byteOf s.su.deny.version, byteOf one, byteOf (s.fu.bank0.version / 256),
         byteOf s.fu.bank0.version, byteOf two, byteOf (s.fu.bank1.version / 256), byteOf s.fu.bank1.version,
         byteOf rejected])
    ∧ ([Result.ok, .clamped, .range, .keyInUse, .refused, .notEmpty].map resultCode = [0, 1, 2, 3, 4, 5])
    ∧ ∀ (f : Frame) (r : Result) (data : List Byte) (s : State),
    (summaryBytes s).length = 14
      ∧ ∃ body, body = f.addr :: f.code :: byteOf (15 + data.length) :: byteOf (resultCode r) :: (summaryBytes s ++ data)
          ∧ sendReply f r data s = { s with sl := { s.sl with
              overrun := false
              tx := some { bytes := 0xA5#8 :: (body ++ checkBytes (crc 0xFFFF#16 body)), resets := false } } }

/-- A broadcast command sent to this unit's address, with no evaluation in progress, has the effect it has at address 0, and
is then answered OK with the summary as it stands after it (R190, R192). That it is answered OK also where its payload makes
the block ignore it (a wrong length, an out-of-range second, an undefined flag) is the model's reading (log 15). -/
def Obligations.BroadcastToUnitIsAnswered : Prop :=
  ∀ (addr : Byte) (payload : List Byte) (s : State) (c : Byte → Instr) (code : Byte), lineReady addr s → s.ve.eval = none →
    payload.length ≤ 96 →
    (c = (fun a => .time a payload) ∧ code = 0x20 ∨ c = (fun a => .sighting a payload) ∧ code = 0x21
      ∨ c = (fun a => .emergency a payload) ∧ code = 0x22 ∨ c = (fun a => .denyBaseBegin a payload) ∧ code = 0x23
      ∨ c = (fun a => .denyBaseAdd a payload) ∧ code = 0x24 ∨ c = (fun a => .denyBaseEnd a payload) ∧ code = 0x25
      ∨ c = (fun a => .denyDelta a payload) ∧ code = 0x26 ∨ c = (fun a => .tariffBegin a payload) ∧ code = 0x27
      ∨ c = (fun a => .tariffData a payload) ∧ code = 0x28 ∨ c = (fun a => .tariffEnd a payload) ∧ code = 0x29) →
    ∃ t, exec (c 0) s = .next t ∧ t.sl = s.sl
      ∧ exec (c addr) s = .next (sendReply { addr := addr, code := code, payload := payload } .ok [] t)

/-- SIGHTING at address 0. Of one sighting: one that is skipped changes nothing; one without a finding changes the seen
table alone: an unknown serial and a newer sequence are written, an older one that is not later leaves the table, the same
image only touches its entry; one with a finding also lists the serial and requests CLONE_ALERT. A written entry replaces
its serial's and stands at the most recent end, the least recent of 512 leaving for a new one; a touched entry moves there.
An UNRESOLVED torn record of the serial is then judged: a newer sequence, or the new image itself, settles it as a fare with
the flag REMOTE_EVIDENCE where the Journal admits it and else leaves it; the new sequence with another check takes it away
with TORN_UNRESOLVED, CONFLICT; an older one leaves it. More sightings are handled one after the other; a payload that is no
whole sightings is ignored (R28, R31 to R33, R102 to R104). A sighting's 15 bytes, at byte 0 serial, 4 sequence, 6 check
word, 8 origin without its bits 15 to 12, 10 day, 12 minute, 14 second; it is skipped exactly for the serial 0 or
4,294,967,295, a minute over 1439 or a second over 59; one stamp is later than another by its minute stamp, then by its
second (R27, R31; Station command payloads). That the seen table comes before the torn record is the model's choice (log
17). The number of the cause is read from the order of the manual's list (log 23). -/
def Obligations.SightingIsMerged : Prop :=
  (∀ (payload : List Byte) (s : State) (g : Sighting), lineOpen s → s.ve.eval = none → payload.length = 15 →
    g = parseSighting payload →
    (g.skipped = true → exec (.sighting 0 payload) s = .next s)
      ∧ (unresolvedOf s.ve.torn g.serial = none →
        (g.skipped = false → seenLookup s.su.seen g.serial = none →
            exec (.sighting 0 payload) s = .next { s with su := { s.su with seen := seenWrite g.entry s.su.seen } })
          ∧ (∀ e, g.skipped = false → seenLookup s.su.seen g.serial = some e →
            (e.seq < g.seq →
              exec (.sighting 0 payload) s = .next { s with su := { s.su with seen := seenWrite g.entry s.su.seen } })
              ∧ (g.seq = e.seq → g.check = e.check →
                exec (.sighting 0 payload) s = .next { s with su := { s.su with seen := seenTouch e s.su.seen } })
              ∧ (g.seq < e.seq → stampLater g.stamp g.second e.stamp e.second = false →
                exec (.sighting 0 payload) s = .next s)
              ∧ (∀ k, (g.seq = e.seq ∧ g.check ≠ e.check ∧ k = .divergent)
                    ∨ (g.seq < e.seq ∧ stampLater g.stamp g.second e.stamp e.second = true ∧ k = .rollback) →
                exec (.sighting 0 payload) s = .next
                  { s with
                    su := { s.su with
                      seen := seenTouch e s.su.seen
                      deny := { s.su.deny with entries := (denyListLocally g.serial s.su.deny.entries).1 } }
                    jn := requestAlert s.tl
                      (cloneAlert .station g.serial g.seq 0 g.origin k (denyListLocally g.serial s.su.deny.entries).2) s.jn })))
      ∧ (∀ r, g.skipped = false → unresolvedOf s.ve.torn g.serial = some r →
        ∃ m, exec (.sighting 0 payload) { s with ve := { s.ve with torn := [] } } = .next m
          ∧ m.ve = { s.ve with torn := [] }
          ∧ (r.newSeq < g.seq ∨ (g.seq = r.newSeq ∧ g.check = r.newCheck) →
            (∀ j, requestRemote s.tl
                { kind := r.kind, side := portSide r.origin, serial := r.serial, seqAfter := r.newSeq, charge := r.charge,
                  balance := r.balance, version := r.version, entryZone := r.entryZone, exitZone := r.exitZone,
                  detail := g.origin } m.jn = some j →
              exec (.sighting 0 payload) s = .next { m with
                ve := { s.ve with torn := s.ve.torn.filter (fun x => x.serial != g.serial) }, jn := j })
              ∧ (6 ≤ m.jn.queue.countP (fun a => a.commit.isNone) ∨ freeSlots m.jn = 0 →
                exec (.sighting 0 payload) s = .next { m with ve := s.ve }))
          ∧ (g.seq = r.newSeq → g.check ≠ r.newCheck →
            exec (.sighting 0 payload) s = .next { m with
              ve := { s.ve with torn := s.ve.torn.filter (fun x => x.serial != g.serial) }
              jn := requestAlert s.tl
                { kind := .tornUnresolved, side := portSide r.origin, serial := r.serial, seqAfter := r.newSeq,
                  charge := r.charge, balance := r.balance, version := r.version, entryZone := r.entryZone,
                  exitZone := r.exitZone, detail := 4 } m.jn })
          ∧ (g.seq < r.newSeq → exec (.sighting 0 payload) s = .next { m with ve := s.ve })))
    ∧ (∀ (one more : List Byte) (s : State), lineOpen s → s.ve.eval = none → one.length = 15 → more.length % 15 = 0 →
        more ≠ [] → one.length + more.length ≤ 96 →
      ∃ t u, exec (.sighting 0 one) s = .next t ∧ exec (.sighting 0 more) t = .next u
        ∧ exec (.sighting 0 (one ++ more)) s = .next u)
    ∧ (∀ (payload : List Byte) (s : State), lineOpen s → s.ve.eval = none → payload.length ≤ 96 →
        payload.length % 15 ≠ 0 ∨ payload = [] → exec (.sighting 0 payload) s = .next s)
    ∧ (∀ (e : SeenEntry) (t : List SeenEntry), seenTouch e t = t.filter (fun x => x.serial != e.serial) ++ [e]
        ∧ (e.serial ∈ t.map (·.serial) → seenWrite e t = t.filter (fun x => x.serial != e.serial) ++ [e])
        ∧ (e.serial ∉ t.map (·.serial) → t.length < 512 → seenWrite e t = t ++ [e])
        ∧ (e.serial ∉ t.map (·.serial) → 512 ≤ t.length → seenWrite e t = t.drop 1 ++ [e]))
    ∧ (∀ (bs : List Byte) (g : Sighting), bs.length = 15 → g = parseSighting bs →
        g.serial = fieldAt bs 0 4 ∧ g.seq = fieldAt bs 4 2 ∧ g.check = BitVec.ofNat 16 (fieldAt bs 6 2)
          ∧ g.origin = fieldAt bs 8 2 % 4096 ∧ g.day = fieldAt bs 10 2 ∧ g.minute = fieldAt bs 12 2
          ∧ g.second = fieldAt bs 14 1 ∧ g.stamp = fieldAt bs 10 2 * 1440 + fieldAt bs 12 2
          ∧ (g.skipped = true ↔ g.serial = 0 ∨ g.serial = 4294967295 ∨ 1439 < g.minute ∨ 59 < g.second)
          ∧ g.entry = { serial := g.serial, seq := g.seq, check := g.check, stamp := g.day * 1440 + g.minute,
                        second := g.second })
    ∧ (∀ stamp second stamp' second' : Nat, stampLater stamp second stamp' second' = true ↔
        stamp' < stamp ∨ (stamp = stamp' ∧ second' < second))
    ∧ (∀ (t : List SeenEntry) (n : Nat), (seenLookup t n = none ↔ ∀ x ∈ t, x.serial ≠ n)
        ∧ ∀ e, seenLookup t n = some e → e ∈ t ∧ e.serial = n)

/-- DENY_BASE_BEGIN marks every STATION entry stale, enters LOADING with the carried version pending and clears FULL, in
IDLE and in LOADING alike; DENY_BASE_END in LOADING removes the STATION entries still stale, takes the pending version,
enters IDLE and clears VERSION_MISMATCH, and in IDLE is ignored; LOCAL entries, the version at a BEGIN and FULL at an END
stay (R19, R21). A BEGIN of another length than 2 and an END with a payload are ignored whole (R193). -/
def Obligations.BaseLoadBeginsAndEnds : Prop :=
  ∀ s : State, lineOpen s → s.ve.eval = none →
    (∀ payload : List Byte, payload.length = 2 → exec (.denyBaseBegin 0 payload) s = .next
        { s with su := { s.su with deny := { s.su.deny with
            entries := s.su.deny.entries.map (fun e => match e.source with
              | .station _ => { e with source := .station true }
              | .localEntry _ => e)
            loading := true
            pending := beNat payload
            full := false } } })
      ∧ (s.su.deny.loading = true → exec (.denyBaseEnd 0 []) s = .next
        { s with su := { s.su with deny := { s.su.deny with
            entries := s.su.deny.entries.filter (fun e => match e.source with
              | .station stale => !stale
              | .localEntry _ => true)
            version := s.su.deny.pending
            loading := false
            mismatch := false } } })
      ∧ (s.su.deny.loading = false → exec (.denyBaseEnd 0 []) s = .next s)
      ∧ (∀ payload : List Byte, payload.length ≤ 96 →
        (payload.length ≠ 2 → exec (.denyBaseBegin 0 payload) s = .next s)
          ∧ (payload ≠ [] → exec (.denyBaseEnd 0 payload) s = .next s))

/-- One pair of a base load or of a delta's adds: a pair whose serial is 0 or 4,294,967,295 is skipped. On a list that is in
order, for every other pair: a serial that is listed, or finds room, is listed as STATION with the pair's reason and no
stale mark, every other serial keeps its reason and source; without room FULL is set and the list stays. A removed serial is
gone and every other keeps its reason and source kind. The local addition of a clone finding: a listed serial changes
nothing and is ALREADY_LISTED; another is LISTED as LOCAL with reason 15 as the newest one, where 64 stood before it the
oldest LOCAL entry leaving first and the others each moving down by one; without room it is NOT_LISTED and FULL is not
touched (R17, R20, R23, R24). -/
def Obligations.DenyPairsListTheirSerial : Prop :=
  (∀ (d : DenyList) (n reason : Nat), n = 0 ∨ n = 4294967295 → denyAddPair d (n, reason) = d)
    ∧ (∀ (es : List DenyEntry) (n : Nat), ((denyLookup es n = none ↔ ∀ x ∈ es, x.serial ≠ n)
        ∧ ∀ e, denyLookup es n = some e → e ∈ es ∧ e.serial = n)
        ∧ localCount es = es.countP (fun e => match e.source with
            | .localEntry _ => true
            | .station _ => false))
    ∧ (∀ e : DenyEntry, e.isLocal = true ↔ ∃ k, e.source = .localEntry k)
    ∧ (∀ (d : DenyList) (n reason : Nat), DenyOk d → n ≠ 0 → n ≠ 4294967295 →
      ((denyLookup d.entries n).isSome = true ∨ d.entries.length < 4096 →
        denyLookup (denyAddPair d (n, reason)).entries n
            = some { serial := n, reason := reason, source := .station false }
          ∧ (∀ m, m ≠ n → (denyLookup (denyAddPair d (n, reason)).entries m).map (fun e => (e.reason, e.isLocal))
              = (denyLookup d.entries m).map (fun e => (e.reason, e.isLocal))))
        ∧ (denyLookup d.entries n = none → d.entries.length = 4096 → denyAddPair d (n, reason) = { d with full := true })
        ∧ denyLookup (denyRemove n d.entries) n = none
        ∧ (∀ m, m ≠ n → (denyLookup (denyRemove n d.entries) m).map (fun e => (e.reason, e.isLocal))
            = (denyLookup d.entries m).map (fun e => (e.reason, e.isLocal))))
    ∧ (∀ (d : DenyList) (n : Nat), DenyOk d →
      let out := denyListLocally n d.entries
      let newest : Nat → DenyEntry := fun k => { serial := n, reason := 15, source := .localEntry k }
      (denyLookup d.entries n ≠ none → out = (d.entries, .alreadyListed))
        ∧ (denyLookup d.entries n = none → localCount d.entries < 64 → d.entries.length < 4096 →
            out.2 = .listed ∧ denyLookup out.1 n = some (newest (localCount d.entries + 1))
              ∧ ∀ m, m ≠ n → denyLookup out.1 m = denyLookup d.entries m)
        ∧ (denyLookup d.entries n = none → localCount d.entries = 64 →
          ∃ old, denyLookup d.entries old.serial = some old ∧ old.source = .localEntry 1 ∧ out.2 = .listed
            ∧ denyLookup out.1 n = some (newest 64) ∧ denyLookup out.1 old.serial = none
            ∧ ∀ m, m ≠ n → m ≠ old.serial → denyLookup out.1 m = (denyLookup d.entries m).map (fun e =>
                match e.source with
                | .localEntry k => { e with source := .localEntry (k - 1) }
                | .station _ => e))
        ∧ (denyLookup d.entries n = none → localCount d.entries < 64 → d.entries.length = 4096 →
            out = (d.entries, .notListed)))

/-- DENY_BASE_ADD in LOADING handles its pairs in frame order, in IDLE it is ignored. DENY_DELTA in IDLE from the version
held makes its removes, then its adds, then takes the to version; in LOADING or from another version it sets
VERSION_MISMATCH and changes nothing else (R20, R22, R23). An ADD of whole pairs, 1 to 16, carries each in turn, with bits 7
to 4 of the reason ignored, and a DELTA of up to 8 removes and 8 adds whose counts fit its length carries the versions, the
removes, then the adds; an ADD and a DELTA of any other length or counts are ignored whole (R193, Station command
payloads). -/
def Obligations.DenyFramesChangeTheList : Prop :=
  ∀ (payload : List Byte) (s : State), lineOpen s → s.ve.eval = none → payload.length ≤ 96 →
    (∀ pairs, parsePairs payload = some pairs →
      (s.su.deny.loading = true →
          exec (.denyBaseAdd 0 payload) s = .next { s with su := { s.su with deny := pairs.foldl denyAddPair s.su.deny } })
        ∧ (s.su.deny.loading = false → exec (.denyBaseAdd 0 payload) s = .next s))
      ∧ (∀ dl, parseDelta payload = some dl →
        (s.su.deny.loading = false → dl.fromV = s.su.deny.version →
          exec (.denyDelta 0 payload) s = .next { s with su := { s.su with deny :=
            { (dl.adds.foldl denyAddPair
                { s.su.deny with entries := dl.removes.foldl (fun es n => denyRemove n es) s.su.deny.entries }) with
              version := dl.toV } } })
          ∧ (s.su.deny.loading = true ∨ dl.fromV ≠ s.su.deny.version →
            exec (.denyDelta 0 payload) s = .next
              { s with su := { s.su with deny := { s.su.deny with mismatch := true } } }))
      ∧ (let pairAt : Nat → Nat × Nat := fun k => (fieldAt payload k 4, fieldAt payload (k + 4) 1 % 16)
        let removes := fieldAt payload 4 1
        let adds := fieldAt payload 5 1
        (payload ≠ [] → payload.length % 5 = 0 → payload.length ≤ 80 →
          ∃ pairs, parsePairs payload = some pairs ∧ pairs.length = payload.length / 5
            ∧ ∀ k, k < payload.length / 5 → pairs[k]? = some (pairAt (5 * k)))
          ∧ (payload = [] ∨ payload.length % 5 ≠ 0 ∨ 80 < payload.length → exec (.denyBaseAdd 0 payload) s = .next s)
          ∧ (6 ≤ payload.length → removes ≤ 8 → adds ≤ 8 → payload.length = 6 + 4 * removes + 5 * adds →
            ∃ dl, parseDelta payload = some dl ∧ dl.fromV = fieldAt payload 0 2 ∧ dl.toV = fieldAt payload 2 2
              ∧ dl.removes.length = removes ∧ dl.adds.length = adds
              ∧ (∀ k, k < removes → dl.removes[k]? = some (fieldAt payload (6 + 4 * k) 4))
              ∧ (∀ k, k < adds → dl.adds[k]? = some (pairAt (6 + 4 * removes + 5 * k))))
          ∧ (payload.length < 6 ∨ 8 < removes ∨ 8 < adds ∨ payload.length ≠ 6 + 4 * removes + 5 * adds →
            exec (.denyDelta 0 payload) s = .next s))

/-- TARIFF_BEGIN: the load target is LOADING with the carried version and day and 314 zero positions, the reject reason is
NONE, the other bank stays; a version of 0 is ignored. The target: beside an ACTIVE bank the other one, else the LOADING,
else the READY one, else bank 0. TARIFF_DATA writes its values, limited, into the LOADING bank; one of no value, more than 40
or half a value, of a section over 4 or past its section's end, or without a LOADING bank is ignored. TARIFF_END without a
LOADING bank, and one of another length, is ignored; a bank that fails a test is EMPTY with the reason set: CHECK, where its
contents' check is not the carried one, BANDS, where no band is in use, the first does not begin at 0 or the starts do not
rise, STEP for a fare step of 0, the first that holds. A bank that passes is READY, and the activation test is made at once,
or held while an evaluation is in progress (R37, R39 to R43, R45, R46, R193). -/
def Obligations.TariffFramesLoadABank : Prop :=
  ∀ (payload : List Byte) (s : State), lineOpen s → payload.length ≤ 96 →
    (payload.length = 4 → fieldAt payload 0 2 ≠ 0 →
      exec (.tariffBegin 0 payload) s = .next { s with fu :=
        { s.fu.setBank s.fu.loadTarget { state := .loading, version := fieldAt payload 0 2, effDay := fieldAt payload 2 2,
                                         contents := List.replicate 314 0 } with reject := .none } })
      ∧ (payload.length ≠ 4 ∨ fieldAt payload 0 2 = 0 → exec (.tariffBegin 0 payload) s = .next s)
      ∧ (∀ td one, parseTariffData payload = some td → s.fu.bankIn .loading = some one → td.section_ ≤ 4 →
          td.values ≠ [] → td.values.length ≤ 40 → td.first + td.values.length ≤ sectionSize td.section_ →
        exec (.tariffData 0 payload) s = .next { s with fu := s.fu.setBank one { s.fu.bank one with
          contents := writeValues td.section_ td.first td.values (s.fu.bank one).contents } })
      ∧ (4 ≤ payload.length → payload.length % 2 = 0 → payload.length ≤ 82 →
        ∃ td, parseTariffData payload = some td ∧ td.section_ = fieldAt payload 0 1 ∧ td.first = fieldAt payload 1 1
          ∧ td.values.length = (payload.length - 2) / 2
          ∧ ∀ k, k < (payload.length - 2) / 2 → td.values[k]? = some (fieldAt payload (2 + 2 * k) 2))
      ∧ (payload.length < 4 ∨ payload.length % 2 = 1 ∨ 82 < payload.length ∨ 4 < fieldAt payload 0 1
            ∨ sectionSize (fieldAt payload 0 1) < fieldAt payload 1 1 + (payload.length - 2) / 2
            ∨ s.fu.bankIn .loading = none →
          exec (.tariffData 0 payload) s = .next s)
      ∧ (payload.length ≠ 2 → exec (.tariffEnd 0 payload) s = .next s)
      ∧ (payload.length = 2 → s.fu.bankIn .loading = none → exec (.tariffEnd 0 payload) s = .next s)
      ∧ (∀ one why, payload.length = 2 → s.fu.bankIn .loading = some one →
          validateBank (BitVec.ofNat 16 (fieldAt payload 0 2)) (s.fu.bank one) = why → why ≠ .none →
        exec (.tariffEnd 0 payload) s = .next { s with fu :=
          { s.fu.setBank one { state := .empty, version := 0, effDay := 0, contents := List.replicate 314 0 } with
            reject := why } })
      ∧ (∀ one, payload.length = 2 → s.fu.bankIn .loading = some one → s.ve.eval.isSome = true →
          validateBank (BitVec.ofNat 16 (fieldAt payload 0 2)) (s.fu.bank one) = .none →
        exec (.tariffEnd 0 payload) s = .next { s with fu :=
          { s.fu.setBank one { s.fu.bank one with state := .ready } with heldTest := true } })
      ∧ (∀ one, payload.length = 2 → s.fu.bankIn .loading = some one → s.ve.eval = none →
          validateBank (BitVec.ofNat 16 (fieldAt payload 0 2)) (s.fu.bank one) = .none →
        ∃ t, exec (.tariffEnd 0 payload) s = .next t
          ∧ activationMade { s with fu := s.fu.setBank one { s.fu.bank one with state := .ready } } t)
      ∧ (∀ check : Word16, ∀ b : Bank,
        let bandsGood : Prop := b.bandCount ≠ 0 ∧ b.bandStart 0 = 0
          ∧ ∀ k, k + 1 < b.bandCount → b.bandStart k < b.bandStart (k + 1)
        (crc 0xFFFF#16 (b.contents.flatMap (beBytes 2)) ≠ check → validateBank check b = .check)
          ∧ (crc 0xFFFF#16 (b.contents.flatMap (beBytes 2)) = check →
            (¬ bandsGood → validateBank check b = .bands)
              ∧ (bandsGood → b.fareStep = 0 → validateBank check b = .step)
              ∧ (bandsGood → b.fareStep ≠ 0 → validateBank check b = .none)))
      ∧ s.fu.loadTarget = (if s.fu.bank0.state = .active then true else if s.fu.bank1.state = .active then false
          else if s.fu.bank0.state = .loading then false else if s.fu.bank1.state = .loading then true
          else if s.fu.bank0.state = .ready then false else decide (s.fu.bank1.state = .ready))
      ∧ (∀ (f : FareUnit) (b : Bank) (st : BankState), f.bank false = f.bank0 ∧ f.bank true = f.bank1
        ∧ f.setBank false b = { f with bank0 := b } ∧ f.setBank true b = { f with bank1 := b }
        ∧ (f.bankIn st = none ↔ f.bank0.state ≠ st ∧ f.bank1.state ≠ st)
        ∧ (∀ one, f.bankIn st = some one → (f.bank one).state = st)
        ∧ (f.activeBank = none ↔ f.bank0.state ≠ .active ∧ f.bank1.state ≠ .active)
        ∧ (f.activeBank = some b → b.state = .active ∧ (b = f.bank0 ∨ b = f.bank1)))

/-- A written value stands in its position limited to the range of its content: one in the range as it is, one above as the
upper bound, one below as the lower bound; the other positions stay. The sections hold 256, 17, 16, 16 and 9 positions, one
after the other. The ranges: a fare, a daily cap and a penalty 0..65535, a band count 1..8, a start minute 0..1439, a factor
0..255, a concession weight 0..256, a transfer window and the passback minutes 0..255, a fare step 1..250, a maximum journey
1..1440, the other terms 0..65535 (R36, R37, R42). Which content stands at which of the 314 positions is that of R37. -/
def Obligations.TariffValuesAreLimited : Prop :=
  ([0, 1, 2, 3, 4].map sectionSize = [256, 17, 16, 16, 9] ∧ [0, 1, 2, 3, 4].map sectionStart = [0, 256, 273, 289, 305])
    ∧ (∀ (b : Bank) (z x k cls : Nat) (at_ : Nat → Nat), z < 16 → x < 16 → k < 8 → cls < 8 → b.contents.length = 314 →
        (∀ i, i < 314 → b.contents[i]? = some (at_ i)) →
      b.matrix z x = at_ (16 * z + x) ∧ b.bandCount = at_ 256 ∧ b.bandStart k = at_ (257 + 2 * k)
        ∧ b.bandFactor k = at_ (258 + 2 * k) ∧ b.weight cls = at_ (273 + cls) ∧ b.dailyCap cls = at_ (281 + cls)
        ∧ b.penalty x = at_ (289 + x) ∧ b.transferWindow = at_ 305 ∧ b.transferCredit = at_ 306 ∧ b.fareStep = at_ 307
        ∧ b.overdraftLimit = at_ 308 ∧ b.entryMinimum = at_ 309 ∧ b.unclosedCharge = at_ 310 ∧ b.passback = at_ 311
        ∧ b.maxJourney = at_ 312 ∧ b.overtimeCharge = at_ 313)
    ∧ ∀ (sec pos : Nat) (values contents : List Nat), sec ≤ 4 → pos + values.length ≤ sectionSize sec →
      contents.length = 314 →
    (∀ (i place lo hi : Nat), i < values.length → place = pos + i →
      (sec = 0 ∧ lo = 0 ∧ hi = 65535
        ∨ sec = 1 ∧ place = 0 ∧ lo = 1 ∧ hi = 8
        ∨ sec = 1 ∧ place % 2 = 1 ∧ lo = 0 ∧ hi = 1439
        ∨ sec = 1 ∧ place ≠ 0 ∧ place % 2 = 0 ∧ lo = 0 ∧ hi = 255
        ∨ sec = 2 ∧ place < 8 ∧ lo = 0 ∧ hi = 256
        ∨ sec = 2 ∧ 8 ≤ place ∧ lo = 0 ∧ hi = 65535
        ∨ sec = 3 ∧ lo = 0 ∧ hi = 65535
        ∨ sec = 4 ∧ (place = 0 ∨ place = 6) ∧ lo = 0 ∧ hi = 255
        ∨ sec = 4 ∧ place = 2 ∧ lo = 1 ∧ hi = 250
        ∨ sec = 4 ∧ place = 7 ∧ lo = 1 ∧ hi = 1440
        ∨ sec = 4 ∧ (place = 1 ∨ place = 3 ∨ place = 4 ∨ place = 5 ∨ place = 8) ∧ lo = 0 ∧ hi = 65535) →
      (writeValues sec pos values contents)[sectionStart sec + place]? = some (max lo (min (values.getD i 0) hi)))
      ∧ (∀ j, j < sectionStart sec + pos ∨ sectionStart sec + pos + values.length ≤ j →
          (writeValues sec pos values contents)[j]? = contents[j]?)

/-- POLL: the oldest held records, up to 4, go out with their marks behind the capture as it stands after their failures;
the reply shows ALERTS_LOST as it was, and the flag is clear afterwards; nothing else but the line changes. The failures:
with every delivered record good the Journal stays; with no capture the first failing record becomes the capture and sets
SUSPECT, and another failing one behind it sets LOST; with a capture, the record it holds changes nothing and any other sets
LOST (R166, R168, R169). A record's first 30 bytes: number in 4; kind, numbered as the layout does; STANDALONE, RESUMED,
REMOTE_EVIDENCE, FORCED in bits 0 to 3; day in 2; second in 3; side; serial in 4; sequence in 2; charge in 3; balance in 3,
two's complement; version in 2; entry zone above exit zone; 0; detail in 2. Its check is over them, from FFFFh (R162, R163;
Journal record). Directions, targets and link modes count in a detail or a zone as in the layouts (R162). -/
def Obligations.PollDeliversOldest : Prop :=
  (∀ (addr : Byte) (s : State), lineReady addr s →
      let failed := { s with jn := pollFailures s.jn }
      exec (.poll addr []) s = .next { s with
        jn := { pollFailures s.jn with alertsLost := false }
        sl := (sendReply { addr := addr, code := 0x40, payload := [] } .ok (pollData failed.jn) failed).sl })
    ∧ (∀ (j : Journal) (bad : List Nat),
        bad = ((j.held.take 4).filter (fun r => recordCheck r != r.check)).map (·.number) →
        (bad = [] → pollFailures j = j)
          ∧ (∀ n rest, bad = n :: rest → j.capture.valid = false → pollFailures j = { j with
              suspect := true, capture := { valid := true, number := n, lost := rest.any (fun m => m != n) } })
          ∧ (j.capture.valid = true → pollFailures j = { j with
              capture := { j.capture with lost := j.capture.lost || bad.any (fun m => m != j.capture.number) } }))
    ∧ (∀ j : Journal, pollData j = [byteOf (min 4 j.held.length),
          byteOf (bitNat j.capture.valid + 2 * bitNat j.capture.lost)] ++ beBytes 4 j.capture.number
        ++ (j.held.take 4).flatMap (fun r =>
            (if recordCheck r = r.check then byteOf 0 else byteOf 1) :: (recordBody r ++ beBytes 2 r.check.toNat)))
    ∧ (∀ (r : JRecord) (kind side : Nat),
      let bit : Bool → Nat := fun b => if b then 1 else 0
      let c := r.content
      (c.kind, kind) ∈ [(RecKind.entry, 1), (.exit, 2), (.exitFree, 3), (.cloneAlert, 16), (.unusedPassage, 17),
        (.tailgate, 18), (.contraflow, 19), (.leafFault, 20), (.lockout, 21), (.tornUnresolved, 22), (.tariffActivated, 23),
        (.linkMode, 24)] →
      [Side.none, .a, .b, .station][side]? = some c.side →
      recordBody r
          = [byteOf (r.number / 16777216), byteOf (r.number / 65536), byteOf (r.number / 256), byteOf r.number, byteOf kind,
             byteOf (bit r.standalone + 2 * bit r.resumed + 4 * bit r.remote + 8 * bit r.forced),
             byteOf (r.day / 256), byteOf r.day, byteOf (r.second / 65536), byteOf (r.second / 256), byteOf r.second,
             byteOf side, byteOf (c.serial / 16777216), byteOf (c.serial / 65536), byteOf (c.serial / 256), byteOf c.serial,
             byteOf (c.seqAfter / 256), byteOf c.seqAfter, byteOf (c.charge / 65536), byteOf (c.charge / 256),
             byteOf c.charge, BitVec.ofInt 8 (c.balance / 65536), BitVec.ofInt 8 (c.balance / 256), BitVec.ofInt 8 c.balance,
             byteOf (c.version / 256), byteOf c.version, byteOf (16 * c.entryZone + c.exitZone), byteOf 0,
             byteOf (c.detail / 256), byteOf c.detail]
        ∧ recordCheck r = crc 0xFFFF#16 (recordBody r))
    ∧ ([none, some Dir.ab, some Dir.ba].map dirCode = [0, 1, 2]
        ∧ [none, some Target.toOpen, some Target.toClosed].map targetCode = [0, 1, 2]
        ∧ [LinkMode.unsynced, .resync, .linked, .standalone].map linkCode = [0, 1, 2, 3])

/-- COLLECTED n: every held record numbered n or below leaves, from the oldest end, and nothing else of the Journal changes;
the reply is OK with the summary after the removal (R173). -/
def Obligations.CollectedRemovesUpToNumber : Prop :=
  ∀ (addr : Byte) (payload : List Byte) (s : State), lineReady addr s → payload.length = 4 → JournalOk s.jn →
    exec (.collected addr payload) s = .next (sendReply { addr := addr, code := 0x41, payload := payload } .ok []
      { s with jn := { s.jn with held := s.jn.held.filter (fun r => decide (beNat payload < r.number)) } })

/-- KEY_LOAD with no evaluation in progress. Without payload nothing is loaded and the reply is OK. Refused with RANGE, the
table unchanged: a payload of another length, an index above 7, a state that is none of the three. Refused with KEY_IN_USE:
at the signing key index a state other than ACTIVE, or another word for an ACTIVE entry. Every other one is loaded, an
ABSENT entry with the word 0, and the reply is OK with the list after it (R10 to R12). The states are ABSENT 0, ACTIVE 1 and
RETIRED 2, and no other number is one. The list is ten bytes: the states of the eight entries, the signing key index, and 1
where the signing key is present, its entry ACTIVE, or 0 (R8, R12; Station command payloads; Reply data). -/
def Obligations.KeyLoadGuardsTheSigningKey : Prop :=
  (parseKeyState 0 = some .absent ∧ parseKeyState 1 = some .active ∧ parseKeyState 2 = some .retired
      ∧ ∀ n, 2 < n → parseKeyState n = none)
    ∧ (∀ (su : Screening) (cfg : Settings) (k0 k1 k2 k3 k4 k5 k6 k7 : KeyEntry) (code : KeyEntry → Nat) (present : Nat),
      su.keys = [k0, k1, k2, k3, k4, k5, k6, k7] →
      (∀ k ∈ su.keys, (k.state, code k) ∈ [(KeyState.absent, 0), (.active, 1), (.retired, 2)]) →
      present = (if su.keys[cfg.signingKey]?.map (·.state) = some .active then 1 else 0) →
      keyStateList su cfg = [byteOf (code k0), byteOf (code k1), byteOf (code k2), byteOf (code k3), byteOf (code k4),
        byteOf (code k5), byteOf (code k6), byteOf (code k7), byteOf cfg.signingKey, byteOf present])
    ∧ ∀ (addr : Byte) (payload : List Byte) (s : State) (f : Frame) (index : Nat) (word : Word16),
    lineReady addr s → s.ve.eval = none → f = { addr := addr, code := 0x42, payload := payload } → payload.length ≤ 96 →
    (payload = [] → exec (.keyLoad addr payload) s = .next (sendReply f .ok (keyStateList s.su s.cfg) s))
      ∧ (payload ≠ [] → payload.length ≠ 4 →
        exec (.keyLoad addr payload) s = .next (sendReply f .range (keyStateList s.su s.cfg) s))
      ∧ (payload.length = 4 → index = fieldAt payload 0 1 → word = BitVec.ofNat 16 (fieldAt payload 2 2) →
        (7 < index ∨ 2 < fieldAt payload 1 1 →
            exec (.keyLoad addr payload) s = .next (sendReply f .range (keyStateList s.su s.cfg) s))
          ∧ (∀ st, index ≤ 7 → parseKeyState (fieldAt payload 1 1) = some st →
            (index = s.cfg.signingKey →
                st ≠ .active ∨ (∃ k, s.su.keys[index]? = some k ∧ k.state = .active ∧ k.word ≠ word) →
                exec (.keyLoad addr payload) s = .next (sendReply f .keyInUse (keyStateList s.su s.cfg) s))
              ∧ (index ≠ s.cfg.signingKey
                    ∨ st = .active ∧ (∀ k, s.su.keys[index]? = some k → k.state = .active → k.word = word) →
                ∃ entry su, entry = KeyEntry.mk st (if st = .absent then 0 else word)
                  ∧ su = { s.su with keys := s.su.keys.set index entry }
                  ∧ exec (.keyLoad addr payload) s
                      = .next (sendReply f .ok (keyStateList su s.cfg) { s with su := su }))))

/-- CONFIGURE with no evaluation in progress: without items it reads the settings; items that are refused change nothing and
are answered RANGE; else each item takes its limited value in frame order, the reply is CLAMPED where one was limited and OK
where none was, with the values after it, the captures are cut to the averaging depth and LOITER follows the limit. An item
is allowed with a code of 1..19; the identity items, codes 1 to 4, with a value in range, the signing key index with one
that names an ACTIVE entry. An item's limited value is the nearest bound of its range; the filter time and the averaging
depth take the next allowed value. A payload of whole triples carries an item in each, its code in the first byte and its
value in the next two; the settings stand, and are read, in the order of their codes (R122, R140, R193, R194). That an item
which stands twice counts each time, and that a new unit address holds at once, is the model's reading (logs 27 and 29). -/
def Obligations.ConfigureSetsItems : Prop :=
  (∀ (addr : Byte) (payload : List Byte) (s : State) (f : Frame), lineReady addr s → s.ve.eval = none →
      payload.length ≤ 96 → f = { addr := addr, code := 0x43, payload := payload } →
      (payload = [] → exec (.configure addr payload) s = .next (sendReply f .ok ((itemValues s.cfg).flatMap (beBytes 2)) s))
        ∧ (payload.length % 3 ≠ 0 →
          exec (.configure addr payload) s = .next (sendReply f .range ((itemValues s.cfg).flatMap (beBytes 2)) s))
        ∧ (∀ items, payload ≠ [] → parseItems payload = some items →
          (items.any (fun it => !itemAllowed s.su.keys it) = true ∨
              (applyItems s.cfg items).maxHold < (applyItems s.cfg items).minHold →
            exec (.configure addr payload) s = .next (sendReply f .range ((itemValues s.cfg).flatMap (beBytes 2)) s))
            ∧ (items.any (fun it => !itemAllowed s.su.keys it) = false →
                (applyItems s.cfg items).minHold ≤ (applyItems s.cfg items).maxHold →
              ∃ t, exec (.configure addr payload) s = .next (sendReply f (if anyClamped items then .clamped else .ok)
                  ((itemValues (applyItems s.cfg items)).flatMap (beBytes 2)) t)
                ∧ t = { s with
                    cfg := applyItems s.cfg items
                    ac := { s.ac with
                      captures := s.ac.captures.drop (s.ac.captures.length - (applyItems s.cfg items).avgDepth)
                      loiter := s.ac.credits.any (fun c => match c.state with
                        | .inAisle _ _ since => decide ((applyItems s.cfg items).loiterLimit * 1000 < s.now - since)
                        | _ => false) } })))
    ∧ (∀ (keys : List KeyEntry) (code v : Nat), itemAllowed keys (code, v) = true ↔ 1 ≤ code ∧ code ≤ 19
        ∧ (code = 1 → 1 ≤ v ∧ v ≤ 62) ∧ (code = 2 → v ≤ 4095) ∧ (code = 3 → v ≤ 15)
        ∧ (code = 4 → v ≤ 7 ∧ ∃ k, keys[v]? = some k ∧ k.state = .active))
    ∧ (∀ code lo hi v : Nat, (code, lo, hi) ∈ [(1, 1, 62), (2, 0, 4095), (3, 0, 15), (4, 0, 7), (7, 500, 20000), (8, 1, 255),
          (9, 500, 30000), (10, 500, 30000), (11, 1, 60), (12, 0, 128), (13, 200, 2000), (14, 1, 10), (15, 500, 5000),
          (16, 10, 600), (17, 3, 30), (18, 5, 255), (19, 1, 1440)] → clampItem code v = max lo (min v hi))
    ∧ (∀ v : Nat, clampItem 5 v = (if v ≤ 4 then 4 else if v ≤ 8 then 8 else if v ≤ 16 then 16 else 32)
        ∧ clampItem 6 v = (if v ≤ 1 then 1 else if v ≤ 2 then 2 else if v ≤ 4 then 4 else 8))
    ∧ (∀ (c : Settings) (code v : Nat) (rest : List (Nat × Nat)), 1 ≤ code → code ≤ 19 →
      ∃ d, itemValues d = (itemValues c).set (code - 1) (clampItem code v)
        ∧ applyItems c ((code, v) :: rest) = applyItems d rest)
    ∧ (∀ (c : Settings) (items : List (Nat × Nat)), applyItems c [] = c
        ∧ (anyClamped items = true ↔ ∃ code v, (code, v) ∈ items ∧ clampItem code v ≠ v))
    ∧ (∀ payload : List Byte, payload ≠ [] → payload.length % 3 = 0 → payload.length ≤ 96 →
      ∃ items, parseItems payload = some items ∧ items.length = payload.length / 3 ∧ 1 ≤ items.length ∧ items.length ≤ 32
        ∧ ∀ k, k < items.length → items[k]? = some (fieldAt payload (3 * k) 1, fieldAt payload (3 * k + 1) 2))
    ∧ (∀ c : Settings, itemValues c
        = [c.unitAddress, c.stationNumber, c.stationZone, c.signingKey, c.filterTime, c.avgDepth, c.flowBase, c.holdFactor,
           c.minHold, c.maxHold, c.idleClear, c.blankFactor, c.travelBase, c.alarmTime, c.confirmLimit, c.tornWindow,
           c.loiterLimit, c.linkWatch, c.standaloneLimit])

/-- RESTORE in LOCKED_OUT ends the lockout and fault-in-progress, makes the halt record not valid with its other fields kept
(log 26), entries and bodies staying; outside the settle interval the leaves close, not full, or are CLOSED at once on their
stop, and the drive then answers the demand from there, which the emergency state or an IN_AISLE entry makes OPEN; in the
settle interval the drive stays RELEASED. That a re-home complete at its start is CLOSED before the demand acts is the
model's choice (log 36). Outside LOCKED_OUT RESTORE is refused. IDENTIFY answers the codes of the part; JOURNAL_CLEAR
without a held record ends SUSPECT and empties the capture, with one it is refused; FORCE_CHECK_FAULT arms; RESET is
answered OK, and when that reply ends LINE_RESET is due (log 7); another reply's end leaves no LINE_RESET due that was not,
and a reply that waits begins (log 34). A payload of another length of POLL, COLLECTED and these commands is answered RANGE
and changes nothing else (R154, R171, R172, R190, R193, R195); that such a reply carries no data, those of POLL and IDENTIFY
among them, is the model's reading (log 24). -/
def Obligations.ServiceCommandsAct : Prop :=
  (∀ (addr : Byte) (s : State), lineReady addr s →
      (s.ac.lockedOut = true → ∃ a, exec (.restore addr []) s = .next
            (sendReply { addr := addr, code := 0x45, payload := [] } .ok [] { s with ac := a })
          ∧ a.lockedOut = false ∧ a.faultInProgress = false ∧ a.halt = { s.ac.halt with valid := false }
          ∧ entries a = entries s.ac ∧ a.bodiesAB = s.ac.bodiesAB ∧ a.bodiesBA = s.ac.bodiesBA
          ∧ a.inputs = s.ac.inputs ∧ a.stationEmergency = s.ac.stationEmergency
          ∧ (s.ac.settleEnd = none → ∀ home : Aisle,
              (home = if s.ac.inputs.closedStop.filtered = true ∧ s.ac.inputs.openStop.filtered = false
                then { s.ac with leaf := .closed, motion := none }
                else { s.ac with
                  leaf := .closing
                  motion := some (newMotion { now := s.now, cfg := s.cfg, tl := s.tl } .toClosed false s.ac) }) →
              a.leaf ≠ .released ∧ driveAnswered { now := s.now, cfg := s.cfg, tl := s.tl }
                (emergencyActive s.ac || s.ac.credits.any (fun c => !c.isReserved)) home a)
          ∧ (s.ac.settleEnd.isSome = true → s.ac.leaf = .released → a.leaf = .released ∧ a.motion = s.ac.motion))
        ∧ (s.ac.lockedOut = false → exec (.restore addr []) s = .next
            (sendReply { addr := addr, code := 0x45, payload := [] } .refused [] s))
        ∧ exec (.identify addr []) s = .next (sendReply { addr := addr, code := 0x44, payload := [] } .ok
          ([0x2C#8, 0x17#8, 0x10#8, 0x18#8, 0x01#8] ++ beBytes 4 Config.unitSerial.toNat) s)
        ∧ (s.jn.held = [] → exec (.journalClear addr []) s = .next
            (sendReply { addr := addr, code := 0x47, payload := [] } .ok [] { s with jn := { s.jn with
              suspect := false, capture := { valid := false, number := 0, lost := false } } }))
        ∧ (s.jn.held ≠ [] → exec (.journalClear addr []) s = .next
            (sendReply { addr := addr, code := 0x47, payload := [] } .notEmpty [] s))
        ∧ exec (.forceCheckFault addr) s = .next (sendReply { addr := addr, code := 0x48, payload := [0x01#8] } .ok []
            { s with jn := { s.jn with armed := true } })
        ∧ (∃ bytes t, t = sendReply { addr := addr, code := 0x49, payload := [] } .ok [] s
            ∧ t.sl.tx = some { bytes := bytes, resets := false }
            ∧ exec (.reset addr []) s = .next { t with sl := { t.sl with tx := some { bytes := bytes, resets := true } } })
        ∧ (∀ (c : Instr) (code : Byte) (payload : List Byte), payload.length ≤ 96 →
            (c = .poll addr payload ∧ code = 0x40 ∧ payload ≠ [] ∨ c = .collected addr payload ∧ code = 0x41 ∧ payload.length ≠ 4
              ∨ c = .identify addr payload ∧ code = 0x44 ∧ payload ≠ [] ∨ c = .restore addr payload ∧ code = 0x45 ∧ payload ≠ []
              ∨ c = .stationFaultClear addr payload ∧ code = 0x46 ∧ payload ≠ []
              ∨ c = .journalClear addr payload ∧ code = 0x47 ∧ payload ≠ []
              ∨ c = .maintUnknownOperation addr payload ∧ code = 0x48 ∧ payload.length ≠ 1
              ∨ c = .reset addr payload ∧ code = 0x49 ∧ payload ≠ []) →
            exec c s = .next (sendReply { addr := addr, code := code, payload := payload } .range [] s)))
    ∧ (∀ (s : State) (r : Reply), s.sl.tx = some r → exec .stationReplyEnd s = .next
        { s with sl := { s.sl with tx := s.sl.next, next := none, resetDue := s.sl.resetDue || r.resets } })

/-! ## Resets -/

/-- POWER_ON and LINE_RESET: both ports IDLE and empty, OK, without snapshot; no wait queue, evaluation or in-flight serial;
a PENDING torn record becomes UNRESOLVED with the torn window, the others keep theirs, and those without any expire with
their alerts, in the new queue (log 35); the seen table empty, the keys kept; the deny entries kept, their stale marks
cleared where a load is ended; a LOADING bank EMPTY, the others kept; no credits, bodies, histories and timers, the inputs'
raw levels kept, the aisle settling and RELEASED, the fault states and the halt record kept; held records, durable number,
SUSPECT and the capture kept, the queue, reservations and arm gone, ALERTS_LOST set where appends were lost; the station
line empty; the settings kept. The clock, the link, the time base and the station emergency start anew at POWER_ON and stand
at LINE_RESET, which makes an activation test that was held (R7, R26, R38, R46, R92, R106, R110, R155, R159, R161, R174,
R184, R189, R191). That the inputs keep their raw levels, that the time base starts at 0, and the held test's place, are the
model's choice (logs 8, 9 and 17). The number of the cause is read from the order of the manual's list (log 23). -/
def Obligations.ResetsTakeTheirValues : Prop :=
  (∀ (s : State) (c : Instr), c = .powerOn ∨ c = .lineReset → ∃ t, exec c s = .next t
        ∧ t.portA = State.reset.portA ∧ t.portB = State.reset.portB ∧ t.ve.queue = [] ∧ t.ve.eval = none ∧ t.ve.inFlight = []
        ∧ (∀ r ∈ t.ve.torn, ∀ p, r.state ≠ .pending p)
        ∧ t.su.keys = s.su.keys ∧ t.su.seen = [] ∧ t.su.deny.loading = false ∧ t.su.deny.version = s.su.deny.version
        ∧ t.fu.bank0.state ≠ .loading ∧ t.fu.bank1.state ≠ .loading ∧ t.fu.heldTest = false
        ∧ t.ac.credits = [] ∧ t.ac.bodiesAB = 0 ∧ t.ac.bodiesBA = 0 ∧ t.ac.leaf = .released ∧ t.ac.motion = none
        ∧ t.ac.settleEnd = some (t.now + s.cfg.filterTime) ∧ t.ac.lockedOut = s.ac.lockedOut
        ∧ t.ac.faultInProgress = s.ac.faultInProgress ∧ t.ac.halt = s.ac.halt
        ∧ t.jn.held = s.jn.held ∧ t.jn.durable = s.jn.durable ∧ t.jn.reserved = 0 ∧ t.jn.armed = false
        ∧ t.sl = State.reset.sl ∧ t.cfg = s.cfg
        ∧ (c = .powerOn → t.tl = State.reset.tl ∧ t.now = 0 ∧ t.ac.stationEmergency = false)
        ∧ (c = .lineReset → t.tl = s.tl ∧ t.now = s.now ∧ t.ac.stationEmergency = s.ac.stationEmergency))
    ∧ (∀ (s : State) (c : Instr), c = .powerOn ∨ c = .lineReset → (s.ve.torn.map (·.serial)).Nodup →
      let torn : List TornRecord := s.ve.torn.map (fun r => match r.state with
        | .pending _ => { r with state := .unresolved s.cfg.tornWindow }
        | .unresolved _ => r)
      let deny : List DenyEntry := if s.su.deny.loading then s.su.deny.entries.map (fun e => match e.source with
          | .station _ => { e with source := .station false }
          | .localEntry _ => e)
        else s.su.deny.entries
      let bank : Bank → Bank := fun b => if b.state = .loading
        then { state := .empty, version := 0, effDay := 0, contents := List.replicate 314 0 } else b
      let now := if c = .powerOn then 0 else s.now
      let tl := if c = .powerOn then State.reset.tl else s.tl
      let lost := if c = .powerOn then s.jn.queueMark else !s.jn.queue.isEmpty
      let jn : Journal := { s.jn with
        assigned := s.jn.durable, queue := [], reserved := 0, armed := false, queueMark := false,
        alertsLost := s.jn.alertsLost || lost }
      let expired : List Content := (torn.filter (fun r => r.state == .unresolved 0)).map (fun r =>
        { kind := .tornUnresolved, side := portSide r.origin, serial := r.serial, seqAfter := r.newSeq, charge := r.charge,
          balance := r.balance, version := r.version, entryZone := r.entryZone, exitZone := r.exitZone, detail := 1 })
      ∃ t u, exec c s = .next t
        ∧ u = { s with
            now := now
            portA := State.reset.portA
            portB := State.reset.portB
            ve := { queue := [], eval := none, inFlight := [], torn := torn.filter (fun r => r.state != .unresolved 0) }
            su := { s.su with seen := [], deny := { s.su.deny with entries := deny, loading := false } }
            fu := { s.fu with bank0 := bank s.fu.bank0, bank1 := bank s.fu.bank1, heldTest := false }
            ac := { State.reset.ac with
              inputs := s.ac.inputs.each (fun l => { raw := l.raw, filtered := false, filterEnd := none })
              settleEnd := some (now + s.cfg.filterTime)
              idleEnd := some (now + s.cfg.idleClear * 1000)
              faultInProgress := s.ac.faultInProgress
              lockedOut := s.ac.lockedOut
              halt := s.ac.halt
              stationEmergency := if c = .powerOn then false else s.ac.stationEmergency }
            jn := requestAlerts tl expired jn
            tl := tl
            sl := State.reset.sl }
        ∧ (c = .powerOn ∨ s.fu.heldTest = false → t = u)
        ∧ (c = .lineReset → s.fu.heldTest = true → activationMade u t))

end Statements
end

