-- ==== Sys2Proof/Laws/State.lean ====
section
/-! SUPPORT. One lemma for each field that an update of the state leaves or sets, so that no proof unfolds an update. -/

namespace Sys2Proof.Machine

/-! ## setPort -/

@[simp] theorem setPort_now (s : State) (p : Port) (l : LanePort) : (s.setPort p l).now = s.now := by cases p <;> rfl
@[simp] theorem setPort_free (s : State) (p : Port) (l : LanePort) : (s.setPort p l).free = s.free := by cases p <;> rfl
@[simp] theorem setPort_pending (s : State) (p : Port) (l : LanePort) : (s.setPort p l).pending = s.pending := by cases p <;> rfl
@[simp] theorem setPort_ve (s : State) (p : Port) (l : LanePort) : (s.setPort p l).ve = s.ve := by cases p <;> rfl
@[simp] theorem setPort_su (s : State) (p : Port) (l : LanePort) : (s.setPort p l).su = s.su := by cases p <;> rfl
@[simp] theorem setPort_fu (s : State) (p : Port) (l : LanePort) : (s.setPort p l).fu = s.fu := by cases p <;> rfl
@[simp] theorem setPort_ac (s : State) (p : Port) (l : LanePort) : (s.setPort p l).ac = s.ac := by cases p <;> rfl
@[simp] theorem setPort_jn (s : State) (p : Port) (l : LanePort) : (s.setPort p l).jn = s.jn := by cases p <;> rfl
@[simp] theorem setPort_tl (s : State) (p : Port) (l : LanePort) : (s.setPort p l).tl = s.tl := by cases p <;> rfl
@[simp] theorem setPort_sl (s : State) (p : Port) (l : LanePort) : (s.setPort p l).sl = s.sl := by cases p <;> rfl
@[simp] theorem setPort_cfg (s : State) (p : Port) (l : LanePort) : (s.setPort p l).cfg = s.cfg := by cases p <;> rfl

/-! ## setTorn -/

@[simp] theorem setTorn_now (s : State) (t : List TornRecord) : (s.setTorn t).now = s.now := rfl
@[simp] theorem setTorn_free (s : State) (t : List TornRecord) : (s.setTorn t).free = s.free := rfl
@[simp] theorem setTorn_pending (s : State) (t : List TornRecord) : (s.setTorn t).pending = s.pending := rfl
@[simp] theorem setTorn_portA (s : State) (t : List TornRecord) : (s.setTorn t).portA = s.portA := rfl
@[simp] theorem setTorn_portB (s : State) (t : List TornRecord) : (s.setTorn t).portB = s.portB := rfl
@[simp] theorem setTorn_su (s : State) (t : List TornRecord) : (s.setTorn t).su = s.su := rfl
@[simp] theorem setTorn_fu (s : State) (t : List TornRecord) : (s.setTorn t).fu = s.fu := rfl
@[simp] theorem setTorn_ac (s : State) (t : List TornRecord) : (s.setTorn t).ac = s.ac := rfl
@[simp] theorem setTorn_jn (s : State) (t : List TornRecord) : (s.setTorn t).jn = s.jn := rfl
@[simp] theorem setTorn_tl (s : State) (t : List TornRecord) : (s.setTorn t).tl = s.tl := rfl
@[simp] theorem setTorn_sl (s : State) (t : List TornRecord) : (s.setTorn t).sl = s.sl := rfl
@[simp] theorem setTorn_cfg (s : State) (t : List TornRecord) : (s.setTorn t).cfg = s.cfg := rfl
@[simp] theorem setTorn_port (s : State) (t : List TornRecord) (q : Port) : (s.setTorn t).port q = s.port q := by cases q <;> rfl

/-! ## setEval -/

@[simp] theorem setEval_now (s : State) (e : Option Evaluation) : (s.setEval e).now = s.now := rfl
@[simp] theorem setEval_free (s : State) (e : Option Evaluation) : (s.setEval e).free = s.free := rfl
@[simp] theorem setEval_pending (s : State) (e : Option Evaluation) : (s.setEval e).pending = s.pending := rfl
@[simp] theorem setEval_portA (s : State) (e : Option Evaluation) : (s.setEval e).portA = s.portA := rfl
@[simp] theorem setEval_portB (s : State) (e : Option Evaluation) : (s.setEval e).portB = s.portB := rfl
@[simp] theorem setEval_su (s : State) (e : Option Evaluation) : (s.setEval e).su = s.su := rfl
@[simp] theorem setEval_fu (s : State) (e : Option Evaluation) : (s.setEval e).fu = s.fu := rfl
@[simp] theorem setEval_ac (s : State) (e : Option Evaluation) : (s.setEval e).ac = s.ac := rfl
@[simp] theorem setEval_jn (s : State) (e : Option Evaluation) : (s.setEval e).jn = s.jn := rfl
@[simp] theorem setEval_tl (s : State) (e : Option Evaluation) : (s.setEval e).tl = s.tl := rfl
@[simp] theorem setEval_sl (s : State) (e : Option Evaluation) : (s.setEval e).sl = s.sl := rfl
@[simp] theorem setEval_cfg (s : State) (e : Option Evaluation) : (s.setEval e).cfg = s.cfg := rfl
@[simp] theorem setEval_port (s : State) (e : Option Evaluation) (q : Port) : (s.setEval e).port q = s.port q := by cases q <;> rfl

/-! ## postAlerts -/

@[simp] theorem postAlerts_now (s : State) (cs : List Content) : (postAlerts cs s).now = s.now := rfl
@[simp] theorem postAlerts_free (s : State) (cs : List Content) : (postAlerts cs s).free = s.free := rfl
@[simp] theorem postAlerts_pending (s : State) (cs : List Content) : (postAlerts cs s).pending = s.pending := rfl
@[simp] theorem postAlerts_portA (s : State) (cs : List Content) : (postAlerts cs s).portA = s.portA := rfl
@[simp] theorem postAlerts_portB (s : State) (cs : List Content) : (postAlerts cs s).portB = s.portB := rfl
@[simp] theorem postAlerts_ve (s : State) (cs : List Content) : (postAlerts cs s).ve = s.ve := rfl
@[simp] theorem postAlerts_su (s : State) (cs : List Content) : (postAlerts cs s).su = s.su := rfl
@[simp] theorem postAlerts_fu (s : State) (cs : List Content) : (postAlerts cs s).fu = s.fu := rfl
@[simp] theorem postAlerts_ac (s : State) (cs : List Content) : (postAlerts cs s).ac = s.ac := rfl
@[simp] theorem postAlerts_tl (s : State) (cs : List Content) : (postAlerts cs s).tl = s.tl := rfl
@[simp] theorem postAlerts_sl (s : State) (cs : List Content) : (postAlerts cs s).sl = s.sl := rfl
@[simp] theorem postAlerts_cfg (s : State) (cs : List Content) : (postAlerts cs s).cfg = s.cfg := rfl
@[simp] theorem postAlerts_port (s : State) (cs : List Content) (q : Port) : (postAlerts cs s).port q = s.port q := by cases q <;> rfl

/-! ## reach -/

@[simp] theorem reach_free (s : State) (t : Nat) : (reach t s).free = s.free := rfl
@[simp] theorem reach_pending (s : State) (t : Nat) : (reach t s).pending = s.pending := rfl
@[simp] theorem reach_portA (s : State) (t : Nat) : (reach t s).portA = s.portA := rfl
@[simp] theorem reach_portB (s : State) (t : Nat) : (reach t s).portB = s.portB := rfl
@[simp] theorem reach_ve (s : State) (t : Nat) : (reach t s).ve = s.ve := rfl
@[simp] theorem reach_su (s : State) (t : Nat) : (reach t s).su = s.su := rfl
@[simp] theorem reach_fu (s : State) (t : Nat) : (reach t s).fu = s.fu := rfl
@[simp] theorem reach_ac (s : State) (t : Nat) : (reach t s).ac = s.ac := rfl
@[simp] theorem reach_jn (s : State) (t : Nat) : (reach t s).jn = s.jn := rfl
@[simp] theorem reach_tl (s : State) (t : Nat) : (reach t s).tl = s.tl := rfl
@[simp] theorem reach_sl (s : State) (t : Nat) : (reach t s).sl = s.sl := rfl
@[simp] theorem reach_cfg (s : State) (t : Nat) : (reach t s).cfg = s.cfg := rfl
@[simp] theorem reach_port (s : State) (t : Nat) (q : Port) : (reach t s).port q = s.port q := by cases q <;> rfl

/-! ## withAisleOnly -/

@[simp] theorem withAisleOnly_now (s : State) (f : Env → Aisle → Aisle) : (withAisleOnly f s).now = s.now := rfl
@[simp] theorem withAisleOnly_free (s : State) (f : Env → Aisle → Aisle) : (withAisleOnly f s).free = s.free := rfl
@[simp] theorem withAisleOnly_pending (s : State) (f : Env → Aisle → Aisle) : (withAisleOnly f s).pending = s.pending := rfl
@[simp] theorem withAisleOnly_portA (s : State) (f : Env → Aisle → Aisle) : (withAisleOnly f s).portA = s.portA := rfl
@[simp] theorem withAisleOnly_portB (s : State) (f : Env → Aisle → Aisle) : (withAisleOnly f s).portB = s.portB := rfl
@[simp] theorem withAisleOnly_ve (s : State) (f : Env → Aisle → Aisle) : (withAisleOnly f s).ve = s.ve := rfl
@[simp] theorem withAisleOnly_su (s : State) (f : Env → Aisle → Aisle) : (withAisleOnly f s).su = s.su := rfl
@[simp] theorem withAisleOnly_fu (s : State) (f : Env → Aisle → Aisle) : (withAisleOnly f s).fu = s.fu := rfl
@[simp] theorem withAisleOnly_jn (s : State) (f : Env → Aisle → Aisle) : (withAisleOnly f s).jn = s.jn := rfl
@[simp] theorem withAisleOnly_tl (s : State) (f : Env → Aisle → Aisle) : (withAisleOnly f s).tl = s.tl := rfl
@[simp] theorem withAisleOnly_sl (s : State) (f : Env → Aisle → Aisle) : (withAisleOnly f s).sl = s.sl := rfl
@[simp] theorem withAisleOnly_cfg (s : State) (f : Env → Aisle → Aisle) : (withAisleOnly f s).cfg = s.cfg := rfl
@[simp] theorem withAisleOnly_port (s : State) (f : Env → Aisle → Aisle) (q : Port) : (withAisleOnly f s).port q = s.port q := by cases q <;> rfl

/-! ## withAisle -/

@[simp] theorem withAisle_now (s : State) (f : Env → AisleRun → AisleRun) : (withAisle f s).now = s.now := rfl
@[simp] theorem withAisle_free (s : State) (f : Env → AisleRun → AisleRun) : (withAisle f s).free = s.free := rfl
@[simp] theorem withAisle_pending (s : State) (f : Env → AisleRun → AisleRun) : (withAisle f s).pending = s.pending := rfl
@[simp] theorem withAisle_portA (s : State) (f : Env → AisleRun → AisleRun) : (withAisle f s).portA = s.portA := rfl
@[simp] theorem withAisle_portB (s : State) (f : Env → AisleRun → AisleRun) : (withAisle f s).portB = s.portB := rfl
@[simp] theorem withAisle_ve (s : State) (f : Env → AisleRun → AisleRun) : (withAisle f s).ve = s.ve := rfl
@[simp] theorem withAisle_su (s : State) (f : Env → AisleRun → AisleRun) : (withAisle f s).su = s.su := rfl
@[simp] theorem withAisle_fu (s : State) (f : Env → AisleRun → AisleRun) : (withAisle f s).fu = s.fu := rfl
@[simp] theorem withAisle_tl (s : State) (f : Env → AisleRun → AisleRun) : (withAisle f s).tl = s.tl := rfl
@[simp] theorem withAisle_sl (s : State) (f : Env → AisleRun → AisleRun) : (withAisle f s).sl = s.sl := rfl
@[simp] theorem withAisle_cfg (s : State) (f : Env → AisleRun → AisleRun) : (withAisle f s).cfg = s.cfg := rfl
@[simp] theorem withAisle_port (s : State) (f : Env → AisleRun → AisleRun) (q : Port) : (withAisle f s).port q = s.port q := by cases q <;> rfl

/-! ## withDeny -/

@[simp] theorem withDeny_now (s : State) (g : DenyList → DenyList) : (withDeny g s).now = s.now := rfl
@[simp] theorem withDeny_free (s : State) (g : DenyList → DenyList) : (withDeny g s).free = s.free := rfl
@[simp] theorem withDeny_pending (s : State) (g : DenyList → DenyList) : (withDeny g s).pending = s.pending := rfl
@[simp] theorem withDeny_portA (s : State) (g : DenyList → DenyList) : (withDeny g s).portA = s.portA := rfl
@[simp] theorem withDeny_portB (s : State) (g : DenyList → DenyList) : (withDeny g s).portB = s.portB := rfl
@[simp] theorem withDeny_ve (s : State) (g : DenyList → DenyList) : (withDeny g s).ve = s.ve := rfl
@[simp] theorem withDeny_fu (s : State) (g : DenyList → DenyList) : (withDeny g s).fu = s.fu := rfl
@[simp] theorem withDeny_ac (s : State) (g : DenyList → DenyList) : (withDeny g s).ac = s.ac := rfl
@[simp] theorem withDeny_jn (s : State) (g : DenyList → DenyList) : (withDeny g s).jn = s.jn := rfl
@[simp] theorem withDeny_tl (s : State) (g : DenyList → DenyList) : (withDeny g s).tl = s.tl := rfl
@[simp] theorem withDeny_sl (s : State) (g : DenyList → DenyList) : (withDeny g s).sl = s.sl := rfl
@[simp] theorem withDeny_cfg (s : State) (g : DenyList → DenyList) : (withDeny g s).cfg = s.cfg := rfl
@[simp] theorem withDeny_port (s : State) (g : DenyList → DenyList) (q : Port) : (withDeny g s).port q = s.port q := by cases q <;> rfl

/-! ## sendReply -/

@[simp] theorem sendReply_now (s : State) (f : Frame) (r : Result) (d : List Byte) : (sendReply f r d s).now = s.now := rfl
@[simp] theorem sendReply_free (s : State) (f : Frame) (r : Result) (d : List Byte) : (sendReply f r d s).free = s.free := rfl
@[simp] theorem sendReply_pending (s : State) (f : Frame) (r : Result) (d : List Byte) : (sendReply f r d s).pending = s.pending := rfl
@[simp] theorem sendReply_portA (s : State) (f : Frame) (r : Result) (d : List Byte) : (sendReply f r d s).portA = s.portA := rfl
@[simp] theorem sendReply_portB (s : State) (f : Frame) (r : Result) (d : List Byte) : (sendReply f r d s).portB = s.portB := rfl
@[simp] theorem sendReply_ve (s : State) (f : Frame) (r : Result) (d : List Byte) : (sendReply f r d s).ve = s.ve := rfl
@[simp] theorem sendReply_su (s : State) (f : Frame) (r : Result) (d : List Byte) : (sendReply f r d s).su = s.su := rfl
@[simp] theorem sendReply_fu (s : State) (f : Frame) (r : Result) (d : List Byte) : (sendReply f r d s).fu = s.fu := rfl
@[simp] theorem sendReply_ac (s : State) (f : Frame) (r : Result) (d : List Byte) : (sendReply f r d s).ac = s.ac := rfl
@[simp] theorem sendReply_jn (s : State) (f : Frame) (r : Result) (d : List Byte) : (sendReply f r d s).jn = s.jn := rfl
@[simp] theorem sendReply_tl (s : State) (f : Frame) (r : Result) (d : List Byte) : (sendReply f r d s).tl = s.tl := rfl
@[simp] theorem sendReply_cfg (s : State) (f : Frame) (r : Result) (d : List Byte) : (sendReply f r d s).cfg = s.cfg := rfl
@[simp] theorem sendReply_port (s : State) (f : Frame) (r : Result) (d : List Byte) (q : Port) : (sendReply f r d s).port q = s.port q := by cases q <;> rfl

/-! ## What the updates set -/

@[simp] theorem setPort_port_same (s : State) (p : Port) (l : LanePort) : (s.setPort p l).port p = l := by
  cases p <;> rfl

theorem setPort_port_other (s : State) (p q : Port) (l : LanePort) (h : q ≠ p) : (s.setPort p l).port q = s.port q := by
  cases p <;> cases q <;> first | rfl | exact absurd rfl h

@[simp] theorem setPort_setPort (s : State) (p : Port) (l m : LanePort) : (s.setPort p l).setPort p m = s.setPort p m := by
  cases p <;> rfl

theorem setPort_self (s : State) (p : Port) : s.setPort p (s.port p) = s := by
  cases p <;> rfl

@[simp] theorem setTorn_torn (s : State) (t : List TornRecord) : (s.setTorn t).ve.torn = t := rfl
@[simp] theorem setTorn_queue (s : State) (t : List TornRecord) : (s.setTorn t).ve.queue = s.ve.queue := rfl
@[simp] theorem setTorn_eval (s : State) (t : List TornRecord) : (s.setTorn t).ve.eval = s.ve.eval := rfl
@[simp] theorem setTorn_inFlight (s : State) (t : List TornRecord) : (s.setTorn t).ve.inFlight = s.ve.inFlight := rfl
@[simp] theorem setEval_eval (s : State) (e : Option Evaluation) : (s.setEval e).ve.eval = e := rfl
@[simp] theorem setEval_queue (s : State) (e : Option Evaluation) : (s.setEval e).ve.queue = s.ve.queue := rfl
@[simp] theorem setEval_torn (s : State) (e : Option Evaluation) : (s.setEval e).ve.torn = s.ve.torn := rfl
@[simp] theorem setEval_inFlight (s : State) (e : Option Evaluation) : (s.setEval e).ve.inFlight = s.ve.inFlight := rfl
@[simp] theorem reach_now (s : State) (t : Nat) : (reach t s).now = max s.now t := rfl
@[simp] theorem withAisleOnly_ac (s : State) (f : Env → Aisle → Aisle) : (withAisleOnly f s).ac = f s.env s.ac := rfl
@[simp] theorem withAisle_ac (s : State) (f : Env → AisleRun → AisleRun) :
    (withAisle f s).ac = (f s.env (AisleRun.mk s.ac [])).ac := rfl
@[simp] theorem withDeny_deny (s : State) (g : DenyList → DenyList) : (withDeny g s).su.deny = g s.su.deny := rfl
@[simp] theorem withDeny_keys (s : State) (g : DenyList → DenyList) : (withDeny g s).su.keys = s.su.keys := rfl
@[simp] theorem withDeny_seen (s : State) (g : DenyList → DenyList) : (withDeny g s).su.seen = s.su.seen := rfl
@[simp] theorem postAlerts_nil (s : State) : postAlerts [] s = s := rfl
@[simp] theorem sendReply_slot (s : State) (f : Frame) (r : Result) (d : List Byte) :
    (sendReply f r d s).sl.slot = s.sl.slot := rfl
@[simp] theorem sendReply_resetDue (s : State) (f : Frame) (r : Result) (d : List Byte) :
    (sendReply f r d s).sl.resetDue = s.sl.resetDue := rfl
@[simp] theorem sendReply_next (s : State) (f : Frame) (r : Result) (d : List Byte) :
    (sendReply f r d s).sl.next = s.sl.next := rfl
@[simp] theorem sendReply_overrun (s : State) (f : Frame) (r : Result) (d : List Byte) :
    (sendReply f r d s).sl.overrun = false := rfl

/-- A state is its fields: the form in which a frame is given and used. -/
theorem State.ext_fields (s t : State) (h1 : t.now = s.now) (h2 : t.free = s.free) (h3 : t.pending = s.pending)
    (h4 : t.portA = s.portA) (h5 : t.portB = s.portB) (h6 : t.ve = s.ve) (h7 : t.su = s.su) (h8 : t.fu = s.fu)
    (h9 : t.ac = s.ac) (h10 : t.jn = s.jn) (h11 : t.tl = s.tl) (h12 : t.sl = s.sl) (h13 : t.cfg = s.cfg) : t = s := by
  cases s; cases t; simp_all

end Sys2Proof.Machine
end

