-- ==== Sys2Proof/Laws/Frames.lean ====
section
/-! SUPPORT. For each shared operation, the parts of the state it leaves as they are, one @[simp] lemma a part: what an
operation is not listed with here is all it can change. -/

namespace Sys2Proof.Machine

/-! The activation test (R45, R47) changes the banks and the Journal. -/

@[simp] theorem runActivation_now (s : State) : (runActivation s).now = s.now := by
  rfl
@[simp] theorem runActivation_free (s : State) : (runActivation s).free = s.free := by
  rfl
@[simp] theorem runActivation_pending (s : State) : (runActivation s).pending = s.pending := by
  rfl
@[simp] theorem runActivation_portA (s : State) : (runActivation s).portA = s.portA := by
  rfl
@[simp] theorem runActivation_portB (s : State) : (runActivation s).portB = s.portB := by
  rfl
@[simp] theorem runActivation_ve (s : State) : (runActivation s).ve = s.ve := by
  rfl
@[simp] theorem runActivation_su (s : State) : (runActivation s).su = s.su := by
  rfl
@[simp] theorem runActivation_ac (s : State) : (runActivation s).ac = s.ac := by
  rfl
@[simp] theorem runActivation_tl (s : State) : (runActivation s).tl = s.tl := by
  rfl
@[simp] theorem runActivation_sl (s : State) : (runActivation s).sl = s.sl := by
  rfl
@[simp] theorem runActivation_cfg (s : State) : (runActivation s).cfg = s.cfg := by
  rfl

/-! A test that falls due (R46). -/

@[simp] theorem dueActivation_now (s : State) : (dueActivation s).now = s.now := by
  unfold dueActivation; split <;> simp
@[simp] theorem dueActivation_free (s : State) : (dueActivation s).free = s.free := by
  unfold dueActivation; split <;> simp
@[simp] theorem dueActivation_pending (s : State) : (dueActivation s).pending = s.pending := by
  unfold dueActivation; split <;> simp
@[simp] theorem dueActivation_portA (s : State) : (dueActivation s).portA = s.portA := by
  unfold dueActivation; split <;> simp
@[simp] theorem dueActivation_portB (s : State) : (dueActivation s).portB = s.portB := by
  unfold dueActivation; split <;> simp
@[simp] theorem dueActivation_ve (s : State) : (dueActivation s).ve = s.ve := by
  unfold dueActivation; split <;> simp
@[simp] theorem dueActivation_su (s : State) : (dueActivation s).su = s.su := by
  unfold dueActivation; split <;> simp
@[simp] theorem dueActivation_ac (s : State) : (dueActivation s).ac = s.ac := by
  unfold dueActivation; split <;> simp
@[simp] theorem dueActivation_tl (s : State) : (dueActivation s).tl = s.tl := by
  unfold dueActivation; split <;> simp
@[simp] theorem dueActivation_sl (s : State) : (dueActivation s).sl = s.sl := by
  unfold dueActivation; split <;> simp
@[simp] theorem dueActivation_cfg (s : State) : (dueActivation s).cfg = s.cfg := by
  unfold dueActivation; split <;> simp

/-! The held test (R46). -/

@[simp] theorem heldActivation_now (s : State) : (heldActivation s).now = s.now := by
  unfold heldActivation; split <;> simp
@[simp] theorem heldActivation_free (s : State) : (heldActivation s).free = s.free := by
  unfold heldActivation; split <;> simp
@[simp] theorem heldActivation_pending (s : State) : (heldActivation s).pending = s.pending := by
  unfold heldActivation; split <;> simp
@[simp] theorem heldActivation_portA (s : State) : (heldActivation s).portA = s.portA := by
  unfold heldActivation; split <;> simp
@[simp] theorem heldActivation_portB (s : State) : (heldActivation s).portB = s.portB := by
  unfold heldActivation; split <;> simp
@[simp] theorem heldActivation_ve (s : State) : (heldActivation s).ve = s.ve := by
  unfold heldActivation; split <;> simp
@[simp] theorem heldActivation_su (s : State) : (heldActivation s).su = s.su := by
  unfold heldActivation; split <;> simp
@[simp] theorem heldActivation_ac (s : State) : (heldActivation s).ac = s.ac := by
  unfold heldActivation; split <;> simp
@[simp] theorem heldActivation_tl (s : State) : (heldActivation s).tl = s.tl := by
  unfold heldActivation; split <;> simp
@[simp] theorem heldActivation_sl (s : State) : (heldActivation s).sl = s.sl := by
  unfold heldActivation; split <;> simp
@[simp] theorem heldActivation_cfg (s : State) : (heldActivation s).cfg = s.cfg := by
  unfold heldActivation; split <;> simp

/-! A reported removal (R104). -/

@[simp] theorem tornReport_now (r : TornRecord) (w : TornWhy) (s : State) : (tornReport r w s).now = s.now := by
  rfl
@[simp] theorem tornReport_free (r : TornRecord) (w : TornWhy) (s : State) : (tornReport r w s).free = s.free := by
  rfl
@[simp] theorem tornReport_pending (r : TornRecord) (w : TornWhy) (s : State) : (tornReport r w s).pending = s.pending := by
  rfl
@[simp] theorem tornReport_portA (r : TornRecord) (w : TornWhy) (s : State) : (tornReport r w s).portA = s.portA := by
  rfl
@[simp] theorem tornReport_portB (r : TornRecord) (w : TornWhy) (s : State) : (tornReport r w s).portB = s.portB := by
  rfl
@[simp] theorem tornReport_su (r : TornRecord) (w : TornWhy) (s : State) : (tornReport r w s).su = s.su := by
  rfl
@[simp] theorem tornReport_fu (r : TornRecord) (w : TornWhy) (s : State) : (tornReport r w s).fu = s.fu := by
  rfl
@[simp] theorem tornReport_ac (r : TornRecord) (w : TornWhy) (s : State) : (tornReport r w s).ac = s.ac := by
  rfl
@[simp] theorem tornReport_tl (r : TornRecord) (w : TornWhy) (s : State) : (tornReport r w s).tl = s.tl := by
  rfl
@[simp] theorem tornReport_sl (r : TornRecord) (w : TornWhy) (s : State) : (tornReport r w s).sl = s.sl := by
  rfl
@[simp] theorem tornReport_cfg (r : TornRecord) (w : TornWhy) (s : State) : (tornReport r w s).cfg = s.cfg := by
  rfl

/-! An expiry (R105). -/

@[simp] theorem expireIfDue_now (n : Nat) (s : State) : (expireIfDue n s).now = s.now := by
  unfold expireIfDue; repeat' split
  all_goals simp
@[simp] theorem expireIfDue_free (n : Nat) (s : State) : (expireIfDue n s).free = s.free := by
  unfold expireIfDue; repeat' split
  all_goals simp
@[simp] theorem expireIfDue_pending (n : Nat) (s : State) : (expireIfDue n s).pending = s.pending := by
  unfold expireIfDue; repeat' split
  all_goals simp
@[simp] theorem expireIfDue_portA (n : Nat) (s : State) : (expireIfDue n s).portA = s.portA := by
  unfold expireIfDue; repeat' split
  all_goals simp
@[simp] theorem expireIfDue_portB (n : Nat) (s : State) : (expireIfDue n s).portB = s.portB := by
  unfold expireIfDue; repeat' split
  all_goals simp
@[simp] theorem expireIfDue_su (n : Nat) (s : State) : (expireIfDue n s).su = s.su := by
  unfold expireIfDue; repeat' split
  all_goals simp
@[simp] theorem expireIfDue_fu (n : Nat) (s : State) : (expireIfDue n s).fu = s.fu := by
  unfold expireIfDue; repeat' split
  all_goals simp
@[simp] theorem expireIfDue_ac (n : Nat) (s : State) : (expireIfDue n s).ac = s.ac := by
  unfold expireIfDue; repeat' split
  all_goals simp
@[simp] theorem expireIfDue_tl (n : Nat) (s : State) : (expireIfDue n s).tl = s.tl := by
  unfold expireIfDue; repeat' split
  all_goals simp
@[simp] theorem expireIfDue_sl (n : Nat) (s : State) : (expireIfDue n s).sl = s.sl := by
  unfold expireIfDue; repeat' split
  all_goals simp
@[simp] theorem expireIfDue_cfg (n : Nat) (s : State) : (expireIfDue n s).cfg = s.cfg := by
  unfold expireIfDue; repeat' split
  all_goals simp

/-! A creation, with its eviction (R97). -/

@[simp] theorem tornCreate_now (r : TornRecord) (s : State) : (tornCreate r s).now = s.now := by
  unfold tornCreate; dsimp only; repeat' split
  all_goals simp
@[simp] theorem tornCreate_free (r : TornRecord) (s : State) : (tornCreate r s).free = s.free := by
  unfold tornCreate; dsimp only; repeat' split
  all_goals simp
@[simp] theorem tornCreate_pending (r : TornRecord) (s : State) : (tornCreate r s).pending = s.pending := by
  unfold tornCreate; dsimp only; repeat' split
  all_goals simp
@[simp] theorem tornCreate_portA (r : TornRecord) (s : State) : (tornCreate r s).portA = s.portA := by
  unfold tornCreate; dsimp only; repeat' split
  all_goals simp
@[simp] theorem tornCreate_portB (r : TornRecord) (s : State) : (tornCreate r s).portB = s.portB := by
  unfold tornCreate; dsimp only; repeat' split
  all_goals simp
@[simp] theorem tornCreate_su (r : TornRecord) (s : State) : (tornCreate r s).su = s.su := by
  unfold tornCreate; dsimp only; repeat' split
  all_goals simp
@[simp] theorem tornCreate_fu (r : TornRecord) (s : State) : (tornCreate r s).fu = s.fu := by
  unfold tornCreate; dsimp only; repeat' split
  all_goals simp
@[simp] theorem tornCreate_ac (r : TornRecord) (s : State) : (tornCreate r s).ac = s.ac := by
  unfold tornCreate; dsimp only; repeat' split
  all_goals simp
@[simp] theorem tornCreate_tl (r : TornRecord) (s : State) : (tornCreate r s).tl = s.tl := by
  unfold tornCreate; dsimp only; repeat' split
  all_goals simp
@[simp] theorem tornCreate_sl (r : TornRecord) (s : State) : (tornCreate r s).sl = s.sl := by
  unfold tornCreate; dsimp only; repeat' split
  all_goals simp
@[simp] theorem tornCreate_cfg (r : TornRecord) (s : State) : (tornCreate r s).cfg = s.cfg := by
  unfold tornCreate; dsimp only; repeat' split
  all_goals simp

/-! A sighting at the Torn-Write Table (R102, R103). -/

@[simp] theorem tornSighting_now (g : Sighting) (s : State) : (tornSighting g s).now = s.now := by
  unfold tornSighting; repeat' split
  all_goals simp
@[simp] theorem tornSighting_free (g : Sighting) (s : State) : (tornSighting g s).free = s.free := by
  unfold tornSighting; repeat' split
  all_goals simp
@[simp] theorem tornSighting_pending (g : Sighting) (s : State) : (tornSighting g s).pending = s.pending := by
  unfold tornSighting; repeat' split
  all_goals simp
@[simp] theorem tornSighting_portA (g : Sighting) (s : State) : (tornSighting g s).portA = s.portA := by
  unfold tornSighting; repeat' split
  all_goals simp
@[simp] theorem tornSighting_portB (g : Sighting) (s : State) : (tornSighting g s).portB = s.portB := by
  unfold tornSighting; repeat' split
  all_goals simp
@[simp] theorem tornSighting_su (g : Sighting) (s : State) : (tornSighting g s).su = s.su := by
  unfold tornSighting; repeat' split
  all_goals simp
@[simp] theorem tornSighting_fu (g : Sighting) (s : State) : (tornSighting g s).fu = s.fu := by
  unfold tornSighting; repeat' split
  all_goals simp
@[simp] theorem tornSighting_ac (g : Sighting) (s : State) : (tornSighting g s).ac = s.ac := by
  unfold tornSighting; repeat' split
  all_goals simp
@[simp] theorem tornSighting_tl (g : Sighting) (s : State) : (tornSighting g s).tl = s.tl := by
  unfold tornSighting; repeat' split
  all_goals simp
@[simp] theorem tornSighting_sl (g : Sighting) (s : State) : (tornSighting g s).sl = s.sl := by
  unfold tornSighting; repeat' split
  all_goals simp
@[simp] theorem tornSighting_cfg (g : Sighting) (s : State) : (tornSighting g s).cfg = s.cfg := by
  unfold tornSighting; repeat' split
  all_goals simp

/-! One sighting (R31). -/

@[simp] theorem takeSighting_now (g : Sighting) (s : State) : (takeSighting g s).now = s.now := by
  unfold takeSighting; split <;> simp
@[simp] theorem takeSighting_free (g : Sighting) (s : State) : (takeSighting g s).free = s.free := by
  unfold takeSighting; split <;> simp
@[simp] theorem takeSighting_pending (g : Sighting) (s : State) : (takeSighting g s).pending = s.pending := by
  unfold takeSighting; split <;> simp
@[simp] theorem takeSighting_portA (g : Sighting) (s : State) : (takeSighting g s).portA = s.portA := by
  unfold takeSighting; split <;> simp
@[simp] theorem takeSighting_portB (g : Sighting) (s : State) : (takeSighting g s).portB = s.portB := by
  unfold takeSighting; split <;> simp
@[simp] theorem takeSighting_fu (g : Sighting) (s : State) : (takeSighting g s).fu = s.fu := by
  unfold takeSighting; split <;> simp
@[simp] theorem takeSighting_ac (g : Sighting) (s : State) : (takeSighting g s).ac = s.ac := by
  unfold takeSighting; split <;> simp
@[simp] theorem takeSighting_tl (g : Sighting) (s : State) : (takeSighting g s).tl = s.tl := by
  unfold takeSighting; split <;> simp
@[simp] theorem takeSighting_sl (g : Sighting) (s : State) : (takeSighting g s).sl = s.sl := by
  unfold takeSighting; split <;> simp
@[simp] theorem takeSighting_cfg (g : Sighting) (s : State) : (takeSighting g s).cfg = s.cfg := by
  unfold takeSighting; split <;> simp

/-! The sightings of a frame (R31). -/

@[simp] theorem takeSightings_now (gs : List Sighting) (s : State) : (gs.foldl (fun acc g => takeSighting g acc) s).now = s.now := by
  induction gs generalizing s with
  | nil => rfl
  | cons g gs ih => rw [List.foldl_cons, ih]; simp
@[simp] theorem takeSightings_free (gs : List Sighting) (s : State) : (gs.foldl (fun acc g => takeSighting g acc) s).free = s.free := by
  induction gs generalizing s with
  | nil => rfl
  | cons g gs ih => rw [List.foldl_cons, ih]; simp
@[simp] theorem takeSightings_pending (gs : List Sighting) (s : State) : (gs.foldl (fun acc g => takeSighting g acc) s).pending = s.pending := by
  induction gs generalizing s with
  | nil => rfl
  | cons g gs ih => rw [List.foldl_cons, ih]; simp
@[simp] theorem takeSightings_portA (gs : List Sighting) (s : State) : (gs.foldl (fun acc g => takeSighting g acc) s).portA = s.portA := by
  induction gs generalizing s with
  | nil => rfl
  | cons g gs ih => rw [List.foldl_cons, ih]; simp
@[simp] theorem takeSightings_portB (gs : List Sighting) (s : State) : (gs.foldl (fun acc g => takeSighting g acc) s).portB = s.portB := by
  induction gs generalizing s with
  | nil => rfl
  | cons g gs ih => rw [List.foldl_cons, ih]; simp
@[simp] theorem takeSightings_fu (gs : List Sighting) (s : State) : (gs.foldl (fun acc g => takeSighting g acc) s).fu = s.fu := by
  induction gs generalizing s with
  | nil => rfl
  | cons g gs ih => rw [List.foldl_cons, ih]; simp
@[simp] theorem takeSightings_ac (gs : List Sighting) (s : State) : (gs.foldl (fun acc g => takeSighting g acc) s).ac = s.ac := by
  induction gs generalizing s with
  | nil => rfl
  | cons g gs ih => rw [List.foldl_cons, ih]; simp
@[simp] theorem takeSightings_tl (gs : List Sighting) (s : State) : (gs.foldl (fun acc g => takeSighting g acc) s).tl = s.tl := by
  induction gs generalizing s with
  | nil => rfl
  | cons g gs ih => rw [List.foldl_cons, ih]; simp
@[simp] theorem takeSightings_sl (gs : List Sighting) (s : State) : (gs.foldl (fun acc g => takeSighting g acc) s).sl = s.sl := by
  induction gs generalizing s with
  | nil => rfl
  | cons g gs ih => rw [List.foldl_cons, ih]; simp
@[simp] theorem takeSightings_cfg (gs : List Sighting) (s : State) : (gs.foldl (fun acc g => takeSighting g acc) s).cfg = s.cfg := by
  induction gs generalizing s with
  | nil => rfl
  | cons g gs ih => rw [List.foldl_cons, ih]; simp

/-! An abandon (R84). -/

@[simp] theorem abandon_now (p : Port) (f : TornFate) (s : State) : (abandon p f s).now = s.now := by
  cases p <;> rfl
@[simp] theorem abandon_free (p : Port) (f : TornFate) (s : State) : (abandon p f s).free = s.free := by
  cases p <;> rfl
@[simp] theorem abandon_pending (p : Port) (f : TornFate) (s : State) : (abandon p f s).pending = s.pending := by
  cases p <;> rfl
@[simp] theorem abandon_su (p : Port) (f : TornFate) (s : State) : (abandon p f s).su = s.su := by
  cases p <;> rfl
@[simp] theorem abandon_fu (p : Port) (f : TornFate) (s : State) : (abandon p f s).fu = s.fu := by
  cases p <;> rfl
@[simp] theorem abandon_tl (p : Port) (f : TornFate) (s : State) : (abandon p f s).tl = s.tl := by
  cases p <;> rfl
@[simp] theorem abandon_sl (p : Port) (f : TornFate) (s : State) : (abandon p f s).sl = s.sl := by
  cases p <;> rfl
@[simp] theorem abandon_cfg (p : Port) (f : TornFate) (s : State) : (abandon p f s).cfg = s.cfg := by
  cases p <;> rfl

/-! The seen table write of a commit (R30). -/

@[simp] theorem seenCommit_now (p : Port) (s : State) : (seenCommit p s).now = s.now := by
  unfold seenCommit; split <;> rfl
@[simp] theorem seenCommit_free (p : Port) (s : State) : (seenCommit p s).free = s.free := by
  unfold seenCommit; split <;> rfl
@[simp] theorem seenCommit_pending (p : Port) (s : State) : (seenCommit p s).pending = s.pending := by
  unfold seenCommit; split <;> rfl
@[simp] theorem seenCommit_portA (p : Port) (s : State) : (seenCommit p s).portA = s.portA := by
  unfold seenCommit; split <;> rfl
@[simp] theorem seenCommit_portB (p : Port) (s : State) : (seenCommit p s).portB = s.portB := by
  unfold seenCommit; split <;> rfl
@[simp] theorem seenCommit_ve (p : Port) (s : State) : (seenCommit p s).ve = s.ve := by
  unfold seenCommit; split <;> rfl
@[simp] theorem seenCommit_fu (p : Port) (s : State) : (seenCommit p s).fu = s.fu := by
  unfold seenCommit; split <;> rfl
@[simp] theorem seenCommit_ac (p : Port) (s : State) : (seenCommit p s).ac = s.ac := by
  unfold seenCommit; split <;> rfl
@[simp] theorem seenCommit_jn (p : Port) (s : State) : (seenCommit p s).jn = s.jn := by
  unfold seenCommit; split <;> rfl
@[simp] theorem seenCommit_tl (p : Port) (s : State) : (seenCommit p s).tl = s.tl := by
  unfold seenCommit; split <;> rfl
@[simp] theorem seenCommit_sl (p : Port) (s : State) : (seenCommit p s).sl = s.sl := by
  unfold seenCommit; split <;> rfl
@[simp] theorem seenCommit_cfg (p : Port) (s : State) : (seenCommit p s).cfg = s.cfg := by
  unfold seenCommit; split <;> rfl

/-! A commit's completion (R87). -/

@[simp] theorem completeCommit_now (p : Port) (n : Nat) (s : State) : (completeCommit p n s).now = s.now := by
  simp [completeCommit]
@[simp] theorem completeCommit_free (p : Port) (n : Nat) (s : State) : (completeCommit p n s).free = s.free := by
  simp [completeCommit]
@[simp] theorem completeCommit_pending (p : Port) (n : Nat) (s : State) : (completeCommit p n s).pending = s.pending := by
  simp [completeCommit]
@[simp] theorem completeCommit_fu (p : Port) (n : Nat) (s : State) : (completeCommit p n s).fu = s.fu := by
  simp [completeCommit]
@[simp] theorem completeCommit_jn (p : Port) (n : Nat) (s : State) : (completeCommit p n s).jn = s.jn := by
  simp [completeCommit]
@[simp] theorem completeCommit_tl (p : Port) (n : Nat) (s : State) : (completeCommit p n s).tl = s.tl := by
  simp [completeCommit]
@[simp] theorem completeCommit_sl (p : Port) (n : Nat) (s : State) : (completeCommit p n s).sl = s.sl := by
  simp [completeCommit]
@[simp] theorem completeCommit_cfg (p : Port) (n : Nat) (s : State) : (completeCommit p n s).cfg = s.cfg := by
  simp [completeCommit]

/-! A discarded lane frame (R185). -/

@[simp] theorem discardFrame_now (p : Port) (s : State) : (discardFrame p s).now = s.now := by
  simp [discardFrame]
@[simp] theorem discardFrame_free (p : Port) (s : State) : (discardFrame p s).free = s.free := by
  simp [discardFrame]
@[simp] theorem discardFrame_pending (p : Port) (s : State) : (discardFrame p s).pending = s.pending := by
  simp [discardFrame]
@[simp] theorem discardFrame_ve (p : Port) (s : State) : (discardFrame p s).ve = s.ve := by
  simp [discardFrame]
@[simp] theorem discardFrame_su (p : Port) (s : State) : (discardFrame p s).su = s.su := by
  simp [discardFrame]
@[simp] theorem discardFrame_fu (p : Port) (s : State) : (discardFrame p s).fu = s.fu := by
  simp [discardFrame]
@[simp] theorem discardFrame_ac (p : Port) (s : State) : (discardFrame p s).ac = s.ac := by
  simp [discardFrame]
@[simp] theorem discardFrame_jn (p : Port) (s : State) : (discardFrame p s).jn = s.jn := by
  simp [discardFrame]
@[simp] theorem discardFrame_tl (p : Port) (s : State) : (discardFrame p s).tl = s.tl := by
  simp [discardFrame]
@[simp] theorem discardFrame_sl (p : Port) (s : State) : (discardFrame p s).sl = s.sl := by
  simp [discardFrame]
@[simp] theorem discardFrame_cfg (p : Port) (s : State) : (discardFrame p s).cfg = s.cfg := by
  simp [discardFrame]

/-! A last result (R186). -/

@[simp] theorem laneAnswer_now (p : Port) (r : LastResult) (s : State) : (laneAnswer p r s).now = s.now := by
  simp [laneAnswer]
@[simp] theorem laneAnswer_free (p : Port) (r : LastResult) (s : State) : (laneAnswer p r s).free = s.free := by
  simp [laneAnswer]
@[simp] theorem laneAnswer_pending (p : Port) (r : LastResult) (s : State) : (laneAnswer p r s).pending = s.pending := by
  simp [laneAnswer]
@[simp] theorem laneAnswer_ve (p : Port) (r : LastResult) (s : State) : (laneAnswer p r s).ve = s.ve := by
  simp [laneAnswer]
@[simp] theorem laneAnswer_su (p : Port) (r : LastResult) (s : State) : (laneAnswer p r s).su = s.su := by
  simp [laneAnswer]
@[simp] theorem laneAnswer_fu (p : Port) (r : LastResult) (s : State) : (laneAnswer p r s).fu = s.fu := by
  simp [laneAnswer]
@[simp] theorem laneAnswer_ac (p : Port) (r : LastResult) (s : State) : (laneAnswer p r s).ac = s.ac := by
  simp [laneAnswer]
@[simp] theorem laneAnswer_jn (p : Port) (r : LastResult) (s : State) : (laneAnswer p r s).jn = s.jn := by
  simp [laneAnswer]
@[simp] theorem laneAnswer_tl (p : Port) (r : LastResult) (s : State) : (laneAnswer p r s).tl = s.tl := by
  simp [laneAnswer]
@[simp] theorem laneAnswer_sl (p : Port) (r : LastResult) (s : State) : (laneAnswer p r s).sl = s.sl := by
  simp [laneAnswer]
@[simp] theorem laneAnswer_cfg (p : Port) (r : LastResult) (s : State) : (laneAnswer p r s).cfg = s.cfg := by
  simp [laneAnswer]

/-! The end of a broadcast command (R190). -/

@[simp] theorem broadcastEnd_now (f : Frame) (s : State) : (broadcastEnd f s).now = s.now := by
  unfold broadcastEnd; split <;> simp
@[simp] theorem broadcastEnd_free (f : Frame) (s : State) : (broadcastEnd f s).free = s.free := by
  unfold broadcastEnd; split <;> simp
@[simp] theorem broadcastEnd_pending (f : Frame) (s : State) : (broadcastEnd f s).pending = s.pending := by
  unfold broadcastEnd; split <;> simp
@[simp] theorem broadcastEnd_portA (f : Frame) (s : State) : (broadcastEnd f s).portA = s.portA := by
  unfold broadcastEnd; split <;> simp
@[simp] theorem broadcastEnd_portB (f : Frame) (s : State) : (broadcastEnd f s).portB = s.portB := by
  unfold broadcastEnd; split <;> simp
@[simp] theorem broadcastEnd_ve (f : Frame) (s : State) : (broadcastEnd f s).ve = s.ve := by
  unfold broadcastEnd; split <;> simp
@[simp] theorem broadcastEnd_su (f : Frame) (s : State) : (broadcastEnd f s).su = s.su := by
  unfold broadcastEnd; split <;> simp
@[simp] theorem broadcastEnd_fu (f : Frame) (s : State) : (broadcastEnd f s).fu = s.fu := by
  unfold broadcastEnd; split <;> simp
@[simp] theorem broadcastEnd_ac (f : Frame) (s : State) : (broadcastEnd f s).ac = s.ac := by
  unfold broadcastEnd; split <;> simp
@[simp] theorem broadcastEnd_jn (f : Frame) (s : State) : (broadcastEnd f s).jn = s.jn := by
  unfold broadcastEnd; split <;> simp
@[simp] theorem broadcastEnd_tl (f : Frame) (s : State) : (broadcastEnd f s).tl = s.tl := by
  unfold broadcastEnd; split <;> simp
@[simp] theorem broadcastEnd_cfg (f : Frame) (s : State) : (broadcastEnd f s).cfg = s.cfg := by
  unfold broadcastEnd; split <;> simp

/-! SIGHTING (R31). -/

@[simp] theorem applySighting_now (f : Frame) (s : State) : (applySighting f s).now = s.now := by
  unfold applySighting; split <;> simp
@[simp] theorem applySighting_free (f : Frame) (s : State) : (applySighting f s).free = s.free := by
  unfold applySighting; split <;> simp
@[simp] theorem applySighting_pending (f : Frame) (s : State) : (applySighting f s).pending = s.pending := by
  unfold applySighting; split <;> simp
@[simp] theorem applySighting_portA (f : Frame) (s : State) : (applySighting f s).portA = s.portA := by
  unfold applySighting; split <;> simp
@[simp] theorem applySighting_portB (f : Frame) (s : State) : (applySighting f s).portB = s.portB := by
  unfold applySighting; split <;> simp
@[simp] theorem applySighting_fu (f : Frame) (s : State) : (applySighting f s).fu = s.fu := by
  unfold applySighting; split <;> simp
@[simp] theorem applySighting_ac (f : Frame) (s : State) : (applySighting f s).ac = s.ac := by
  unfold applySighting; split <;> simp
@[simp] theorem applySighting_tl (f : Frame) (s : State) : (applySighting f s).tl = s.tl := by
  unfold applySighting; split <;> simp
@[simp] theorem applySighting_cfg (f : Frame) (s : State) : (applySighting f s).cfg = s.cfg := by
  unfold applySighting; split <;> simp

/-! DENY_BASE_BEGIN (R19). -/

@[simp] theorem applyDenyBegin_now (f : Frame) (s : State) : (applyDenyBegin f s).now = s.now := by
  unfold applyDenyBegin; split <;> simp
@[simp] theorem applyDenyBegin_free (f : Frame) (s : State) : (applyDenyBegin f s).free = s.free := by
  unfold applyDenyBegin; split <;> simp
@[simp] theorem applyDenyBegin_pending (f : Frame) (s : State) : (applyDenyBegin f s).pending = s.pending := by
  unfold applyDenyBegin; split <;> simp
@[simp] theorem applyDenyBegin_portA (f : Frame) (s : State) : (applyDenyBegin f s).portA = s.portA := by
  unfold applyDenyBegin; split <;> simp
@[simp] theorem applyDenyBegin_portB (f : Frame) (s : State) : (applyDenyBegin f s).portB = s.portB := by
  unfold applyDenyBegin; split <;> simp
@[simp] theorem applyDenyBegin_ve (f : Frame) (s : State) : (applyDenyBegin f s).ve = s.ve := by
  unfold applyDenyBegin; split <;> simp
@[simp] theorem applyDenyBegin_fu (f : Frame) (s : State) : (applyDenyBegin f s).fu = s.fu := by
  unfold applyDenyBegin; split <;> simp
@[simp] theorem applyDenyBegin_ac (f : Frame) (s : State) : (applyDenyBegin f s).ac = s.ac := by
  unfold applyDenyBegin; split <;> simp
@[simp] theorem applyDenyBegin_jn (f : Frame) (s : State) : (applyDenyBegin f s).jn = s.jn := by
  unfold applyDenyBegin; split <;> simp
@[simp] theorem applyDenyBegin_tl (f : Frame) (s : State) : (applyDenyBegin f s).tl = s.tl := by
  unfold applyDenyBegin; split <;> simp
@[simp] theorem applyDenyBegin_cfg (f : Frame) (s : State) : (applyDenyBegin f s).cfg = s.cfg := by
  unfold applyDenyBegin; split <;> simp

/-! DENY_BASE_ADD (R20). -/

@[simp] theorem applyDenyAdd_now (f : Frame) (s : State) : (applyDenyAdd f s).now = s.now := by
  unfold applyDenyAdd; split <;> simp
@[simp] theorem applyDenyAdd_free (f : Frame) (s : State) : (applyDenyAdd f s).free = s.free := by
  unfold applyDenyAdd; split <;> simp
@[simp] theorem applyDenyAdd_pending (f : Frame) (s : State) : (applyDenyAdd f s).pending = s.pending := by
  unfold applyDenyAdd; split <;> simp
@[simp] theorem applyDenyAdd_portA (f : Frame) (s : State) : (applyDenyAdd f s).portA = s.portA := by
  unfold applyDenyAdd; split <;> simp
@[simp] theorem applyDenyAdd_portB (f : Frame) (s : State) : (applyDenyAdd f s).portB = s.portB := by
  unfold applyDenyAdd; split <;> simp
@[simp] theorem applyDenyAdd_ve (f : Frame) (s : State) : (applyDenyAdd f s).ve = s.ve := by
  unfold applyDenyAdd; split <;> simp
@[simp] theorem applyDenyAdd_fu (f : Frame) (s : State) : (applyDenyAdd f s).fu = s.fu := by
  unfold applyDenyAdd; split <;> simp
@[simp] theorem applyDenyAdd_ac (f : Frame) (s : State) : (applyDenyAdd f s).ac = s.ac := by
  unfold applyDenyAdd; split <;> simp
@[simp] theorem applyDenyAdd_jn (f : Frame) (s : State) : (applyDenyAdd f s).jn = s.jn := by
  unfold applyDenyAdd; split <;> simp
@[simp] theorem applyDenyAdd_tl (f : Frame) (s : State) : (applyDenyAdd f s).tl = s.tl := by
  unfold applyDenyAdd; split <;> simp
@[simp] theorem applyDenyAdd_cfg (f : Frame) (s : State) : (applyDenyAdd f s).cfg = s.cfg := by
  unfold applyDenyAdd; split <;> simp

/-! DENY_BASE_END (R21). -/

@[simp] theorem applyDenyEnd_now (f : Frame) (s : State) : (applyDenyEnd f s).now = s.now := by
  unfold applyDenyEnd; split <;> simp
@[simp] theorem applyDenyEnd_free (f : Frame) (s : State) : (applyDenyEnd f s).free = s.free := by
  unfold applyDenyEnd; split <;> simp
@[simp] theorem applyDenyEnd_pending (f : Frame) (s : State) : (applyDenyEnd f s).pending = s.pending := by
  unfold applyDenyEnd; split <;> simp
@[simp] theorem applyDenyEnd_portA (f : Frame) (s : State) : (applyDenyEnd f s).portA = s.portA := by
  unfold applyDenyEnd; split <;> simp
@[simp] theorem applyDenyEnd_portB (f : Frame) (s : State) : (applyDenyEnd f s).portB = s.portB := by
  unfold applyDenyEnd; split <;> simp
@[simp] theorem applyDenyEnd_ve (f : Frame) (s : State) : (applyDenyEnd f s).ve = s.ve := by
  unfold applyDenyEnd; split <;> simp
@[simp] theorem applyDenyEnd_fu (f : Frame) (s : State) : (applyDenyEnd f s).fu = s.fu := by
  unfold applyDenyEnd; split <;> simp
@[simp] theorem applyDenyEnd_ac (f : Frame) (s : State) : (applyDenyEnd f s).ac = s.ac := by
  unfold applyDenyEnd; split <;> simp
@[simp] theorem applyDenyEnd_jn (f : Frame) (s : State) : (applyDenyEnd f s).jn = s.jn := by
  unfold applyDenyEnd; split <;> simp
@[simp] theorem applyDenyEnd_tl (f : Frame) (s : State) : (applyDenyEnd f s).tl = s.tl := by
  unfold applyDenyEnd; split <;> simp
@[simp] theorem applyDenyEnd_cfg (f : Frame) (s : State) : (applyDenyEnd f s).cfg = s.cfg := by
  unfold applyDenyEnd; split <;> simp

/-! DENY_DELTA (R22, R23). -/

@[simp] theorem applyDenyDelta_now (f : Frame) (s : State) : (applyDenyDelta f s).now = s.now := by
  unfold applyDenyDelta; split <;> simp
@[simp] theorem applyDenyDelta_free (f : Frame) (s : State) : (applyDenyDelta f s).free = s.free := by
  unfold applyDenyDelta; split <;> simp
@[simp] theorem applyDenyDelta_pending (f : Frame) (s : State) : (applyDenyDelta f s).pending = s.pending := by
  unfold applyDenyDelta; split <;> simp
@[simp] theorem applyDenyDelta_portA (f : Frame) (s : State) : (applyDenyDelta f s).portA = s.portA := by
  unfold applyDenyDelta; split <;> simp
@[simp] theorem applyDenyDelta_portB (f : Frame) (s : State) : (applyDenyDelta f s).portB = s.portB := by
  unfold applyDenyDelta; split <;> simp
@[simp] theorem applyDenyDelta_ve (f : Frame) (s : State) : (applyDenyDelta f s).ve = s.ve := by
  unfold applyDenyDelta; split <;> simp
@[simp] theorem applyDenyDelta_fu (f : Frame) (s : State) : (applyDenyDelta f s).fu = s.fu := by
  unfold applyDenyDelta; split <;> simp
@[simp] theorem applyDenyDelta_ac (f : Frame) (s : State) : (applyDenyDelta f s).ac = s.ac := by
  unfold applyDenyDelta; split <;> simp
@[simp] theorem applyDenyDelta_jn (f : Frame) (s : State) : (applyDenyDelta f s).jn = s.jn := by
  unfold applyDenyDelta; split <;> simp
@[simp] theorem applyDenyDelta_tl (f : Frame) (s : State) : (applyDenyDelta f s).tl = s.tl := by
  unfold applyDenyDelta; split <;> simp
@[simp] theorem applyDenyDelta_cfg (f : Frame) (s : State) : (applyDenyDelta f s).cfg = s.cfg := by
  unfold applyDenyDelta; split <;> simp

/-! KEY_LOAD (R10 to R12). -/

@[simp] theorem applyKeyLoad_now (f : Frame) (s : State) : (applyKeyLoad f s).now = s.now := by
  unfold applyKeyLoad keyReply; dsimp only; repeat' split
  all_goals simp
@[simp] theorem applyKeyLoad_free (f : Frame) (s : State) : (applyKeyLoad f s).free = s.free := by
  unfold applyKeyLoad keyReply; dsimp only; repeat' split
  all_goals simp
@[simp] theorem applyKeyLoad_pending (f : Frame) (s : State) : (applyKeyLoad f s).pending = s.pending := by
  unfold applyKeyLoad keyReply; dsimp only; repeat' split
  all_goals simp
@[simp] theorem applyKeyLoad_portA (f : Frame) (s : State) : (applyKeyLoad f s).portA = s.portA := by
  unfold applyKeyLoad keyReply; dsimp only; repeat' split
  all_goals simp
@[simp] theorem applyKeyLoad_portB (f : Frame) (s : State) : (applyKeyLoad f s).portB = s.portB := by
  unfold applyKeyLoad keyReply; dsimp only; repeat' split
  all_goals simp
@[simp] theorem applyKeyLoad_ve (f : Frame) (s : State) : (applyKeyLoad f s).ve = s.ve := by
  unfold applyKeyLoad keyReply; dsimp only; repeat' split
  all_goals simp
@[simp] theorem applyKeyLoad_fu (f : Frame) (s : State) : (applyKeyLoad f s).fu = s.fu := by
  unfold applyKeyLoad keyReply; dsimp only; repeat' split
  all_goals simp
@[simp] theorem applyKeyLoad_ac (f : Frame) (s : State) : (applyKeyLoad f s).ac = s.ac := by
  unfold applyKeyLoad keyReply; dsimp only; repeat' split
  all_goals simp
@[simp] theorem applyKeyLoad_jn (f : Frame) (s : State) : (applyKeyLoad f s).jn = s.jn := by
  unfold applyKeyLoad keyReply; dsimp only; repeat' split
  all_goals simp
@[simp] theorem applyKeyLoad_tl (f : Frame) (s : State) : (applyKeyLoad f s).tl = s.tl := by
  unfold applyKeyLoad keyReply; dsimp only; repeat' split
  all_goals simp
@[simp] theorem applyKeyLoad_cfg (f : Frame) (s : State) : (applyKeyLoad f s).cfg = s.cfg := by
  unfold applyKeyLoad keyReply; dsimp only; repeat' split
  all_goals simp

/-! CONFIGURE (R194). -/

@[simp] theorem applyConfigure_now (f : Frame) (s : State) : (applyConfigure f s).now = s.now := by
  unfold applyConfigure configureReply changeSettings; repeat' split
  all_goals simp
@[simp] theorem applyConfigure_free (f : Frame) (s : State) : (applyConfigure f s).free = s.free := by
  unfold applyConfigure configureReply changeSettings; repeat' split
  all_goals simp
@[simp] theorem applyConfigure_pending (f : Frame) (s : State) : (applyConfigure f s).pending = s.pending := by
  unfold applyConfigure configureReply changeSettings; repeat' split
  all_goals simp
@[simp] theorem applyConfigure_portA (f : Frame) (s : State) : (applyConfigure f s).portA = s.portA := by
  unfold applyConfigure configureReply changeSettings; repeat' split
  all_goals simp
@[simp] theorem applyConfigure_portB (f : Frame) (s : State) : (applyConfigure f s).portB = s.portB := by
  unfold applyConfigure configureReply changeSettings; repeat' split
  all_goals simp
@[simp] theorem applyConfigure_ve (f : Frame) (s : State) : (applyConfigure f s).ve = s.ve := by
  unfold applyConfigure configureReply changeSettings; repeat' split
  all_goals simp
@[simp] theorem applyConfigure_su (f : Frame) (s : State) : (applyConfigure f s).su = s.su := by
  unfold applyConfigure configureReply changeSettings; repeat' split
  all_goals simp
@[simp] theorem applyConfigure_fu (f : Frame) (s : State) : (applyConfigure f s).fu = s.fu := by
  unfold applyConfigure configureReply changeSettings; repeat' split
  all_goals simp
@[simp] theorem applyConfigure_jn (f : Frame) (s : State) : (applyConfigure f s).jn = s.jn := by
  unfold applyConfigure configureReply changeSettings; repeat' split
  all_goals simp
@[simp] theorem applyConfigure_tl (f : Frame) (s : State) : (applyConfigure f s).tl = s.tl := by
  unfold applyConfigure configureReply changeSettings; repeat' split
  all_goals simp

/-! A waiting frame by its code (R34). -/

@[simp] theorem applyByCode_now (f : Frame) (s : State) : (applyByCode f s).now = s.now := by
  unfold applyByCode; repeat' split
  all_goals simp
@[simp] theorem applyByCode_free (f : Frame) (s : State) : (applyByCode f s).free = s.free := by
  unfold applyByCode; repeat' split
  all_goals simp
@[simp] theorem applyByCode_pending (f : Frame) (s : State) : (applyByCode f s).pending = s.pending := by
  unfold applyByCode; repeat' split
  all_goals simp
@[simp] theorem applyByCode_portA (f : Frame) (s : State) : (applyByCode f s).portA = s.portA := by
  unfold applyByCode; repeat' split
  all_goals simp
@[simp] theorem applyByCode_portB (f : Frame) (s : State) : (applyByCode f s).portB = s.portB := by
  unfold applyByCode; repeat' split
  all_goals simp
@[simp] theorem applyByCode_fu (f : Frame) (s : State) : (applyByCode f s).fu = s.fu := by
  unfold applyByCode; repeat' split
  all_goals simp
@[simp] theorem applyByCode_tl (f : Frame) (s : State) : (applyByCode f s).tl = s.tl := by
  unfold applyByCode; repeat' split
  all_goals simp

/-! The waiting frame (R35). -/

@[simp] theorem applyWaiting_now (s : State) : (applyWaiting s).now = s.now := by
  unfold applyWaiting; repeat' split
  all_goals simp
@[simp] theorem applyWaiting_free (s : State) : (applyWaiting s).free = s.free := by
  unfold applyWaiting; repeat' split
  all_goals simp
@[simp] theorem applyWaiting_pending (s : State) : (applyWaiting s).pending = s.pending := by
  unfold applyWaiting; repeat' split
  all_goals simp
@[simp] theorem applyWaiting_portA (s : State) : (applyWaiting s).portA = s.portA := by
  unfold applyWaiting; repeat' split
  all_goals simp
@[simp] theorem applyWaiting_portB (s : State) : (applyWaiting s).portB = s.portB := by
  unfold applyWaiting; repeat' split
  all_goals simp
@[simp] theorem applyWaiting_fu (s : State) : (applyWaiting s).fu = s.fu := by
  unfold applyWaiting; repeat' split
  all_goals simp
@[simp] theorem applyWaiting_tl (s : State) : (applyWaiting s).tl = s.tl := by
  unfold applyWaiting; repeat' split
  all_goals simp

@[simp] theorem waitingWork_now (s : State) : (waitingWork s).now = s.now := by
  simp [waitingWork]
@[simp] theorem waitingWork_free (s : State) : (waitingWork s).free = s.free := by
  simp [waitingWork]
@[simp] theorem waitingWork_pending (s : State) : (waitingWork s).pending = s.pending := by
  simp [waitingWork]
@[simp] theorem waitingWork_portA (s : State) : (waitingWork s).portA = s.portA := by
  simp [waitingWork]
@[simp] theorem waitingWork_portB (s : State) : (waitingWork s).portB = s.portB := by
  simp [waitingWork]
@[simp] theorem waitingWork_tl (s : State) : (waitingWork s).tl = s.tl := by
  simp [waitingWork]

/-! A credit given back (R74). -/

@[simp] theorem uncredit_now (d : Option Dir) (e : Evaluation) (s : State) : (uncredit d e s).now = s.now := by
  unfold uncredit; split <;> simp
@[simp] theorem uncredit_free (d : Option Dir) (e : Evaluation) (s : State) : (uncredit d e s).free = s.free := by
  unfold uncredit; split <;> simp
@[simp] theorem uncredit_pending (d : Option Dir) (e : Evaluation) (s : State) : (uncredit d e s).pending = s.pending := by
  unfold uncredit; split <;> simp
@[simp] theorem uncredit_portA (d : Option Dir) (e : Evaluation) (s : State) : (uncredit d e s).portA = s.portA := by
  unfold uncredit; split <;> simp
@[simp] theorem uncredit_portB (d : Option Dir) (e : Evaluation) (s : State) : (uncredit d e s).portB = s.portB := by
  unfold uncredit; split <;> simp
@[simp] theorem uncredit_ve (d : Option Dir) (e : Evaluation) (s : State) : (uncredit d e s).ve = s.ve := by
  unfold uncredit; split <;> simp
@[simp] theorem uncredit_su (d : Option Dir) (e : Evaluation) (s : State) : (uncredit d e s).su = s.su := by
  unfold uncredit; split <;> simp
@[simp] theorem uncredit_fu (d : Option Dir) (e : Evaluation) (s : State) : (uncredit d e s).fu = s.fu := by
  unfold uncredit; split <;> simp
@[simp] theorem uncredit_jn (d : Option Dir) (e : Evaluation) (s : State) : (uncredit d e s).jn = s.jn := by
  unfold uncredit; split <;> simp
@[simp] theorem uncredit_tl (d : Option Dir) (e : Evaluation) (s : State) : (uncredit d e s).tl = s.tl := by
  unfold uncredit; split <;> simp
@[simp] theorem uncredit_sl (d : Option Dir) (e : Evaluation) (s : State) : (uncredit d e s).sl = s.sl := by
  unfold uncredit; split <;> simp
@[simp] theorem uncredit_cfg (d : Option Dir) (e : Evaluation) (s : State) : (uncredit d e s).cfg = s.cfg := by
  unfold uncredit; split <;> simp

/-! The reservations (R73, R74). -/

@[simp] theorem reserveBoth_now (d : Option Dir) (v : Verdict) (e : Evaluation) (s : State) : (reserveBoth d v e s).now = s.now := by
  unfold reserveBoth; repeat' split
  all_goals (try dsimp only)
  all_goals (try split)
  all_goals simp [refused, decided]
@[simp] theorem reserveBoth_free (d : Option Dir) (v : Verdict) (e : Evaluation) (s : State) : (reserveBoth d v e s).free = s.free := by
  unfold reserveBoth; repeat' split
  all_goals (try dsimp only)
  all_goals (try split)
  all_goals simp [refused, decided]
@[simp] theorem reserveBoth_pending (d : Option Dir) (v : Verdict) (e : Evaluation) (s : State) : (reserveBoth d v e s).pending = s.pending := by
  unfold reserveBoth; repeat' split
  all_goals (try dsimp only)
  all_goals (try split)
  all_goals simp [refused, decided]
@[simp] theorem reserveBoth_portA (d : Option Dir) (v : Verdict) (e : Evaluation) (s : State) : (reserveBoth d v e s).portA = s.portA := by
  unfold reserveBoth; repeat' split
  all_goals (try dsimp only)
  all_goals (try split)
  all_goals simp [refused, decided]
@[simp] theorem reserveBoth_portB (d : Option Dir) (v : Verdict) (e : Evaluation) (s : State) : (reserveBoth d v e s).portB = s.portB := by
  unfold reserveBoth; repeat' split
  all_goals (try dsimp only)
  all_goals (try split)
  all_goals simp [refused, decided]
@[simp] theorem reserveBoth_su (d : Option Dir) (v : Verdict) (e : Evaluation) (s : State) : (reserveBoth d v e s).su = s.su := by
  unfold reserveBoth; repeat' split
  all_goals (try dsimp only)
  all_goals (try split)
  all_goals simp [refused, decided]
@[simp] theorem reserveBoth_fu (d : Option Dir) (v : Verdict) (e : Evaluation) (s : State) : (reserveBoth d v e s).fu = s.fu := by
  unfold reserveBoth; repeat' split
  all_goals (try dsimp only)
  all_goals (try split)
  all_goals simp [refused, decided]
@[simp] theorem reserveBoth_tl (d : Option Dir) (v : Verdict) (e : Evaluation) (s : State) : (reserveBoth d v e s).tl = s.tl := by
  unfold reserveBoth; repeat' split
  all_goals (try dsimp only)
  all_goals (try split)
  all_goals simp [refused, decided]
@[simp] theorem reserveBoth_sl (d : Option Dir) (v : Verdict) (e : Evaluation) (s : State) : (reserveBoth d v e s).sl = s.sl := by
  unfold reserveBoth; repeat' split
  all_goals (try dsimp only)
  all_goals (try split)
  all_goals simp [refused, decided]
@[simp] theorem reserveBoth_cfg (d : Option Dir) (v : Verdict) (e : Evaluation) (s : State) : (reserveBoth d v e s).cfg = s.cfg := by
  unfold reserveBoth; repeat' split
  all_goals (try dsimp only)
  all_goals (try split)
  all_goals simp [refused, decided]

/-! One stage of an evaluation (R69 to R75, R99, R100). -/

@[simp] theorem evalStep_now (s : State) : (evalStep s).now = s.now := by
  unfold evalStep; repeat' split
  all_goals simp [gateStage, formStage, inFlightStage, tornStage, keyCheckStage, denyStage, cloneStage, exhaustionStage, fareStage, fareEnd, reservationsStage, refused, decided, goOn]
  all_goals (repeat' split)
  all_goals simp
@[simp] theorem evalStep_free (s : State) : (evalStep s).free = s.free := by
  unfold evalStep; repeat' split
  all_goals simp [gateStage, formStage, inFlightStage, tornStage, keyCheckStage, denyStage, cloneStage, exhaustionStage, fareStage, fareEnd, reservationsStage, refused, decided, goOn]
  all_goals (repeat' split)
  all_goals simp
@[simp] theorem evalStep_pending (s : State) : (evalStep s).pending = s.pending := by
  unfold evalStep; repeat' split
  all_goals simp [gateStage, formStage, inFlightStage, tornStage, keyCheckStage, denyStage, cloneStage, exhaustionStage, fareStage, fareEnd, reservationsStage, refused, decided, goOn]
  all_goals (repeat' split)
  all_goals simp
@[simp] theorem evalStep_portA (s : State) : (evalStep s).portA = s.portA := by
  unfold evalStep; repeat' split
  all_goals simp [gateStage, formStage, inFlightStage, tornStage, keyCheckStage, denyStage, cloneStage, exhaustionStage, fareStage, fareEnd, reservationsStage, refused, decided, goOn]
  all_goals (repeat' split)
  all_goals simp
@[simp] theorem evalStep_portB (s : State) : (evalStep s).portB = s.portB := by
  unfold evalStep; repeat' split
  all_goals simp [gateStage, formStage, inFlightStage, tornStage, keyCheckStage, denyStage, cloneStage, exhaustionStage, fareStage, fareEnd, reservationsStage, refused, decided, goOn]
  all_goals (repeat' split)
  all_goals simp
@[simp] theorem evalStep_fu (s : State) : (evalStep s).fu = s.fu := by
  unfold evalStep; repeat' split
  all_goals simp [gateStage, formStage, inFlightStage, tornStage, keyCheckStage, denyStage, cloneStage, exhaustionStage, fareStage, fareEnd, reservationsStage, refused, decided, goOn]
  all_goals (repeat' split)
  all_goals simp
@[simp] theorem evalStep_tl (s : State) : (evalStep s).tl = s.tl := by
  unfold evalStep; repeat' split
  all_goals simp [gateStage, formStage, inFlightStage, tornStage, keyCheckStage, denyStage, cloneStage, exhaustionStage, fareStage, fareEnd, reservationsStage, refused, decided, goOn]
  all_goals (repeat' split)
  all_goals simp
@[simp] theorem evalStep_sl (s : State) : (evalStep s).sl = s.sl := by
  unfold evalStep; repeat' split
  all_goals simp [gateStage, formStage, inFlightStage, tornStage, keyCheckStage, denyStage, cloneStage, exhaustionStage, fareStage, fareEnd, reservationsStage, refused, decided, goOn]
  all_goals (repeat' split)
  all_goals simp
@[simp] theorem evalStep_cfg (s : State) : (evalStep s).cfg = s.cfg := by
  unfold evalStep; repeat' split
  all_goals simp [gateStage, formStage, inFlightStage, tornStage, keyCheckStage, denyStage, cloneStage, exhaustionStage, fareStage, fareEnd, reservationsStage, refused, decided, goOn]
  all_goals (repeat' split)
  all_goals simp

/-! Stages of an evaluation. -/

/-- The stages that remain are made one after the other (R68). -/
theorem evalRun_eq_iterate (n : Nat) (s : State) : evalRun n s = evalStep^[n] s := by
  induction n generalizing s with
  | zero => rfl
  | succ n ih => exact ih (evalStep s)

@[simp] theorem evalRun_now (n : Nat) (s : State) : (evalRun n s).now = s.now := by
  induction n generalizing s with
  | zero => rfl
  | succ n ih => unfold evalRun; rw [ih]; simp
@[simp] theorem evalRun_free (n : Nat) (s : State) : (evalRun n s).free = s.free := by
  induction n generalizing s with
  | zero => rfl
  | succ n ih => unfold evalRun; rw [ih]; simp
@[simp] theorem evalRun_pending (n : Nat) (s : State) : (evalRun n s).pending = s.pending := by
  induction n generalizing s with
  | zero => rfl
  | succ n ih => unfold evalRun; rw [ih]; simp
@[simp] theorem evalRun_portA (n : Nat) (s : State) : (evalRun n s).portA = s.portA := by
  induction n generalizing s with
  | zero => rfl
  | succ n ih => unfold evalRun; rw [ih]; simp
@[simp] theorem evalRun_portB (n : Nat) (s : State) : (evalRun n s).portB = s.portB := by
  induction n generalizing s with
  | zero => rfl
  | succ n ih => unfold evalRun; rw [ih]; simp
@[simp] theorem evalRun_fu (n : Nat) (s : State) : (evalRun n s).fu = s.fu := by
  induction n generalizing s with
  | zero => rfl
  | succ n ih => unfold evalRun; rw [ih]; simp
@[simp] theorem evalRun_tl (n : Nat) (s : State) : (evalRun n s).tl = s.tl := by
  induction n generalizing s with
  | zero => rfl
  | succ n ih => unfold evalRun; rw [ih]; simp
@[simp] theorem evalRun_sl (n : Nat) (s : State) : (evalRun n s).sl = s.sl := by
  induction n generalizing s with
  | zero => rfl
  | succ n ih => unfold evalRun; rw [ih]; simp
@[simp] theorem evalRun_cfg (n : Nat) (s : State) : (evalRun n s).cfg = s.cfg := by
  induction n generalizing s with
  | zero => rfl
  | succ n ih => unfold evalRun; rw [ih]; simp

/-! The stages that remain (R68): without an evaluation, or with its verdict reached, none. -/

@[simp] theorem remainingStages_now (s : State) : (remainingStages s).now = s.now := evalRun_now 10 s
@[simp] theorem remainingStages_free (s : State) : (remainingStages s).free = s.free := evalRun_free 10 s
@[simp] theorem remainingStages_pending (s : State) : (remainingStages s).pending = s.pending := evalRun_pending 10 s
@[simp] theorem remainingStages_portA (s : State) : (remainingStages s).portA = s.portA := evalRun_portA 10 s
@[simp] theorem remainingStages_portB (s : State) : (remainingStages s).portB = s.portB := evalRun_portB 10 s
@[simp] theorem remainingStages_fu (s : State) : (remainingStages s).fu = s.fu := evalRun_fu 10 s
@[simp] theorem remainingStages_tl (s : State) : (remainingStages s).tl = s.tl := evalRun_tl 10 s
@[simp] theorem remainingStages_sl (s : State) : (remainingStages s).sl = s.sl := evalRun_sl 10 s
@[simp] theorem remainingStages_cfg (s : State) : (remainingStages s).cfg = s.cfg := evalRun_cfg 10 s

theorem evalStep_none (s : State) (h : s.ve.eval = none) : evalStep s = s := by simp only [evalStep, h]
theorem evalStep_decided (s : State) (e : Evaluation) (h : s.ve.eval = some e) (hv : e.verdict.isSome = true) :
    evalStep s = s := by simp only [evalStep, h, hv, if_true]
theorem evalRun_fixed (n : Nat) (s : State) (h : evalStep s = s) : evalRun n s = s := by
  induction n with
  | zero => rfl
  | succ n ih => unfold evalRun; rw [h, ih]
theorem remainingStages_none (s : State) (h : s.ve.eval = none) : remainingStages s = s :=
  evalRun_fixed 10 s (evalStep_none s h)
theorem remainingStages_decided (s : State) (e : Evaluation) (h : s.ve.eval = some e) (hv : e.verdict.isSome = true) :
    remainingStages s = s := evalRun_fixed 10 s (evalStep_decided s e h hv)

/-! The end of a hold (R105). -/

@[simp] theorem endHold_now (h : Option Nat) (s : State) : (endHold h s).now = s.now := by
  unfold endHold; split <;> simp
@[simp] theorem endHold_free (h : Option Nat) (s : State) : (endHold h s).free = s.free := by
  unfold endHold; split <;> simp
@[simp] theorem endHold_pending (h : Option Nat) (s : State) : (endHold h s).pending = s.pending := by
  unfold endHold; split <;> simp
@[simp] theorem endHold_portA (h : Option Nat) (s : State) : (endHold h s).portA = s.portA := by
  unfold endHold; split <;> simp
@[simp] theorem endHold_portB (h : Option Nat) (s : State) : (endHold h s).portB = s.portB := by
  unfold endHold; split <;> simp
@[simp] theorem endHold_su (h : Option Nat) (s : State) : (endHold h s).su = s.su := by
  unfold endHold; split <;> simp
@[simp] theorem endHold_fu (h : Option Nat) (s : State) : (endHold h s).fu = s.fu := by
  unfold endHold; split <;> simp
@[simp] theorem endHold_ac (h : Option Nat) (s : State) : (endHold h s).ac = s.ac := by
  unfold endHold; split <;> simp
@[simp] theorem endHold_tl (h : Option Nat) (s : State) : (endHold h s).tl = s.tl := by
  unfold endHold; split <;> simp
@[simp] theorem endHold_sl (h : Option Nat) (s : State) : (endHold h s).sl = s.sl := by
  unfold endHold; split <;> simp
@[simp] theorem endHold_cfg (h : Option Nat) (s : State) : (endHold h s).cfg = s.cfg := by
  unfold endHold; split <;> simp

/-! The in-flight set (R75). -/

@[simp] theorem joinInFlight_now (n : Nat) (p : Port) (s : State) : (joinInFlight n p s).now = s.now := by
  rfl
@[simp] theorem joinInFlight_free (n : Nat) (p : Port) (s : State) : (joinInFlight n p s).free = s.free := by
  rfl
@[simp] theorem joinInFlight_pending (n : Nat) (p : Port) (s : State) : (joinInFlight n p s).pending = s.pending := by
  rfl
@[simp] theorem joinInFlight_portA (n : Nat) (p : Port) (s : State) : (joinInFlight n p s).portA = s.portA := by
  rfl
@[simp] theorem joinInFlight_portB (n : Nat) (p : Port) (s : State) : (joinInFlight n p s).portB = s.portB := by
  rfl
@[simp] theorem joinInFlight_su (n : Nat) (p : Port) (s : State) : (joinInFlight n p s).su = s.su := by
  rfl
@[simp] theorem joinInFlight_fu (n : Nat) (p : Port) (s : State) : (joinInFlight n p s).fu = s.fu := by
  rfl
@[simp] theorem joinInFlight_ac (n : Nat) (p : Port) (s : State) : (joinInFlight n p s).ac = s.ac := by
  rfl
@[simp] theorem joinInFlight_jn (n : Nat) (p : Port) (s : State) : (joinInFlight n p s).jn = s.jn := by
  rfl
@[simp] theorem joinInFlight_tl (n : Nat) (p : Port) (s : State) : (joinInFlight n p s).tl = s.tl := by
  rfl
@[simp] theorem joinInFlight_sl (n : Nat) (p : Port) (s : State) : (joinInFlight n p s).sl = s.sl := by
  rfl
@[simp] theorem joinInFlight_cfg (n : Nat) (p : Port) (s : State) : (joinInFlight n p s).cfg = s.cfg := by
  rfl

/-! The verdict-ready event (R79). -/

@[simp] theorem readyByCode_now (e : Evaluation) (v : Verdict) (s : State) : (readyByCode e v s).now = s.now := by
  unfold readyByCode readyAccept readyResumed readyRefusal; dsimp only; repeat' split
  all_goals simp
@[simp] theorem readyByCode_free (e : Evaluation) (v : Verdict) (s : State) : (readyByCode e v s).free = s.free := by
  unfold readyByCode readyAccept readyResumed readyRefusal; dsimp only; repeat' split
  all_goals simp
@[simp] theorem readyByCode_pending (e : Evaluation) (v : Verdict) (s : State) : (readyByCode e v s).pending = s.pending := by
  unfold readyByCode readyAccept readyResumed readyRefusal; dsimp only; repeat' split
  all_goals simp
@[simp] theorem readyByCode_su (e : Evaluation) (v : Verdict) (s : State) : (readyByCode e v s).su = s.su := by
  unfold readyByCode readyAccept readyResumed readyRefusal; dsimp only; repeat' split
  all_goals simp
@[simp] theorem readyByCode_fu (e : Evaluation) (v : Verdict) (s : State) : (readyByCode e v s).fu = s.fu := by
  unfold readyByCode readyAccept readyResumed readyRefusal; dsimp only; repeat' split
  all_goals simp
@[simp] theorem readyByCode_ac (e : Evaluation) (v : Verdict) (s : State) : (readyByCode e v s).ac = s.ac := by
  unfold readyByCode readyAccept readyResumed readyRefusal; dsimp only; repeat' split
  all_goals simp
@[simp] theorem readyByCode_tl (e : Evaluation) (v : Verdict) (s : State) : (readyByCode e v s).tl = s.tl := by
  unfold readyByCode readyAccept readyResumed readyRefusal; dsimp only; repeat' split
  all_goals simp
@[simp] theorem readyByCode_sl (e : Evaluation) (v : Verdict) (s : State) : (readyByCode e v s).sl = s.sl := by
  unfold readyByCode readyAccept readyResumed readyRefusal; dsimp only; repeat' split
  all_goals simp
@[simp] theorem readyByCode_cfg (e : Evaluation) (v : Verdict) (s : State) : (readyByCode e v s).cfg = s.cfg := by
  unfold readyByCode readyAccept readyResumed readyRefusal; dsimp only; repeat' split
  all_goals simp

/-! The end of an evaluation (R79). -/

@[simp] theorem endEvaluation_now (s : State) : (endEvaluation s).now = s.now := by
  unfold endEvaluation; dsimp only; repeat' split
  all_goals simp
@[simp] theorem endEvaluation_free (s : State) : (endEvaluation s).free = s.free := by
  unfold endEvaluation; dsimp only; repeat' split
  all_goals simp
@[simp] theorem endEvaluation_pending (s : State) : (endEvaluation s).pending = s.pending := by
  unfold endEvaluation; dsimp only; repeat' split
  all_goals simp
@[simp] theorem endEvaluation_fu (s : State) : (endEvaluation s).fu = s.fu := by
  unfold endEvaluation; dsimp only; repeat' split
  all_goals simp
@[simp] theorem endEvaluation_tl (s : State) : (endEvaluation s).tl = s.tl := by
  unfold endEvaluation; dsimp only; repeat' split
  all_goals simp
@[simp] theorem endEvaluation_sl (s : State) : (endEvaluation s).sl = s.sl := by
  unfold endEvaluation; dsimp only; repeat' split
  all_goals simp
@[simp] theorem endEvaluation_cfg (s : State) : (endEvaluation s).cfg = s.cfg := by
  unfold endEvaluation; dsimp only; repeat' split
  all_goals simp

/-! The early end of an evaluation (R91). -/

@[simp] theorem dropEvaluation_now (e : Evaluation) (s : State) : (dropEvaluation e s).now = s.now := by
  unfold dropEvaluation; dsimp only; repeat' split
  all_goals simp
@[simp] theorem dropEvaluation_free (e : Evaluation) (s : State) : (dropEvaluation e s).free = s.free := by
  unfold dropEvaluation; dsimp only; repeat' split
  all_goals simp
@[simp] theorem dropEvaluation_pending (e : Evaluation) (s : State) : (dropEvaluation e s).pending = s.pending := by
  unfold dropEvaluation; dsimp only; repeat' split
  all_goals simp
@[simp] theorem dropEvaluation_portA (e : Evaluation) (s : State) : (dropEvaluation e s).portA = s.portA := by
  unfold dropEvaluation; dsimp only; repeat' split
  all_goals simp
@[simp] theorem dropEvaluation_portB (e : Evaluation) (s : State) : (dropEvaluation e s).portB = s.portB := by
  unfold dropEvaluation; dsimp only; repeat' split
  all_goals simp
@[simp] theorem dropEvaluation_su (e : Evaluation) (s : State) : (dropEvaluation e s).su = s.su := by
  unfold dropEvaluation; dsimp only; repeat' split
  all_goals simp
@[simp] theorem dropEvaluation_fu (e : Evaluation) (s : State) : (dropEvaluation e s).fu = s.fu := by
  unfold dropEvaluation; dsimp only; repeat' split
  all_goals simp
@[simp] theorem dropEvaluation_tl (e : Evaluation) (s : State) : (dropEvaluation e s).tl = s.tl := by
  unfold dropEvaluation; dsimp only; repeat' split
  all_goals simp
@[simp] theorem dropEvaluation_sl (e : Evaluation) (s : State) : (dropEvaluation e s).sl = s.sl := by
  unfold dropEvaluation; dsimp only; repeat' split
  all_goals simp
@[simp] theorem dropEvaluation_cfg (e : Evaluation) (s : State) : (dropEvaluation e s).cfg = s.cfg := by
  unfold dropEvaluation; dsimp only; repeat' split
  all_goals simp

/-! The beginning of an evaluation (R67). -/

@[simp] theorem beginEvaluation_now (p : Port) (q : List Port) (s : State) : (beginEvaluation p q s).now = s.now := by
  simp [beginEvaluation]
@[simp] theorem beginEvaluation_free (p : Port) (q : List Port) (s : State) : (beginEvaluation p q s).free = s.free := by
  simp [beginEvaluation]
@[simp] theorem beginEvaluation_pending (p : Port) (q : List Port) (s : State) : (beginEvaluation p q s).pending = s.pending := by
  simp [beginEvaluation]
@[simp] theorem beginEvaluation_su (p : Port) (q : List Port) (s : State) : (beginEvaluation p q s).su = s.su := by
  simp [beginEvaluation]
@[simp] theorem beginEvaluation_fu (p : Port) (q : List Port) (s : State) : (beginEvaluation p q s).fu = s.fu := by
  simp [beginEvaluation]
@[simp] theorem beginEvaluation_ac (p : Port) (q : List Port) (s : State) : (beginEvaluation p q s).ac = s.ac := by
  simp [beginEvaluation]
@[simp] theorem beginEvaluation_jn (p : Port) (q : List Port) (s : State) : (beginEvaluation p q s).jn = s.jn := by
  simp [beginEvaluation]
@[simp] theorem beginEvaluation_tl (p : Port) (q : List Port) (s : State) : (beginEvaluation p q s).tl = s.tl := by
  simp [beginEvaluation]
@[simp] theorem beginEvaluation_sl (p : Port) (q : List Port) (s : State) : (beginEvaluation p q s).sl = s.sl := by
  simp [beginEvaluation]
@[simp] theorem beginEvaluation_cfg (p : Port) (q : List Port) (s : State) : (beginEvaluation p q s).cfg = s.cfg := by
  simp [beginEvaluation]

/-! What the free Verdict Engine does (R67). -/

@[simp] theorem engineNext_now (s : State) : (engineNext s).now = s.now := by
  unfold engineNext; dsimp only; repeat' split
  all_goals simp
@[simp] theorem engineNext_free (s : State) : (engineNext s).free = s.free := by
  unfold engineNext; dsimp only; repeat' split
  all_goals simp
@[simp] theorem engineNext_pending (s : State) : (engineNext s).pending = s.pending := by
  unfold engineNext; dsimp only; repeat' split
  all_goals simp
@[simp] theorem engineNext_tl (s : State) : (engineNext s).tl = s.tl := by
  unfold engineNext; dsimp only; repeat' split
  all_goals simp

end Sys2Proof.Machine
end

