-- ==== Sys2Proof/Laws/Commands.lean ====
section
/-! SUPPORT. For the effect of each command, the parts of the state it leaves as they are, and what a lane frame and a
station frame can come to. -/

namespace Sys2Proof.Machine

/-! TAP (R66). -/

@[simp] theorem joinQueue_now (p : Port) (s : State) : (joinQueue p s).now = s.now := by
  rfl
@[simp] theorem joinQueue_free (p : Port) (s : State) : (joinQueue p s).free = s.free := by
  rfl
@[simp] theorem joinQueue_pending (p : Port) (s : State) : (joinQueue p s).pending = s.pending := by
  rfl
@[simp] theorem joinQueue_portA (p : Port) (s : State) : (joinQueue p s).portA = s.portA := by
  rfl
@[simp] theorem joinQueue_portB (p : Port) (s : State) : (joinQueue p s).portB = s.portB := by
  rfl
@[simp] theorem joinQueue_su (p : Port) (s : State) : (joinQueue p s).su = s.su := by
  rfl
@[simp] theorem joinQueue_fu (p : Port) (s : State) : (joinQueue p s).fu = s.fu := by
  rfl
@[simp] theorem joinQueue_ac (p : Port) (s : State) : (joinQueue p s).ac = s.ac := by
  rfl
@[simp] theorem joinQueue_jn (p : Port) (s : State) : (joinQueue p s).jn = s.jn := by
  rfl
@[simp] theorem joinQueue_tl (p : Port) (s : State) : (joinQueue p s).tl = s.tl := by
  rfl
@[simp] theorem joinQueue_sl (p : Port) (s : State) : (joinQueue p s).sl = s.sl := by
  rfl
@[simp] theorem joinQueue_cfg (p : Port) (s : State) : (joinQueue p s).cfg = s.cfg := by
  rfl

@[simp] theorem takeTap_now (p : Port) (l : List Byte) (s : State) : (takeTap p l s).now = s.now := by
  unfold takeTap; dsimp only; repeat' split
  all_goals simp
@[simp] theorem takeTap_free (p : Port) (l : List Byte) (s : State) : (takeTap p l s).free = s.free := by
  unfold takeTap; dsimp only; repeat' split
  all_goals simp
@[simp] theorem takeTap_pending (p : Port) (l : List Byte) (s : State) : (takeTap p l s).pending = s.pending := by
  unfold takeTap; dsimp only; repeat' split
  all_goals simp
@[simp] theorem takeTap_tl (p : Port) (l : List Byte) (s : State) : (takeTap p l s).tl = s.tl := by
  unfold takeTap; dsimp only; repeat' split
  all_goals simp

/-! READ_VERDICT (R80). -/

@[simp] theorem afterRead_now (p : Port) (v : Verdict) (s : State) : (afterRead p v s).now = s.now := by
  unfold afterRead; dsimp only; repeat' split
  all_goals simp
@[simp] theorem afterRead_free (p : Port) (v : Verdict) (s : State) : (afterRead p v s).free = s.free := by
  unfold afterRead; dsimp only; repeat' split
  all_goals simp
@[simp] theorem afterRead_pending (p : Port) (v : Verdict) (s : State) : (afterRead p v s).pending = s.pending := by
  unfold afterRead; dsimp only; repeat' split
  all_goals simp
@[simp] theorem afterRead_su (p : Port) (v : Verdict) (s : State) : (afterRead p v s).su = s.su := by
  unfold afterRead; dsimp only; repeat' split
  all_goals simp
@[simp] theorem afterRead_fu (p : Port) (v : Verdict) (s : State) : (afterRead p v s).fu = s.fu := by
  unfold afterRead; dsimp only; repeat' split
  all_goals simp
@[simp] theorem afterRead_ac (p : Port) (v : Verdict) (s : State) : (afterRead p v s).ac = s.ac := by
  unfold afterRead; dsimp only; repeat' split
  all_goals simp
@[simp] theorem afterRead_tl (p : Port) (v : Verdict) (s : State) : (afterRead p v s).tl = s.tl := by
  unfold afterRead; dsimp only; repeat' split
  all_goals simp
@[simp] theorem afterRead_sl (p : Port) (v : Verdict) (s : State) : (afterRead p v s).sl = s.sl := by
  unfold afterRead; dsimp only; repeat' split
  all_goals simp
@[simp] theorem afterRead_cfg (p : Port) (v : Verdict) (s : State) : (afterRead p v s).cfg = s.cfg := by
  unfold afterRead; dsimp only; repeat' split
  all_goals simp

@[simp] theorem takeReadVerdict_now (p : Port) (s : State) : (takeReadVerdict p s).now = s.now := by
  unfold takeReadVerdict; dsimp only; split <;> simp
@[simp] theorem takeReadVerdict_pending (p : Port) (s : State) : (takeReadVerdict p s).pending = s.pending := by
  unfold takeReadVerdict; dsimp only; split <;> simp
@[simp] theorem takeReadVerdict_su (p : Port) (s : State) : (takeReadVerdict p s).su = s.su := by
  unfold takeReadVerdict; dsimp only; split <;> simp
@[simp] theorem takeReadVerdict_fu (p : Port) (s : State) : (takeReadVerdict p s).fu = s.fu := by
  unfold takeReadVerdict; dsimp only; split <;> simp
@[simp] theorem takeReadVerdict_ac (p : Port) (s : State) : (takeReadVerdict p s).ac = s.ac := by
  unfold takeReadVerdict; dsimp only; split <;> simp
@[simp] theorem takeReadVerdict_tl (p : Port) (s : State) : (takeReadVerdict p s).tl = s.tl := by
  unfold takeReadVerdict; dsimp only; split <;> simp
@[simp] theorem takeReadVerdict_sl (p : Port) (s : State) : (takeReadVerdict p s).sl = s.sl := by
  unfold takeReadVerdict; dsimp only; split <;> simp
@[simp] theorem takeReadVerdict_cfg (p : Port) (s : State) : (takeReadVerdict p s).cfg = s.cfg := by
  unfold takeReadVerdict; dsimp only; split <;> simp

/-! Reports of the card write (R81 to R83, R93). -/

@[simp] theorem outOfPlace_now (p : Port) (s : State) : (outOfPlace p s).now = s.now := by
  unfold outOfPlace; simp
@[simp] theorem outOfPlace_free (p : Port) (s : State) : (outOfPlace p s).free = s.free := by
  unfold outOfPlace; simp
@[simp] theorem outOfPlace_pending (p : Port) (s : State) : (outOfPlace p s).pending = s.pending := by
  unfold outOfPlace; simp
@[simp] theorem outOfPlace_ve (p : Port) (s : State) : (outOfPlace p s).ve = s.ve := by
  unfold outOfPlace; simp
@[simp] theorem outOfPlace_su (p : Port) (s : State) : (outOfPlace p s).su = s.su := by
  unfold outOfPlace; simp
@[simp] theorem outOfPlace_fu (p : Port) (s : State) : (outOfPlace p s).fu = s.fu := by
  unfold outOfPlace; simp
@[simp] theorem outOfPlace_ac (p : Port) (s : State) : (outOfPlace p s).ac = s.ac := by
  unfold outOfPlace; simp
@[simp] theorem outOfPlace_jn (p : Port) (s : State) : (outOfPlace p s).jn = s.jn := by
  unfold outOfPlace; simp
@[simp] theorem outOfPlace_tl (p : Port) (s : State) : (outOfPlace p s).tl = s.tl := by
  unfold outOfPlace; simp
@[simp] theorem outOfPlace_sl (p : Port) (s : State) : (outOfPlace p s).sl = s.sl := by
  unfold outOfPlace; simp
@[simp] theorem outOfPlace_cfg (p : Port) (s : State) : (outOfPlace p s).cfg = s.cfg := by
  unfold outOfPlace; simp

@[simp] theorem requestTapFare_now (p : Port) (s : State) : (requestTapFare p s).now = s.now := by
  unfold requestTapFare; split <;> rfl
@[simp] theorem requestTapFare_free (p : Port) (s : State) : (requestTapFare p s).free = s.free := by
  unfold requestTapFare; split <;> rfl
@[simp] theorem requestTapFare_pending (p : Port) (s : State) : (requestTapFare p s).pending = s.pending := by
  unfold requestTapFare; split <;> rfl
@[simp] theorem requestTapFare_portA (p : Port) (s : State) : (requestTapFare p s).portA = s.portA := by
  unfold requestTapFare; split <;> rfl
@[simp] theorem requestTapFare_portB (p : Port) (s : State) : (requestTapFare p s).portB = s.portB := by
  unfold requestTapFare; split <;> rfl
@[simp] theorem requestTapFare_ve (p : Port) (s : State) : (requestTapFare p s).ve = s.ve := by
  unfold requestTapFare; split <;> rfl
@[simp] theorem requestTapFare_su (p : Port) (s : State) : (requestTapFare p s).su = s.su := by
  unfold requestTapFare; split <;> rfl
@[simp] theorem requestTapFare_fu (p : Port) (s : State) : (requestTapFare p s).fu = s.fu := by
  unfold requestTapFare; split <;> rfl
@[simp] theorem requestTapFare_ac (p : Port) (s : State) : (requestTapFare p s).ac = s.ac := by
  unfold requestTapFare; split <;> rfl
@[simp] theorem requestTapFare_tl (p : Port) (s : State) : (requestTapFare p s).tl = s.tl := by
  unfold requestTapFare; split <;> rfl
@[simp] theorem requestTapFare_sl (p : Port) (s : State) : (requestTapFare p s).sl = s.sl := by
  unfold requestTapFare; split <;> rfl
@[simp] theorem requestTapFare_cfg (p : Port) (s : State) : (requestTapFare p s).cfg = s.cfg := by
  unfold requestTapFare; split <;> rfl

@[simp] theorem takeWritten_now (p : Port) (s : State) : (takeWritten p s).now = s.now := by
  unfold takeWritten; dsimp only; split <;> simp
@[simp] theorem takeWritten_free (p : Port) (s : State) : (takeWritten p s).free = s.free := by
  unfold takeWritten; dsimp only; split <;> simp
@[simp] theorem takeWritten_pending (p : Port) (s : State) : (takeWritten p s).pending = s.pending := by
  unfold takeWritten; dsimp only; split <;> simp
@[simp] theorem takeWritten_ve (p : Port) (s : State) : (takeWritten p s).ve = s.ve := by
  unfold takeWritten; dsimp only; split <;> simp
@[simp] theorem takeWritten_su (p : Port) (s : State) : (takeWritten p s).su = s.su := by
  unfold takeWritten; dsimp only; split <;> simp
@[simp] theorem takeWritten_fu (p : Port) (s : State) : (takeWritten p s).fu = s.fu := by
  unfold takeWritten; dsimp only; split <;> simp
@[simp] theorem takeWritten_ac (p : Port) (s : State) : (takeWritten p s).ac = s.ac := by
  unfold takeWritten; dsimp only; split <;> simp
@[simp] theorem takeWritten_tl (p : Port) (s : State) : (takeWritten p s).tl = s.tl := by
  unfold takeWritten; dsimp only; split <;> simp
@[simp] theorem takeWritten_sl (p : Port) (s : State) : (takeWritten p s).sl = s.sl := by
  unfold takeWritten; dsimp only; split <;> simp
@[simp] theorem takeWritten_cfg (p : Port) (s : State) : (takeWritten p s).cfg = s.cfg := by
  unfold takeWritten; dsimp only; split <;> simp

@[simp] theorem takeNotWritten_now (p : Port) (s : State) : (takeNotWritten p s).now = s.now := by
  unfold takeNotWritten; split <;> simp
@[simp] theorem takeNotWritten_free (p : Port) (s : State) : (takeNotWritten p s).free = s.free := by
  unfold takeNotWritten; split <;> simp
@[simp] theorem takeNotWritten_pending (p : Port) (s : State) : (takeNotWritten p s).pending = s.pending := by
  unfold takeNotWritten; split <;> simp
@[simp] theorem takeNotWritten_su (p : Port) (s : State) : (takeNotWritten p s).su = s.su := by
  unfold takeNotWritten; split <;> simp
@[simp] theorem takeNotWritten_fu (p : Port) (s : State) : (takeNotWritten p s).fu = s.fu := by
  unfold takeNotWritten; split <;> simp
@[simp] theorem takeNotWritten_tl (p : Port) (s : State) : (takeNotWritten p s).tl = s.tl := by
  unfold takeNotWritten; split <;> simp
@[simp] theorem takeNotWritten_sl (p : Port) (s : State) : (takeNotWritten p s).sl = s.sl := by
  unfold takeNotWritten; split <;> simp
@[simp] theorem takeNotWritten_cfg (p : Port) (s : State) : (takeNotWritten p s).cfg = s.cfg := by
  unfold takeNotWritten; split <;> simp

@[simp] theorem takeUncertain_now (p : Port) (s : State) : (takeUncertain p s).now = s.now := by
  unfold takeUncertain; split <;> simp
@[simp] theorem takeUncertain_free (p : Port) (s : State) : (takeUncertain p s).free = s.free := by
  unfold takeUncertain; split <;> simp
@[simp] theorem takeUncertain_pending (p : Port) (s : State) : (takeUncertain p s).pending = s.pending := by
  unfold takeUncertain; split <;> simp
@[simp] theorem takeUncertain_su (p : Port) (s : State) : (takeUncertain p s).su = s.su := by
  unfold takeUncertain; split <;> simp
@[simp] theorem takeUncertain_fu (p : Port) (s : State) : (takeUncertain p s).fu = s.fu := by
  unfold takeUncertain; split <;> simp
@[simp] theorem takeUncertain_tl (p : Port) (s : State) : (takeUncertain p s).tl = s.tl := by
  unfold takeUncertain; split <;> simp
@[simp] theorem takeUncertain_sl (p : Port) (s : State) : (takeUncertain p s).sl = s.sl := by
  unfold takeUncertain; split <;> simp
@[simp] theorem takeUncertain_cfg (p : Port) (s : State) : (takeUncertain p s).cfg = s.cfg := by
  unfold takeUncertain; split <;> simp

/-! CANCEL (R82). -/

@[simp] theorem leaveQueue_now (p : Port) (s : State) : (leaveQueue p s).now = s.now := by
  rfl
@[simp] theorem leaveQueue_free (p : Port) (s : State) : (leaveQueue p s).free = s.free := by
  rfl
@[simp] theorem leaveQueue_pending (p : Port) (s : State) : (leaveQueue p s).pending = s.pending := by
  rfl
@[simp] theorem leaveQueue_portA (p : Port) (s : State) : (leaveQueue p s).portA = s.portA := by
  rfl
@[simp] theorem leaveQueue_portB (p : Port) (s : State) : (leaveQueue p s).portB = s.portB := by
  rfl
@[simp] theorem leaveQueue_su (p : Port) (s : State) : (leaveQueue p s).su = s.su := by
  rfl
@[simp] theorem leaveQueue_fu (p : Port) (s : State) : (leaveQueue p s).fu = s.fu := by
  rfl
@[simp] theorem leaveQueue_ac (p : Port) (s : State) : (leaveQueue p s).ac = s.ac := by
  rfl
@[simp] theorem leaveQueue_jn (p : Port) (s : State) : (leaveQueue p s).jn = s.jn := by
  rfl
@[simp] theorem leaveQueue_tl (p : Port) (s : State) : (leaveQueue p s).tl = s.tl := by
  rfl
@[simp] theorem leaveQueue_sl (p : Port) (s : State) : (leaveQueue p s).sl = s.sl := by
  rfl
@[simp] theorem leaveQueue_cfg (p : Port) (s : State) : (leaveQueue p s).cfg = s.cfg := by
  rfl

@[simp] theorem discardVerdict_now (p : Port) (s : State) : (discardVerdict p s).now = s.now := by
  unfold discardVerdict; split <;> simp
@[simp] theorem discardVerdict_free (p : Port) (s : State) : (discardVerdict p s).free = s.free := by
  unfold discardVerdict; split <;> simp
@[simp] theorem discardVerdict_pending (p : Port) (s : State) : (discardVerdict p s).pending = s.pending := by
  unfold discardVerdict; split <;> simp
@[simp] theorem discardVerdict_su (p : Port) (s : State) : (discardVerdict p s).su = s.su := by
  unfold discardVerdict; split <;> simp
@[simp] theorem discardVerdict_fu (p : Port) (s : State) : (discardVerdict p s).fu = s.fu := by
  unfold discardVerdict; split <;> simp
@[simp] theorem discardVerdict_tl (p : Port) (s : State) : (discardVerdict p s).tl = s.tl := by
  unfold discardVerdict; split <;> simp
@[simp] theorem discardVerdict_sl (p : Port) (s : State) : (discardVerdict p s).sl = s.sl := by
  unfold discardVerdict; split <;> simp
@[simp] theorem discardVerdict_cfg (p : Port) (s : State) : (discardVerdict p s).cfg = s.cfg := by
  unfold discardVerdict; split <;> simp

@[simp] theorem withdrawQueued_now (p : Port) (s : State) : (withdrawQueued p s).now = s.now := by
  simp [withdrawQueued]
@[simp] theorem withdrawQueued_free (p : Port) (s : State) : (withdrawQueued p s).free = s.free := by
  simp [withdrawQueued]
@[simp] theorem withdrawQueued_pending (p : Port) (s : State) : (withdrawQueued p s).pending = s.pending := by
  simp [withdrawQueued]
@[simp] theorem withdrawQueued_su (p : Port) (s : State) : (withdrawQueued p s).su = s.su := by
  simp [withdrawQueued]
@[simp] theorem withdrawQueued_fu (p : Port) (s : State) : (withdrawQueued p s).fu = s.fu := by
  simp [withdrawQueued]
@[simp] theorem withdrawQueued_ac (p : Port) (s : State) : (withdrawQueued p s).ac = s.ac := by
  simp [withdrawQueued]
@[simp] theorem withdrawQueued_jn (p : Port) (s : State) : (withdrawQueued p s).jn = s.jn := by
  simp [withdrawQueued]
@[simp] theorem withdrawQueued_tl (p : Port) (s : State) : (withdrawQueued p s).tl = s.tl := by
  simp [withdrawQueued]
@[simp] theorem withdrawQueued_sl (p : Port) (s : State) : (withdrawQueued p s).sl = s.sl := by
  simp [withdrawQueued]
@[simp] theorem withdrawQueued_cfg (p : Port) (s : State) : (withdrawQueued p s).cfg = s.cfg := by
  simp [withdrawQueued]

@[simp] theorem takeCancel_now (p : Port) (s : State) : (takeCancel p s).now = s.now := by
  unfold takeCancel; split <;> simp
@[simp] theorem takeCancel_free (p : Port) (s : State) : (takeCancel p s).free = s.free := by
  unfold takeCancel; split <;> simp
@[simp] theorem takeCancel_pending (p : Port) (s : State) : (takeCancel p s).pending = s.pending := by
  unfold takeCancel; split <;> simp
@[simp] theorem takeCancel_su (p : Port) (s : State) : (takeCancel p s).su = s.su := by
  unfold takeCancel; split <;> simp
@[simp] theorem takeCancel_fu (p : Port) (s : State) : (takeCancel p s).fu = s.fu := by
  unfold takeCancel; split <;> simp
@[simp] theorem takeCancel_tl (p : Port) (s : State) : (takeCancel p s).tl = s.tl := by
  unfold takeCancel; split <;> simp
@[simp] theorem takeCancel_sl (p : Port) (s : State) : (takeCancel p s).sl = s.sl := by
  unfold takeCancel; split <;> simp
@[simp] theorem takeCancel_cfg (p : Port) (s : State) : (takeCancel p s).cfg = s.cfg := by
  unfold takeCancel; split <;> simp

/-! Reads (R152, R187). -/

@[simp] theorem takeReadStatus_now (p : Port) (s : State) : (takeReadStatus p s).now = s.now := by
  simp [takeReadStatus]
@[simp] theorem takeReadStatus_free (p : Port) (s : State) : (takeReadStatus p s).free = s.free := by
  simp [takeReadStatus]
@[simp] theorem takeReadStatus_pending (p : Port) (s : State) : (takeReadStatus p s).pending = s.pending := by
  simp [takeReadStatus]
@[simp] theorem takeReadStatus_ve (p : Port) (s : State) : (takeReadStatus p s).ve = s.ve := by
  simp [takeReadStatus]
@[simp] theorem takeReadStatus_su (p : Port) (s : State) : (takeReadStatus p s).su = s.su := by
  simp [takeReadStatus]
@[simp] theorem takeReadStatus_fu (p : Port) (s : State) : (takeReadStatus p s).fu = s.fu := by
  simp [takeReadStatus]
@[simp] theorem takeReadStatus_ac (p : Port) (s : State) : (takeReadStatus p s).ac = s.ac := by
  simp [takeReadStatus]
@[simp] theorem takeReadStatus_jn (p : Port) (s : State) : (takeReadStatus p s).jn = s.jn := by
  simp [takeReadStatus]
@[simp] theorem takeReadStatus_tl (p : Port) (s : State) : (takeReadStatus p s).tl = s.tl := by
  simp [takeReadStatus]
@[simp] theorem takeReadStatus_sl (p : Port) (s : State) : (takeReadStatus p s).sl = s.sl := by
  simp [takeReadStatus]
@[simp] theorem takeReadStatus_cfg (p : Port) (s : State) : (takeReadStatus p s).cfg = s.cfg := by
  simp [takeReadStatus]

@[simp] theorem takeReadHalt_now (p : Port) (s : State) : (takeReadHalt p s).now = s.now := by
  simp [takeReadHalt]
@[simp] theorem takeReadHalt_free (p : Port) (s : State) : (takeReadHalt p s).free = s.free := by
  simp [takeReadHalt]
@[simp] theorem takeReadHalt_pending (p : Port) (s : State) : (takeReadHalt p s).pending = s.pending := by
  simp [takeReadHalt]
@[simp] theorem takeReadHalt_ve (p : Port) (s : State) : (takeReadHalt p s).ve = s.ve := by
  simp [takeReadHalt]
@[simp] theorem takeReadHalt_su (p : Port) (s : State) : (takeReadHalt p s).su = s.su := by
  simp [takeReadHalt]
@[simp] theorem takeReadHalt_fu (p : Port) (s : State) : (takeReadHalt p s).fu = s.fu := by
  simp [takeReadHalt]
@[simp] theorem takeReadHalt_ac (p : Port) (s : State) : (takeReadHalt p s).ac = s.ac := by
  simp [takeReadHalt]
@[simp] theorem takeReadHalt_jn (p : Port) (s : State) : (takeReadHalt p s).jn = s.jn := by
  simp [takeReadHalt]
@[simp] theorem takeReadHalt_tl (p : Port) (s : State) : (takeReadHalt p s).tl = s.tl := by
  simp [takeReadHalt]
@[simp] theorem takeReadHalt_sl (p : Port) (s : State) : (takeReadHalt p s).sl = s.sl := by
  simp [takeReadHalt]
@[simp] theorem takeReadHalt_cfg (p : Port) (s : State) : (takeReadHalt p s).cfg = s.cfg := by
  simp [takeReadHalt]

/-! FAULT_CLEAR (R153). -/

@[simp] theorem clearFault_now (s : State) : (clearFault s).now = s.now := by
  rfl
@[simp] theorem clearFault_free (s : State) : (clearFault s).free = s.free := by
  rfl
@[simp] theorem clearFault_pending (s : State) : (clearFault s).pending = s.pending := by
  rfl
@[simp] theorem clearFault_portA (s : State) : (clearFault s).portA = s.portA := by
  rfl
@[simp] theorem clearFault_portB (s : State) : (clearFault s).portB = s.portB := by
  rfl
@[simp] theorem clearFault_ve (s : State) : (clearFault s).ve = s.ve := by
  rfl
@[simp] theorem clearFault_su (s : State) : (clearFault s).su = s.su := by
  rfl
@[simp] theorem clearFault_fu (s : State) : (clearFault s).fu = s.fu := by
  rfl
@[simp] theorem clearFault_jn (s : State) : (clearFault s).jn = s.jn := by
  rfl
@[simp] theorem clearFault_tl (s : State) : (clearFault s).tl = s.tl := by
  rfl
@[simp] theorem clearFault_sl (s : State) : (clearFault s).sl = s.sl := by
  rfl
@[simp] theorem clearFault_cfg (s : State) : (clearFault s).cfg = s.cfg := by
  rfl

@[simp] theorem takeFaultClear_now (p : Port) (s : State) : (takeFaultClear p s).now = s.now := by
  unfold takeFaultClear; split <;> simp
@[simp] theorem takeFaultClear_free (p : Port) (s : State) : (takeFaultClear p s).free = s.free := by
  unfold takeFaultClear; split <;> simp
@[simp] theorem takeFaultClear_pending (p : Port) (s : State) : (takeFaultClear p s).pending = s.pending := by
  unfold takeFaultClear; split <;> simp
@[simp] theorem takeFaultClear_ve (p : Port) (s : State) : (takeFaultClear p s).ve = s.ve := by
  unfold takeFaultClear; split <;> simp
@[simp] theorem takeFaultClear_su (p : Port) (s : State) : (takeFaultClear p s).su = s.su := by
  unfold takeFaultClear; split <;> simp
@[simp] theorem takeFaultClear_fu (p : Port) (s : State) : (takeFaultClear p s).fu = s.fu := by
  unfold takeFaultClear; split <;> simp
@[simp] theorem takeFaultClear_jn (p : Port) (s : State) : (takeFaultClear p s).jn = s.jn := by
  unfold takeFaultClear; split <;> simp
@[simp] theorem takeFaultClear_tl (p : Port) (s : State) : (takeFaultClear p s).tl = s.tl := by
  unfold takeFaultClear; split <;> simp
@[simp] theorem takeFaultClear_sl (p : Port) (s : State) : (takeFaultClear p s).sl = s.sl := by
  unfold takeFaultClear; split <;> simp
@[simp] theorem takeFaultClear_cfg (p : Port) (s : State) : (takeFaultClear p s).cfg = s.cfg := by
  unfold takeFaultClear; split <;> simp

/-! PORT_RESET (R91). -/

@[simp] theorem dropTap_now (p : Port) (s : State) : (dropTap p s).now = s.now := by
  unfold dropTap; dsimp only; repeat' split
  all_goals simp
@[simp] theorem dropTap_free (p : Port) (s : State) : (dropTap p s).free = s.free := by
  unfold dropTap; dsimp only; repeat' split
  all_goals simp
@[simp] theorem dropTap_pending (p : Port) (s : State) : (dropTap p s).pending = s.pending := by
  unfold dropTap; dsimp only; repeat' split
  all_goals simp
@[simp] theorem dropTap_su (p : Port) (s : State) : (dropTap p s).su = s.su := by
  unfold dropTap; dsimp only; repeat' split
  all_goals simp
@[simp] theorem dropTap_fu (p : Port) (s : State) : (dropTap p s).fu = s.fu := by
  unfold dropTap; dsimp only; repeat' split
  all_goals simp
@[simp] theorem dropTap_tl (p : Port) (s : State) : (dropTap p s).tl = s.tl := by
  unfold dropTap; dsimp only; repeat' split
  all_goals simp
@[simp] theorem dropTap_sl (p : Port) (s : State) : (dropTap p s).sl = s.sl := by
  unfold dropTap; dsimp only; repeat' split
  all_goals simp
@[simp] theorem dropTap_cfg (p : Port) (s : State) : (dropTap p s).cfg = s.cfg := by
  unfold dropTap; dsimp only; repeat' split
  all_goals simp

@[simp] theorem resetTap_now (p : Port) (s : State) : (resetTap p s).now = s.now := by
  unfold resetTap; split <;> simp
@[simp] theorem resetTap_free (p : Port) (s : State) : (resetTap p s).free = s.free := by
  unfold resetTap; split <;> simp
@[simp] theorem resetTap_pending (p : Port) (s : State) : (resetTap p s).pending = s.pending := by
  unfold resetTap; split <;> simp
@[simp] theorem resetTap_su (p : Port) (s : State) : (resetTap p s).su = s.su := by
  unfold resetTap; split <;> simp
@[simp] theorem resetTap_fu (p : Port) (s : State) : (resetTap p s).fu = s.fu := by
  unfold resetTap; split <;> simp
@[simp] theorem resetTap_tl (p : Port) (s : State) : (resetTap p s).tl = s.tl := by
  unfold resetTap; split <;> simp
@[simp] theorem resetTap_sl (p : Port) (s : State) : (resetTap p s).sl = s.sl := by
  unfold resetTap; split <;> simp
@[simp] theorem resetTap_cfg (p : Port) (s : State) : (resetTap p s).cfg = s.cfg := by
  unfold resetTap; split <;> simp

@[simp] theorem takePortReset_now (p : Port) (s : State) : (takePortReset p s).now = s.now := by
  simp [takePortReset]
@[simp] theorem takePortReset_free (p : Port) (s : State) : (takePortReset p s).free = s.free := by
  simp [takePortReset]
@[simp] theorem takePortReset_pending (p : Port) (s : State) : (takePortReset p s).pending = s.pending := by
  simp [takePortReset]
@[simp] theorem takePortReset_su (p : Port) (s : State) : (takePortReset p s).su = s.su := by
  simp [takePortReset]
@[simp] theorem takePortReset_fu (p : Port) (s : State) : (takePortReset p s).fu = s.fu := by
  simp [takePortReset]
@[simp] theorem takePortReset_tl (p : Port) (s : State) : (takePortReset p s).tl = s.tl := by
  simp [takePortReset]
@[simp] theorem takePortReset_sl (p : Port) (s : State) : (takePortReset p s).sl = s.sl := by
  simp [takePortReset]
@[simp] theorem takePortReset_cfg (p : Port) (s : State) : (takePortReset p s).cfg = s.cfg := by
  simp [takePortReset]

/-! CONFIRM_TIMER_EXPIRY (R85). -/

@[simp] theorem confirmExpired_now (p : Port) (s : State) : (confirmExpired p s).now = s.now := by
  unfold confirmExpired; split <;> simp
@[simp] theorem confirmExpired_free (p : Port) (s : State) : (confirmExpired p s).free = s.free := by
  unfold confirmExpired; split <;> simp
@[simp] theorem confirmExpired_pending (p : Port) (s : State) : (confirmExpired p s).pending = s.pending := by
  unfold confirmExpired; split <;> simp
@[simp] theorem confirmExpired_su (p : Port) (s : State) : (confirmExpired p s).su = s.su := by
  unfold confirmExpired; split <;> simp
@[simp] theorem confirmExpired_fu (p : Port) (s : State) : (confirmExpired p s).fu = s.fu := by
  unfold confirmExpired; split <;> simp
@[simp] theorem confirmExpired_tl (p : Port) (s : State) : (confirmExpired p s).tl = s.tl := by
  unfold confirmExpired; split <;> simp
@[simp] theorem confirmExpired_sl (p : Port) (s : State) : (confirmExpired p s).sl = s.sl := by
  unfold confirmExpired; split <;> simp
@[simp] theorem confirmExpired_cfg (p : Port) (s : State) : (confirmExpired p s).cfg = s.cfg := by
  unfold confirmExpired; split <;> simp

/-! APPEND_COMPLETION (R163). -/

@[simp] theorem takeCompletion_now (a : Append) (q : List Append) (s : State) : (takeCompletion a q s).now = s.now := by
  unfold takeCompletion; dsimp only; split <;> simp
@[simp] theorem takeCompletion_free (a : Append) (q : List Append) (s : State) : (takeCompletion a q s).free = s.free := by
  unfold takeCompletion; dsimp only; split <;> simp
@[simp] theorem takeCompletion_pending (a : Append) (q : List Append) (s : State) : (takeCompletion a q s).pending = s.pending := by
  unfold takeCompletion; dsimp only; split <;> simp
@[simp] theorem takeCompletion_fu (a : Append) (q : List Append) (s : State) : (takeCompletion a q s).fu = s.fu := by
  unfold takeCompletion; dsimp only; split <;> simp
@[simp] theorem takeCompletion_tl (a : Append) (q : List Append) (s : State) : (takeCompletion a q s).tl = s.tl := by
  unfold takeCompletion; dsimp only; split <;> simp
@[simp] theorem takeCompletion_sl (a : Append) (q : List Append) (s : State) : (takeCompletion a q s).sl = s.sl := by
  unfold takeCompletion; dsimp only; split <;> simp
@[simp] theorem takeCompletion_cfg (a : Append) (q : List Append) (s : State) : (takeCompletion a q s).cfg = s.cfg := by
  unfold takeCompletion; dsimp only; split <;> simp

/-! CLOCK_ADVANCE (R176). -/

@[simp] theorem takeAdvance_now (n : Nat) (s : State) : (takeAdvance n s).now = s.now := by
  unfold takeAdvance; dsimp only; split <;> simp
@[simp] theorem takeAdvance_free (n : Nat) (s : State) : (takeAdvance n s).free = s.free := by
  unfold takeAdvance; dsimp only; split <;> simp
@[simp] theorem takeAdvance_pending (n : Nat) (s : State) : (takeAdvance n s).pending = s.pending := by
  unfold takeAdvance; dsimp only; split <;> simp
@[simp] theorem takeAdvance_portA (n : Nat) (s : State) : (takeAdvance n s).portA = s.portA := by
  unfold takeAdvance; dsimp only; split <;> simp
@[simp] theorem takeAdvance_portB (n : Nat) (s : State) : (takeAdvance n s).portB = s.portB := by
  unfold takeAdvance; dsimp only; split <;> simp
@[simp] theorem takeAdvance_su (n : Nat) (s : State) : (takeAdvance n s).su = s.su := by
  unfold takeAdvance; dsimp only; split <;> simp
@[simp] theorem takeAdvance_ac (n : Nat) (s : State) : (takeAdvance n s).ac = s.ac := by
  unfold takeAdvance; dsimp only; split <;> simp
@[simp] theorem takeAdvance_sl (n : Nat) (s : State) : (takeAdvance n s).sl = s.sl := by
  unfold takeAdvance; dsimp only; split <;> simp
@[simp] theorem takeAdvance_cfg (n : Nat) (s : State) : (takeAdvance n s).cfg = s.cfg := by
  unfold takeAdvance; dsimp only; split <;> simp

/-! LINK_WATCH_EXPIRY (R179). -/

@[simp] theorem watchExpired_now (s : State) : (watchExpired s).now = s.now := by
  unfold watchExpired; split <;> simp
@[simp] theorem watchExpired_free (s : State) : (watchExpired s).free = s.free := by
  unfold watchExpired; split <;> simp
@[simp] theorem watchExpired_pending (s : State) : (watchExpired s).pending = s.pending := by
  unfold watchExpired; split <;> simp
@[simp] theorem watchExpired_portA (s : State) : (watchExpired s).portA = s.portA := by
  unfold watchExpired; split <;> simp
@[simp] theorem watchExpired_portB (s : State) : (watchExpired s).portB = s.portB := by
  unfold watchExpired; split <;> simp
@[simp] theorem watchExpired_ve (s : State) : (watchExpired s).ve = s.ve := by
  unfold watchExpired; split <;> simp
@[simp] theorem watchExpired_su (s : State) : (watchExpired s).su = s.su := by
  unfold watchExpired; split <;> simp
@[simp] theorem watchExpired_fu (s : State) : (watchExpired s).fu = s.fu := by
  unfold watchExpired; split <;> simp
@[simp] theorem watchExpired_ac (s : State) : (watchExpired s).ac = s.ac := by
  unfold watchExpired; split <;> simp
@[simp] theorem watchExpired_sl (s : State) : (watchExpired s).sl = s.sl := by
  unfold watchExpired; split <;> simp
@[simp] theorem watchExpired_cfg (s : State) : (watchExpired s).cfg = s.cfg := by
  unfold watchExpired; split <;> simp

/-! TIME (R177). -/

@[simp] theorem takeTime_now (d n : Nat) (s : State) : (takeTime d n s).now = s.now := by
  unfold takeTime; dsimp only; repeat' split
  all_goals simp
@[simp] theorem takeTime_free (d n : Nat) (s : State) : (takeTime d n s).free = s.free := by
  unfold takeTime; dsimp only; repeat' split
  all_goals simp
@[simp] theorem takeTime_pending (d n : Nat) (s : State) : (takeTime d n s).pending = s.pending := by
  unfold takeTime; dsimp only; repeat' split
  all_goals simp
@[simp] theorem takeTime_portA (d n : Nat) (s : State) : (takeTime d n s).portA = s.portA := by
  unfold takeTime; dsimp only; repeat' split
  all_goals simp
@[simp] theorem takeTime_portB (d n : Nat) (s : State) : (takeTime d n s).portB = s.portB := by
  unfold takeTime; dsimp only; repeat' split
  all_goals simp
@[simp] theorem takeTime_ve (d n : Nat) (s : State) : (takeTime d n s).ve = s.ve := by
  unfold takeTime; dsimp only; repeat' split
  all_goals simp
@[simp] theorem takeTime_su (d n : Nat) (s : State) : (takeTime d n s).su = s.su := by
  unfold takeTime; dsimp only; repeat' split
  all_goals simp
@[simp] theorem takeTime_ac (d n : Nat) (s : State) : (takeTime d n s).ac = s.ac := by
  unfold takeTime; dsimp only; repeat' split
  all_goals simp
@[simp] theorem takeTime_sl (d n : Nat) (s : State) : (takeTime d n s).sl = s.sl := by
  unfold takeTime; dsimp only; repeat' split
  all_goals simp
@[simp] theorem takeTime_cfg (d n : Nat) (s : State) : (takeTime d n s).cfg = s.cfg := by
  unfold takeTime; dsimp only; repeat' split
  all_goals simp

@[simp] theorem applyTimePayload_now (l : List Byte) (s : State) : (applyTimePayload l s).now = s.now := by
  unfold applyTimePayload; split <;> simp
@[simp] theorem applyTimePayload_free (l : List Byte) (s : State) : (applyTimePayload l s).free = s.free := by
  unfold applyTimePayload; split <;> simp
@[simp] theorem applyTimePayload_pending (l : List Byte) (s : State) : (applyTimePayload l s).pending = s.pending := by
  unfold applyTimePayload; split <;> simp
@[simp] theorem applyTimePayload_portA (l : List Byte) (s : State) : (applyTimePayload l s).portA = s.portA := by
  unfold applyTimePayload; split <;> simp
@[simp] theorem applyTimePayload_portB (l : List Byte) (s : State) : (applyTimePayload l s).portB = s.portB := by
  unfold applyTimePayload; split <;> simp
theorem applyTimePayload_ve (l : List Byte) (s : State) :
    (applyTimePayload l s).ve = s.ve ∨ (applyTimePayload l s).ve = (remainingStages s).ve := by
  unfold applyTimePayload; split <;> simp
theorem applyTimePayload_su (l : List Byte) (s : State) :
    (applyTimePayload l s).su = s.su ∨ (applyTimePayload l s).su = (remainingStages s).su := by
  unfold applyTimePayload; split <;> simp
theorem applyTimePayload_ac (l : List Byte) (s : State) :
    (applyTimePayload l s).ac = s.ac ∨ (applyTimePayload l s).ac = (remainingStages s).ac := by
  unfold applyTimePayload; split <;> simp
@[simp] theorem applyTimePayload_sl (l : List Byte) (s : State) : (applyTimePayload l s).sl = s.sl := by
  unfold applyTimePayload; split <;> simp
@[simp] theorem applyTimePayload_cfg (l : List Byte) (s : State) : (applyTimePayload l s).cfg = s.cfg := by
  unfold applyTimePayload; split <;> simp

/-! EMERGENCY (R155). -/

@[simp] theorem applyEmergencyPayload_now (l : List Byte) (s : State) : (applyEmergencyPayload l s).now = s.now := by
  unfold applyEmergencyPayload; repeat' split
  all_goals simp
@[simp] theorem applyEmergencyPayload_free (l : List Byte) (s : State) : (applyEmergencyPayload l s).free = s.free := by
  unfold applyEmergencyPayload; repeat' split
  all_goals simp
@[simp] theorem applyEmergencyPayload_pending (l : List Byte) (s : State) : (applyEmergencyPayload l s).pending = s.pending := by
  unfold applyEmergencyPayload; repeat' split
  all_goals simp
@[simp] theorem applyEmergencyPayload_portA (l : List Byte) (s : State) : (applyEmergencyPayload l s).portA = s.portA := by
  unfold applyEmergencyPayload; repeat' split
  all_goals simp
@[simp] theorem applyEmergencyPayload_portB (l : List Byte) (s : State) : (applyEmergencyPayload l s).portB = s.portB := by
  unfold applyEmergencyPayload; repeat' split
  all_goals simp
@[simp] theorem applyEmergencyPayload_ve (l : List Byte) (s : State) : (applyEmergencyPayload l s).ve = s.ve := by
  unfold applyEmergencyPayload; repeat' split
  all_goals simp
@[simp] theorem applyEmergencyPayload_su (l : List Byte) (s : State) : (applyEmergencyPayload l s).su = s.su := by
  unfold applyEmergencyPayload; repeat' split
  all_goals simp
@[simp] theorem applyEmergencyPayload_fu (l : List Byte) (s : State) : (applyEmergencyPayload l s).fu = s.fu := by
  unfold applyEmergencyPayload; repeat' split
  all_goals simp
@[simp] theorem applyEmergencyPayload_tl (l : List Byte) (s : State) : (applyEmergencyPayload l s).tl = s.tl := by
  unfold applyEmergencyPayload; repeat' split
  all_goals simp
@[simp] theorem applyEmergencyPayload_sl (l : List Byte) (s : State) : (applyEmergencyPayload l s).sl = s.sl := by
  unfold applyEmergencyPayload; repeat' split
  all_goals simp
@[simp] theorem applyEmergencyPayload_cfg (l : List Byte) (s : State) : (applyEmergencyPayload l s).cfg = s.cfg := by
  unfold applyEmergencyPayload; repeat' split
  all_goals simp

/-! Tariff frames (R40, R42, R43). -/

@[simp] theorem applyTariffBegin_now (l : List Byte) (s : State) : (applyTariffBegin l s).now = s.now := by
  unfold applyTariffBegin; split <;> rfl
@[simp] theorem applyTariffBegin_free (l : List Byte) (s : State) : (applyTariffBegin l s).free = s.free := by
  unfold applyTariffBegin; split <;> rfl
@[simp] theorem applyTariffBegin_pending (l : List Byte) (s : State) : (applyTariffBegin l s).pending = s.pending := by
  unfold applyTariffBegin; split <;> rfl
@[simp] theorem applyTariffBegin_portA (l : List Byte) (s : State) : (applyTariffBegin l s).portA = s.portA := by
  unfold applyTariffBegin; split <;> rfl
@[simp] theorem applyTariffBegin_portB (l : List Byte) (s : State) : (applyTariffBegin l s).portB = s.portB := by
  unfold applyTariffBegin; split <;> rfl
@[simp] theorem applyTariffBegin_ve (l : List Byte) (s : State) : (applyTariffBegin l s).ve = s.ve := by
  unfold applyTariffBegin; split <;> rfl
@[simp] theorem applyTariffBegin_su (l : List Byte) (s : State) : (applyTariffBegin l s).su = s.su := by
  unfold applyTariffBegin; split <;> rfl
@[simp] theorem applyTariffBegin_ac (l : List Byte) (s : State) : (applyTariffBegin l s).ac = s.ac := by
  unfold applyTariffBegin; split <;> rfl
@[simp] theorem applyTariffBegin_jn (l : List Byte) (s : State) : (applyTariffBegin l s).jn = s.jn := by
  unfold applyTariffBegin; split <;> rfl
@[simp] theorem applyTariffBegin_tl (l : List Byte) (s : State) : (applyTariffBegin l s).tl = s.tl := by
  unfold applyTariffBegin; split <;> rfl
@[simp] theorem applyTariffBegin_sl (l : List Byte) (s : State) : (applyTariffBegin l s).sl = s.sl := by
  unfold applyTariffBegin; split <;> rfl
@[simp] theorem applyTariffBegin_cfg (l : List Byte) (s : State) : (applyTariffBegin l s).cfg = s.cfg := by
  unfold applyTariffBegin; split <;> rfl

@[simp] theorem applyTariffData_now (l : List Byte) (s : State) : (applyTariffData l s).now = s.now := by
  unfold applyTariffData; split <;> rfl
@[simp] theorem applyTariffData_free (l : List Byte) (s : State) : (applyTariffData l s).free = s.free := by
  unfold applyTariffData; split <;> rfl
@[simp] theorem applyTariffData_pending (l : List Byte) (s : State) : (applyTariffData l s).pending = s.pending := by
  unfold applyTariffData; split <;> rfl
@[simp] theorem applyTariffData_portA (l : List Byte) (s : State) : (applyTariffData l s).portA = s.portA := by
  unfold applyTariffData; split <;> rfl
@[simp] theorem applyTariffData_portB (l : List Byte) (s : State) : (applyTariffData l s).portB = s.portB := by
  unfold applyTariffData; split <;> rfl
@[simp] theorem applyTariffData_ve (l : List Byte) (s : State) : (applyTariffData l s).ve = s.ve := by
  unfold applyTariffData; split <;> rfl
@[simp] theorem applyTariffData_su (l : List Byte) (s : State) : (applyTariffData l s).su = s.su := by
  unfold applyTariffData; split <;> rfl
@[simp] theorem applyTariffData_ac (l : List Byte) (s : State) : (applyTariffData l s).ac = s.ac := by
  unfold applyTariffData; split <;> rfl
@[simp] theorem applyTariffData_jn (l : List Byte) (s : State) : (applyTariffData l s).jn = s.jn := by
  unfold applyTariffData; split <;> rfl
@[simp] theorem applyTariffData_tl (l : List Byte) (s : State) : (applyTariffData l s).tl = s.tl := by
  unfold applyTariffData; split <;> rfl
@[simp] theorem applyTariffData_sl (l : List Byte) (s : State) : (applyTariffData l s).sl = s.sl := by
  unfold applyTariffData; split <;> rfl
@[simp] theorem applyTariffData_cfg (l : List Byte) (s : State) : (applyTariffData l s).cfg = s.cfg := by
  unfold applyTariffData; split <;> rfl

@[simp] theorem applyTariffEnd_now (l : List Byte) (s : State) : (applyTariffEnd l s).now = s.now := by
  unfold applyTariffEnd; dsimp only; repeat' split
  all_goals simp
@[simp] theorem applyTariffEnd_free (l : List Byte) (s : State) : (applyTariffEnd l s).free = s.free := by
  unfold applyTariffEnd; dsimp only; repeat' split
  all_goals simp
@[simp] theorem applyTariffEnd_pending (l : List Byte) (s : State) : (applyTariffEnd l s).pending = s.pending := by
  unfold applyTariffEnd; dsimp only; repeat' split
  all_goals simp
@[simp] theorem applyTariffEnd_portA (l : List Byte) (s : State) : (applyTariffEnd l s).portA = s.portA := by
  unfold applyTariffEnd; dsimp only; repeat' split
  all_goals simp
@[simp] theorem applyTariffEnd_portB (l : List Byte) (s : State) : (applyTariffEnd l s).portB = s.portB := by
  unfold applyTariffEnd; dsimp only; repeat' split
  all_goals simp
@[simp] theorem applyTariffEnd_ve (l : List Byte) (s : State) : (applyTariffEnd l s).ve = s.ve := by
  unfold applyTariffEnd; dsimp only; repeat' split
  all_goals simp
@[simp] theorem applyTariffEnd_su (l : List Byte) (s : State) : (applyTariffEnd l s).su = s.su := by
  unfold applyTariffEnd; dsimp only; repeat' split
  all_goals simp
@[simp] theorem applyTariffEnd_ac (l : List Byte) (s : State) : (applyTariffEnd l s).ac = s.ac := by
  unfold applyTariffEnd; dsimp only; repeat' split
  all_goals simp
@[simp] theorem applyTariffEnd_tl (l : List Byte) (s : State) : (applyTariffEnd l s).tl = s.tl := by
  unfold applyTariffEnd; dsimp only; repeat' split
  all_goals simp
@[simp] theorem applyTariffEnd_sl (l : List Byte) (s : State) : (applyTariffEnd l s).sl = s.sl := by
  unfold applyTariffEnd; dsimp only; repeat' split
  all_goals simp
@[simp] theorem applyTariffEnd_cfg (l : List Byte) (s : State) : (applyTariffEnd l s).cfg = s.cfg := by
  unfold applyTariffEnd; dsimp only; repeat' split
  all_goals simp

/-! Addressed commands (R168, R173, R154, R153, R171, R195). -/

@[simp] theorem takePoll_now (f : Frame) (s : State) : (takePoll f s).now = s.now := by
  rfl
@[simp] theorem takePoll_free (f : Frame) (s : State) : (takePoll f s).free = s.free := by
  rfl
@[simp] theorem takePoll_pending (f : Frame) (s : State) : (takePoll f s).pending = s.pending := by
  rfl
@[simp] theorem takePoll_portA (f : Frame) (s : State) : (takePoll f s).portA = s.portA := by
  rfl
@[simp] theorem takePoll_portB (f : Frame) (s : State) : (takePoll f s).portB = s.portB := by
  rfl
@[simp] theorem takePoll_ve (f : Frame) (s : State) : (takePoll f s).ve = s.ve := by
  rfl
@[simp] theorem takePoll_su (f : Frame) (s : State) : (takePoll f s).su = s.su := by
  rfl
@[simp] theorem takePoll_fu (f : Frame) (s : State) : (takePoll f s).fu = s.fu := by
  rfl
@[simp] theorem takePoll_ac (f : Frame) (s : State) : (takePoll f s).ac = s.ac := by
  rfl
@[simp] theorem takePoll_tl (f : Frame) (s : State) : (takePoll f s).tl = s.tl := by
  rfl
@[simp] theorem takePoll_cfg (f : Frame) (s : State) : (takePoll f s).cfg = s.cfg := by
  rfl

@[simp] theorem takeCollected_now (f : Frame) (s : State) : (takeCollected f s).now = s.now := by
  rfl
@[simp] theorem takeCollected_free (f : Frame) (s : State) : (takeCollected f s).free = s.free := by
  rfl
@[simp] theorem takeCollected_pending (f : Frame) (s : State) : (takeCollected f s).pending = s.pending := by
  rfl
@[simp] theorem takeCollected_portA (f : Frame) (s : State) : (takeCollected f s).portA = s.portA := by
  rfl
@[simp] theorem takeCollected_portB (f : Frame) (s : State) : (takeCollected f s).portB = s.portB := by
  rfl
@[simp] theorem takeCollected_ve (f : Frame) (s : State) : (takeCollected f s).ve = s.ve := by
  rfl
@[simp] theorem takeCollected_su (f : Frame) (s : State) : (takeCollected f s).su = s.su := by
  rfl
@[simp] theorem takeCollected_fu (f : Frame) (s : State) : (takeCollected f s).fu = s.fu := by
  rfl
@[simp] theorem takeCollected_ac (f : Frame) (s : State) : (takeCollected f s).ac = s.ac := by
  rfl
@[simp] theorem takeCollected_tl (f : Frame) (s : State) : (takeCollected f s).tl = s.tl := by
  rfl
@[simp] theorem takeCollected_cfg (f : Frame) (s : State) : (takeCollected f s).cfg = s.cfg := by
  rfl

@[simp] theorem takeRestore_now (f : Frame) (s : State) : (takeRestore f s).now = s.now := by
  unfold takeRestore; split <;> simp
@[simp] theorem takeRestore_free (f : Frame) (s : State) : (takeRestore f s).free = s.free := by
  unfold takeRestore; split <;> simp
@[simp] theorem takeRestore_pending (f : Frame) (s : State) : (takeRestore f s).pending = s.pending := by
  unfold takeRestore; split <;> simp
@[simp] theorem takeRestore_portA (f : Frame) (s : State) : (takeRestore f s).portA = s.portA := by
  unfold takeRestore; split <;> simp
@[simp] theorem takeRestore_portB (f : Frame) (s : State) : (takeRestore f s).portB = s.portB := by
  unfold takeRestore; split <;> simp
@[simp] theorem takeRestore_ve (f : Frame) (s : State) : (takeRestore f s).ve = s.ve := by
  unfold takeRestore; split <;> simp
@[simp] theorem takeRestore_su (f : Frame) (s : State) : (takeRestore f s).su = s.su := by
  unfold takeRestore; split <;> simp
@[simp] theorem takeRestore_fu (f : Frame) (s : State) : (takeRestore f s).fu = s.fu := by
  unfold takeRestore; split <;> simp
@[simp] theorem takeRestore_jn (f : Frame) (s : State) : (takeRestore f s).jn = s.jn := by
  unfold takeRestore; split <;> simp
@[simp] theorem takeRestore_tl (f : Frame) (s : State) : (takeRestore f s).tl = s.tl := by
  unfold takeRestore; split <;> simp
@[simp] theorem takeRestore_cfg (f : Frame) (s : State) : (takeRestore f s).cfg = s.cfg := by
  unfold takeRestore; split <;> simp

@[simp] theorem takeStationFaultClear_now (f : Frame) (s : State) : (takeStationFaultClear f s).now = s.now := by
  unfold takeStationFaultClear; split <;> simp
@[simp] theorem takeStationFaultClear_free (f : Frame) (s : State) : (takeStationFaultClear f s).free = s.free := by
  unfold takeStationFaultClear; split <;> simp
@[simp] theorem takeStationFaultClear_pending (f : Frame) (s : State) : (takeStationFaultClear f s).pending = s.pending := by
  unfold takeStationFaultClear; split <;> simp
@[simp] theorem takeStationFaultClear_portA (f : Frame) (s : State) : (takeStationFaultClear f s).portA = s.portA := by
  unfold takeStationFaultClear; split <;> simp
@[simp] theorem takeStationFaultClear_portB (f : Frame) (s : State) : (takeStationFaultClear f s).portB = s.portB := by
  unfold takeStationFaultClear; split <;> simp
@[simp] theorem takeStationFaultClear_ve (f : Frame) (s : State) : (takeStationFaultClear f s).ve = s.ve := by
  unfold takeStationFaultClear; split <;> simp
@[simp] theorem takeStationFaultClear_su (f : Frame) (s : State) : (takeStationFaultClear f s).su = s.su := by
  unfold takeStationFaultClear; split <;> simp
@[simp] theorem takeStationFaultClear_fu (f : Frame) (s : State) : (takeStationFaultClear f s).fu = s.fu := by
  unfold takeStationFaultClear; split <;> simp
@[simp] theorem takeStationFaultClear_jn (f : Frame) (s : State) : (takeStationFaultClear f s).jn = s.jn := by
  unfold takeStationFaultClear; split <;> simp
@[simp] theorem takeStationFaultClear_tl (f : Frame) (s : State) : (takeStationFaultClear f s).tl = s.tl := by
  unfold takeStationFaultClear; split <;> simp
@[simp] theorem takeStationFaultClear_cfg (f : Frame) (s : State) : (takeStationFaultClear f s).cfg = s.cfg := by
  unfold takeStationFaultClear; split <;> simp

@[simp] theorem takeJournalClear_now (f : Frame) (s : State) : (takeJournalClear f s).now = s.now := by
  unfold takeJournalClear; split <;> simp
@[simp] theorem takeJournalClear_free (f : Frame) (s : State) : (takeJournalClear f s).free = s.free := by
  unfold takeJournalClear; split <;> simp
@[simp] theorem takeJournalClear_pending (f : Frame) (s : State) : (takeJournalClear f s).pending = s.pending := by
  unfold takeJournalClear; split <;> simp
@[simp] theorem takeJournalClear_portA (f : Frame) (s : State) : (takeJournalClear f s).portA = s.portA := by
  unfold takeJournalClear; split <;> simp
@[simp] theorem takeJournalClear_portB (f : Frame) (s : State) : (takeJournalClear f s).portB = s.portB := by
  unfold takeJournalClear; split <;> simp
@[simp] theorem takeJournalClear_ve (f : Frame) (s : State) : (takeJournalClear f s).ve = s.ve := by
  unfold takeJournalClear; split <;> simp
@[simp] theorem takeJournalClear_su (f : Frame) (s : State) : (takeJournalClear f s).su = s.su := by
  unfold takeJournalClear; split <;> simp
@[simp] theorem takeJournalClear_fu (f : Frame) (s : State) : (takeJournalClear f s).fu = s.fu := by
  unfold takeJournalClear; split <;> simp
@[simp] theorem takeJournalClear_ac (f : Frame) (s : State) : (takeJournalClear f s).ac = s.ac := by
  unfold takeJournalClear; split <;> simp
@[simp] theorem takeJournalClear_tl (f : Frame) (s : State) : (takeJournalClear f s).tl = s.tl := by
  unfold takeJournalClear; split <;> simp
@[simp] theorem takeJournalClear_cfg (f : Frame) (s : State) : (takeJournalClear f s).cfg = s.cfg := by
  unfold takeJournalClear; split <;> simp

@[simp] theorem takeMaint_now (f : Frame) (s : State) : (takeMaint f s).now = s.now := by
  unfold takeMaint; split <;> simp
@[simp] theorem takeMaint_free (f : Frame) (s : State) : (takeMaint f s).free = s.free := by
  unfold takeMaint; split <;> simp
@[simp] theorem takeMaint_pending (f : Frame) (s : State) : (takeMaint f s).pending = s.pending := by
  unfold takeMaint; split <;> simp
@[simp] theorem takeMaint_portA (f : Frame) (s : State) : (takeMaint f s).portA = s.portA := by
  unfold takeMaint; split <;> simp
@[simp] theorem takeMaint_portB (f : Frame) (s : State) : (takeMaint f s).portB = s.portB := by
  unfold takeMaint; split <;> simp
@[simp] theorem takeMaint_ve (f : Frame) (s : State) : (takeMaint f s).ve = s.ve := by
  unfold takeMaint; split <;> simp
@[simp] theorem takeMaint_su (f : Frame) (s : State) : (takeMaint f s).su = s.su := by
  unfold takeMaint; split <;> simp
@[simp] theorem takeMaint_fu (f : Frame) (s : State) : (takeMaint f s).fu = s.fu := by
  unfold takeMaint; split <;> simp
@[simp] theorem takeMaint_ac (f : Frame) (s : State) : (takeMaint f s).ac = s.ac := by
  unfold takeMaint; split <;> simp
@[simp] theorem takeMaint_tl (f : Frame) (s : State) : (takeMaint f s).tl = s.tl := by
  unfold takeMaint; split <;> simp
@[simp] theorem takeMaint_cfg (f : Frame) (s : State) : (takeMaint f s).cfg = s.cfg := by
  unfold takeMaint; split <;> simp

@[simp] theorem markReset_now (s : State) : (markReset s).now = s.now := by
  rfl
@[simp] theorem markReset_free (s : State) : (markReset s).free = s.free := by
  rfl
@[simp] theorem markReset_pending (s : State) : (markReset s).pending = s.pending := by
  rfl
@[simp] theorem markReset_portA (s : State) : (markReset s).portA = s.portA := by
  rfl
@[simp] theorem markReset_portB (s : State) : (markReset s).portB = s.portB := by
  rfl
@[simp] theorem markReset_ve (s : State) : (markReset s).ve = s.ve := by
  rfl
@[simp] theorem markReset_su (s : State) : (markReset s).su = s.su := by
  rfl
@[simp] theorem markReset_fu (s : State) : (markReset s).fu = s.fu := by
  rfl
@[simp] theorem markReset_ac (s : State) : (markReset s).ac = s.ac := by
  rfl
@[simp] theorem markReset_jn (s : State) : (markReset s).jn = s.jn := by
  rfl
@[simp] theorem markReset_tl (s : State) : (markReset s).tl = s.tl := by
  rfl
@[simp] theorem markReset_cfg (s : State) : (markReset s).cfg = s.cfg := by
  rfl

/-! The line (R190, R191). -/

@[simp] theorem takeOverrun_now (f : Frame) (s : State) : (takeOverrun f s).now = s.now := by
  unfold takeOverrun; split <;> rfl
@[simp] theorem takeOverrun_free (f : Frame) (s : State) : (takeOverrun f s).free = s.free := by
  unfold takeOverrun; split <;> rfl
@[simp] theorem takeOverrun_pending (f : Frame) (s : State) : (takeOverrun f s).pending = s.pending := by
  unfold takeOverrun; split <;> rfl
@[simp] theorem takeOverrun_portA (f : Frame) (s : State) : (takeOverrun f s).portA = s.portA := by
  unfold takeOverrun; split <;> rfl
@[simp] theorem takeOverrun_portB (f : Frame) (s : State) : (takeOverrun f s).portB = s.portB := by
  unfold takeOverrun; split <;> rfl
@[simp] theorem takeOverrun_ve (f : Frame) (s : State) : (takeOverrun f s).ve = s.ve := by
  unfold takeOverrun; split <;> rfl
@[simp] theorem takeOverrun_su (f : Frame) (s : State) : (takeOverrun f s).su = s.su := by
  unfold takeOverrun; split <;> rfl
@[simp] theorem takeOverrun_fu (f : Frame) (s : State) : (takeOverrun f s).fu = s.fu := by
  unfold takeOverrun; split <;> rfl
@[simp] theorem takeOverrun_ac (f : Frame) (s : State) : (takeOverrun f s).ac = s.ac := by
  unfold takeOverrun; split <;> rfl
@[simp] theorem takeOverrun_jn (f : Frame) (s : State) : (takeOverrun f s).jn = s.jn := by
  unfold takeOverrun; split <;> rfl
@[simp] theorem takeOverrun_tl (f : Frame) (s : State) : (takeOverrun f s).tl = s.tl := by
  unfold takeOverrun; split <;> rfl
@[simp] theorem takeOverrun_cfg (f : Frame) (s : State) : (takeOverrun f s).cfg = s.cfg := by
  unfold takeOverrun; split <;> rfl

@[simp] theorem replyEnded_now (r : Reply) (s : State) : (replyEnded r s).now = s.now := by
  rfl
@[simp] theorem replyEnded_free (r : Reply) (s : State) : (replyEnded r s).free = s.free := by
  rfl
@[simp] theorem replyEnded_pending (r : Reply) (s : State) : (replyEnded r s).pending = s.pending := by
  rfl
@[simp] theorem replyEnded_portA (r : Reply) (s : State) : (replyEnded r s).portA = s.portA := by
  rfl
@[simp] theorem replyEnded_portB (r : Reply) (s : State) : (replyEnded r s).portB = s.portB := by
  rfl
@[simp] theorem replyEnded_ve (r : Reply) (s : State) : (replyEnded r s).ve = s.ve := by
  rfl
@[simp] theorem replyEnded_su (r : Reply) (s : State) : (replyEnded r s).su = s.su := by
  rfl
@[simp] theorem replyEnded_fu (r : Reply) (s : State) : (replyEnded r s).fu = s.fu := by
  rfl
@[simp] theorem replyEnded_ac (r : Reply) (s : State) : (replyEnded r s).ac = s.ac := by
  rfl
@[simp] theorem replyEnded_jn (r : Reply) (s : State) : (replyEnded r s).jn = s.jn := by
  rfl
@[simp] theorem replyEnded_tl (r : Reply) (s : State) : (replyEnded r s).tl = s.tl := by
  rfl
@[simp] theorem replyEnded_cfg (r : Reply) (s : State) : (replyEnded r s).cfg = s.cfg := by
  rfl

@[simp] theorem replyEnded_tx (r : Reply) (s : State) : (replyEnded r s).sl.tx = s.sl.next := rfl
@[simp] theorem replyEnded_next (r : Reply) (s : State) : (replyEnded r s).sl.next = none := rfl
@[simp] theorem replyEnded_slot (r : Reply) (s : State) : (replyEnded r s).sl.slot = s.sl.slot := rfl
@[simp] theorem replyEnded_overrun (r : Reply) (s : State) : (replyEnded r s).sl.overrun = s.sl.overrun := rfl
@[simp] theorem replyEnded_resetDue (r : Reply) (s : State) :
    (replyEnded r s).sl.resetDue = (s.sl.resetDue || r.resets) := rfl

/-! ## Frames -/

/-- A lane frame is discarded, or its command is taken (R185). -/
theorem laneFrame_eq (p : Port) (l : List Byte) (act : State → State) (s : State) :
    (40 < l.length ∧ laneFrame p l act s = discardFrame p s) ∨ (l.length ≤ 40 ∧ laneFrame p l act s = act s) := by
  unfold laneFrame
  by_cases h : 40 < l.length
  · exact .inl ⟨h, if_pos h⟩
  · exact .inr ⟨Nat.le_of_not_lt h, if_neg h⟩

/-- A non-read command without payload is discarded, refused, or taken (R185, R186). -/
theorem laneBare_eq (p : Port) (l : List Byte) (act : State → State) (s : State) :
    (40 < l.length ∧ laneBare p l act s = discardFrame p s)
      ∨ (l ≠ [] ∧ laneBare p l act s = laneAnswer p .refused s) ∨ (l = [] ∧ laneBare p l act s = act s) := by
  unfold laneBare
  rcases laneFrame_eq p l (fun s => if l = [] then act s else laneAnswer p .refused s) s with ⟨h, e⟩ | ⟨_, e⟩
  · exact .inl ⟨h, e⟩
  · by_cases hl : l = []
    · exact .inr (.inr ⟨hl, by rw [e, if_pos hl]⟩)
    · exact .inr (.inl ⟨hl, by rw [e, if_neg hl]⟩)

/-- A frame behind a waiting one or a held test is applied after them: where the waiting frame is answered, its reply is sent
first and the other follows (R46, R191). -/
theorem afterWaiting_eq (act : State → State) (s : State) :
    ((waitingWork s).sl.tx = none ∧ afterWaiting act s = act (waitingWork s))
      ∨ (∃ first s1 s2, (waitingWork s).sl.tx = some first
          ∧ s1 = { waitingWork s with sl := { (waitingWork s).sl with tx := none } } ∧ s2 = act s1
          ∧ afterWaiting act s = { s2 with sl := { s2.sl with tx := some first, next := s2.sl.tx } }) := by
  cases h : (waitingWork s).sl.tx with
  | none => exact .inl ⟨rfl, by simp only [afterWaiting, h]⟩
  | some first => exact .inr ⟨first, _, _, rfl, rfl, rfl, by simp only [afterWaiting, h]⟩

/-- Without a waiting frame and a held test nothing waits (R34, R46). -/
theorem workWaits_eq_false {s : State} : workWaits s = false ↔ s.sl.slot = none ∧ s.fu.heldTest = false := by
  simp [workWaits]

/-- A station frame changes nothing, sets OVERRUN, is applied behind what waits for the end of an evaluation, is kept in the
receive slot, or is applied (R34, R46, R190, R191). -/
theorem stationFrame_eq (f : Frame) (act : State → State) (s : State) :
    stationFrame f act s = s
      ∨ (s.sl.tx = none ∧ s.sl.slot.isSome = true ∧ acceptedFrame f s = true ∧ f.payload.length ≤ 96
          ∧ s.ve.eval.isSome = true ∧ stationFrame f act s = { s with sl := { s.sl with overrun := true } })
      ∨ (s.sl.tx = none ∧ workWaits s = true ∧ acceptedFrame f s = true ∧ f.payload.length ≤ 96
          ∧ s.ve.eval = none ∧ stationFrame f act s = afterWaiting act s)
      ∨ (s.sl.tx = none ∧ s.sl.slot = none ∧ acceptedFrame f s = true ∧ f.payload.length ≤ 96
          ∧ waitsForEvaluation f.code = true ∧ s.ve.eval.isSome = true
          ∧ stationFrame f act s = { s with sl := { s.sl with slot := some f } })
      ∨ (s.sl.tx = none ∧ s.sl.slot = none ∧ acceptedFrame f s = true ∧ f.payload.length ≤ 96
          ∧ (waitsForEvaluation f.code = false ∧ s.ve.eval.isSome = true ∨ s.ve.eval = none ∧ s.fu.heldTest = false)
          ∧ stationFrame f act s = act s) := by
  unfold stationFrame
  by_cases h1 : s.sl.tx.isSome = true
  · exact .inl (if_pos h1)
  · rw [if_neg h1]
    have t1 : s.sl.tx = none := by cases h : s.sl.tx <;> simp_all
    by_cases h2 : (!acceptedFrame f s || decide (96 < f.payload.length)) = true
    · exact .inl (if_pos h2)
    · rw [if_neg h2]
      simp only [Bool.or_eq_true, Bool.not_eq_true', decide_eq_true_eq, not_or, Bool.not_eq_false, Nat.not_lt] at h2
      by_cases he : s.ve.eval.isSome = true
      · rw [if_pos he]
        by_cases h3 : s.sl.slot.isSome = true
        · exact .inr (.inl ⟨t1, h3, h2.1, h2.2, he, if_pos h3⟩)
        · rw [if_neg h3]
          have t3 : s.sl.slot = none := by cases h : s.sl.slot <;> simp_all
          by_cases h4 : waitsForEvaluation f.code = true
          · exact .inr (.inr (.inr (.inl ⟨t1, t3, h2.1, h2.2, h4, he, if_pos h4⟩)))
          · exact .inr (.inr (.inr (.inr ⟨t1, t3, h2.1, h2.2, .inl ⟨Bool.not_eq_true _ ▸ h4, he⟩, if_neg h4⟩)))
      · rw [if_neg he]
        have te : s.ve.eval = none := by cases h : s.ve.eval <;> simp_all
        by_cases hw : workWaits s = true
        · exact .inr (.inr (.inl ⟨t1, hw, h2.1, h2.2, te, if_pos hw⟩))
        · have tw := workWaits_eq_false.1 (Bool.not_eq_true _ ▸ hw)
          exact .inr (.inr (.inr (.inr ⟨t1, tw.1, h2.1, h2.2, .inr ⟨te, tw.2⟩, if_neg hw⟩)))

/-- A command of a fixed length is answered RANGE, or taken (R193). -/
theorem fixedLength_eq (f : Frame) (n : Nat) (act : State → State) (s : State) :
    (f.payload.length ≠ n ∧ fixedLength f n act s = sendReply f .range [] s)
      ∨ (f.payload.length = n ∧ fixedLength f n act s = act s) := by
  unfold fixedLength
  by_cases h : f.payload.length = n
  · exact .inr ⟨h, if_pos h⟩
  · exact .inl ⟨h, if_neg h⟩

/-- A broadcast command ends with a reply or, at address 0, without one (R190). -/
theorem broadcastEnd_eq (f : Frame) (s : State) :
    (f.addr ≠ 0 ∧ broadcastEnd f s = sendReply f .ok [] s) ∨ (f.addr = 0 ∧ broadcastEnd f s = s) := by
  unfold broadcastEnd
  by_cases h : f.addr = 0
  · exact .inr ⟨h, if_pos h⟩
  · exact .inl ⟨h, if_neg h⟩

/-! A selection of a lane port (R185): its frame, and one byte out for each byte in. -/

theorem shiftedOut_discarded (clocked : List Byte) (l : LanePort) (h : takenFrame clocked = none) :
    shiftedOut clocked l = List.replicate clocked.length 0 := by simp only [shiftedOut, h]

theorem takenFrame_length (clocked payload : List Byte) (code : Byte) (h : takenFrame clocked = some (code, payload)) :
    4 + payload.length ≤ clocked.length := by
  unfold takenFrame takeBody at h
  split at h
  · split at h
    · cases h
    · rename_i hb
      split at hb
      · cases hb
      · rename_i hl
        cases hb
        split at h <;> cases h
        simp only [List.length_take, List.length_cons]
        omega
  · cases h

theorem shiftedOut_length (clocked : List Byte) (l : LanePort) : (shiftedOut clocked l).length = clocked.length := by
  unfold shiftedOut
  split
  · simp
  · rename_i code payload h
    have := takenFrame_length clocked payload code h
    simp
    omega

theorem takenFrame_sent (code : Byte) (payload extra : List Byte) (h : payload.length ≤ 40) :
    takenFrame (laneFrameBytes code payload ++ extra) = some (code, payload) := by
  have hl : (BitVec.ofNat 8 payload.length).toNat = payload.length := by simp; omega
  have hc (w : Word16) : BitVec.ofNat 16 (beNat (checkBytes w)) = w := by
    apply BitVec.eq_of_toNat_eq
    have := w.isLt
    simp [checkBytes, beBytes, beNat]
    omega
  have hk (w : Word16) : (checkBytes w).length = 2 := rfl
  have hb : takeBody 40 (BitVec.ofNat 8 payload.length) (payload ++ (checkBytes (laneCheck code payload) ++ extra))
      = some (payload, laneCheck code payload) := by
    unfold takeBody
    rw [hl, if_neg (by simp [hk]; omega), List.take_left, List.drop_left, List.take_left' (hk _), hc]
  simp only [laneFrameBytes, List.cons_append, List.append_assoc, takenFrame, hb, if_true]

theorem shiftedOut_sent (code : Byte) (payload extra : List Byte) (l : LanePort) (h : payload.length ≤ 40) :
    shiftedOut (laneFrameBytes code payload ++ extra) l
      = List.replicate (4 + payload.length) 0 ++ (List.range extra.length).map (fun k => l.shiftOut.getD k 0) := by
  have hn : (laneFrameBytes code payload ++ extra).length - (4 + payload.length) = extra.length := by
    simp [laneFrameBytes, checkBytes, beBytes]; omega
  simp only [shiftedOut, takenFrame_sent code payload extra h, hn]
  rfl

end Sys2Proof.Machine
end

