-- ==== Sys2Proof/Laws/Moves.lean ====
section
/-! SUPPORT. What a step can do, said once: each block changes by a few named moves, and a condition that every move keeps is
kept by every step. -/

namespace Sys2Proof.Machine

/-! ## The moves of the blocks -/

/-- The moves of the Journal but for completions and collections. -/
inductive JournalMove : Journal → Journal → Prop where
  | alert (t : TimeLink) (c : Content) (j : Journal) : JournalMove j (requestAlert t c j)
  | remote (t : TimeLink) (c : Content) (j j' : Journal) (h : requestRemote t c j = some j') : JournalMove j j'
  | fare (t : TimeLink) (g : FareFlag) (p : Port) (c : Content) (j : Journal) : JournalMove j (requestFare t g p c j)
  | reserve (j j' : Journal) (h : reserveSlot j = some j') : JournalMove j j'
  | release (j : Journal) : JournalMove j (releaseSlot j)
  | poll (j : Journal) : JournalMove j (pollFailures j)
  | told (j : Journal) : JournalMove j { j with alertsLost := false }
  | clear (j : Journal) (h : j.held = []) : JournalMove j (clearJournal j)
  | arm (j : Journal) : JournalMove j { j with armed := true }
  | powerOn (j : Journal) : JournalMove j (powerOnJournal j)
  | lineReset (j : Journal) : JournalMove j (lineResetJournal j)

/-- The moves of the Aisle Controller but for grants. -/
inductive AisleMove (env : Env) : Aisle → Aisle → Prop where
  | raw (i : Input) (level : Bool) (a : Aisle) : AisleMove env a (rawChange env i level a)
  | filter (i : Input) (a : Aisle) : AisleMove env a (endFilter env i (AisleRun.mk a [])).ac
  | settled (a : Aisle) (h : a.settleEnd.isSome = true) : AisleMove env a (settleInputs env (AisleRun.mk a [])).ac
  | travel (a : Aisle) : AisleMove env a ((leafFault env false (AisleRun.mk a [])).settled env a).ac
  | blank (m : Motion) (t : Nat) (a : Aisle) (h : blankDue a = some (m, t)) : AisleMove env a (endBlank env m a)
  | zoneClear (a : Aisle) : AisleMove env a (endZoneClear env a)
  | alarm (a : Aisle) : AisleMove env a { a with alarmEnd := none, violation := none }
  | loiter (t : Nat) (a : Aisle) (h : nextLoiter env a = some t) : AisleMove env a { a with loiter := true }
  | hold (a : Aisle) : AisleMove env a (expireHold env (AisleRun.mk a [])).ac
  | idle (a : Aisle) : AisleMove env a (clearHistory { a with idleEnd := none })
  | reserve (n : Nat) (d : Dir) (p : Port) (a a' : Aisle) (h : reserveCredit env n d p a = some a') : AisleMove env a a'
  | release (p : Port) (a : Aisle) : AisleMove env a (releaseCredit env p a)
  | reconfigure (a : Aisle) : AisleMove env a (reconfigureAisle env a)
  | restore (a : Aisle) (h : a.lockedOut = true) : AisleMove env a (restoreAisle env a)
  | clearFault (a : Aisle) : AisleMove env a { a with faultInProgress := false }
  | emergency (v : Bool) (a : Aisle) : AisleMove env a (setStationEmergency v env (AisleRun.mk a [])).ac

/-- The moves of the Screening Unit under a signing key index. -/
inductive ScreenMove (signing : Nat) : Screening → Screening → Prop where
  | merge (g : Sighting) (u : Screening) : ScreenMove signing u (mergeSighting g u).1
  | denyBegin (v : Nat) (u : Screening) : ScreenMove signing u { u with deny := denyBegin v u.deny }
  | denyAdd (l : List (Nat × Nat)) (u : Screening) : ScreenMove signing u { u with deny := denyAdd l u.deny }
  | denyEnd (u : Screening) : ScreenMove signing u { u with deny := denyEnd u.deny }
  | denyDelta (d : Delta) (u : Screening) : ScreenMove signing u { u with deny := denyDelta d u.deny }
  | key (index state : Nat) (st : KeyState) (word : Word16) (u : Screening)
      (h : keyLoadRefusal u signing index state word = none) (hs : parseKeyState state = some st) :
      ScreenMove signing u (loadKey u index st word)
  | touch (n : Nat) (x : SeenEntry) (u : Screening) (h : seenLookup u.seen n = some x) :
      ScreenMove signing u { u with seen := seenTouch x u.seen }
  | list (n : Nat) (u : Screening) : ScreenMove signing u (listLocally n u).1
  | write (e : SeenEntry) (u : Screening) : ScreenMove signing u { u with seen := seenWrite e u.seen }
  | reset (u : Screening) : ScreenMove signing u (screeningAfterReset u)

/-- The moves of the Fare Unit. -/
inductive FareMove : FareUnit → FareUnit → Prop where
  | start (v d : Nat) (f : FareUnit) : FareMove f (tariffBegin v d f)
  | data (td : TariffData) (f : FareUnit) : FareMove f (tariffData td f)
  | finish (check : Word16) (f : FareUnit) : FareMove f (tariffEnd check f).1
  | activate (t : TimeLink) (f : FareUnit) : FareMove f (activationTest t f).1
  | held (b : Bool) (f : FareUnit) : FareMove f { f with heldTest := b }
  | reset (f : FareUnit) : FareMove f (fareAfterReset f)

/-- The moves of the Time and Link Unit. -/
inductive TimeMove (now : Nat) (cfg : Settings) : TimeLink → TimeLink → Prop where
  | advance (ph : Nat) (t : TimeLink) (hv : t.valid = true) (h : t.phase = some ph) :
      TimeMove now cfg t (advanceClock ph t)
  | silent (t : TimeLink) (h : t.mode = .resync ∨ t.mode = .linked) : TimeMove now cfg t (enterStandalone now cfg t)
  | watch (t : TimeLink) (h : ¬ (t.mode = .resync ∨ t.mode = .linked)) : TimeMove now cfg t { t with watchEnd := none }
  | limit (t : TimeLink) (h : t.standaloneEnd.isSome = true) :
      TimeMove now cfg t { t with standaloneEnd := none, entryStop := true }
  | frame (day second : Nat) (t : TimeLink) (hd : day ≤ 65535) (hs : second < 86400) :
      TimeMove now cfg t (linkAfterFrame now cfg (if t.mode != .standalone then setClock now day second t else t))
  | powerOn (t : TimeLink) : TimeMove now cfg t powerOnTime

/-- A condition that the moves of every block keep, completions, grants and collections apart. -/
structure Closed (P : State → Prop) : Prop where
  now : ∀ s n, P s → P { s with now := n }
  free : ∀ s n, P s → P { s with free := n }
  port : ∀ s p l, P s → P (s.setPort p l)
  ve : ∀ s v, P s → P { s with ve := v }
  sl : ∀ s x, P s → P { s with sl := x }
  su : ∀ s u, P s → ScreenMove s.cfg.signingKey s.su u → P { s with su := u }
  fu : ∀ s f, P s → FareMove s.fu f → P { s with fu := f }
  ac : ∀ s a, P s → AisleMove s.env s.ac a → P { s with ac := a }
  acReset : ∀ s env keep, P s → P { s with ac := resetAisle env keep s.ac }
  jn : ∀ s j, P s → JournalMove s.jn j → P { s with jn := j }
  tl : ∀ s t, P s → TimeMove s.now s.cfg s.tl t → P { s with tl := t }
  cfg : ∀ s items, P s → itemsRefused s items = false → P { s with cfg := applyItems s.cfg items }

namespace Closed

variable {P : State → Prop} (K : Closed P)
include K

/-! ## The shared operations keep it -/

theorem postAlerts (cs : List Content) (s : State) (h : P s) : P (postAlerts cs s) := by
  unfold Machine.postAlerts requestAlerts
  induction cs generalizing s with
  | nil => exact h
  | cons c cs ih =>
    have := ih { s with jn := requestAlert s.tl c s.jn } (K.jn s _ h (.alert s.tl c s.jn))
    exact this

theorem reach (t : Nat) (s : State) (h : P s) : P (reach t s) := K.now s _ h

theorem setTorn (t : List TornRecord) (s : State) (h : P s) : P (s.setTorn t) := K.ve s _ h

theorem setEval (e : Option Evaluation) (s : State) (h : P s) : P (s.setEval e) := K.ve s _ h

theorem aisleOnly (f : Env → Aisle → Aisle) (s : State) (h : P s) (hm : AisleMove s.env s.ac (f s.env s.ac)) :
    P (withAisleOnly f s) := K.ac s _ h hm

theorem aisle (f : Env → AisleRun → AisleRun) (s : State) (h : P s)
    (hm : AisleMove s.env s.ac (f s.env (AisleRun.mk s.ac [])).ac) : P (withAisle f s) :=
  K.postAlerts _ _ (K.ac s _ h hm)

theorem runActivation (s : State) (h : P s) : P (runActivation s) :=
  K.postAlerts _ _ (K.fu s _ h (.activate s.tl s.fu))

theorem dueActivation (s : State) (h : P s) : P (dueActivation s) := by
  unfold Machine.dueActivation
  split
  · exact K.fu s _ h (.held true s.fu)
  · exact K.runActivation s h

theorem heldActivation (s : State) (h : P s) : P (heldActivation s) := by
  unfold Machine.heldActivation
  split
  · exact K.runActivation _ (K.fu s _ h (.held false s.fu))
  · exact h

theorem tornReport (r : TornRecord) (w : TornWhy) (s : State) (h : P s) : P (tornReport r w s) :=
  K.postAlerts _ _ (K.setTorn _ s h)

theorem expireIfDue (n : Nat) (s : State) (h : P s) : P (expireIfDue n s) := by
  unfold Machine.expireIfDue
  repeat' split
  · exact K.tornReport _ _ s h
  · exact h
  · exact h

theorem tornCreate (r : TornRecord) (s : State) (h : P s) : P (tornCreate r s) := by
  unfold Machine.tornCreate
  refine K.setTorn _ _ ?_
  repeat' split
  · exact K.tornReport _ _ s h
  · exact h
  · exact h

theorem tornSighting (g : Sighting) (s : State) (h : P s) : P (tornSighting g s) := by
  unfold Machine.tornSighting
  split
  · exact h
  · split
    · split
      · rename_i j hj
        exact K.jn (s.setTorn _) j (K.setTorn _ s h) (.remote _ _ _ _ hj)
      · exact h
    · split
      · exact K.tornReport _ _ s h
      · exact h

theorem takeSighting (g : Sighting) (s : State) (h : P s) : P (takeSighting g s) := by
  unfold Machine.takeSighting
  split
  · exact h
  · exact K.tornSighting g _ (K.postAlerts _ _ (K.su s _ h (.merge g s.su)))

theorem sendReply (f : Frame) (r : Result) (d : List Byte) (s : State) (h : P s) : P (sendReply f r d s) := K.sl s _ h

theorem broadcastEnd (f : Frame) (s : State) (h : P s) : P (broadcastEnd f s) := by
  unfold Machine.broadcastEnd
  split
  · exact h
  · exact K.sendReply _ _ _ s h

theorem abandon (p : Port) (f : TornFate) (s : State) (h : P s) : P (abandon p f s) := by
  unfold Machine.abandon
  refine K.port _ _ _ (K.ve _ _ (K.setTorn _ _ ?_))
  exact K.jn (withAisleOnly (fun env a => releaseCredit env p a) s) _
    (K.aisleOnly _ s h (.release p s.ac)) (.release _)

theorem laneAnswer (p : Port) (r : LastResult) (s : State) (h : P s) : P (laneAnswer p r s) := K.port s _ _ h

theorem discardFrame (p : Port) (s : State) (h : P s) : P (discardFrame p s) := K.port s _ _ h

theorem laneFrame (p : Port) (l : List Byte) (act : State → State) (s : State) (h : P s) (ha : P (act s)) :
    P (laneFrame p l act s) := by
  unfold Machine.laneFrame
  split
  · exact K.discardFrame p s h
  · exact ha

theorem laneBare (p : Port) (l : List Byte) (act : State → State) (s : State) (h : P s) (ha : P (act s)) :
    P (laneBare p l act s) := by
  unfold Machine.laneBare
  refine K.laneFrame p l _ s h ?_
  split
  · exact ha
  · exact K.laneAnswer p _ s h

theorem fixedLength (f : Frame) (n : Nat) (act : State → State) (s : State) (h : P s) (ha : P (act s)) :
    P (fixedLength f n act s) := by
  unfold Machine.fixedLength
  split
  · exact ha
  · exact K.sendReply _ _ _ s h

/-! ## The waitable frames -/

theorem applySighting (f : Frame) (s : State) (h : P s) : P (applySighting f s) := by
  unfold Machine.applySighting
  refine K.broadcastEnd f _ ?_
  split
  · rename_i gs hg
    clear hg
    induction gs generalizing s with
    | nil => exact h
    | cons g gs ih => exact ih (Machine.takeSighting g s) (K.takeSighting g s h)
  · exact h

theorem applyDenyBegin (f : Frame) (s : State) (h : P s) : P (applyDenyBegin f s) := by
  unfold Machine.applyDenyBegin withDeny
  refine K.broadcastEnd f _ ?_
  split
  · exact K.su s _ h (.denyBegin _ s.su)
  · exact h

theorem applyDenyAdd (f : Frame) (s : State) (h : P s) : P (applyDenyAdd f s) := by
  unfold Machine.applyDenyAdd withDeny
  refine K.broadcastEnd f _ ?_
  split
  · exact K.su s _ h (.denyAdd _ s.su)
  · exact h

theorem applyDenyEnd (f : Frame) (s : State) (h : P s) : P (applyDenyEnd f s) := by
  unfold Machine.applyDenyEnd withDeny
  refine K.broadcastEnd f _ ?_
  split
  · exact K.su s _ h (.denyEnd s.su)
  · exact h

theorem applyDenyDelta (f : Frame) (s : State) (h : P s) : P (applyDenyDelta f s) := by
  unfold Machine.applyDenyDelta withDeny
  refine K.broadcastEnd f _ ?_
  split
  · exact K.su s _ h (.denyDelta _ s.su)
  · exact h

theorem applyKeyLoad (f : Frame) (s : State) (h : P s) : P (applyKeyLoad f s) := by
  unfold Machine.applyKeyLoad keyReply
  dsimp only
  split
  · exact K.sendReply _ _ _ s h
  · split
    · exact K.sendReply _ _ _ s h
    · split
      · rename_i hr hp
        exact K.sendReply _ _ _ _ (K.su s _ h (.key _ _ _ _ s.su hr hp))
      · exact K.sendReply _ _ _ s h
      · exact K.sendReply _ _ _ s h

theorem applyConfigure (f : Frame) (s : State) (h : P s) : P (applyConfigure f s) := by
  unfold Machine.applyConfigure configureReply changeSettings
  split
  · exact K.sendReply _ _ _ s h
  · split
    · exact K.sendReply _ _ _ s h
    · split
      · exact K.sendReply _ _ _ s h
      · rename_i hr
        exact K.sendReply _ _ _ _ (K.aisleOnly _ _ (K.cfg s _ h (by simpa using hr)) (.reconfigure _))

theorem applyByCode (f : Frame) (s : State) (h : P s) : P (applyByCode f s) := by
  unfold Machine.applyByCode
  repeat' split
  · exact K.applySighting f s h
  · exact K.applyDenyBegin f s h
  · exact K.applyDenyAdd f s h
  · exact K.applyDenyEnd f s h
  · exact K.applyDenyDelta f s h
  · exact K.applyKeyLoad f s h
  · exact K.applyConfigure f s h
  · exact h

theorem applyWaiting (s : State) (h : P s) : P (applyWaiting s) := by
  unfold Machine.applyWaiting
  repeat' split
  · exact h
  · exact h
  · exact K.applyByCode _ _ (K.sl s _ h)

theorem waitingWork (s : State) (h : P s) : P (waitingWork s) := K.heldActivation _ (K.applyWaiting s h)

theorem afterWaiting (act : State → State) (s : State) (h : P s) (ha : ∀ s, P s → P (act s)) : P (afterWaiting act s) := by
  have h1 := K.waitingWork s h
  rcases afterWaiting_eq act s with ⟨_, e⟩ | ⟨_, s1, s2, _, e1, e2, e⟩ <;> rw [e]
  · exact ha _ h1
  · refine K.sl s2 _ ?_
    rw [e2, e1]
    exact ha _ (K.sl _ _ h1)

theorem stationFrame (f : Frame) (act : State → State) (s : State) (h : P s) (ha : ∀ s, P s → P (act s)) :
    P (stationFrame f act s) := by
  rcases stationFrame_eq f act s with e | ⟨_, _, _, _, _, e⟩ | ⟨_, _, _, _, _, e⟩ | ⟨_, _, _, _, _, _, e⟩
    | ⟨_, _, _, _, _, e⟩ <;> rw [e]
  · exact h
  · exact K.sl s _ h
  · exact K.afterWaiting act s h ha
  · exact K.sl s _ h
  · exact ha s h

/-! ## The Verdict Engine -/

theorem reserveBoth (d : Option Dir) (v : Verdict) (e : Evaluation) (s : State) (h : P s) : P (reserveBoth d v e s) := by
  unfold Machine.reserveBoth creditFor
  cases d with
  | none =>
    dsimp only
    split
    · exact K.setEval _ _ h
    · rename_i j hj
      exact K.setEval _ _ (K.jn s j h (.reserve _ _ hj))
  | some d =>
    dsimp only
    split
    · exact K.setEval _ _ h
    · rename_i a ha
      have h1 : P { s with ac := a } := K.ac s a h (.reserve _ _ _ _ _ ha)
      split
      · exact K.setEval _ _ (K.ac { s with ac := a } _ h1 (.release e.port a))
      · rename_i j hj
        exact K.setEval _ _ (K.jn _ j h1 (.reserve _ _ hj))

theorem evalStep (s : State) (h : P s) : P (evalStep s) := by
  have he : ∀ e s, P s → P (s.setEval e) := fun e s => K.setEval e s
  unfold Machine.evalStep
  split
  · exact h
  · rename_i e _
    split
    · exact h
    · split
      · unfold gateStage; dsimp only; split <;> exact he _ _ h
      · unfold formStage; split <;> exact he _ _ h
      · unfold inFlightStage; split <;> exact he _ _ h
      · unfold tornStage
        dsimp only
        split
        · exact he _ _ h
        · split
          · exact he _ _ h
          · split
            · exact he _ _ h
            · split
              · exact K.reserveBoth _ _ _ s h
              · split
                · exact he _ _ (K.setTorn _ s h)
                · exact he _ _ (K.tornReport _ _ s h)
      · unfold keyCheckStage
        split
        · exact he _ _ h
        · split <;> exact he _ _ h
      · unfold denyStage; split <;> exact he _ _ h
      · unfold cloneStage
        dsimp only
        split
        · exact he _ _ h
        · rename_i x hx
          have h1 := K.su s _ h (.touch _ x s.su hx)
          split
          · exact he _ _ h1
          · exact he _ _ (K.postAlerts _ _
              (K.su { s with su := { s.su with seen := seenTouch x s.su.seen } } _ h1 (.list e.card.serial _)))
      · unfold exhaustionStage; split <;> exact he _ _ h
      · unfold fareStage fareEnd
        split
        · exact he _ _ h
        · split
          · exact he _ _ h
          · split
            · split <;> exact he _ _ h
            · exact he _ _ h
      · unfold reservationsStage
        split
        · exact he _ _ h
        · exact K.reserveBoth _ _ _ s h

theorem evalRun (n : Nat) (s : State) (h : P s) : P (evalRun n s) := by
  induction n generalizing s with
  | zero => exact h
  | succ n ih => exact ih (Machine.evalStep s) (K.evalStep s h)

theorem endHold (o : Option Nat) (s : State) (h : P s) : P (endHold o s) := by
  unfold Machine.endHold
  split
  · exact h
  · exact K.expireIfDue _ s h

theorem readyByCode (e : Evaluation) (v : Verdict) (s : State) (h : P s) : P (readyByCode e v s) := by
  unfold Machine.readyByCode
  split
  · exact K.port _ _ _ (K.ve s _ h)
  · unfold readyResumed
    dsimp only
    have h1 : P ((joinInFlight e.card.serial e.port s).setPort e.port
        (((joinInFlight e.card.serial e.port s).port e.port).withVerdict e.image v .committing)) :=
      K.port _ _ _ (K.ve s _ h)
    split
    · exact h1
    · exact K.jn (State.setTorn _ _) _ (K.setTorn _ _ h1) (.fare _ _ _ _ _)
  · exact K.port _ _ _ h

theorem remainingStages (s : State) (h : P s) : P (remainingStages s) := K.evalRun 10 s h

theorem endEvaluation (s : State) (h : P s) : P (endEvaluation s) := by
  have h1 : P (Machine.remainingStages s) := K.remainingStages s h
  unfold Machine.endEvaluation
  dsimp only
  split
  · exact h1
  · split
    · exact h1
    · exact K.endHold _ _ (K.readyByCode _ _ _ (K.setEval _ _ h1))

theorem dropEvaluation (e : Evaluation) (s : State) (h : P s) : P (dropEvaluation e s) := by
  unfold Machine.dropEvaluation
  dsimp only
  refine K.endHold _ _ ?_
  have h1 : P (if e.creditMade then withAisleOnly (fun env a => releaseCredit env e.port a) (s.setEval none)
      else s.setEval none) := by
    split
    · exact K.aisleOnly _ _ (K.setEval _ s h) (.release _ _)
    · exact K.setEval _ s h
  split
  · exact K.jn _ _ h1 (.release _)
  · exact h1

theorem engineNext (s : State) (h : P s) : P (engineNext s) := by
  unfold Machine.engineNext
  split
  · exact h
  · have h1 : P (Machine.waitingWork s) := K.waitingWork s h
    dsimp only
    split
    · exact h1
    · exact K.port _ _ _ (K.ve _ _ h1)

/-! ## The resets -/

theorem expireAtReset (s : State) (h : P s) : P (expireAtReset s) := by
  unfold Machine.expireAtReset
  generalize s.ve.torn.map (·.serial) = l
  induction l generalizing s with
  | nil => exact h
  | cons n l ih => exact ih (Machine.expireIfDue n s) (K.expireIfDue n s h)

theorem resetBlocks (n : Nat) (keep : Bool) (j : Journal) (t : TimeLink) (s : State) (h : P s)
    (hj : JournalMove s.jn j) (ht : t = s.tl ∨ TimeMove n s.cfg s.tl t) : P (resetBlocks n keep j t s) := by
  have h1 : P { s with now := n } := K.now s n h
  have h2 : P { s with now := n, tl := t } := by
    rcases ht with e | m
    · rw [e]; exact h1
    · exact K.tl _ t h1 m
  have h3 := K.jn { s with now := n, tl := t } j h2 hj
  have h4 := K.su { s with now := n, tl := t, jn := j } _ h3 (.reset s.su)
  have h5 := K.fu { s with now := n, tl := t, jn := j, su := screeningAfterReset s.su } _ h4 (.reset s.fu)
  have h6 := K.acReset _ (Env.mk n s.cfg t) keep h5
  have h7 := K.port _ .b portAfterReset (K.port _ .a portAfterReset h6)
  exact K.sl _ lineAfterReset (K.ve _ (engineAfterReset s.cfg.tornWindow s.ve) h7)

/-! ## The lane commands -/

theorem takeTap (p : Port) (l : List Byte) (s : State) (h : P s) : P (takeTap p l s) := by
  unfold Machine.takeTap
  have h1 : P (joinQueue p (s.setPort p ((s.port p).tapped l))) := K.ve _ _ (K.port s _ _ h)
  repeat' split
  · exact K.laneAnswer _ _ s h
  · exact K.laneAnswer _ _ s h
  · exact K.engineNext _ h1
  · exact h1

theorem takeReadVerdict (p : Port) (s : State) (h : P s) : P (takeReadVerdict p s) := by
  unfold Machine.takeReadVerdict
  dsimp only
  split
  · exact K.free _ _ (K.port s _ _ h)
  · unfold afterRead
    have h1 : ∀ l, P (s.setPort p l) := fun l => K.port s p l h
    dsimp only
    split
    · exact h1 _
    · split
      · split
        · exact K.tornCreate _ _ (K.port _ _ _ (h1 _))
        · exact h1 _
      · exact K.port _ _ _ (h1 _)

theorem outOfPlace (p : Port) (s : State) (h : P s) : P (outOfPlace p s) := K.laneAnswer _ _ s h

theorem takeWritten (p : Port) (s : State) (h : P s) : P (takeWritten p s) := by
  unfold Machine.takeWritten
  split
  · have h1 : P (requestTapFare p s) := by
      unfold requestTapFare
      split
      · exact K.jn s _ h (.fare _ _ _ _ _)
      · exact h
    exact K.port _ _ _ h1
  · exact K.outOfPlace p s h

theorem takeNotWritten (p : Port) (s : State) (h : P s) : P (takeNotWritten p s) := by
  unfold Machine.takeNotWritten
  split
  · exact K.laneAnswer _ _ _ (K.abandon p _ s h)
  · exact K.outOfPlace p s h

theorem takeUncertain (p : Port) (s : State) (h : P s) : P (takeUncertain p s) := by
  unfold Machine.takeUncertain
  split
  · exact K.laneAnswer _ _ _ (K.abandon p _ s h)
  · exact K.outOfPlace p s h

theorem discardVerdict (p : Port) (s : State) (h : P s) : P (discardVerdict p s) := by
  unfold Machine.discardVerdict
  split
  · exact K.abandon p _ s h
  · exact K.port s _ _ h

theorem withdrawQueued (p : Port) (s : State) (h : P s) : P (withdrawQueued p s) := K.port _ _ _ (K.ve s _ h)

theorem takeCancel (p : Port) (s : State) (h : P s) : P (takeCancel p s) := by
  unfold Machine.takeCancel
  split
  · exact K.laneAnswer _ _ _ (K.withdrawQueued p s h)
  · exact K.laneAnswer _ _ _ (K.discardVerdict p s h)
  · exact K.laneAnswer _ _ _ (K.abandon p _ s h)
  · exact K.outOfPlace p s h

theorem takeFaultClear (p : Port) (s : State) (h : P s) : P (takeFaultClear p s) := by
  unfold Machine.takeFaultClear
  split
  · exact K.laneAnswer _ _ s h
  · exact K.laneAnswer _ _ _ (K.ac s _ h (.clearFault s.ac))

theorem takePortReset (p : Port) (s : State) (h : P s) : P (takePortReset p s) := by
  unfold Machine.takePortReset
  have h1 : P (resetTap p s) := by
    unfold resetTap
    split
    · exact h
    · exact K.withdrawQueued p s h
    · unfold dropTap
      refine K.port _ _ _ ?_
      split
      · split
        · exact K.dropEvaluation _ s h
        · exact h
      · exact h
    · exact K.discardVerdict p s h
    · exact K.abandon p _ s h
    · exact h
  exact K.port _ _ _ h1

theorem confirmExpired (p : Port) (s : State) (h : P s) : P (confirmExpired p s) := by
  unfold Machine.confirmExpired
  split
  · exact K.abandon p _ s h
  · exact K.abandon p _ s h
  · exact K.port s _ _ h

/-! ## Time -/

theorem takeAdvance (ph : Nat) (s : State) (h : P s) (hv : s.tl.valid = true) (hp : s.tl.phase = some ph) :
    P (takeAdvance ph s) := by
  unfold Machine.takeAdvance
  have h1 : P { s with tl := advanceClock ph s.tl, ve := { s.ve with torn := s.ve.torn.map tornTick } } :=
    K.ve _ _ (K.tl s _ h (.advance ph s.tl hv hp))
  dsimp only
  split
  · exact K.dueActivation _ h1
  · exact h1

theorem watchExpired (s : State) (h : P s) : P (watchExpired s) := by
  unfold Machine.watchExpired
  split
  · rename_i hm
    exact K.postAlerts _ _ (K.tl s _ h (.silent s.tl hm))
  · rename_i hm
    exact K.tl s _ h (.watch s.tl hm)

theorem takeTime (day second : Nat) (s : State) (h : P s) (hd : day ≤ 65535) (hs : second < 86400) :
    P (takeTime day second s) := by
  have h1 := K.tl s _ h (.frame (now := s.now) (cfg := s.cfg) day second s.tl hd hs)
  unfold Machine.takeTime
  dsimp only
  split
  · rename_i hm
    rw [if_pos hm] at h1
    exact K.dueActivation _ (K.postAlerts _ _ h1)
  · rename_i hm
    rw [if_neg hm] at h1
    exact K.postAlerts _ _ h1

end Closed

/-- A field of two bytes is at most 65,535. -/
theorem fieldAt_two_le (bs : List Byte) (n : Nat) : fieldAt bs n 2 ≤ 65535 := by
  unfold fieldAt beNat
  generalize bs.drop n = l
  match l with
  | [] => decide
  | [a] => have := a.isLt; simp; omega
  | a :: b :: _ => have := a.isLt; have := b.isLt; simp; omega

/-- A condition that the moves keep is kept by every command, given that grants and completions keep it where the command is
APPEND_COMPLETION, and collections where it is COLLECTED. -/
theorem exec_closed {P : State → Prop} (K : Closed P) (c : Instr) (s t : State) (h : exec c s = .next t) (hs : P s)
    (grant : c = .appendCompletion → ∀ s p n, P s → P { s with ac := grantCredit s.env p n s.ac })
    (complete : c = .appendCompletion → ∀ s a rest, P s → s.jn.queue = a :: rest →
      P { s with jn := completeAppend a rest s.jn })
    (collected : ∀ addr payload, c = .collected addr payload → ∀ s n, P s → P { s with jn := collect n s.jn }) :
    P t := by
  have sf := fun f act s => K.stationFrame f act s
  have be := fun f s => K.broadcastEnd f s
  have ao := fun f s => K.aisleOnly f s
  cases c <;> simp only [exec] at h
  case powerOn =>
    simp only [execPowerOn, Host.Outcome.next.injEq] at h; subst h
    exact K.expireAtReset _ (K.resetBlocks _ _ _ _ s hs (.powerOn _) (.inr (.powerOn _)))
  case lineReset =>
    simp only [execLineReset, Host.Outcome.next.injEq] at h; subst h
    have h1 := K.expireAtReset _ (K.resetBlocks s.now true _ s.tl s hs (.lineReset s.jn) (.inl rfl))
    split
    · exact K.runActivation _ h1
    · exact h1
  case tap p l =>
    simp only [execTap, Host.Outcome.next.injEq] at h; subst h
    exact K.laneFrame p l _ s hs (K.takeTap p l s hs)
  case readVerdict p l =>
    simp only [execReadVerdict, Host.Outcome.next.injEq] at h; subst h
    exact K.laneFrame p l _ s hs (K.takeReadVerdict p s hs)
  case written p l =>
    simp only [execWritten, Host.Outcome.next.injEq] at h; subst h
    exact K.laneBare p l _ s hs (K.takeWritten p s hs)
  case notWritten p l =>
    simp only [execNotWritten, Host.Outcome.next.injEq] at h; subst h
    exact K.laneBare p l _ s hs (K.takeNotWritten p s hs)
  case uncertain p l =>
    simp only [execUncertain, Host.Outcome.next.injEq] at h; subst h
    exact K.laneBare p l _ s hs (K.takeUncertain p s hs)
  case cancel p l =>
    simp only [execCancel, Host.Outcome.next.injEq] at h; subst h
    exact K.laneBare p l _ s hs (K.takeCancel p s hs)
  case readStatus p l =>
    simp only [execReadStatus, Host.Outcome.next.injEq] at h; subst h
    exact K.laneFrame p l _ s hs (K.port s _ _ hs)
  case readHalt p l =>
    simp only [execReadHalt, Host.Outcome.next.injEq] at h; subst h
    exact K.laneFrame p l _ s hs (K.port s _ _ hs)
  case faultClear p l =>
    simp only [execFaultClear, Host.Outcome.next.injEq] at h; subst h
    exact K.laneBare p l _ s hs (K.takeFaultClear p s hs)
  case portReset p l =>
    simp only [execPortReset, Host.Outcome.next.injEq] at h; subst h
    exact K.laneBare p l _ s hs (K.takePortReset p s hs)
  case laneUnknownCommand p c l =>
    simp only [execLaneUnknownCommand, Host.Outcome.next.injEq] at h; subst h
    exact K.laneFrame p l _ s hs (K.laneAnswer p _ s hs)
  case laneFrameDiscard p =>
    simp only [execLaneFrameDiscard, Host.Outcome.next.injEq] at h; subst h
    exact K.discardFrame p s hs
  case evaluationBegin =>
    simp only [execEvaluationBegin, Host.Outcome.next.injEq] at h; subst h
    exact K.engineNext s hs
  case verdictReadyEvent =>
    simp only [execVerdictReadyEvent, Host.Outcome.next.injEq] at h; subst h
    exact K.endEvaluation s hs
  case applyWaitingFrame =>
    simp only [execApplyWaitingFrame, Host.Outcome.next.injEq] at h; subst h
    exact K.applyWaiting s hs
  case heldActivationTest =>
    simp only [execHeldActivationTest, Host.Outcome.next.injEq] at h; subst h
    exact K.heldActivation s hs
  case confirmTimerExpiry p =>
    simp only [execConfirmTimerExpiry] at h
    split at h <;> simp only [Host.Outcome.next.injEq] at h <;> subst h
    · exact hs
    · exact K.confirmExpired p _ (K.reach _ s hs)
  case appendCompletion =>
    simp only [execAppendCompletion] at h
    split at h <;> simp only [Host.Outcome.next.injEq] at h <;> subst h
    · exact hs
    · rename_i a rest hq
      unfold takeCompletion
      have h1 := complete rfl s a rest hs hq
      dsimp only
      split
      · exact h1
      · rename_i p _
        unfold completeCommit
        have h2 := grant rfl _ p a.record.number h1
        refine K.port _ _ _ (K.ve _ _ (K.setTorn _ _ ?_))
        unfold seenCommit
        split
        · exact h2
        · exact K.su _ _ h2 (.write _ _)
  case rawLevelChange i level =>
    simp only [execRawLevelChange, Host.Outcome.next.injEq] at h; subst h
    exact K.aisleOnly _ s hs (.raw i level s.ac)
  case filteredChange i =>
    simp only [execFilteredChange] at h
    split at h <;> simp only [Host.Outcome.next.injEq] at h <;> subst h
    · exact hs
    · exact K.aisle _ _ (K.reach _ s hs) (.filter i _)
  case settleEnd =>
    simp only [execSettleEnd] at h
    split at h <;> simp only [Host.Outcome.next.injEq] at h <;> subst h
    · exact hs
    · rename_i hq
      exact K.aisle _ _ (K.reach _ s hs) (.settled _ (by simp [hq]))
  case travelTimeoutExpiry =>
    simp only [execTravelTimeoutExpiry] at h
    split at h <;> simp only [Host.Outcome.next.injEq] at h <;> subst h
    · exact hs
    · exact K.aisle _ _ (K.reach _ s hs) (.travel _)
  case blankWindowEnd =>
    simp only [execBlankWindowEnd] at h
    split at h <;> simp only [Host.Outcome.next.injEq] at h <;> subst h
    · exact hs
    · rename_i m t hq
      exact K.aisleOnly _ _ (K.reach _ s hs) (.blank m t _ hq)
  case zoneClearTimerExpiry =>
    simp only [execZoneClearTimerExpiry] at h
    split at h <;> simp only [Host.Outcome.next.injEq] at h <;> subst h
    · exact hs
    · exact K.aisleOnly _ _ (K.reach _ s hs) (.zoneClear _)
  case alarmTimerExpiry =>
    simp only [execAlarmTimerExpiry] at h
    split at h <;> simp only [Host.Outcome.next.injEq] at h <;> subst h
    · exact hs
    · exact K.ac _ _ (K.reach _ s hs) (.alarm _)
  case loiterLimitReached =>
    simp only [execLoiterLimitReached] at h
    split at h <;> simp only [Host.Outcome.next.injEq] at h <;> subst h
    · exact hs
    · rename_i t hq
      exact K.ac _ _ (K.reach _ s hs) (.loiter t _ hq)
  case holdWindowExpiry =>
    simp only [execHoldWindowExpiry] at h
    split at h <;> simp only [Host.Outcome.next.injEq] at h <;> subst h
    · exact hs
    · exact K.aisle _ _ (K.reach _ s hs) (.hold _)
  case idleTimerExpiry =>
    simp only [execIdleTimerExpiry] at h
    split at h <;> simp only [Host.Outcome.next.injEq] at h <;> subst h
    · exact hs
    · exact K.ac _ _ (K.reach _ s hs) (.idle _)
  case clockAdvance =>
    simp only [execClockAdvance] at h
    split at h <;> simp only [Host.Outcome.next.injEq] at h <;> subst h
    · rename_i hv hp
      exact K.takeAdvance _ _ (K.reach _ s hs) hv hp
    · exact hs
  case tornRecordExpiry n =>
    simp only [execTornRecordExpiry, Host.Outcome.next.injEq] at h; subst h
    split
    · exact hs
    · exact K.expireIfDue n s hs
  case linkWatchExpiry =>
    simp only [execLinkWatchExpiry] at h
    split at h <;> simp only [Host.Outcome.next.injEq] at h <;> subst h
    · exact hs
    · exact K.watchExpired _ (K.reach _ s hs)
  case standaloneTimerExpiry =>
    simp only [execStandaloneTimerExpiry] at h
    split at h <;> simp only [Host.Outcome.next.injEq] at h <;> subst h
    · exact hs
    · rename_i t hq
      exact K.tl _ _ (K.reach _ s hs) (.limit _ (by simp [hq]))
  case time addr l =>
    simp only [execTime, Host.Outcome.next.injEq] at h; subst h
    refine sf _ _ s hs (fun s hs => be _ _ ?_)
    unfold applyTimePayload
    split
    · rename_i hl
      exact K.takeTime _ _ _ (K.remainingStages s hs) (fieldAt_two_le l 0) hl.2
    · exact hs
  case sighting addr l =>
    simp only [execSighting, Host.Outcome.next.injEq] at h; subst h
    exact sf _ _ s hs (fun s hs => K.applySighting _ s hs)
  case emergency addr l =>
    simp only [execEmergency, Host.Outcome.next.injEq] at h; subst h
    refine sf _ _ s hs (fun s hs => be _ _ ?_)
    unfold applyEmergencyPayload
    repeat' split
    · exact K.aisle _ s hs (.emergency false s.ac)
    · exact K.aisle _ s hs (.emergency true s.ac)
    · exact hs
  case denyBaseBegin addr l =>
    simp only [execDenyBaseBegin, Host.Outcome.next.injEq] at h; subst h
    exact sf _ _ s hs (fun s hs => K.applyDenyBegin _ s hs)
  case denyBaseAdd addr l =>
    simp only [execDenyBaseAdd, Host.Outcome.next.injEq] at h; subst h
    exact sf _ _ s hs (fun s hs => K.applyDenyAdd _ s hs)
  case denyBaseEnd addr l =>
    simp only [execDenyBaseEnd, Host.Outcome.next.injEq] at h; subst h
    exact sf _ _ s hs (fun s hs => K.applyDenyEnd _ s hs)
  case denyDelta addr l =>
    simp only [execDenyDelta, Host.Outcome.next.injEq] at h; subst h
    exact sf _ _ s hs (fun s hs => K.applyDenyDelta _ s hs)
  case tariffBegin addr l =>
    simp only [execTariffBegin, Host.Outcome.next.injEq] at h; subst h
    refine sf _ _ s hs (fun s hs => be _ _ ?_)
    unfold applyTariffBegin
    split
    · exact K.fu s _ hs (.start _ _ s.fu)
    · exact hs
  case tariffData addr l =>
    simp only [execTariffData, Host.Outcome.next.injEq] at h; subst h
    refine sf _ _ s hs (fun s hs => be _ _ ?_)
    unfold applyTariffData
    split
    · exact K.fu s _ hs (.data _ s.fu)
    · exact hs
  case tariffEnd addr l =>
    simp only [execTariffEnd, Host.Outcome.next.injEq] at h; subst h
    refine sf _ _ s hs (fun s hs => be _ _ ?_)
    unfold applyTariffEnd
    dsimp only
    repeat' split
    · exact K.dueActivation _ (K.fu s _ hs (.finish _ s.fu))
    · exact K.fu s _ hs (.finish _ s.fu)
    · exact hs
  case poll addr l =>
    simp only [execPoll, Host.Outcome.next.injEq] at h; subst h
    refine sf _ _ s hs (fun s hs => K.fixedLength _ _ _ s hs ?_)
    exact K.jn _ _ (K.sendReply _ _ _ _ (K.jn s _ hs (.poll s.jn))) (.told _)
  case collected addr l =>
    simp only [execCollected, Host.Outcome.next.injEq] at h; subst h
    refine sf _ _ s hs (fun s hs => K.fixedLength _ _ _ s hs ?_)
    exact K.sendReply _ _ _ _ (collected addr l rfl s _ hs)
  case keyLoad addr l =>
    simp only [execKeyLoad, Host.Outcome.next.injEq] at h; subst h
    exact sf _ _ s hs (fun s hs => K.applyKeyLoad _ s hs)
  case configure addr l =>
    simp only [execConfigure, Host.Outcome.next.injEq] at h; subst h
    exact sf _ _ s hs (fun s hs => K.applyConfigure _ s hs)
  case identify addr l =>
    simp only [execIdentify, Host.Outcome.next.injEq] at h; subst h
    exact sf _ _ s hs (fun s hs => K.fixedLength _ _ _ s hs (K.sendReply _ _ _ s hs))
  case restore addr l =>
    simp only [execRestore, Host.Outcome.next.injEq] at h; subst h
    refine sf _ _ s hs (fun s hs => K.fixedLength _ _ _ s hs ?_)
    unfold takeRestore
    split
    · rename_i hl
      exact K.sendReply _ _ _ _ (K.aisleOnly _ s hs (.restore s.ac hl))
    · exact K.sendReply _ _ _ s hs
  case stationFaultClear addr l =>
    simp only [execStationFaultClear, Host.Outcome.next.injEq] at h; subst h
    refine sf _ _ s hs (fun s hs => K.fixedLength _ _ _ s hs ?_)
    unfold takeStationFaultClear
    split
    · exact K.sendReply _ _ _ s hs
    · exact K.sendReply _ _ _ _ (K.ac s _ hs (.clearFault s.ac))
  case journalClear addr l =>
    simp only [execJournalClear, Host.Outcome.next.injEq] at h; subst h
    refine sf _ _ s hs (fun s hs => K.fixedLength _ _ _ s hs ?_)
    unfold takeJournalClear
    split
    · rename_i hl
      exact K.sendReply _ _ _ _ (K.jn s _ hs (.clear s.jn (by simpa using hl)))
    · exact K.sendReply _ _ _ s hs
  case forceCheckFault addr =>
    simp only [execForceCheckFault, Host.Outcome.next.injEq] at h; subst h
    refine sf _ _ s hs (fun s hs => K.fixedLength _ _ _ s hs ?_)
    unfold takeMaint
    split
    · exact K.sendReply _ _ _ _ (K.jn s _ hs (.arm s.jn))
    · exact K.sendReply _ _ _ s hs
  case maintUnknownOperation addr l =>
    simp only [execMaintUnknownOperation, Host.Outcome.next.injEq] at h; subst h
    refine sf _ _ s hs (fun s hs => K.fixedLength _ _ _ s hs ?_)
    unfold takeMaint
    split
    · exact K.sendReply _ _ _ _ (K.jn s _ hs (.arm s.jn))
    · exact K.sendReply _ _ _ s hs
  case reset addr l =>
    simp only [execReset, Host.Outcome.next.injEq] at h; subst h
    exact sf _ _ s hs (fun s hs => K.fixedLength _ _ _ s hs (K.sl _ _ (K.sendReply _ _ _ s hs)))
  case stationUnknownCommand addr code l =>
    simp only [execStationUnknownCommand, Host.Outcome.next.injEq] at h; subst h
    refine sf _ _ s hs (fun s hs => ?_)
    split
    · exact hs
    · exact K.sendReply _ _ _ s hs
  case frameOverrun addr code l =>
    simp only [execFrameOverrun, Host.Outcome.next.injEq] at h; subst h
    unfold takeOverrun
    split
    · exact K.sl s _ hs
    · exact hs
  case stationFrameIgnored =>
    simp only [execStationFrameIgnored, Host.Outcome.next.injEq] at h; subst h; exact hs
  case stationFrameAbandon =>
    simp only [execStationFrameAbandon, Host.Outcome.next.injEq] at h; subst h; exact hs
  case stationReplyEnd =>
    simp only [execStationReplyEnd] at h
    split at h <;> simp only [Host.Outcome.next.injEq] at h <;> subst h
    · exact hs
    · exact K.sl s _ hs

/-- A condition that every move of every block keeps, and that the queue of commands does not bear on, is kept by every
step. -/
theorem step_closed {P : State → Prop} (K : Closed P) (queue : ∀ s q, P s → P { s with pending := q })
    (grant : ∀ s p n, P s → P { s with ac := grantCredit s.env p n s.ac })
    (complete : ∀ s a rest, P s → s.jn.queue = a :: rest → P { s with jn := completeAppend a rest s.jn })
    (collected : ∀ s n, P s → P { s with jn := collect n s.jn })
    (s t : State) (h : step s = .next t) (hs : P s) : P t := by
  have ex : ∀ c s, exec c s = .next t → P s → P t := fun c s h hs =>
    exec_closed K c s t h hs (fun _ => grant) (fun _ => complete) (fun _ _ _ => collected)
  unfold step at h
  split at h
  · unfold tick at h
    split at h
    · exact ex _ s h hs
    · split at h
      · split at h
        · exact ex _ s h hs
        · simp only [Host.Outcome.next.injEq] at h
          subst h
          exact K.evalStep s hs
      · simp only [Host.Outcome.next.injEq] at h
        subst h
        exact K.now s _ hs
  · exact ex _ _ h (queue s _ hs)

end Sys2Proof.Machine
end

