-- ==== Sys2Proof/Laws/Aisle.lean ====
section
/-! SUPPORT. For each operation of the Aisle Controller, the fields it leaves as they are, one @[simp] lemma a field. -/

namespace Sys2Proof.Machine

/-! The flow history cleared (R130). -/

@[simp] theorem clearHistory_inputs (a : Aisle) : (clearHistory a).inputs = a.inputs := by
  rfl
@[simp] theorem clearHistory_settleEnd (a : Aisle) : (clearHistory a).settleEnd = a.settleEnd := by
  rfl
@[simp] theorem clearHistory_detA (a : Aisle) : (clearHistory a).detA = a.detA := by
  rfl
@[simp] theorem clearHistory_detB (a : Aisle) : (clearHistory a).detB = a.detB := by
  rfl
@[simp] theorem clearHistory_bodiesAB (a : Aisle) : (clearHistory a).bodiesAB = a.bodiesAB := by
  rfl
@[simp] theorem clearHistory_bodiesBA (a : Aisle) : (clearHistory a).bodiesBA = a.bodiesBA := by
  rfl
@[simp] theorem clearHistory_alarmEnd (a : Aisle) : (clearHistory a).alarmEnd = a.alarmEnd := by
  rfl
@[simp] theorem clearHistory_violation (a : Aisle) : (clearHistory a).violation = a.violation := by
  rfl
@[simp] theorem clearHistory_loiter (a : Aisle) : (clearHistory a).loiter = a.loiter := by
  rfl
@[simp] theorem clearHistory_credits (a : Aisle) : (clearHistory a).credits = a.credits := by
  rfl
@[simp] theorem clearHistory_idleEnd (a : Aisle) : (clearHistory a).idleEnd = a.idleEnd := by
  rfl
@[simp] theorem clearHistory_leaf (a : Aisle) : (clearHistory a).leaf = a.leaf := by
  rfl
@[simp] theorem clearHistory_motion (a : Aisle) : (clearHistory a).motion = a.motion := by
  rfl
@[simp] theorem clearHistory_openHist (a : Aisle) : (clearHistory a).openHist = a.openHist := by
  rfl
@[simp] theorem clearHistory_closeHist (a : Aisle) : (clearHistory a).closeHist = a.closeHist := by
  rfl
@[simp] theorem clearHistory_reversals (a : Aisle) : (clearHistory a).reversals = a.reversals := by
  rfl
@[simp] theorem clearHistory_obstructHold (a : Aisle) : (clearHistory a).obstructHold = a.obstructHold := by
  rfl
@[simp] theorem clearHistory_zoneClearEnd (a : Aisle) : (clearHistory a).zoneClearEnd = a.zoneClearEnd := by
  rfl
@[simp] theorem clearHistory_faultInProgress (a : Aisle) : (clearHistory a).faultInProgress = a.faultInProgress := by
  rfl
@[simp] theorem clearHistory_lockedOut (a : Aisle) : (clearHistory a).lockedOut = a.lockedOut := by
  rfl
@[simp] theorem clearHistory_halt (a : Aisle) : (clearHistory a).halt = a.halt := by
  rfl
@[simp] theorem clearHistory_stationEmergency (a : Aisle) : (clearHistory a).stationEmergency = a.stationEmergency := by
  rfl

/-! The history at a new current direction (R132). -/

@[simp] theorem historyUpdate_inputs (a : Aisle) : (historyUpdate a).inputs = a.inputs := by
  unfold historyUpdate; (repeat' split) <;> rfl
@[simp] theorem historyUpdate_settleEnd (a : Aisle) : (historyUpdate a).settleEnd = a.settleEnd := by
  unfold historyUpdate; (repeat' split) <;> rfl
@[simp] theorem historyUpdate_detA (a : Aisle) : (historyUpdate a).detA = a.detA := by
  unfold historyUpdate; (repeat' split) <;> rfl
@[simp] theorem historyUpdate_detB (a : Aisle) : (historyUpdate a).detB = a.detB := by
  unfold historyUpdate; (repeat' split) <;> rfl
@[simp] theorem historyUpdate_bodiesAB (a : Aisle) : (historyUpdate a).bodiesAB = a.bodiesAB := by
  unfold historyUpdate; (repeat' split) <;> rfl
@[simp] theorem historyUpdate_bodiesBA (a : Aisle) : (historyUpdate a).bodiesBA = a.bodiesBA := by
  unfold historyUpdate; (repeat' split) <;> rfl
@[simp] theorem historyUpdate_alarmEnd (a : Aisle) : (historyUpdate a).alarmEnd = a.alarmEnd := by
  unfold historyUpdate; (repeat' split) <;> rfl
@[simp] theorem historyUpdate_violation (a : Aisle) : (historyUpdate a).violation = a.violation := by
  unfold historyUpdate; (repeat' split) <;> rfl
@[simp] theorem historyUpdate_loiter (a : Aisle) : (historyUpdate a).loiter = a.loiter := by
  unfold historyUpdate; (repeat' split) <;> rfl
@[simp] theorem historyUpdate_credits (a : Aisle) : (historyUpdate a).credits = a.credits := by
  unfold historyUpdate; (repeat' split) <;> rfl
@[simp] theorem historyUpdate_idleEnd (a : Aisle) : (historyUpdate a).idleEnd = a.idleEnd := by
  unfold historyUpdate; (repeat' split) <;> rfl
@[simp] theorem historyUpdate_leaf (a : Aisle) : (historyUpdate a).leaf = a.leaf := by
  unfold historyUpdate; (repeat' split) <;> rfl
@[simp] theorem historyUpdate_motion (a : Aisle) : (historyUpdate a).motion = a.motion := by
  unfold historyUpdate; (repeat' split) <;> rfl
@[simp] theorem historyUpdate_openHist (a : Aisle) : (historyUpdate a).openHist = a.openHist := by
  unfold historyUpdate; (repeat' split) <;> rfl
@[simp] theorem historyUpdate_closeHist (a : Aisle) : (historyUpdate a).closeHist = a.closeHist := by
  unfold historyUpdate; (repeat' split) <;> rfl
@[simp] theorem historyUpdate_reversals (a : Aisle) : (historyUpdate a).reversals = a.reversals := by
  unfold historyUpdate; (repeat' split) <;> rfl
@[simp] theorem historyUpdate_obstructHold (a : Aisle) : (historyUpdate a).obstructHold = a.obstructHold := by
  unfold historyUpdate; (repeat' split) <;> rfl
@[simp] theorem historyUpdate_zoneClearEnd (a : Aisle) : (historyUpdate a).zoneClearEnd = a.zoneClearEnd := by
  unfold historyUpdate; (repeat' split) <;> rfl
@[simp] theorem historyUpdate_faultInProgress (a : Aisle) : (historyUpdate a).faultInProgress = a.faultInProgress := by
  unfold historyUpdate; (repeat' split) <;> rfl
@[simp] theorem historyUpdate_lockedOut (a : Aisle) : (historyUpdate a).lockedOut = a.lockedOut := by
  unfold historyUpdate; (repeat' split) <;> rfl
@[simp] theorem historyUpdate_halt (a : Aisle) : (historyUpdate a).halt = a.halt := by
  unfold historyUpdate; (repeat' split) <;> rfl
@[simp] theorem historyUpdate_stationEmergency (a : Aisle) : (historyUpdate a).stationEmergency = a.stationEmergency := by
  unfold historyUpdate; (repeat' split) <;> rfl

/-! The drive enters OPEN or CLOSED (R142, R149). -/

@[simp] theorem arrive_inputs (tgt : Target) (a : Aisle) : (arrive tgt a).inputs = a.inputs := by
  cases tgt <;> rfl
@[simp] theorem arrive_settleEnd (tgt : Target) (a : Aisle) : (arrive tgt a).settleEnd = a.settleEnd := by
  cases tgt <;> rfl
@[simp] theorem arrive_detA (tgt : Target) (a : Aisle) : (arrive tgt a).detA = a.detA := by
  cases tgt <;> rfl
@[simp] theorem arrive_detB (tgt : Target) (a : Aisle) : (arrive tgt a).detB = a.detB := by
  cases tgt <;> rfl
@[simp] theorem arrive_bodiesAB (tgt : Target) (a : Aisle) : (arrive tgt a).bodiesAB = a.bodiesAB := by
  cases tgt <;> rfl
@[simp] theorem arrive_bodiesBA (tgt : Target) (a : Aisle) : (arrive tgt a).bodiesBA = a.bodiesBA := by
  cases tgt <;> rfl
@[simp] theorem arrive_alarmEnd (tgt : Target) (a : Aisle) : (arrive tgt a).alarmEnd = a.alarmEnd := by
  cases tgt <;> rfl
@[simp] theorem arrive_violation (tgt : Target) (a : Aisle) : (arrive tgt a).violation = a.violation := by
  cases tgt <;> rfl
@[simp] theorem arrive_loiter (tgt : Target) (a : Aisle) : (arrive tgt a).loiter = a.loiter := by
  cases tgt <;> rfl
@[simp] theorem arrive_credits (tgt : Target) (a : Aisle) : (arrive tgt a).credits = a.credits := by
  cases tgt <;> rfl
@[simp] theorem arrive_captures (tgt : Target) (a : Aisle) : (arrive tgt a).captures = a.captures := by
  cases tgt <;> rfl
@[simp] theorem arrive_histDir (tgt : Target) (a : Aisle) : (arrive tgt a).histDir = a.histDir := by
  cases tgt <;> rfl
@[simp] theorem arrive_lastAB (tgt : Target) (a : Aisle) : (arrive tgt a).lastAB = a.lastAB := by
  cases tgt <;> rfl
@[simp] theorem arrive_lastBA (tgt : Target) (a : Aisle) : (arrive tgt a).lastBA = a.lastBA := by
  cases tgt <;> rfl
@[simp] theorem arrive_idleEnd (tgt : Target) (a : Aisle) : (arrive tgt a).idleEnd = a.idleEnd := by
  cases tgt <;> rfl
@[simp] theorem arrive_openHist (tgt : Target) (a : Aisle) : (arrive tgt a).openHist = a.openHist := by
  cases tgt <;> rfl
@[simp] theorem arrive_closeHist (tgt : Target) (a : Aisle) : (arrive tgt a).closeHist = a.closeHist := by
  cases tgt <;> rfl
@[simp] theorem arrive_obstructHold (tgt : Target) (a : Aisle) : (arrive tgt a).obstructHold = a.obstructHold := by
  cases tgt <;> rfl
@[simp] theorem arrive_zoneClearEnd (tgt : Target) (a : Aisle) : (arrive tgt a).zoneClearEnd = a.zoneClearEnd := by
  cases tgt <;> rfl
@[simp] theorem arrive_faultInProgress (tgt : Target) (a : Aisle) : (arrive tgt a).faultInProgress = a.faultInProgress := by
  cases tgt <;> rfl
@[simp] theorem arrive_lockedOut (tgt : Target) (a : Aisle) : (arrive tgt a).lockedOut = a.lockedOut := by
  cases tgt <;> rfl
@[simp] theorem arrive_halt (tgt : Target) (a : Aisle) : (arrive tgt a).halt = a.halt := by
  cases tgt <;> rfl
@[simp] theorem arrive_stationEmergency (tgt : Target) (a : Aisle) : (arrive tgt a).stationEmergency = a.stationEmergency := by
  cases tgt <;> rfl

/-! A motion starts (R146). -/

@[simp] theorem startMotion_inputs (env : Env) (tgt : Target) (full : Bool) (a : Aisle) : (startMotion env tgt full a).inputs = a.inputs := by
  unfold startMotion; split <;> simp
@[simp] theorem startMotion_settleEnd (env : Env) (tgt : Target) (full : Bool) (a : Aisle) : (startMotion env tgt full a).settleEnd = a.settleEnd := by
  unfold startMotion; split <;> simp
@[simp] theorem startMotion_detA (env : Env) (tgt : Target) (full : Bool) (a : Aisle) : (startMotion env tgt full a).detA = a.detA := by
  unfold startMotion; split <;> simp
@[simp] theorem startMotion_detB (env : Env) (tgt : Target) (full : Bool) (a : Aisle) : (startMotion env tgt full a).detB = a.detB := by
  unfold startMotion; split <;> simp
@[simp] theorem startMotion_bodiesAB (env : Env) (tgt : Target) (full : Bool) (a : Aisle) : (startMotion env tgt full a).bodiesAB = a.bodiesAB := by
  unfold startMotion; split <;> simp
@[simp] theorem startMotion_bodiesBA (env : Env) (tgt : Target) (full : Bool) (a : Aisle) : (startMotion env tgt full a).bodiesBA = a.bodiesBA := by
  unfold startMotion; split <;> simp
@[simp] theorem startMotion_alarmEnd (env : Env) (tgt : Target) (full : Bool) (a : Aisle) : (startMotion env tgt full a).alarmEnd = a.alarmEnd := by
  unfold startMotion; split <;> simp
@[simp] theorem startMotion_violation (env : Env) (tgt : Target) (full : Bool) (a : Aisle) : (startMotion env tgt full a).violation = a.violation := by
  unfold startMotion; split <;> simp
@[simp] theorem startMotion_loiter (env : Env) (tgt : Target) (full : Bool) (a : Aisle) : (startMotion env tgt full a).loiter = a.loiter := by
  unfold startMotion; split <;> simp
@[simp] theorem startMotion_credits (env : Env) (tgt : Target) (full : Bool) (a : Aisle) : (startMotion env tgt full a).credits = a.credits := by
  unfold startMotion; split <;> simp
@[simp] theorem startMotion_captures (env : Env) (tgt : Target) (full : Bool) (a : Aisle) : (startMotion env tgt full a).captures = a.captures := by
  unfold startMotion; split <;> simp
@[simp] theorem startMotion_histDir (env : Env) (tgt : Target) (full : Bool) (a : Aisle) : (startMotion env tgt full a).histDir = a.histDir := by
  unfold startMotion; split <;> simp
@[simp] theorem startMotion_lastAB (env : Env) (tgt : Target) (full : Bool) (a : Aisle) : (startMotion env tgt full a).lastAB = a.lastAB := by
  unfold startMotion; split <;> simp
@[simp] theorem startMotion_lastBA (env : Env) (tgt : Target) (full : Bool) (a : Aisle) : (startMotion env tgt full a).lastBA = a.lastBA := by
  unfold startMotion; split <;> simp
@[simp] theorem startMotion_idleEnd (env : Env) (tgt : Target) (full : Bool) (a : Aisle) : (startMotion env tgt full a).idleEnd = a.idleEnd := by
  unfold startMotion; split <;> simp
@[simp] theorem startMotion_openHist (env : Env) (tgt : Target) (full : Bool) (a : Aisle) : (startMotion env tgt full a).openHist = a.openHist := by
  unfold startMotion; split <;> simp
@[simp] theorem startMotion_closeHist (env : Env) (tgt : Target) (full : Bool) (a : Aisle) : (startMotion env tgt full a).closeHist = a.closeHist := by
  unfold startMotion; split <;> simp
@[simp] theorem startMotion_obstructHold (env : Env) (tgt : Target) (full : Bool) (a : Aisle) : (startMotion env tgt full a).obstructHold = a.obstructHold := by
  unfold startMotion; split <;> simp
@[simp] theorem startMotion_zoneClearEnd (env : Env) (tgt : Target) (full : Bool) (a : Aisle) : (startMotion env tgt full a).zoneClearEnd = a.zoneClearEnd := by
  unfold startMotion; split <;> simp
@[simp] theorem startMotion_faultInProgress (env : Env) (tgt : Target) (full : Bool) (a : Aisle) : (startMotion env tgt full a).faultInProgress = a.faultInProgress := by
  unfold startMotion; split <;> simp
@[simp] theorem startMotion_lockedOut (env : Env) (tgt : Target) (full : Bool) (a : Aisle) : (startMotion env tgt full a).lockedOut = a.lockedOut := by
  unfold startMotion; split <;> simp
@[simp] theorem startMotion_halt (env : Env) (tgt : Target) (full : Bool) (a : Aisle) : (startMotion env tgt full a).halt = a.halt := by
  unfold startMotion; split <;> simp
@[simp] theorem startMotion_stationEmergency (env : Env) (tgt : Target) (full : Bool) (a : Aisle) : (startMotion env tgt full a).stationEmergency = a.stationEmergency := by
  unfold startMotion; split <;> simp

/-! The travel histories take a capture (R147). -/

@[simp] theorem captureTravel_inputs (env : Env) (tgt : Target) (a : Aisle) : (captureTravel env tgt a).inputs = a.inputs := by
  unfold captureTravel; (repeat' split) <;> rfl
@[simp] theorem captureTravel_settleEnd (env : Env) (tgt : Target) (a : Aisle) : (captureTravel env tgt a).settleEnd = a.settleEnd := by
  unfold captureTravel; (repeat' split) <;> rfl
@[simp] theorem captureTravel_detA (env : Env) (tgt : Target) (a : Aisle) : (captureTravel env tgt a).detA = a.detA := by
  unfold captureTravel; (repeat' split) <;> rfl
@[simp] theorem captureTravel_detB (env : Env) (tgt : Target) (a : Aisle) : (captureTravel env tgt a).detB = a.detB := by
  unfold captureTravel; (repeat' split) <;> rfl
@[simp] theorem captureTravel_bodiesAB (env : Env) (tgt : Target) (a : Aisle) : (captureTravel env tgt a).bodiesAB = a.bodiesAB := by
  unfold captureTravel; (repeat' split) <;> rfl
@[simp] theorem captureTravel_bodiesBA (env : Env) (tgt : Target) (a : Aisle) : (captureTravel env tgt a).bodiesBA = a.bodiesBA := by
  unfold captureTravel; (repeat' split) <;> rfl
@[simp] theorem captureTravel_alarmEnd (env : Env) (tgt : Target) (a : Aisle) : (captureTravel env tgt a).alarmEnd = a.alarmEnd := by
  unfold captureTravel; (repeat' split) <;> rfl
@[simp] theorem captureTravel_violation (env : Env) (tgt : Target) (a : Aisle) : (captureTravel env tgt a).violation = a.violation := by
  unfold captureTravel; (repeat' split) <;> rfl
@[simp] theorem captureTravel_loiter (env : Env) (tgt : Target) (a : Aisle) : (captureTravel env tgt a).loiter = a.loiter := by
  unfold captureTravel; (repeat' split) <;> rfl
@[simp] theorem captureTravel_credits (env : Env) (tgt : Target) (a : Aisle) : (captureTravel env tgt a).credits = a.credits := by
  unfold captureTravel; (repeat' split) <;> rfl
@[simp] theorem captureTravel_captures (env : Env) (tgt : Target) (a : Aisle) : (captureTravel env tgt a).captures = a.captures := by
  unfold captureTravel; (repeat' split) <;> rfl
@[simp] theorem captureTravel_histDir (env : Env) (tgt : Target) (a : Aisle) : (captureTravel env tgt a).histDir = a.histDir := by
  unfold captureTravel; (repeat' split) <;> rfl
@[simp] theorem captureTravel_lastAB (env : Env) (tgt : Target) (a : Aisle) : (captureTravel env tgt a).lastAB = a.lastAB := by
  unfold captureTravel; (repeat' split) <;> rfl
@[simp] theorem captureTravel_lastBA (env : Env) (tgt : Target) (a : Aisle) : (captureTravel env tgt a).lastBA = a.lastBA := by
  unfold captureTravel; (repeat' split) <;> rfl
@[simp] theorem captureTravel_idleEnd (env : Env) (tgt : Target) (a : Aisle) : (captureTravel env tgt a).idleEnd = a.idleEnd := by
  unfold captureTravel; (repeat' split) <;> rfl
@[simp] theorem captureTravel_leaf (env : Env) (tgt : Target) (a : Aisle) : (captureTravel env tgt a).leaf = a.leaf := by
  unfold captureTravel; (repeat' split) <;> rfl
@[simp] theorem captureTravel_motion (env : Env) (tgt : Target) (a : Aisle) : (captureTravel env tgt a).motion = a.motion := by
  unfold captureTravel; (repeat' split) <;> rfl
@[simp] theorem captureTravel_reversals (env : Env) (tgt : Target) (a : Aisle) : (captureTravel env tgt a).reversals = a.reversals := by
  unfold captureTravel; (repeat' split) <;> rfl
@[simp] theorem captureTravel_obstructHold (env : Env) (tgt : Target) (a : Aisle) : (captureTravel env tgt a).obstructHold = a.obstructHold := by
  unfold captureTravel; (repeat' split) <;> rfl
@[simp] theorem captureTravel_zoneClearEnd (env : Env) (tgt : Target) (a : Aisle) : (captureTravel env tgt a).zoneClearEnd = a.zoneClearEnd := by
  unfold captureTravel; (repeat' split) <;> rfl
@[simp] theorem captureTravel_faultInProgress (env : Env) (tgt : Target) (a : Aisle) : (captureTravel env tgt a).faultInProgress = a.faultInProgress := by
  unfold captureTravel; (repeat' split) <;> rfl
@[simp] theorem captureTravel_lockedOut (env : Env) (tgt : Target) (a : Aisle) : (captureTravel env tgt a).lockedOut = a.lockedOut := by
  unfold captureTravel; (repeat' split) <;> rfl
@[simp] theorem captureTravel_halt (env : Env) (tgt : Target) (a : Aisle) : (captureTravel env tgt a).halt = a.halt := by
  unfold captureTravel; (repeat' split) <;> rfl
@[simp] theorem captureTravel_stationEmergency (env : Env) (tgt : Target) (a : Aisle) : (captureTravel env tgt a).stationEmergency = a.stationEmergency := by
  unfold captureTravel; (repeat' split) <;> rfl

/-! A motion completes (R143, R147). -/

@[simp] theorem completeMotion_inputs (env : Env) (tgt : Target) (a : Aisle) : (completeMotion env tgt a).inputs = a.inputs := by
  simp [completeMotion]
@[simp] theorem completeMotion_settleEnd (env : Env) (tgt : Target) (a : Aisle) : (completeMotion env tgt a).settleEnd = a.settleEnd := by
  simp [completeMotion]
@[simp] theorem completeMotion_detA (env : Env) (tgt : Target) (a : Aisle) : (completeMotion env tgt a).detA = a.detA := by
  simp [completeMotion]
@[simp] theorem completeMotion_detB (env : Env) (tgt : Target) (a : Aisle) : (completeMotion env tgt a).detB = a.detB := by
  simp [completeMotion]
@[simp] theorem completeMotion_bodiesAB (env : Env) (tgt : Target) (a : Aisle) : (completeMotion env tgt a).bodiesAB = a.bodiesAB := by
  simp [completeMotion]
@[simp] theorem completeMotion_bodiesBA (env : Env) (tgt : Target) (a : Aisle) : (completeMotion env tgt a).bodiesBA = a.bodiesBA := by
  simp [completeMotion]
@[simp] theorem completeMotion_alarmEnd (env : Env) (tgt : Target) (a : Aisle) : (completeMotion env tgt a).alarmEnd = a.alarmEnd := by
  simp [completeMotion]
@[simp] theorem completeMotion_violation (env : Env) (tgt : Target) (a : Aisle) : (completeMotion env tgt a).violation = a.violation := by
  simp [completeMotion]
@[simp] theorem completeMotion_loiter (env : Env) (tgt : Target) (a : Aisle) : (completeMotion env tgt a).loiter = a.loiter := by
  simp [completeMotion]
@[simp] theorem completeMotion_credits (env : Env) (tgt : Target) (a : Aisle) : (completeMotion env tgt a).credits = a.credits := by
  simp [completeMotion]
@[simp] theorem completeMotion_captures (env : Env) (tgt : Target) (a : Aisle) : (completeMotion env tgt a).captures = a.captures := by
  simp [completeMotion]
@[simp] theorem completeMotion_histDir (env : Env) (tgt : Target) (a : Aisle) : (completeMotion env tgt a).histDir = a.histDir := by
  simp [completeMotion]
@[simp] theorem completeMotion_lastAB (env : Env) (tgt : Target) (a : Aisle) : (completeMotion env tgt a).lastAB = a.lastAB := by
  simp [completeMotion]
@[simp] theorem completeMotion_lastBA (env : Env) (tgt : Target) (a : Aisle) : (completeMotion env tgt a).lastBA = a.lastBA := by
  simp [completeMotion]
@[simp] theorem completeMotion_idleEnd (env : Env) (tgt : Target) (a : Aisle) : (completeMotion env tgt a).idleEnd = a.idleEnd := by
  simp [completeMotion]
@[simp] theorem completeMotion_obstructHold (env : Env) (tgt : Target) (a : Aisle) : (completeMotion env tgt a).obstructHold = a.obstructHold := by
  simp [completeMotion]
@[simp] theorem completeMotion_zoneClearEnd (env : Env) (tgt : Target) (a : Aisle) : (completeMotion env tgt a).zoneClearEnd = a.zoneClearEnd := by
  simp [completeMotion]
@[simp] theorem completeMotion_faultInProgress (env : Env) (tgt : Target) (a : Aisle) : (completeMotion env tgt a).faultInProgress = a.faultInProgress := by
  simp [completeMotion]
@[simp] theorem completeMotion_lockedOut (env : Env) (tgt : Target) (a : Aisle) : (completeMotion env tgt a).lockedOut = a.lockedOut := by
  simp [completeMotion]
@[simp] theorem completeMotion_halt (env : Env) (tgt : Target) (a : Aisle) : (completeMotion env tgt a).halt = a.halt := by
  simp [completeMotion]
@[simp] theorem completeMotion_stationEmergency (env : Env) (tgt : Target) (a : Aisle) : (completeMotion env tgt a).stationEmergency = a.stationEmergency := by
  simp [completeMotion]

/-! The drive acts on the demand (R145). -/

@[simp] theorem driveAct_inputs (env : Env) (a : Aisle) : (driveAct env a).inputs = a.inputs := by
  unfold driveAct; (repeat' split) <;> simp
@[simp] theorem driveAct_settleEnd (env : Env) (a : Aisle) : (driveAct env a).settleEnd = a.settleEnd := by
  unfold driveAct; (repeat' split) <;> simp
@[simp] theorem driveAct_detA (env : Env) (a : Aisle) : (driveAct env a).detA = a.detA := by
  unfold driveAct; (repeat' split) <;> simp
@[simp] theorem driveAct_detB (env : Env) (a : Aisle) : (driveAct env a).detB = a.detB := by
  unfold driveAct; (repeat' split) <;> simp
@[simp] theorem driveAct_bodiesAB (env : Env) (a : Aisle) : (driveAct env a).bodiesAB = a.bodiesAB := by
  unfold driveAct; (repeat' split) <;> simp
@[simp] theorem driveAct_bodiesBA (env : Env) (a : Aisle) : (driveAct env a).bodiesBA = a.bodiesBA := by
  unfold driveAct; (repeat' split) <;> simp
@[simp] theorem driveAct_alarmEnd (env : Env) (a : Aisle) : (driveAct env a).alarmEnd = a.alarmEnd := by
  unfold driveAct; (repeat' split) <;> simp
@[simp] theorem driveAct_violation (env : Env) (a : Aisle) : (driveAct env a).violation = a.violation := by
  unfold driveAct; (repeat' split) <;> simp
@[simp] theorem driveAct_loiter (env : Env) (a : Aisle) : (driveAct env a).loiter = a.loiter := by
  unfold driveAct; (repeat' split) <;> simp
@[simp] theorem driveAct_credits (env : Env) (a : Aisle) : (driveAct env a).credits = a.credits := by
  unfold driveAct; (repeat' split) <;> simp
@[simp] theorem driveAct_captures (env : Env) (a : Aisle) : (driveAct env a).captures = a.captures := by
  unfold driveAct; (repeat' split) <;> simp
@[simp] theorem driveAct_histDir (env : Env) (a : Aisle) : (driveAct env a).histDir = a.histDir := by
  unfold driveAct; (repeat' split) <;> simp
@[simp] theorem driveAct_lastAB (env : Env) (a : Aisle) : (driveAct env a).lastAB = a.lastAB := by
  unfold driveAct; (repeat' split) <;> simp
@[simp] theorem driveAct_lastBA (env : Env) (a : Aisle) : (driveAct env a).lastBA = a.lastBA := by
  unfold driveAct; (repeat' split) <;> simp
@[simp] theorem driveAct_idleEnd (env : Env) (a : Aisle) : (driveAct env a).idleEnd = a.idleEnd := by
  unfold driveAct; (repeat' split) <;> simp
@[simp] theorem driveAct_openHist (env : Env) (a : Aisle) : (driveAct env a).openHist = a.openHist := by
  unfold driveAct; (repeat' split) <;> simp
@[simp] theorem driveAct_closeHist (env : Env) (a : Aisle) : (driveAct env a).closeHist = a.closeHist := by
  unfold driveAct; (repeat' split) <;> simp
@[simp] theorem driveAct_obstructHold (env : Env) (a : Aisle) : (driveAct env a).obstructHold = a.obstructHold := by
  unfold driveAct; (repeat' split) <;> simp
@[simp] theorem driveAct_zoneClearEnd (env : Env) (a : Aisle) : (driveAct env a).zoneClearEnd = a.zoneClearEnd := by
  unfold driveAct; (repeat' split) <;> simp
@[simp] theorem driveAct_faultInProgress (env : Env) (a : Aisle) : (driveAct env a).faultInProgress = a.faultInProgress := by
  unfold driveAct; (repeat' split) <;> simp
@[simp] theorem driveAct_lockedOut (env : Env) (a : Aisle) : (driveAct env a).lockedOut = a.lockedOut := by
  unfold driveAct; (repeat' split) <;> simp
@[simp] theorem driveAct_halt (env : Env) (a : Aisle) : (driveAct env a).halt = a.halt := by
  unfold driveAct; (repeat' split) <;> simp
@[simp] theorem driveAct_stationEmergency (env : Env) (a : Aisle) : (driveAct env a).stationEmergency = a.stationEmergency := by
  unfold driveAct; (repeat' split) <;> simp

/-! The obstruction hold (R149). -/

@[simp] theorem setHold_inputs (env : Env) (a : Aisle) : (setHold env a).inputs = a.inputs := by
  unfold setHold; split <;> rfl
@[simp] theorem setHold_settleEnd (env : Env) (a : Aisle) : (setHold env a).settleEnd = a.settleEnd := by
  unfold setHold; split <;> rfl
@[simp] theorem setHold_detA (env : Env) (a : Aisle) : (setHold env a).detA = a.detA := by
  unfold setHold; split <;> rfl
@[simp] theorem setHold_detB (env : Env) (a : Aisle) : (setHold env a).detB = a.detB := by
  unfold setHold; split <;> rfl
@[simp] theorem setHold_bodiesAB (env : Env) (a : Aisle) : (setHold env a).bodiesAB = a.bodiesAB := by
  unfold setHold; split <;> rfl
@[simp] theorem setHold_bodiesBA (env : Env) (a : Aisle) : (setHold env a).bodiesBA = a.bodiesBA := by
  unfold setHold; split <;> rfl
@[simp] theorem setHold_alarmEnd (env : Env) (a : Aisle) : (setHold env a).alarmEnd = a.alarmEnd := by
  unfold setHold; split <;> rfl
@[simp] theorem setHold_violation (env : Env) (a : Aisle) : (setHold env a).violation = a.violation := by
  unfold setHold; split <;> rfl
@[simp] theorem setHold_loiter (env : Env) (a : Aisle) : (setHold env a).loiter = a.loiter := by
  unfold setHold; split <;> rfl
@[simp] theorem setHold_credits (env : Env) (a : Aisle) : (setHold env a).credits = a.credits := by
  unfold setHold; split <;> rfl
@[simp] theorem setHold_captures (env : Env) (a : Aisle) : (setHold env a).captures = a.captures := by
  unfold setHold; split <;> rfl
@[simp] theorem setHold_histDir (env : Env) (a : Aisle) : (setHold env a).histDir = a.histDir := by
  unfold setHold; split <;> rfl
@[simp] theorem setHold_lastAB (env : Env) (a : Aisle) : (setHold env a).lastAB = a.lastAB := by
  unfold setHold; split <;> rfl
@[simp] theorem setHold_lastBA (env : Env) (a : Aisle) : (setHold env a).lastBA = a.lastBA := by
  unfold setHold; split <;> rfl
@[simp] theorem setHold_idleEnd (env : Env) (a : Aisle) : (setHold env a).idleEnd = a.idleEnd := by
  unfold setHold; split <;> rfl
@[simp] theorem setHold_leaf (env : Env) (a : Aisle) : (setHold env a).leaf = a.leaf := by
  unfold setHold; split <;> rfl
@[simp] theorem setHold_motion (env : Env) (a : Aisle) : (setHold env a).motion = a.motion := by
  unfold setHold; split <;> rfl
@[simp] theorem setHold_openHist (env : Env) (a : Aisle) : (setHold env a).openHist = a.openHist := by
  unfold setHold; split <;> rfl
@[simp] theorem setHold_closeHist (env : Env) (a : Aisle) : (setHold env a).closeHist = a.closeHist := by
  unfold setHold; split <;> rfl
@[simp] theorem setHold_reversals (env : Env) (a : Aisle) : (setHold env a).reversals = a.reversals := by
  unfold setHold; split <;> rfl
@[simp] theorem setHold_faultInProgress (env : Env) (a : Aisle) : (setHold env a).faultInProgress = a.faultInProgress := by
  unfold setHold; split <;> rfl
@[simp] theorem setHold_lockedOut (env : Env) (a : Aisle) : (setHold env a).lockedOut = a.lockedOut := by
  unfold setHold; split <;> rfl
@[simp] theorem setHold_halt (env : Env) (a : Aisle) : (setHold env a).halt = a.halt := by
  unfold setHold; split <;> rfl
@[simp] theorem setHold_stationEmergency (env : Env) (a : Aisle) : (setHold env a).stationEmergency = a.stationEmergency := by
  unfold setHold; split <;> rfl

/-! An obstructed close (R148, R149). -/

@[simp] theorem obstruct_inputs (env : Env) (a : Aisle) : (obstruct env a).inputs = a.inputs := by
  unfold obstruct; dsimp only; split <;> simp
@[simp] theorem obstruct_settleEnd (env : Env) (a : Aisle) : (obstruct env a).settleEnd = a.settleEnd := by
  unfold obstruct; dsimp only; split <;> simp
@[simp] theorem obstruct_detA (env : Env) (a : Aisle) : (obstruct env a).detA = a.detA := by
  unfold obstruct; dsimp only; split <;> simp
@[simp] theorem obstruct_detB (env : Env) (a : Aisle) : (obstruct env a).detB = a.detB := by
  unfold obstruct; dsimp only; split <;> simp
@[simp] theorem obstruct_bodiesAB (env : Env) (a : Aisle) : (obstruct env a).bodiesAB = a.bodiesAB := by
  unfold obstruct; dsimp only; split <;> simp
@[simp] theorem obstruct_bodiesBA (env : Env) (a : Aisle) : (obstruct env a).bodiesBA = a.bodiesBA := by
  unfold obstruct; dsimp only; split <;> simp
@[simp] theorem obstruct_alarmEnd (env : Env) (a : Aisle) : (obstruct env a).alarmEnd = a.alarmEnd := by
  unfold obstruct; dsimp only; split <;> simp
@[simp] theorem obstruct_violation (env : Env) (a : Aisle) : (obstruct env a).violation = a.violation := by
  unfold obstruct; dsimp only; split <;> simp
@[simp] theorem obstruct_loiter (env : Env) (a : Aisle) : (obstruct env a).loiter = a.loiter := by
  unfold obstruct; dsimp only; split <;> simp
@[simp] theorem obstruct_credits (env : Env) (a : Aisle) : (obstruct env a).credits = a.credits := by
  unfold obstruct; dsimp only; split <;> simp
@[simp] theorem obstruct_captures (env : Env) (a : Aisle) : (obstruct env a).captures = a.captures := by
  unfold obstruct; dsimp only; split <;> simp
@[simp] theorem obstruct_histDir (env : Env) (a : Aisle) : (obstruct env a).histDir = a.histDir := by
  unfold obstruct; dsimp only; split <;> simp
@[simp] theorem obstruct_lastAB (env : Env) (a : Aisle) : (obstruct env a).lastAB = a.lastAB := by
  unfold obstruct; dsimp only; split <;> simp
@[simp] theorem obstruct_lastBA (env : Env) (a : Aisle) : (obstruct env a).lastBA = a.lastBA := by
  unfold obstruct; dsimp only; split <;> simp
@[simp] theorem obstruct_idleEnd (env : Env) (a : Aisle) : (obstruct env a).idleEnd = a.idleEnd := by
  unfold obstruct; dsimp only; split <;> simp
@[simp] theorem obstruct_openHist (env : Env) (a : Aisle) : (obstruct env a).openHist = a.openHist := by
  unfold obstruct; dsimp only; split <;> simp
@[simp] theorem obstruct_closeHist (env : Env) (a : Aisle) : (obstruct env a).closeHist = a.closeHist := by
  unfold obstruct; dsimp only; split <;> simp
@[simp] theorem obstruct_faultInProgress (env : Env) (a : Aisle) : (obstruct env a).faultInProgress = a.faultInProgress := by
  unfold obstruct; dsimp only; split <;> simp
@[simp] theorem obstruct_lockedOut (env : Env) (a : Aisle) : (obstruct env a).lockedOut = a.lockedOut := by
  unfold obstruct; dsimp only; split <;> simp
@[simp] theorem obstruct_halt (env : Env) (a : Aisle) : (obstruct env a).halt = a.halt := by
  unfold obstruct; dsimp only; split <;> simp
@[simp] theorem obstruct_stationEmergency (env : Env) (a : Aisle) : (obstruct env a).stationEmergency = a.stationEmergency := by
  unfold obstruct; dsimp only; split <;> simp

/-! A change of L1 or L2 at the drive (R148, R149). -/

@[simp] theorem zoneChange_inputs (env : Env) (occupied : Bool) (a : Aisle) : (zoneChange env occupied a).inputs = a.inputs := by
  unfold zoneChange; dsimp only; (repeat' split) <;> simp
@[simp] theorem zoneChange_settleEnd (env : Env) (occupied : Bool) (a : Aisle) : (zoneChange env occupied a).settleEnd = a.settleEnd := by
  unfold zoneChange; dsimp only; (repeat' split) <;> simp
@[simp] theorem zoneChange_detA (env : Env) (occupied : Bool) (a : Aisle) : (zoneChange env occupied a).detA = a.detA := by
  unfold zoneChange; dsimp only; (repeat' split) <;> simp
@[simp] theorem zoneChange_detB (env : Env) (occupied : Bool) (a : Aisle) : (zoneChange env occupied a).detB = a.detB := by
  unfold zoneChange; dsimp only; (repeat' split) <;> simp
@[simp] theorem zoneChange_bodiesAB (env : Env) (occupied : Bool) (a : Aisle) : (zoneChange env occupied a).bodiesAB = a.bodiesAB := by
  unfold zoneChange; dsimp only; (repeat' split) <;> simp
@[simp] theorem zoneChange_bodiesBA (env : Env) (occupied : Bool) (a : Aisle) : (zoneChange env occupied a).bodiesBA = a.bodiesBA := by
  unfold zoneChange; dsimp only; (repeat' split) <;> simp
@[simp] theorem zoneChange_alarmEnd (env : Env) (occupied : Bool) (a : Aisle) : (zoneChange env occupied a).alarmEnd = a.alarmEnd := by
  unfold zoneChange; dsimp only; (repeat' split) <;> simp
@[simp] theorem zoneChange_violation (env : Env) (occupied : Bool) (a : Aisle) : (zoneChange env occupied a).violation = a.violation := by
  unfold zoneChange; dsimp only; (repeat' split) <;> simp
@[simp] theorem zoneChange_loiter (env : Env) (occupied : Bool) (a : Aisle) : (zoneChange env occupied a).loiter = a.loiter := by
  unfold zoneChange; dsimp only; (repeat' split) <;> simp
@[simp] theorem zoneChange_credits (env : Env) (occupied : Bool) (a : Aisle) : (zoneChange env occupied a).credits = a.credits := by
  unfold zoneChange; dsimp only; (repeat' split) <;> simp
@[simp] theorem zoneChange_captures (env : Env) (occupied : Bool) (a : Aisle) : (zoneChange env occupied a).captures = a.captures := by
  unfold zoneChange; dsimp only; (repeat' split) <;> simp
@[simp] theorem zoneChange_histDir (env : Env) (occupied : Bool) (a : Aisle) : (zoneChange env occupied a).histDir = a.histDir := by
  unfold zoneChange; dsimp only; (repeat' split) <;> simp
@[simp] theorem zoneChange_lastAB (env : Env) (occupied : Bool) (a : Aisle) : (zoneChange env occupied a).lastAB = a.lastAB := by
  unfold zoneChange; dsimp only; (repeat' split) <;> simp
@[simp] theorem zoneChange_lastBA (env : Env) (occupied : Bool) (a : Aisle) : (zoneChange env occupied a).lastBA = a.lastBA := by
  unfold zoneChange; dsimp only; (repeat' split) <;> simp
@[simp] theorem zoneChange_idleEnd (env : Env) (occupied : Bool) (a : Aisle) : (zoneChange env occupied a).idleEnd = a.idleEnd := by
  unfold zoneChange; dsimp only; (repeat' split) <;> simp
@[simp] theorem zoneChange_openHist (env : Env) (occupied : Bool) (a : Aisle) : (zoneChange env occupied a).openHist = a.openHist := by
  unfold zoneChange; dsimp only; (repeat' split) <;> simp
@[simp] theorem zoneChange_closeHist (env : Env) (occupied : Bool) (a : Aisle) : (zoneChange env occupied a).closeHist = a.closeHist := by
  unfold zoneChange; dsimp only; (repeat' split) <;> simp
@[simp] theorem zoneChange_faultInProgress (env : Env) (occupied : Bool) (a : Aisle) : (zoneChange env occupied a).faultInProgress = a.faultInProgress := by
  unfold zoneChange; dsimp only; (repeat' split) <;> simp
@[simp] theorem zoneChange_lockedOut (env : Env) (occupied : Bool) (a : Aisle) : (zoneChange env occupied a).lockedOut = a.lockedOut := by
  unfold zoneChange; dsimp only; (repeat' split) <;> simp
@[simp] theorem zoneChange_halt (env : Env) (occupied : Bool) (a : Aisle) : (zoneChange env occupied a).halt = a.halt := by
  unfold zoneChange; dsimp only; (repeat' split) <;> simp
@[simp] theorem zoneChange_stationEmergency (env : Env) (occupied : Bool) (a : Aisle) : (zoneChange env occupied a).stationEmergency = a.stationEmergency := by
  unfold zoneChange; dsimp only; (repeat' split) <;> simp

/-! The drive released (R151). -/

@[simp] theorem releaseDrive_inputs (a : Aisle) : (releaseDrive a).inputs = a.inputs := by
  rfl
@[simp] theorem releaseDrive_settleEnd (a : Aisle) : (releaseDrive a).settleEnd = a.settleEnd := by
  rfl
@[simp] theorem releaseDrive_detA (a : Aisle) : (releaseDrive a).detA = a.detA := by
  rfl
@[simp] theorem releaseDrive_detB (a : Aisle) : (releaseDrive a).detB = a.detB := by
  rfl
@[simp] theorem releaseDrive_bodiesAB (a : Aisle) : (releaseDrive a).bodiesAB = a.bodiesAB := by
  rfl
@[simp] theorem releaseDrive_bodiesBA (a : Aisle) : (releaseDrive a).bodiesBA = a.bodiesBA := by
  rfl
@[simp] theorem releaseDrive_alarmEnd (a : Aisle) : (releaseDrive a).alarmEnd = a.alarmEnd := by
  rfl
@[simp] theorem releaseDrive_violation (a : Aisle) : (releaseDrive a).violation = a.violation := by
  rfl
@[simp] theorem releaseDrive_loiter (a : Aisle) : (releaseDrive a).loiter = a.loiter := by
  rfl
@[simp] theorem releaseDrive_credits (a : Aisle) : (releaseDrive a).credits = a.credits := by
  rfl
@[simp] theorem releaseDrive_captures (a : Aisle) : (releaseDrive a).captures = a.captures := by
  rfl
@[simp] theorem releaseDrive_histDir (a : Aisle) : (releaseDrive a).histDir = a.histDir := by
  rfl
@[simp] theorem releaseDrive_lastAB (a : Aisle) : (releaseDrive a).lastAB = a.lastAB := by
  rfl
@[simp] theorem releaseDrive_lastBA (a : Aisle) : (releaseDrive a).lastBA = a.lastBA := by
  rfl
@[simp] theorem releaseDrive_idleEnd (a : Aisle) : (releaseDrive a).idleEnd = a.idleEnd := by
  rfl
@[simp] theorem releaseDrive_openHist (a : Aisle) : (releaseDrive a).openHist = a.openHist := by
  rfl
@[simp] theorem releaseDrive_closeHist (a : Aisle) : (releaseDrive a).closeHist = a.closeHist := by
  rfl
@[simp] theorem releaseDrive_faultInProgress (a : Aisle) : (releaseDrive a).faultInProgress = a.faultInProgress := by
  rfl
@[simp] theorem releaseDrive_lockedOut (a : Aisle) : (releaseDrive a).lockedOut = a.lockedOut := by
  rfl
@[simp] theorem releaseDrive_halt (a : Aisle) : (releaseDrive a).halt = a.halt := by
  rfl
@[simp] theorem releaseDrive_stationEmergency (a : Aisle) : (releaseDrive a).stationEmergency = a.stationEmergency := by
  rfl

/-! The hold window compared with the head (R136, R137). -/

@[simp] theorem windowUpdate_inputs (env : Env) (a : Aisle) : (windowUpdate env a).inputs = a.inputs := by
  rfl
@[simp] theorem windowUpdate_settleEnd (env : Env) (a : Aisle) : (windowUpdate env a).settleEnd = a.settleEnd := by
  rfl
@[simp] theorem windowUpdate_detA (env : Env) (a : Aisle) : (windowUpdate env a).detA = a.detA := by
  rfl
@[simp] theorem windowUpdate_detB (env : Env) (a : Aisle) : (windowUpdate env a).detB = a.detB := by
  rfl
@[simp] theorem windowUpdate_bodiesAB (env : Env) (a : Aisle) : (windowUpdate env a).bodiesAB = a.bodiesAB := by
  rfl
@[simp] theorem windowUpdate_bodiesBA (env : Env) (a : Aisle) : (windowUpdate env a).bodiesBA = a.bodiesBA := by
  rfl
@[simp] theorem windowUpdate_alarmEnd (env : Env) (a : Aisle) : (windowUpdate env a).alarmEnd = a.alarmEnd := by
  rfl
@[simp] theorem windowUpdate_violation (env : Env) (a : Aisle) : (windowUpdate env a).violation = a.violation := by
  rfl
@[simp] theorem windowUpdate_loiter (env : Env) (a : Aisle) : (windowUpdate env a).loiter = a.loiter := by
  rfl
@[simp] theorem windowUpdate_captures (env : Env) (a : Aisle) : (windowUpdate env a).captures = a.captures := by
  rfl
@[simp] theorem windowUpdate_histDir (env : Env) (a : Aisle) : (windowUpdate env a).histDir = a.histDir := by
  rfl
@[simp] theorem windowUpdate_lastAB (env : Env) (a : Aisle) : (windowUpdate env a).lastAB = a.lastAB := by
  rfl
@[simp] theorem windowUpdate_lastBA (env : Env) (a : Aisle) : (windowUpdate env a).lastBA = a.lastBA := by
  rfl
@[simp] theorem windowUpdate_idleEnd (env : Env) (a : Aisle) : (windowUpdate env a).idleEnd = a.idleEnd := by
  rfl
@[simp] theorem windowUpdate_leaf (env : Env) (a : Aisle) : (windowUpdate env a).leaf = a.leaf := by
  rfl
@[simp] theorem windowUpdate_motion (env : Env) (a : Aisle) : (windowUpdate env a).motion = a.motion := by
  rfl
@[simp] theorem windowUpdate_openHist (env : Env) (a : Aisle) : (windowUpdate env a).openHist = a.openHist := by
  rfl
@[simp] theorem windowUpdate_closeHist (env : Env) (a : Aisle) : (windowUpdate env a).closeHist = a.closeHist := by
  rfl
@[simp] theorem windowUpdate_reversals (env : Env) (a : Aisle) : (windowUpdate env a).reversals = a.reversals := by
  rfl
@[simp] theorem windowUpdate_obstructHold (env : Env) (a : Aisle) : (windowUpdate env a).obstructHold = a.obstructHold := by
  rfl
@[simp] theorem windowUpdate_zoneClearEnd (env : Env) (a : Aisle) : (windowUpdate env a).zoneClearEnd = a.zoneClearEnd := by
  rfl
@[simp] theorem windowUpdate_faultInProgress (env : Env) (a : Aisle) : (windowUpdate env a).faultInProgress = a.faultInProgress := by
  rfl
@[simp] theorem windowUpdate_lockedOut (env : Env) (a : Aisle) : (windowUpdate env a).lockedOut = a.lockedOut := by
  rfl
@[simp] theorem windowUpdate_halt (env : Env) (a : Aisle) : (windowUpdate env a).halt = a.halt := by
  rfl
@[simp] theorem windowUpdate_stationEmergency (env : Env) (a : Aisle) : (windowUpdate env a).stationEmergency = a.stationEmergency := by
  rfl

/-! The idle timer (R133). -/

@[simp] theorem idleUpdate_inputs (env : Env) (was : Bool) (a : Aisle) : (idleUpdate env was a).inputs = a.inputs := by
  unfold idleUpdate; (repeat' split) <;> rfl
@[simp] theorem idleUpdate_settleEnd (env : Env) (was : Bool) (a : Aisle) : (idleUpdate env was a).settleEnd = a.settleEnd := by
  unfold idleUpdate; (repeat' split) <;> rfl
@[simp] theorem idleUpdate_detA (env : Env) (was : Bool) (a : Aisle) : (idleUpdate env was a).detA = a.detA := by
  unfold idleUpdate; (repeat' split) <;> rfl
@[simp] theorem idleUpdate_detB (env : Env) (was : Bool) (a : Aisle) : (idleUpdate env was a).detB = a.detB := by
  unfold idleUpdate; (repeat' split) <;> rfl
@[simp] theorem idleUpdate_bodiesAB (env : Env) (was : Bool) (a : Aisle) : (idleUpdate env was a).bodiesAB = a.bodiesAB := by
  unfold idleUpdate; (repeat' split) <;> rfl
@[simp] theorem idleUpdate_bodiesBA (env : Env) (was : Bool) (a : Aisle) : (idleUpdate env was a).bodiesBA = a.bodiesBA := by
  unfold idleUpdate; (repeat' split) <;> rfl
@[simp] theorem idleUpdate_alarmEnd (env : Env) (was : Bool) (a : Aisle) : (idleUpdate env was a).alarmEnd = a.alarmEnd := by
  unfold idleUpdate; (repeat' split) <;> rfl
@[simp] theorem idleUpdate_violation (env : Env) (was : Bool) (a : Aisle) : (idleUpdate env was a).violation = a.violation := by
  unfold idleUpdate; (repeat' split) <;> rfl
@[simp] theorem idleUpdate_loiter (env : Env) (was : Bool) (a : Aisle) : (idleUpdate env was a).loiter = a.loiter := by
  unfold idleUpdate; (repeat' split) <;> rfl
@[simp] theorem idleUpdate_credits (env : Env) (was : Bool) (a : Aisle) : (idleUpdate env was a).credits = a.credits := by
  unfold idleUpdate; (repeat' split) <;> rfl
@[simp] theorem idleUpdate_captures (env : Env) (was : Bool) (a : Aisle) : (idleUpdate env was a).captures = a.captures := by
  unfold idleUpdate; (repeat' split) <;> rfl
@[simp] theorem idleUpdate_histDir (env : Env) (was : Bool) (a : Aisle) : (idleUpdate env was a).histDir = a.histDir := by
  unfold idleUpdate; (repeat' split) <;> rfl
@[simp] theorem idleUpdate_lastAB (env : Env) (was : Bool) (a : Aisle) : (idleUpdate env was a).lastAB = a.lastAB := by
  unfold idleUpdate; (repeat' split) <;> rfl
@[simp] theorem idleUpdate_lastBA (env : Env) (was : Bool) (a : Aisle) : (idleUpdate env was a).lastBA = a.lastBA := by
  unfold idleUpdate; (repeat' split) <;> rfl
@[simp] theorem idleUpdate_leaf (env : Env) (was : Bool) (a : Aisle) : (idleUpdate env was a).leaf = a.leaf := by
  unfold idleUpdate; (repeat' split) <;> rfl
@[simp] theorem idleUpdate_motion (env : Env) (was : Bool) (a : Aisle) : (idleUpdate env was a).motion = a.motion := by
  unfold idleUpdate; (repeat' split) <;> rfl
@[simp] theorem idleUpdate_openHist (env : Env) (was : Bool) (a : Aisle) : (idleUpdate env was a).openHist = a.openHist := by
  unfold idleUpdate; (repeat' split) <;> rfl
@[simp] theorem idleUpdate_closeHist (env : Env) (was : Bool) (a : Aisle) : (idleUpdate env was a).closeHist = a.closeHist := by
  unfold idleUpdate; (repeat' split) <;> rfl
@[simp] theorem idleUpdate_reversals (env : Env) (was : Bool) (a : Aisle) : (idleUpdate env was a).reversals = a.reversals := by
  unfold idleUpdate; (repeat' split) <;> rfl
@[simp] theorem idleUpdate_obstructHold (env : Env) (was : Bool) (a : Aisle) : (idleUpdate env was a).obstructHold = a.obstructHold := by
  unfold idleUpdate; (repeat' split) <;> rfl
@[simp] theorem idleUpdate_zoneClearEnd (env : Env) (was : Bool) (a : Aisle) : (idleUpdate env was a).zoneClearEnd = a.zoneClearEnd := by
  unfold idleUpdate; (repeat' split) <;> rfl
@[simp] theorem idleUpdate_faultInProgress (env : Env) (was : Bool) (a : Aisle) : (idleUpdate env was a).faultInProgress = a.faultInProgress := by
  unfold idleUpdate; (repeat' split) <;> rfl
@[simp] theorem idleUpdate_lockedOut (env : Env) (was : Bool) (a : Aisle) : (idleUpdate env was a).lockedOut = a.lockedOut := by
  unfold idleUpdate; (repeat' split) <;> rfl
@[simp] theorem idleUpdate_halt (env : Env) (was : Bool) (a : Aisle) : (idleUpdate env was a).halt = a.halt := by
  unfold idleUpdate; (repeat' split) <;> rfl
@[simp] theorem idleUpdate_stationEmergency (env : Env) (was : Bool) (a : Aisle) : (idleUpdate env was a).stationEmergency = a.stationEmergency := by
  unfold idleUpdate; (repeat' split) <;> rfl

/-! LOITER (R122). -/

@[simp] theorem loiterUpdate_inputs (env : Env) (a : Aisle) : (loiterUpdate env a).inputs = a.inputs := by
  rfl
@[simp] theorem loiterUpdate_settleEnd (env : Env) (a : Aisle) : (loiterUpdate env a).settleEnd = a.settleEnd := by
  rfl
@[simp] theorem loiterUpdate_detA (env : Env) (a : Aisle) : (loiterUpdate env a).detA = a.detA := by
  rfl
@[simp] theorem loiterUpdate_detB (env : Env) (a : Aisle) : (loiterUpdate env a).detB = a.detB := by
  rfl
@[simp] theorem loiterUpdate_bodiesAB (env : Env) (a : Aisle) : (loiterUpdate env a).bodiesAB = a.bodiesAB := by
  rfl
@[simp] theorem loiterUpdate_bodiesBA (env : Env) (a : Aisle) : (loiterUpdate env a).bodiesBA = a.bodiesBA := by
  rfl
@[simp] theorem loiterUpdate_alarmEnd (env : Env) (a : Aisle) : (loiterUpdate env a).alarmEnd = a.alarmEnd := by
  rfl
@[simp] theorem loiterUpdate_violation (env : Env) (a : Aisle) : (loiterUpdate env a).violation = a.violation := by
  rfl
@[simp] theorem loiterUpdate_credits (env : Env) (a : Aisle) : (loiterUpdate env a).credits = a.credits := by
  rfl
@[simp] theorem loiterUpdate_captures (env : Env) (a : Aisle) : (loiterUpdate env a).captures = a.captures := by
  rfl
@[simp] theorem loiterUpdate_histDir (env : Env) (a : Aisle) : (loiterUpdate env a).histDir = a.histDir := by
  rfl
@[simp] theorem loiterUpdate_lastAB (env : Env) (a : Aisle) : (loiterUpdate env a).lastAB = a.lastAB := by
  rfl
@[simp] theorem loiterUpdate_lastBA (env : Env) (a : Aisle) : (loiterUpdate env a).lastBA = a.lastBA := by
  rfl
@[simp] theorem loiterUpdate_idleEnd (env : Env) (a : Aisle) : (loiterUpdate env a).idleEnd = a.idleEnd := by
  rfl
@[simp] theorem loiterUpdate_leaf (env : Env) (a : Aisle) : (loiterUpdate env a).leaf = a.leaf := by
  rfl
@[simp] theorem loiterUpdate_motion (env : Env) (a : Aisle) : (loiterUpdate env a).motion = a.motion := by
  rfl
@[simp] theorem loiterUpdate_openHist (env : Env) (a : Aisle) : (loiterUpdate env a).openHist = a.openHist := by
  rfl
@[simp] theorem loiterUpdate_closeHist (env : Env) (a : Aisle) : (loiterUpdate env a).closeHist = a.closeHist := by
  rfl
@[simp] theorem loiterUpdate_reversals (env : Env) (a : Aisle) : (loiterUpdate env a).reversals = a.reversals := by
  rfl
@[simp] theorem loiterUpdate_obstructHold (env : Env) (a : Aisle) : (loiterUpdate env a).obstructHold = a.obstructHold := by
  rfl
@[simp] theorem loiterUpdate_zoneClearEnd (env : Env) (a : Aisle) : (loiterUpdate env a).zoneClearEnd = a.zoneClearEnd := by
  rfl
@[simp] theorem loiterUpdate_faultInProgress (env : Env) (a : Aisle) : (loiterUpdate env a).faultInProgress = a.faultInProgress := by
  rfl
@[simp] theorem loiterUpdate_lockedOut (env : Env) (a : Aisle) : (loiterUpdate env a).lockedOut = a.lockedOut := by
  rfl
@[simp] theorem loiterUpdate_halt (env : Env) (a : Aisle) : (loiterUpdate env a).halt = a.halt := by
  rfl
@[simp] theorem loiterUpdate_stationEmergency (env : Env) (a : Aisle) : (loiterUpdate env a).stationEmergency = a.stationEmergency := by
  rfl

/-! What follows every event of the aisle. -/

@[simp] theorem settle_inputs (env : Env) (was : Bool) (a : Aisle) : (settle env was a).inputs = a.inputs := by
  simp [settle]
@[simp] theorem settle_settleEnd (env : Env) (was : Bool) (a : Aisle) : (settle env was a).settleEnd = a.settleEnd := by
  simp [settle]
@[simp] theorem settle_detA (env : Env) (was : Bool) (a : Aisle) : (settle env was a).detA = a.detA := by
  simp [settle]
@[simp] theorem settle_detB (env : Env) (was : Bool) (a : Aisle) : (settle env was a).detB = a.detB := by
  simp [settle]
@[simp] theorem settle_bodiesAB (env : Env) (was : Bool) (a : Aisle) : (settle env was a).bodiesAB = a.bodiesAB := by
  simp [settle]
@[simp] theorem settle_bodiesBA (env : Env) (was : Bool) (a : Aisle) : (settle env was a).bodiesBA = a.bodiesBA := by
  simp [settle]
@[simp] theorem settle_alarmEnd (env : Env) (was : Bool) (a : Aisle) : (settle env was a).alarmEnd = a.alarmEnd := by
  simp [settle]
@[simp] theorem settle_violation (env : Env) (was : Bool) (a : Aisle) : (settle env was a).violation = a.violation := by
  simp [settle]
@[simp] theorem settle_openHist (env : Env) (was : Bool) (a : Aisle) : (settle env was a).openHist = a.openHist := by
  simp [settle]
@[simp] theorem settle_closeHist (env : Env) (was : Bool) (a : Aisle) : (settle env was a).closeHist = a.closeHist := by
  simp [settle]
@[simp] theorem settle_obstructHold (env : Env) (was : Bool) (a : Aisle) : (settle env was a).obstructHold = a.obstructHold := by
  simp [settle]
@[simp] theorem settle_zoneClearEnd (env : Env) (was : Bool) (a : Aisle) : (settle env was a).zoneClearEnd = a.zoneClearEnd := by
  simp [settle]
@[simp] theorem settle_faultInProgress (env : Env) (was : Bool) (a : Aisle) : (settle env was a).faultInProgress = a.faultInProgress := by
  simp [settle]
@[simp] theorem settle_lockedOut (env : Env) (was : Bool) (a : Aisle) : (settle env was a).lockedOut = a.lockedOut := by
  simp [settle]
@[simp] theorem settle_halt (env : Env) (was : Bool) (a : Aisle) : (settle env was a).halt = a.halt := by
  simp [settle]
@[simp] theorem settle_stationEmergency (env : Env) (was : Bool) (a : Aisle) : (settle env was a).stationEmergency = a.stationEmergency := by
  simp [settle]

/-! A body more (R113). -/

@[simp] theorem raiseBodies_inputs (d : Dir) (a : Aisle) : (raiseBodies d a).inputs = a.inputs := by
  cases d <;> rfl
@[simp] theorem raiseBodies_settleEnd (d : Dir) (a : Aisle) : (raiseBodies d a).settleEnd = a.settleEnd := by
  cases d <;> rfl
@[simp] theorem raiseBodies_detA (d : Dir) (a : Aisle) : (raiseBodies d a).detA = a.detA := by
  cases d <;> rfl
@[simp] theorem raiseBodies_detB (d : Dir) (a : Aisle) : (raiseBodies d a).detB = a.detB := by
  cases d <;> rfl
@[simp] theorem raiseBodies_alarmEnd (d : Dir) (a : Aisle) : (raiseBodies d a).alarmEnd = a.alarmEnd := by
  cases d <;> rfl
@[simp] theorem raiseBodies_violation (d : Dir) (a : Aisle) : (raiseBodies d a).violation = a.violation := by
  cases d <;> rfl
@[simp] theorem raiseBodies_loiter (d : Dir) (a : Aisle) : (raiseBodies d a).loiter = a.loiter := by
  cases d <;> rfl
@[simp] theorem raiseBodies_credits (d : Dir) (a : Aisle) : (raiseBodies d a).credits = a.credits := by
  cases d <;> rfl
@[simp] theorem raiseBodies_captures (d : Dir) (a : Aisle) : (raiseBodies d a).captures = a.captures := by
  cases d <;> rfl
@[simp] theorem raiseBodies_histDir (d : Dir) (a : Aisle) : (raiseBodies d a).histDir = a.histDir := by
  cases d <;> rfl
@[simp] theorem raiseBodies_lastAB (d : Dir) (a : Aisle) : (raiseBodies d a).lastAB = a.lastAB := by
  cases d <;> rfl
@[simp] theorem raiseBodies_lastBA (d : Dir) (a : Aisle) : (raiseBodies d a).lastBA = a.lastBA := by
  cases d <;> rfl
@[simp] theorem raiseBodies_idleEnd (d : Dir) (a : Aisle) : (raiseBodies d a).idleEnd = a.idleEnd := by
  cases d <;> rfl
@[simp] theorem raiseBodies_leaf (d : Dir) (a : Aisle) : (raiseBodies d a).leaf = a.leaf := by
  cases d <;> rfl
@[simp] theorem raiseBodies_motion (d : Dir) (a : Aisle) : (raiseBodies d a).motion = a.motion := by
  cases d <;> rfl
@[simp] theorem raiseBodies_openHist (d : Dir) (a : Aisle) : (raiseBodies d a).openHist = a.openHist := by
  cases d <;> rfl
@[simp] theorem raiseBodies_closeHist (d : Dir) (a : Aisle) : (raiseBodies d a).closeHist = a.closeHist := by
  cases d <;> rfl
@[simp] theorem raiseBodies_reversals (d : Dir) (a : Aisle) : (raiseBodies d a).reversals = a.reversals := by
  cases d <;> rfl
@[simp] theorem raiseBodies_obstructHold (d : Dir) (a : Aisle) : (raiseBodies d a).obstructHold = a.obstructHold := by
  cases d <;> rfl
@[simp] theorem raiseBodies_zoneClearEnd (d : Dir) (a : Aisle) : (raiseBodies d a).zoneClearEnd = a.zoneClearEnd := by
  cases d <;> rfl
@[simp] theorem raiseBodies_faultInProgress (d : Dir) (a : Aisle) : (raiseBodies d a).faultInProgress = a.faultInProgress := by
  cases d <;> rfl
@[simp] theorem raiseBodies_lockedOut (d : Dir) (a : Aisle) : (raiseBodies d a).lockedOut = a.lockedOut := by
  cases d <;> rfl
@[simp] theorem raiseBodies_halt (d : Dir) (a : Aisle) : (raiseBodies d a).halt = a.halt := by
  cases d <;> rfl
@[simp] theorem raiseBodies_stationEmergency (d : Dir) (a : Aisle) : (raiseBodies d a).stationEmergency = a.stationEmergency := by
  cases d <;> rfl

/-! A body less (R115, R116). -/

@[simp] theorem lowerBodies_inputs (d : Dir) (a : Aisle) : (lowerBodies d a).inputs = a.inputs := by
  cases d <;> rfl
@[simp] theorem lowerBodies_settleEnd (d : Dir) (a : Aisle) : (lowerBodies d a).settleEnd = a.settleEnd := by
  cases d <;> rfl
@[simp] theorem lowerBodies_detA (d : Dir) (a : Aisle) : (lowerBodies d a).detA = a.detA := by
  cases d <;> rfl
@[simp] theorem lowerBodies_detB (d : Dir) (a : Aisle) : (lowerBodies d a).detB = a.detB := by
  cases d <;> rfl
@[simp] theorem lowerBodies_alarmEnd (d : Dir) (a : Aisle) : (lowerBodies d a).alarmEnd = a.alarmEnd := by
  cases d <;> rfl
@[simp] theorem lowerBodies_violation (d : Dir) (a : Aisle) : (lowerBodies d a).violation = a.violation := by
  cases d <;> rfl
@[simp] theorem lowerBodies_loiter (d : Dir) (a : Aisle) : (lowerBodies d a).loiter = a.loiter := by
  cases d <;> rfl
@[simp] theorem lowerBodies_credits (d : Dir) (a : Aisle) : (lowerBodies d a).credits = a.credits := by
  cases d <;> rfl
@[simp] theorem lowerBodies_captures (d : Dir) (a : Aisle) : (lowerBodies d a).captures = a.captures := by
  cases d <;> rfl
@[simp] theorem lowerBodies_histDir (d : Dir) (a : Aisle) : (lowerBodies d a).histDir = a.histDir := by
  cases d <;> rfl
@[simp] theorem lowerBodies_lastAB (d : Dir) (a : Aisle) : (lowerBodies d a).lastAB = a.lastAB := by
  cases d <;> rfl
@[simp] theorem lowerBodies_lastBA (d : Dir) (a : Aisle) : (lowerBodies d a).lastBA = a.lastBA := by
  cases d <;> rfl
@[simp] theorem lowerBodies_idleEnd (d : Dir) (a : Aisle) : (lowerBodies d a).idleEnd = a.idleEnd := by
  cases d <;> rfl
@[simp] theorem lowerBodies_leaf (d : Dir) (a : Aisle) : (lowerBodies d a).leaf = a.leaf := by
  cases d <;> rfl
@[simp] theorem lowerBodies_motion (d : Dir) (a : Aisle) : (lowerBodies d a).motion = a.motion := by
  cases d <;> rfl
@[simp] theorem lowerBodies_openHist (d : Dir) (a : Aisle) : (lowerBodies d a).openHist = a.openHist := by
  cases d <;> rfl
@[simp] theorem lowerBodies_closeHist (d : Dir) (a : Aisle) : (lowerBodies d a).closeHist = a.closeHist := by
  cases d <;> rfl
@[simp] theorem lowerBodies_reversals (d : Dir) (a : Aisle) : (lowerBodies d a).reversals = a.reversals := by
  cases d <;> rfl
@[simp] theorem lowerBodies_obstructHold (d : Dir) (a : Aisle) : (lowerBodies d a).obstructHold = a.obstructHold := by
  cases d <;> rfl
@[simp] theorem lowerBodies_zoneClearEnd (d : Dir) (a : Aisle) : (lowerBodies d a).zoneClearEnd = a.zoneClearEnd := by
  cases d <;> rfl
@[simp] theorem lowerBodies_faultInProgress (d : Dir) (a : Aisle) : (lowerBodies d a).faultInProgress = a.faultInProgress := by
  cases d <;> rfl
@[simp] theorem lowerBodies_lockedOut (d : Dir) (a : Aisle) : (lowerBodies d a).lockedOut = a.lockedOut := by
  cases d <;> rfl
@[simp] theorem lowerBodies_halt (d : Dir) (a : Aisle) : (lowerBodies d a).halt = a.halt := by
  cases d <;> rfl
@[simp] theorem lowerBodies_stationEmergency (d : Dir) (a : Aisle) : (lowerBodies d a).stationEmergency = a.stationEmergency := by
  cases d <;> rfl

/-! A detector takes a state (R111). -/

@[simp] theorem setDetector_inputs (e : Port) (d : Detector) (a : Aisle) : (setDetector a e d).inputs = a.inputs := by
  cases e <;> rfl
@[simp] theorem setDetector_settleEnd (e : Port) (d : Detector) (a : Aisle) : (setDetector a e d).settleEnd = a.settleEnd := by
  cases e <;> rfl
@[simp] theorem setDetector_bodiesAB (e : Port) (d : Detector) (a : Aisle) : (setDetector a e d).bodiesAB = a.bodiesAB := by
  cases e <;> rfl
@[simp] theorem setDetector_bodiesBA (e : Port) (d : Detector) (a : Aisle) : (setDetector a e d).bodiesBA = a.bodiesBA := by
  cases e <;> rfl
@[simp] theorem setDetector_alarmEnd (e : Port) (d : Detector) (a : Aisle) : (setDetector a e d).alarmEnd = a.alarmEnd := by
  cases e <;> rfl
@[simp] theorem setDetector_violation (e : Port) (d : Detector) (a : Aisle) : (setDetector a e d).violation = a.violation := by
  cases e <;> rfl
@[simp] theorem setDetector_loiter (e : Port) (d : Detector) (a : Aisle) : (setDetector a e d).loiter = a.loiter := by
  cases e <;> rfl
@[simp] theorem setDetector_credits (e : Port) (d : Detector) (a : Aisle) : (setDetector a e d).credits = a.credits := by
  cases e <;> rfl
@[simp] theorem setDetector_captures (e : Port) (d : Detector) (a : Aisle) : (setDetector a e d).captures = a.captures := by
  cases e <;> rfl
@[simp] theorem setDetector_histDir (e : Port) (d : Detector) (a : Aisle) : (setDetector a e d).histDir = a.histDir := by
  cases e <;> rfl
@[simp] theorem setDetector_lastAB (e : Port) (d : Detector) (a : Aisle) : (setDetector a e d).lastAB = a.lastAB := by
  cases e <;> rfl
@[simp] theorem setDetector_lastBA (e : Port) (d : Detector) (a : Aisle) : (setDetector a e d).lastBA = a.lastBA := by
  cases e <;> rfl
@[simp] theorem setDetector_idleEnd (e : Port) (d : Detector) (a : Aisle) : (setDetector a e d).idleEnd = a.idleEnd := by
  cases e <;> rfl
@[simp] theorem setDetector_leaf (e : Port) (d : Detector) (a : Aisle) : (setDetector a e d).leaf = a.leaf := by
  cases e <;> rfl
@[simp] theorem setDetector_motion (e : Port) (d : Detector) (a : Aisle) : (setDetector a e d).motion = a.motion := by
  cases e <;> rfl
@[simp] theorem setDetector_openHist (e : Port) (d : Detector) (a : Aisle) : (setDetector a e d).openHist = a.openHist := by
  cases e <;> rfl
@[simp] theorem setDetector_closeHist (e : Port) (d : Detector) (a : Aisle) : (setDetector a e d).closeHist = a.closeHist := by
  cases e <;> rfl
@[simp] theorem setDetector_reversals (e : Port) (d : Detector) (a : Aisle) : (setDetector a e d).reversals = a.reversals := by
  cases e <;> rfl
@[simp] theorem setDetector_obstructHold (e : Port) (d : Detector) (a : Aisle) : (setDetector a e d).obstructHold = a.obstructHold := by
  cases e <;> rfl
@[simp] theorem setDetector_zoneClearEnd (e : Port) (d : Detector) (a : Aisle) : (setDetector a e d).zoneClearEnd = a.zoneClearEnd := by
  cases e <;> rfl
@[simp] theorem setDetector_faultInProgress (e : Port) (d : Detector) (a : Aisle) : (setDetector a e d).faultInProgress = a.faultInProgress := by
  cases e <;> rfl
@[simp] theorem setDetector_lockedOut (e : Port) (d : Detector) (a : Aisle) : (setDetector a e d).lockedOut = a.lockedOut := by
  cases e <;> rfl
@[simp] theorem setDetector_halt (e : Port) (d : Detector) (a : Aisle) : (setDetector a e d).halt = a.halt := by
  cases e <;> rfl
@[simp] theorem setDetector_stationEmergency (e : Port) (d : Detector) (a : Aisle) : (setDetector a e d).stationEmergency = a.stationEmergency := by
  cases e <;> rfl

/-! A headway capture (R131). -/

@[simp] theorem headway_inputs (env : Env) (d : Dir) (a : Aisle) : (headway env d a).inputs = a.inputs := by
  unfold headway setLastDone; cases d <;> (repeat' split) <;> rfl
@[simp] theorem headway_settleEnd (env : Env) (d : Dir) (a : Aisle) : (headway env d a).settleEnd = a.settleEnd := by
  unfold headway setLastDone; cases d <;> (repeat' split) <;> rfl
@[simp] theorem headway_detA (env : Env) (d : Dir) (a : Aisle) : (headway env d a).detA = a.detA := by
  unfold headway setLastDone; cases d <;> (repeat' split) <;> rfl
@[simp] theorem headway_detB (env : Env) (d : Dir) (a : Aisle) : (headway env d a).detB = a.detB := by
  unfold headway setLastDone; cases d <;> (repeat' split) <;> rfl
@[simp] theorem headway_bodiesAB (env : Env) (d : Dir) (a : Aisle) : (headway env d a).bodiesAB = a.bodiesAB := by
  unfold headway setLastDone; cases d <;> (repeat' split) <;> rfl
@[simp] theorem headway_bodiesBA (env : Env) (d : Dir) (a : Aisle) : (headway env d a).bodiesBA = a.bodiesBA := by
  unfold headway setLastDone; cases d <;> (repeat' split) <;> rfl
@[simp] theorem headway_alarmEnd (env : Env) (d : Dir) (a : Aisle) : (headway env d a).alarmEnd = a.alarmEnd := by
  unfold headway setLastDone; cases d <;> (repeat' split) <;> rfl
@[simp] theorem headway_violation (env : Env) (d : Dir) (a : Aisle) : (headway env d a).violation = a.violation := by
  unfold headway setLastDone; cases d <;> (repeat' split) <;> rfl
@[simp] theorem headway_loiter (env : Env) (d : Dir) (a : Aisle) : (headway env d a).loiter = a.loiter := by
  unfold headway setLastDone; cases d <;> (repeat' split) <;> rfl
@[simp] theorem headway_credits (env : Env) (d : Dir) (a : Aisle) : (headway env d a).credits = a.credits := by
  unfold headway setLastDone; cases d <;> (repeat' split) <;> rfl
@[simp] theorem headway_idleEnd (env : Env) (d : Dir) (a : Aisle) : (headway env d a).idleEnd = a.idleEnd := by
  unfold headway setLastDone; cases d <;> (repeat' split) <;> rfl
@[simp] theorem headway_leaf (env : Env) (d : Dir) (a : Aisle) : (headway env d a).leaf = a.leaf := by
  unfold headway setLastDone; cases d <;> (repeat' split) <;> rfl
@[simp] theorem headway_motion (env : Env) (d : Dir) (a : Aisle) : (headway env d a).motion = a.motion := by
  unfold headway setLastDone; cases d <;> (repeat' split) <;> rfl
@[simp] theorem headway_openHist (env : Env) (d : Dir) (a : Aisle) : (headway env d a).openHist = a.openHist := by
  unfold headway setLastDone; cases d <;> (repeat' split) <;> rfl
@[simp] theorem headway_closeHist (env : Env) (d : Dir) (a : Aisle) : (headway env d a).closeHist = a.closeHist := by
  unfold headway setLastDone; cases d <;> (repeat' split) <;> rfl
@[simp] theorem headway_reversals (env : Env) (d : Dir) (a : Aisle) : (headway env d a).reversals = a.reversals := by
  unfold headway setLastDone; cases d <;> (repeat' split) <;> rfl
@[simp] theorem headway_obstructHold (env : Env) (d : Dir) (a : Aisle) : (headway env d a).obstructHold = a.obstructHold := by
  unfold headway setLastDone; cases d <;> (repeat' split) <;> rfl
@[simp] theorem headway_zoneClearEnd (env : Env) (d : Dir) (a : Aisle) : (headway env d a).zoneClearEnd = a.zoneClearEnd := by
  unfold headway setLastDone; cases d <;> (repeat' split) <;> rfl
@[simp] theorem headway_faultInProgress (env : Env) (d : Dir) (a : Aisle) : (headway env d a).faultInProgress = a.faultInProgress := by
  unfold headway setLastDone; cases d <;> (repeat' split) <;> rfl
@[simp] theorem headway_lockedOut (env : Env) (d : Dir) (a : Aisle) : (headway env d a).lockedOut = a.lockedOut := by
  unfold headway setLastDone; cases d <;> (repeat' split) <;> rfl
@[simp] theorem headway_halt (env : Env) (d : Dir) (a : Aisle) : (headway env d a).halt = a.halt := by
  unfold headway setLastDone; cases d <;> (repeat' split) <;> rfl
@[simp] theorem headway_stationEmergency (env : Env) (d : Dir) (a : Aisle) : (headway env d a).stationEmergency = a.stationEmergency := by
  unfold headway setLastDone; cases d <;> (repeat' split) <;> rfl
/-! ## Every event of the aisle is still or ends settled -/

/-- What an event that is not followed by `settle` leaves as it is. -/
structure Still (a b : Aisle) : Prop where
  credits    : b.credits = a.credits
  bodiesAB   : b.bodiesAB = a.bodiesAB
  bodiesBA   : b.bodiesBA = a.bodiesBA
  leaf       : b.leaf = a.leaf
  motion     : b.motion = a.motion
  reversals  : b.reversals = a.reversals
  hold       : b.obstructHold = a.obstructHold
  lockedOut  : b.lockedOut = a.lockedOut
  emergency  : emergencyActive b = emergencyActive a
  zone       : zoneClear b = zoneClear a
  idle       : b.idleEnd = a.idleEnd ∨ b.idleEnd = none
  loiter     : b.loiter = true → a.loiter = true ∨ a.credits.any Credit.isInAisle = true

/-- The aisle is what `settle` left. -/
def Settled (b : Aisle) : Prop := ∃ env was c, b = settle env was c

theorem Still.refl (a : Aisle) : Still a a := ⟨rfl, rfl, rfl, rfl, rfl, rfl, rfl, rfl, rfl, rfl, .inl rfl, .inl⟩

theorem loitering_inAisle {now limit : Nat} {c : Credit} (h : loitering now limit c = true) : c.isInAisle = true := by
  unfold loitering at h; unfold Credit.isInAisle; split at h <;> simp_all

theorem anyLoitering_inAisle {env : Env} {a : Aisle} (h : anyLoitering env a = true) :
    a.credits.any Credit.isInAisle = true := by
  unfold anyLoitering at h
  rw [List.any_eq_true] at h ⊢
  obtain ⟨c, hc, hl⟩ := h
  exact ⟨c, hc, loitering_inAisle hl⟩

theorem nextLoiter_inAisle {env : Env} {a : Aisle} {t : Nat} (h : nextLoiter env a = some t) :
    a.credits.any Credit.isInAisle = true := by
  unfold nextLoiter at h
  have hm := List.min?_mem h
  obtain ⟨c, hc, hl⟩ := List.mem_filterMap.mp hm
  rw [List.any_eq_true]
  refine ⟨c, hc, ?_⟩
  unfold loiterTime at hl; unfold Credit.isInAisle; split at hl <;> simp_all

theorem settled_run (env : Env) (r : AisleRun) (before : Aisle) : Settled (r.settled env before).ac :=
  ⟨env, _, _, rfl⟩

/-- The levels that R144, R145 and R155 read are the filtered ones of EMERG, L1 and L2. -/
theorem still_of_inputs (a : Aisle) (x : Inputs) (hl1 : x.l1.filtered = a.inputs.l1.filtered)
    (hl2 : x.l2.filtered = a.inputs.l2.filtered) (he : x.emerg.filtered = a.inputs.emerg.filtered) :
    Still a { a with inputs := x } :=
  ⟨rfl, rfl, rfl, rfl, rfl, rfl, rfl, rfl, by simp [emergencyActive, he], by simp [zoneClear, hl1, hl2], .inl rfl, .inl⟩

theorem crossIn_settled (env : Env) (d : Dir) (r : AisleRun) : Settled (crossIn env d r).ac := settled_run _ _ _

theorem crossOut_settled (env : Env) (d : Dir) (r : AisleRun) : crossOut env d r = r ∨ Settled (crossOut env d r).ac := by
  unfold crossOut
  split
  · exact .inr (settled_run _ _ _)
  · split
    · exact .inr (settled_run _ _ _)
    · exact .inl rfl

theorem detector_still (a : Aisle) (e : Port) (d : Detector) : Still a (setDetector a e d) := by
  cases e <;> exact ⟨rfl, rfl, rfl, rfl, rfl, rfl, rfl, rfl, rfl, rfl, .inl rfl, .inl⟩

theorem detectorEvent_still (env : Env) (e : Port) (r : AisleRun) :
    Still r.ac (detectorEvent env e r).ac ∨ Settled (detectorEvent env e r).ac := by
  unfold detectorEvent
  dsimp only
  split
  · exact .inl (detector_still _ _ _)
  · exact .inr (crossIn_settled _ _ _)
  · rcases crossOut_settled env (entryDir e).other
        (r.upd (fun a => setDetector a e ((detectorOf r.ac e).next (endLevels r.ac e).1 (endLevels r.ac e).2).1)) with h | h
    · rw [h]; exact .inl (detector_still _ _ _)
    · exact .inr h

/-- An edge of the emergency state is settled; without one nothing happens. -/
theorem emergencyEdge_still (env : Env) (before : Aisle) (r : AisleRun) :
    (emergencyEdge env before r = r ∧ emergencyActive r.ac = emergencyActive before)
      ∨ Settled (emergencyEdge env before r).ac := by
  unfold emergencyEdge
  cases h1 : emergencyActive before <;> cases h2 : emergencyActive r.ac <;> simp
  · exact settled_run _ _ _
  · exact settled_run _ _ _

theorem Still.trans {a b c : Aisle} (h : Still a b) (k : Still b c) : Still a c :=
  ⟨k.credits.trans h.credits, k.bodiesAB.trans h.bodiesAB, k.bodiesBA.trans h.bodiesBA, k.leaf.trans h.leaf,
   k.motion.trans h.motion, k.reversals.trans h.reversals, k.hold.trans h.hold, k.lockedOut.trans h.lockedOut,
   k.emergency.trans h.emergency, k.zone.trans h.zone,
   by rcases k.idle with e | e
      · rw [e]; exact h.idle
      · exact .inr e,
   fun hl => by
      rcases k.loiter hl with e | e
      · exact h.loiter e
      · rw [h.credits] at e; exact .inr e⟩

theorem endFilter_still (env : Env) (i : Input) (a : Aisle) :
    Still a (endFilter env i (AisleRun.mk a [])).ac ∨ Settled (endFilter env i (AisleRun.mk a [])).ac := by
  unfold endFilter
  dsimp only [AisleRun.upd]
  split
  · rename_i h
    left
    cases i <;> simp only [Inputs.line] at h <;> exact still_of_inputs _ _ (by simp [Inputs.put, Inputs.line, h])
      (by simp [Inputs.put, Inputs.line, h]) (by simp [Inputs.put, Inputs.line, h])
  · have beam : ∀ e l, i = .aOuter ∨ i = .aInner ∨ i = .bInner ∨ i = .bOuter →
        ∀ r, r = AisleRun.mk { a with inputs := a.inputs.put i l } [] → Still a (detectorEvent env e r).ac ∨ Settled (detectorEvent env e r).ac := by
      intro e l hi r hr
      have h1 : Still a r.ac := by
        subst hr
        rcases hi with rfl | rfl | rfl | rfl <;> exact still_of_inputs _ _ rfl rfl rfl
      rcases detectorEvent_still env e r with h | h
      · exact .inl (h1.trans h)
      · exact .inr h
    cases i
    case emerg =>
      simp only [handFilteredChange]
      generalize Line.mk _ _ _ = l
      rcases emergencyEdge_still env a (AisleRun.mk { a with inputs := a.inputs.put .emerg l } []) with h | h
      · left
        rw [h.1]
        exact ⟨rfl, rfl, rfl, rfl, rfl, rfl, rfl, rfl, h.2, rfl, .inl rfl, .inl⟩
      · exact .inr h
    case l1 => exact .inr (settled_run _ _ _)
    case l2 => exact .inr (settled_run _ _ _)
    case openStop => exact .inr (settled_run _ _ _)
    case closedStop => exact .inr (settled_run _ _ _)
    case aOuter => exact beam .a _ (by simp) _ rfl
    case aInner => exact beam .a _ (by simp) _ rfl
    case bInner => exact beam .b _ (by simp) _ rfl
    case bOuter => exact beam .b _ (by simp) _ rfl

/-- A move of the Aisle Controller is still or ends settled. -/
theorem move_still {env : Env} {a b : Aisle} (h : AisleMove env a b) : Still a b ∨ Settled b := by
  cases h
  case raw i level =>
    left
    unfold rawChange
    dsimp only
    split
    · exact Still.refl a
    · cases i <;> exact still_of_inputs _ _ rfl rfl rfl
  case filter i => exact endFilter_still env i a
  case settled h => exact .inr (settled_run _ _ _)
  case travel => exact .inr (settled_run _ _ _)
  case blank m t h => exact .inr ⟨env, _, _, rfl⟩
  case zoneClear => exact .inr ⟨env, _, _, rfl⟩
  case alarm => exact .inl ⟨rfl, rfl, rfl, rfl, rfl, rfl, rfl, rfl, rfl, rfl, .inl rfl, .inl⟩
  case loiter t h =>
    exact .inl ⟨rfl, rfl, rfl, rfl, rfl, rfl, rfl, rfl, rfl, rfl, .inl rfl, fun _ => .inr (nextLoiter_inAisle h)⟩
  case hold =>
    unfold expireHold
    split
    · exact .inl (Still.refl a)
    · exact .inr (settled_run _ _ _)
  case idle => exact .inl ⟨rfl, rfl, rfl, rfl, rfl, rfl, rfl, rfl, rfl, rfl, .inr rfl, .inl⟩
  case reserve n d p h =>
    unfold reserveCredit at h
    split at h
    · simp only [Option.some.injEq] at h; exact .inr ⟨env, _, _, h.symm⟩
    · simp at h
  case release p => exact .inr ⟨env, _, _, rfl⟩
  case reconfigure =>
    exact .inl ⟨rfl, rfl, rfl, rfl, rfl, rfl, rfl, rfl, rfl, rfl, .inl rfl, fun h => .inr (anyLoitering_inAisle h)⟩
  case restore h => exact .inr ⟨env, _, _, rfl⟩
  case clearFault => exact .inl ⟨rfl, rfl, rfl, rfl, rfl, rfl, rfl, rfl, rfl, rfl, .inl rfl, .inl⟩
  case emergency v =>
    unfold setStationEmergency
    rcases emergencyEdge_still env a (AisleRun.upd (AisleRun.mk a []) (fun a => { a with stationEmergency := v })) with h | h
    · left
      simp only [h.1]
      exact ⟨rfl, rfl, rfl, rfl, rfl, rfl, rfl, rfl, h.2, rfl, .inl rfl, .inl⟩
    · exact .inr h

/-- A grant ends settled. -/
theorem grant_settled (env : Env) (p : Port) (n : Nat) (a : Aisle) : Settled (grantCredit env p n a) := ⟨env, _, _, rfl⟩

end Sys2Proof.Machine
end

