-- ==== Sys2Proof/Laws/Taps.lean ====
section
/-! SUPPORT. What a step can do to the taps, the Torn-Write Table and the room of the Journal, said once: everything else is
quiet, and a condition that the quiet steps and the few others keep is kept by every step. -/

namespace Sys2Proof.Machine

/-- The Journal's room does not shrink and no append of a commit joins or leaves the queue. -/
def JournalQuiet (j j' : Journal) : Prop :=
  (∃ l : List Append, j'.queue = j.queue ++ l ∧ (∀ a ∈ l, a.commit = none) ∧ j'.assigned = j.assigned + l.length)
    ∧ j'.reserved = j.reserved
    ∧ (j.held.length + j.queue.length + j.reserved ≤ 1024 → j'.held.length + j'.queue.length + j'.reserved ≤ 1024)
    ∧ (j.assigned + j.reserved ≤ 4294967295 → j'.assigned + j'.reserved ≤ 4294967295)

/-- Nothing changes that the taps, the Torn-Write Table and the room of the Journal depend on. -/
structure Quiet (s t : State) : Prop where
  tap : ∀ p, (t.port p).tap = (s.port p).tap
  slot : ∀ p, (t.port p).slot = (s.port p).slot
  timer : ∀ p, (t.port p).confirmEnd = (s.port p).confirmEnd
  ve : t.ve = s.ve
  jn : JournalQuiet s.jn t.jn

theorem journalQuiet_refl (j : Journal) : JournalQuiet j j :=
  ⟨⟨[], by simp⟩, rfl, id, id⟩

theorem journalQuiet_trans {j k l : Journal} (h : JournalQuiet j k) (g : JournalQuiet k l) : JournalQuiet j l := by
  obtain ⟨⟨x, e1, e2, e3⟩, h1, h2, h3⟩ := h
  obtain ⟨⟨y, f1, f2, f3⟩, g1, g2, g3⟩ := g
  refine ⟨⟨x ++ y, by rw [f1, e1, List.append_assoc], ?_, ?_⟩, g1.trans h1, g2 ∘ h2, g3 ∘ h3⟩
  · intro a ha
    rcases List.mem_append.mp ha with ha | ha
    · exact e2 a ha
    · exact f2 a ha
  · rw [f3, e3, List.length_append]; omega

theorem quiet_refl (s : State) : Quiet s s := ⟨fun _ => rfl, fun _ => rfl, fun _ => rfl, rfl, journalQuiet_refl _⟩

theorem quiet_trans {s t u : State} (h : Quiet s t) (g : Quiet t u) : Quiet s u :=
  ⟨fun p => (g.tap p).trans (h.tap p), fun p => (g.slot p).trans (h.slot p), fun p => (g.timer p).trans (h.timer p),
    g.ve.trans h.ve, journalQuiet_trans h.jn g.jn⟩

theorem quiet_of_parts {s t : State} (a : t.portA = s.portA) (b : t.portB = s.portB) (v : t.ve = s.ve)
    (j : JournalQuiet s.jn t.jn) : Quiet s t := by
  refine ⟨?_, ?_, ?_, v, j⟩ <;> intro p <;> cases p <;> simp only [State.port, a, b]

theorem unreserved_quiet (t : TimeLink) (g : FareFlag) (c : Content) (j : Journal) (h : unreservedFits j = true) :
    JournalQuiet j (enqueue t g none c j) := by
  have h : 1 ≤ freeSlots j := by
    unfold unreservedFits at h
    rw [Bool.and_eq_true, decide_eq_true_eq, decide_eq_true_eq] at h
    exact h.2
  simp only [freeSlots, Config.ringCap, Config.lastNumber] at h
  refine ⟨⟨_, rfl, ?_, by simp [enqueue]⟩, rfl, ?_, ?_⟩
  · intro a ha; rw [List.mem_singleton.mp ha]
  · intro _; simp only [enqueue, List.length_append, List.length_singleton]; omega
  · intro _; simp only [enqueue]; omega

theorem requestAlert_quiet (t : TimeLink) (c : Content) (j : Journal) : JournalQuiet j (requestAlert t c j) := by
  unfold requestAlert
  split
  · rename_i h; exact unreserved_quiet t .plain c j h
  · exact ⟨⟨[], by simp⟩, rfl, id, id⟩

theorem requestAlerts_quiet (t : TimeLink) (cs : List Content) (j : Journal) : JournalQuiet j (requestAlerts t cs j) := by
  unfold requestAlerts
  induction cs generalizing j with
  | nil => exact journalQuiet_refl j
  | cons c cs ih => exact journalQuiet_trans (requestAlert_quiet t c j) (ih _)

theorem requestRemote_quiet (t : TimeLink) (c : Content) (j j' : Journal) (h : requestRemote t c j = some j') :
    JournalQuiet j j' := by
  unfold requestRemote at h
  split at h
  · rename_i hf; cases h; exact unreserved_quiet t .remote c j hf
  · cases h

theorem takeFailure_quiet (j : Journal) (n : Nat) : JournalQuiet j (takeFailure j n) := by
  unfold takeFailure
  split
  · exact ⟨⟨[], by simp⟩, rfl, id, id⟩
  · split <;> exact ⟨⟨[], by simp⟩, rfl, id, id⟩

theorem pollFailures_quiet (j : Journal) : JournalQuiet j (pollFailures j) := by
  unfold pollFailures
  generalize (polled j).filter _ = l
  induction l generalizing j with
  | nil => exact journalQuiet_refl j
  | cons r l ih =>
    refine journalQuiet_trans (takeFailure_quiet j r.number) (ih _)

theorem collect_quiet (n : Nat) (j : Journal) : JournalQuiet j (collect n j) := by
  have h : (j.held.dropWhile (fun r => decide (r.number ≤ n))).length ≤ j.held.length :=
    (List.dropWhile_suffix _).length_le
  refine ⟨⟨[], by simp [collect]⟩, rfl, ?_, id⟩
  intro _; simp only [collect]; omega

theorem postAlerts_quiet (cs : List Content) (s : State) : Quiet s (postAlerts cs s) :=
  quiet_of_parts rfl rfl rfl (requestAlerts_quiet _ _ _)

theorem aisle_quiet (f : Env → AisleRun → AisleRun) (s : State) : Quiet s (withAisle f s) :=
  quiet_of_parts rfl rfl rfl (requestAlerts_quiet _ _ _)

theorem aisleOnly_quiet (f : Env → Aisle → Aisle) (s : State) : Quiet s (withAisleOnly f s) :=
  quiet_of_parts rfl rfl rfl (journalQuiet_refl _)

theorem sl_quiet (s : State) (x : StationLine) : Quiet s { s with sl := x } :=
  quiet_of_parts rfl rfl rfl (journalQuiet_refl _)

theorem reach_quiet (n : Nat) (s : State) : Quiet s (reach n s) := quiet_of_parts rfl rfl rfl (journalQuiet_refl _)

theorem runActivation_quiet (s : State) : Quiet s (runActivation s) :=
  quiet_of_parts rfl rfl rfl (requestAlerts_quiet _ _ _)

theorem dueActivation_quiet (s : State) : Quiet s (dueActivation s) := by
  unfold dueActivation
  split
  · exact quiet_of_parts rfl rfl rfl (journalQuiet_refl _)
  · exact runActivation_quiet s

theorem heldActivation_quiet (s : State) : Quiet s (heldActivation s) := by
  unfold heldActivation
  split
  · exact quiet_of_parts rfl rfl rfl (requestAlerts_quiet _ _ _)
  · exact quiet_refl s

/-- Only the answer part of a port changes. -/
theorem port_quiet (p : Port) (l : LanePort) (s : State) (ht : l.tap = (s.port p).tap) (hs : l.slot = (s.port p).slot)
    (hc : l.confirmEnd = (s.port p).confirmEnd) : Quiet s (s.setPort p l) := by
  refine ⟨?_, ?_, ?_, by simp, by simpa using journalQuiet_refl _⟩ <;> intro q <;> cases p <;> cases q <;>
    simp_all [State.setPort, State.port]

theorem laneAnswer_quiet (p : Port) (r : LastResult) (s : State) : Quiet s (laneAnswer p r s) := port_quiet p _ s rfl rfl rfl

theorem discardFrame_quiet (p : Port) (s : State) : Quiet s (discardFrame p s) := port_quiet p _ s rfl rfl rfl

theorem sendReply_quiet (f : Frame) (r : Result) (d : List Byte) (s : State) : Quiet s (sendReply f r d s) :=
  quiet_of_parts rfl rfl rfl (journalQuiet_refl _)

theorem broadcastEnd_quiet (f : Frame) (s : State) : Quiet s (broadcastEnd f s) := by
  unfold broadcastEnd
  split
  · exact quiet_refl s
  · exact sendReply_quiet f _ _ s

theorem quietEnd (f : Frame) {s t : State} (h : Quiet s t) : Quiet s (broadcastEnd f t) :=
  quiet_trans h (broadcastEnd_quiet f t)

theorem replied (f : Frame) (r : Result) (d : List Byte) {s t : State} (h : Quiet s t) : Quiet s (sendReply f r d t) :=
  quiet_trans h (sendReply_quiet f r d t)

theorem fixedLength_quiet (f : Frame) (n : Nat) (act : State → State) (s : State) (h : Quiet s (act s)) :
    Quiet s (fixedLength f n act s) := by
  unfold fixedLength
  split
  · exact h
  · exact sendReply_quiet f _ _ s

/-- A condition on the taps that quiet steps keep, and each of the few others (chapters 04 and 05); `J` is what completions and
resets need of the Journal. -/
structure Kept (J : Journal → Prop) (P : State → Prop) : Prop where
  taps : ∀ s, P s → TapsOk s
  quiet : ∀ s t, P s → Quiet s t → P t
  drop : ∀ s n, P s → heldSerial s.ve ≠ some n → P (s.setTorn (tornDrop n s.ve.torn))
  tick : ∀ s, P s → P (s.setTorn (s.ve.torn.map tornTick))
  stage : ∀ s, P s → P (evalStep s)
  ready : ∀ s e v, P s → s.ve.eval = some e → e.verdict = some v → P (readyByCode e v (s.setEval none))
  dropped : ∀ s e, P s → s.ve.eval = some e → (s.port e.port).tap = .evaluating →
    P (let s1 := s.setEval none
       let s2 := if e.slotMade then { s1 with jn := releaseSlot s1.jn } else s1
       s2.setPort e.port (s2.port e.port).ended)
  start : ∀ s p rest, P s → s.ve.eval = none → s.ve.queue = p :: rest → P (beginEvaluation p rest s)
  join : ∀ s p image, P s → (s.port p).tap = .idle → P (joinQueue p (s.setPort p ((s.port p).tapped image)))
  withdraw : ∀ s p, P s → (s.port p).tap = .queued → P (withdrawQueued p s)
  discard : ∀ s p, P s → (s.port p).tap = .verdictReady → holdsAccept (s.port p) = false →
    P (s.setPort p (s.port p).ended)
  leave : ∀ s p f, P s → unreported (s.port p) = true → P (abandon p f s)
  read : ∀ s p v, P s → givenVerdict (s.port p) = some v → P (afterRead p v s)
  written : ∀ s p, P s → (s.port p).tap = .awaitingWrite →
    P ((requestTapFare p s).setPort p
      { ((requestTapFare p s).port p).answered .ok with tap := .committing, confirmEnd := none })
  complete : ∀ s a rest, J s.jn → P s → s.jn.queue = a :: rest → P (takeCompletion a rest s)
  resets : ∀ s n keep t, J s.jn → P s →
    P (resetBlocks n keep (powerOnJournal s.jn) t s) ∧ P (resetBlocks n keep (lineResetJournal s.jn) t s)

namespace Kept

variable {J : Journal → Prop} {P : State → Prop} (K : Kept J P)
include K

theorem tornReport (r : TornRecord) (w : TornWhy) (s : State) (h : P s) (hn : heldSerial s.ve ≠ some r.serial) :
    P (tornReport r w s) := K.quiet _ _ (K.drop s r.serial h hn) (postAlerts_quiet _ _)

theorem expireIfDue (n : Nat) (s : State) (h : P s) (hn : heldSerial s.ve ≠ some n) : P (expireIfDue n s) := by
  unfold Machine.expireIfDue
  split
  · rename_i r hr
    have e : r.serial = n := by
      have := List.find?_some hr
      simp only [Bool.and_eq_true, beq_iff_eq] at this
      exact this.1
    split
    · exact K.tornReport r _ s h (e ▸ hn)
    · exact h
  · exact h

theorem tornSighting (g : Sighting) (s : State) (h : P s) (he : s.ve.eval = none) : P (tornSighting g s) := by
  have hn : ∀ n, heldSerial s.ve ≠ some n := by intro n; simp [heldSerial, he]
  unfold Machine.tornSighting
  split
  · exact h
  · split
    · split
      · rename_i j hj
        exact K.quiet _ _ (K.drop s _ h (hn _)) (quiet_of_parts rfl rfl rfl (requestRemote_quiet _ _ _ _ hj))
      · exact h
    · split
      · exact K.tornReport _ _ s h (hn _)
      · exact h

omit K in
theorem tornSighting_eval (g : Sighting) (s : State) : (Machine.tornSighting g s).ve.eval = s.ve.eval := by
  unfold Machine.tornSighting Machine.tornReport
  repeat' split
  all_goals rfl

theorem takeSighting (g : Sighting) (s : State) (h : P s ∧ s.ve.eval = none) :
    P (takeSighting g s) ∧ (takeSighting g s).ve.eval = none := by
  refine ⟨?_, ?_⟩
  · unfold Machine.takeSighting
    split
    · exact h.1
    · refine K.tornSighting g _ (K.quiet _ _ (K.quiet _ _ h.1 ?_) (postAlerts_quiet _ _)) h.2
      exact quiet_of_parts rfl rfl rfl (journalQuiet_refl _)
  · unfold Machine.takeSighting
    split
    · exact h.2
    · exact (tornSighting_eval g _).trans h.2

theorem sightings (gs : List Sighting) (s : State) (h : P s ∧ s.ve.eval = none) :
    P (gs.foldl (fun acc g => Machine.takeSighting g acc) s)
      ∧ (gs.foldl (fun acc g => Machine.takeSighting g acc) s).ve.eval = none := by
  induction gs generalizing s with
  | nil => exact h
  | cons g gs ih => exact ih _ (K.takeSighting g s h)

theorem applySighting (f : Frame) (s : State) (h : P s ∧ s.ve.eval = none) :
    P (applySighting f s) ∧ (applySighting f s).ve.eval = none := by
  have h1 : P (match parseSightings f.payload with
      | some gs => gs.foldl (fun acc g => Machine.takeSighting g acc) s
      | none => s) ∧ (match parseSightings f.payload with
      | some gs => gs.foldl (fun acc g => Machine.takeSighting g acc) s
      | none => s).ve.eval = none := by
    split
    · exact K.sightings _ s h
    · exact h
  unfold Machine.applySighting
  exact ⟨K.quiet _ _ h1.1 (broadcastEnd_quiet f _), by rw [broadcastEnd_ve]; exact h1.2⟩

omit K in
theorem su_quiet (s : State) (u : Screening) : Quiet s { s with su := u } :=
  quiet_of_parts rfl rfl rfl (journalQuiet_refl _)

omit K in
theorem applyKeyLoad_quiet (f : Frame) (s : State) : Quiet s (applyKeyLoad f s) := by
  unfold applyKeyLoad keyReply
  dsimp only
  repeat' split
  all_goals first
    | exact sendReply_quiet _ _ _ _
    | exact replied _ _ _ (su_quiet s _)

omit K in
theorem applyConfigure_quiet (f : Frame) (s : State) : Quiet s (applyConfigure f s) := by
  unfold applyConfigure configureReply changeSettings
  repeat' split
  all_goals first
    | exact sendReply_quiet _ _ _ _
    | exact replied _ _ _ (quiet_of_parts rfl rfl rfl (journalQuiet_refl _))

omit K in
theorem deny_quiet (f : Frame) (s : State) :
    Quiet s (applyDenyBegin f s) ∧ Quiet s (applyDenyAdd f s) ∧ Quiet s (applyDenyEnd f s)
      ∧ Quiet s (applyDenyDelta f s) := by
  unfold applyDenyBegin applyDenyAdd applyDenyEnd applyDenyDelta withDeny
  refine ⟨?_, ?_, ?_, ?_⟩ <;> refine quietEnd f ?_ <;> split <;> exact quiet_of_parts rfl rfl rfl (journalQuiet_refl _)

theorem applyByCode (f : Frame) (s : State) (h : P s ∧ s.ve.eval = none) :
    P (applyByCode f s) ∧ (applyByCode f s).ve.eval = none := by
  have q : ∀ t, Quiet s t → P t ∧ t.ve.eval = none := fun t ht => ⟨K.quiet _ _ h.1 ht, by rw [ht.ve]; exact h.2⟩
  have d := deny_quiet f s
  unfold Machine.applyByCode
  repeat' split
  · exact K.applySighting f s h
  · exact q _ d.1
  · exact q _ d.2.1
  · exact q _ d.2.2.1
  · exact q _ d.2.2.2
  · exact q _ (applyKeyLoad_quiet f s)
  · exact q _ (applyConfigure_quiet f s)
  · exact h

theorem applyWaiting (s : State) (h : P s) : P (applyWaiting s) ∧ (s.ve.eval = none → (applyWaiting s).ve.eval = none) := by
  unfold Machine.applyWaiting
  split
  · exact ⟨h, id⟩
  · split
    · exact ⟨h, id⟩
    · rename_i f _ he
      have he : s.ve.eval = none := by cases hx : s.ve.eval <;> simp_all
      have := K.applyByCode f _ ⟨K.quiet _ _ h (sl_quiet s { s.sl with slot := none }), he⟩
      exact ⟨this.1, fun _ => this.2⟩

theorem waitingWork (s : State) (h : P s) : P (waitingWork s) ∧ (s.ve.eval = none → (waitingWork s).ve.eval = none) := by
  have h1 := K.applyWaiting s h
  refine ⟨K.quiet _ _ h1.1 (heldActivation_quiet _), fun he => ?_⟩
  rw [Machine.waitingWork, heldActivation_ve]
  exact h1.2 he

/-- A command by a station frame: applied without an evaluation in progress where its code waits for one. -/
theorem stationFrame (f : Frame) (act : State → State) (s : State) (h : P s)
    (ha : ∀ s, P s → (waitsForEvaluation f.code = false ∨ s.ve.eval = none) → P (act s)) : P (stationFrame f act s) := by
  rcases stationFrame_eq f act s with e | ⟨_, _, _, _, _, e⟩ | ⟨_, _, _, _, he, e⟩ | ⟨_, _, _, _, _, _, e⟩
    | ⟨_, _, _, _, hw, e⟩ <;> rw [e]
  · exact h
  · exact K.quiet _ _ h (sl_quiet _ _)
  · have h1 := K.waitingWork s h
    rcases afterWaiting_eq act s with ⟨_, e⟩ | ⟨_, s1, s2, _, e1, e2, e⟩ <;> rw [e]
    · exact ha _ h1.1 (.inr (h1.2 he))
    · refine K.quiet s2 _ ?_ (sl_quiet _ _)
      rw [e2, e1]
      exact ha _ (K.quiet _ _ h1.1 (sl_quiet _ _)) (.inr (h1.2 he))
  · exact K.quiet _ _ h (sl_quiet _ _)
  · exact ha s h (hw.imp And.left And.left)

theorem quietFrame (f : Frame) (act : State → State) (s : State) (h : P s) (ha : ∀ s, Quiet s (act s)) :
    P (Machine.stationFrame f act s) := K.stationFrame f act s h (fun s hs _ => K.quiet _ _ hs (ha s))

theorem engineNext (s : State) (h : P s) : P (engineNext s) := by
  unfold Machine.engineNext
  split
  · exact h
  · rename_i hc
    have he : s.ve.eval = none := by cases hx : s.ve.eval <;> simp_all
    have h1 := K.waitingWork s h
    dsimp only
    split
    · exact h1.1
    · rename_i p rest hq
      exact K.start _ p rest h1.1 (h1.2 he) hq

theorem evalRun (n : Nat) (s : State) (h : P s) : P (evalRun n s) := by
  induction n generalizing s with
  | zero => exact h
  | succ n ih => exact ih _ (K.stage s h)

omit K in
theorem readyByCode_eval (e : Evaluation) (v : Verdict) (s : State) : (readyByCode e v s).ve.eval = s.ve.eval := by
  unfold readyByCode readyAccept readyResumed readyRefusal joinInFlight
  dsimp only
  repeat' split
  all_goals simp [State.setTorn]

theorem endHold (o : Option Nat) (s : State) (h : P s) (he : s.ve.eval = none) : P (endHold o s) := by
  unfold Machine.endHold
  split
  · exact h
  · exact K.expireIfDue _ s h (by simp [heldSerial, he])

theorem remainingStages (s : State) (h : P s) : P (remainingStages s) := K.evalRun 10 s h

theorem endEvaluation (s : State) (h : P s) : P (endEvaluation s) := by
  have h1 := K.remainingStages s h
  unfold Machine.endEvaluation
  dsimp only
  split
  · exact h1
  · rename_i e he
    split
    · exact h1
    · rename_i v hv
      refine K.endHold _ _ (K.ready _ e v h1 he hv) ?_
      rw [readyByCode_eval]; rfl

omit K in
theorem endHold_setPort (o : Option Nat) (p : Port) (l : LanePort) (s : State) :
    (Machine.endHold o s).setPort p l = Machine.endHold o (s.setPort p l) := by
  unfold Machine.endHold Machine.expireIfDue Machine.tornReport postAlerts State.setTorn
  cases p <;> cases o <;> simp only [State.setPort] <;> (repeat' split) <;> rfl

omit K in
theorem endHold_port (o : Option Nat) (p : Port) (s : State) : (Machine.endHold o s).port p = s.port p := by
  unfold Machine.endHold Machine.expireIfDue Machine.tornReport postAlerts State.setTorn
  cases p <;> (repeat' split) <;> rfl

theorem dropTap (p : Port) (s : State) (h : P s) (ht : (s.port p).tap = .evaluating) : P (dropTap p s) := by
  have hk := ((K.taps s h).2 p).2.2.1.mpr ht
  cases he : s.ve.eval with
  | none => rw [he] at hk; cases hk
  | some e =>
    rw [he] at hk
    have hp : e.port = p := Option.some.inj hk
    unfold Machine.dropTap
    rw [he]
    dsimp only
    rw [if_pos hp]
    unfold dropEvaluation
    dsimp only
    rw [endHold_port, endHold_setPort]
    subst hp
    have h1 := K.dropped s e h he ht
    dsimp only at h1
    refine K.endHold _ _ (K.quiet _ _ h1 ?_) ?_
    · cases e.slotMade <;> cases e.creditMade <;> simp only [if_true, if_false, Bool.false_eq_true] <;>
        cases e.port <;> exact quiet_of_parts rfl rfl rfl (journalQuiet_refl _)
    · cases e.slotMade <;> cases e.creditMade <;> cases e.port <;> rfl

theorem holds (s : State) (p : Port) (h : P s) (ht : (s.port p).tap = .awaitingWrite) : unreported (s.port p) = true := by
  simp [unreported, ht, ((K.taps s h).2 p).2.2.2.2.1 ht]

theorem discardVerdict (p : Port) (s : State) (h : P s) (ht : (s.port p).tap = .verdictReady) : P (discardVerdict p s) := by
  unfold Machine.discardVerdict
  split
  · rename_i ha
    exact K.leave s p _ h (by simp [unreported, ht, ha])
  · rename_i ha
    exact K.discard s p h ht (by simpa using ha)

theorem takeTap (p : Port) (l : List Byte) (s : State) (h : P s) : P (takeTap p l s) := by
  unfold Machine.takeTap
  split
  · exact K.quiet _ _ h (laneAnswer_quiet p _ s)
  · split
    · exact K.quiet _ _ h (laneAnswer_quiet p _ s)
    · rename_i ht
      have h1 := K.join s p l h (by simpa using ht)
      dsimp only
      split
      · exact K.engineNext _ h1
      · exact h1

theorem takeReadVerdict (p : Port) (s : State) (h : P s) : P (takeReadVerdict p s) := by
  have q : ∀ x, Quiet s (s.setPort p { s.port p with shiftOut := x }) := fun x => port_quiet p _ s rfl rfl rfl
  unfold Machine.takeReadVerdict
  dsimp only
  split
  · exact K.quiet _ _ (K.quiet _ _ h (q (laneReply (readHead (s.port p) ++ noVerdictBytes s.free))))
      (quiet_of_parts rfl rfl rfl (journalQuiet_refl _))
  · rename_i v hv
    refine K.read _ p v (K.quiet _ _ h (q _)) ?_
    rw [← hv]
    cases p <;> rfl

theorem outOfPlace (p : Port) (s : State) (h : P s) : P (outOfPlace p s) := K.quiet _ _ h (laneAnswer_quiet p _ s)

theorem takeWritten (p : Port) (s : State) (h : P s) : P (takeWritten p s) := by
  unfold Machine.takeWritten
  split
  · rename_i ht; exact K.written s p h ht
  · exact K.outOfPlace p s h

theorem leaveAwaiting (p : Port) (f : TornFate) (s : State) (h : P s) (ht : (s.port p).tap = .awaitingWrite) :
    P (laneAnswer p .ok (abandon p f s)) := K.quiet _ _ (K.leave s p f h (K.holds s p h ht)) (laneAnswer_quiet p _ _)

theorem takeCancel (p : Port) (s : State) (h : P s) : P (takeCancel p s) := by
  unfold Machine.takeCancel
  split
  · rename_i ht; exact K.quiet _ _ (K.withdraw s p h ht) (laneAnswer_quiet p _ _)
  · rename_i ht; exact K.quiet _ _ (K.discardVerdict p s h ht) (laneAnswer_quiet p _ _)
  · rename_i ht; exact K.leaveAwaiting p _ s h ht
  · exact K.outOfPlace p s h

theorem resetTap (p : Port) (s : State) (h : P s) : P (resetTap p s) := by
  unfold Machine.resetTap
  split
  · exact h
  · rename_i ht; exact K.withdraw s p h ht
  · rename_i ht; exact K.dropTap p s h ht
  · rename_i ht; exact K.discardVerdict p s h ht
  · rename_i ht; exact K.leave s p _ h (K.holds s p h ht)
  · exact h

theorem takePortReset (p : Port) (s : State) (h : P s) : P (takePortReset p s) :=
  K.quiet _ _ (K.resetTap p s h) (port_quiet p _ _ rfl rfl rfl)

theorem confirmExpired (p : Port) (s : State) (h : P s) (hc : (s.port p).confirmEnd.isSome = true) :
    P (confirmExpired p s) := by
  have hk := ((K.taps s h).2 p).2.2.2.2.2.1 hc
  have hu : unreported (s.port p) = true := by rcases hk with ⟨h1, h2 | h2⟩ <;> simp [unreported, h1, h2]
  unfold Machine.confirmExpired
  split
  · exact K.leave s p _ h hu
  · exact K.leave s p _ h hu
  · rcases hk.2 with h2 | h2 <;> simp_all

theorem expireAtReset (s : State) (h : P s) (he : s.ve.eval = none) : P (expireAtReset s) := by
  have step1 : ∀ n t, t.ve.eval = none → (Machine.expireIfDue n t).ve.eval = none := by
    intro n t ht
    unfold Machine.expireIfDue Machine.tornReport
    repeat' split
    all_goals exact ht
  unfold Machine.expireAtReset
  generalize s.ve.torn.map (·.serial) = l
  induction l generalizing s with
  | nil => exact h
  | cons n l ih => exact ih _ (K.expireIfDue n s h (by simp [heldSerial, he])) (step1 n s he)

theorem advance (ph : Nat) (s : State) (h : P s) : P (takeAdvance ph s) := by
  have h1 : P { s with tl := advanceClock ph s.tl, ve := { s.ve with torn := s.ve.torn.map tornTick } } :=
    K.quiet _ _ (K.tick s h) (quiet_of_parts rfl rfl rfl (journalQuiet_refl _))
  unfold takeAdvance
  dsimp only
  split
  · exact K.quiet _ _ h1 (dueActivation_quiet _)
  · exact h1

theorem bare (p : Port) (l : List Byte) (act : State → State) (s : State) (h : P s) (ha : P (act s)) :
    P (laneBare p l act s) := by
  unfold laneBare laneFrame
  repeat' split
  · exact K.quiet _ _ h (discardFrame_quiet p s)
  · exact ha
  · exact K.quiet _ _ h (laneAnswer_quiet p _ s)

theorem framed (p : Port) (l : List Byte) (act : State → State) (s : State) (h : P s) (ha : P (act s)) :
    P (laneFrame p l act s) := by
  unfold laneFrame
  split
  · exact K.quiet _ _ h (discardFrame_quiet p s)
  · exact ha

end Kept

theorem watchExpired_quiet (s : State) : Quiet s (watchExpired s) := by
  unfold watchExpired
  split <;> exact quiet_of_parts rfl rfl rfl (by first | exact requestAlerts_quiet _ _ _ | exact journalQuiet_refl _)

theorem takeTime_quiet (d n : Nat) (s : State) : Quiet s (takeTime d n s) := by
  have h1 : ∀ cs t, Quiet s (postAlerts cs { s with tl := t }) :=
    fun cs t => quiet_of_parts rfl rfl rfl (requestAlerts_quiet _ _ _)
  unfold takeTime
  dsimp only
  split
  · exact quiet_trans (h1 _ _) (dueActivation_quiet _)
  · exact h1 _ _

theorem applyEmergencyPayload_quiet (l : List Byte) (s : State) : Quiet s (applyEmergencyPayload l s) := by
  unfold applyEmergencyPayload
  repeat' split
  · exact aisle_quiet _ s
  · exact aisle_quiet _ s
  · exact quiet_refl s

theorem tariff_quiet (l : List Byte) (s : State) :
    Quiet s (applyTariffBegin l s) ∧ Quiet s (applyTariffData l s) ∧ Quiet s (applyTariffEnd l s) := by
  have h1 : ∀ f, Quiet s { s with fu := f } := fun f => quiet_of_parts rfl rfl rfl (journalQuiet_refl _)
  unfold applyTariffBegin applyTariffData applyTariffEnd
  refine ⟨?_, ?_, ?_⟩
  · split
    · exact h1 _
    · exact quiet_refl s
  · split
    · exact h1 _
    · exact quiet_refl s
  · dsimp only
    repeat' split
    · exact quiet_trans (h1 _) (dueActivation_quiet _)
    · exact h1 _
    · exact quiet_refl s

theorem takePoll_quiet (f : Frame) (s : State) : Quiet s (takePoll f s) :=
  quiet_of_parts rfl rfl rfl (journalQuiet_trans (pollFailures_quiet s.jn) ⟨⟨[], by simp [takePoll]⟩, rfl, id, id⟩)

theorem station_quiet (f : Frame) (s : State) :
    Quiet s (takeCollected f s) ∧ Quiet s (takeRestore f s) ∧ Quiet s (takeStationFaultClear f s)
      ∧ Quiet s (takeJournalClear f s) ∧ Quiet s (takeMaint f s) := by
  have h0 : ∀ j, JournalQuiet s.jn j → Quiet s { s with jn := j } := fun j hj => quiet_of_parts rfl rfl rfl hj
  have h1 : Quiet s { s with ac := { s.ac with faultInProgress := false } } :=
    quiet_of_parts rfl rfl rfl (journalQuiet_refl _)
  unfold takeCollected takeRestore takeStationFaultClear takeJournalClear takeMaint
  refine ⟨replied _ _ _ (h0 _ (collect_quiet _ _)), ?_, ?_, ?_, ?_⟩ <;> split
  · exact replied _ _ _ (aisleOnly_quiet _ s)
  · exact sendReply_quiet _ _ _ s
  · exact sendReply_quiet _ _ _ s
  · exact replied _ _ _ h1
  · exact replied _ _ _ (h0 _ ⟨⟨[], by simp [clearJournal]⟩, rfl, id, id⟩)
  · exact sendReply_quiet _ _ _ s
  · exact replied _ _ _ (h0 _ ⟨⟨[], by simp⟩, rfl, id, id⟩)
  · exact sendReply_quiet _ _ _ s

/-- A condition that `Kept` names is kept by every command. -/
theorem exec_kept {J : Journal → Prop} {P : State → Prop} (K : Kept J P) (c : Instr) (s t : State) (h : exec c s = .next t)
    (hj : J s.jn) (hs : P s) : P t := by
  have sf := fun f act (ha : ∀ s, Quiet s (act s)) => K.quietFrame f act s hs ha
  have q := fun t (ht : Quiet s t) => K.quiet s t hs ht
  have fl := fun f n act s ha => fixedLength_quiet f n act s ha
  cases c <;> simp only [exec] at h
  case powerOn =>
    simp only [execPowerOn, Host.Outcome.next.injEq] at h; subst h
    exact K.expireAtReset _ (K.resets s _ _ _ hj hs).1 rfl
  case lineReset =>
    simp only [execLineReset, Host.Outcome.next.injEq] at h; subst h
    have h1 := K.expireAtReset _ (K.resets s s.now true s.tl hj hs).2 rfl
    split
    · exact K.quiet _ _ h1 (runActivation_quiet _)
    · exact h1
  case tap p l =>
    simp only [execTap, Host.Outcome.next.injEq] at h; subst h
    exact K.framed p l _ s hs (K.takeTap p l s hs)
  case readVerdict p l =>
    simp only [execReadVerdict, Host.Outcome.next.injEq] at h; subst h
    exact K.framed p l _ s hs (K.takeReadVerdict p s hs)
  case written p l =>
    simp only [execWritten, Host.Outcome.next.injEq] at h; subst h
    exact K.bare p l _ s hs (K.takeWritten p s hs)
  case notWritten p l =>
    simp only [execNotWritten, Host.Outcome.next.injEq] at h; subst h
    refine K.bare p l _ s hs ?_
    unfold takeNotWritten
    split
    · rename_i ht; exact K.leaveAwaiting p _ s hs ht
    · exact K.outOfPlace p s hs
  case uncertain p l =>
    simp only [execUncertain, Host.Outcome.next.injEq] at h; subst h
    refine K.bare p l _ s hs ?_
    unfold takeUncertain
    split
    · rename_i ht; exact K.leaveAwaiting p _ s hs ht
    · exact K.outOfPlace p s hs
  case cancel p l =>
    simp only [execCancel, Host.Outcome.next.injEq] at h; subst h
    exact K.bare p l _ s hs (K.takeCancel p s hs)
  case readStatus p l =>
    simp only [execReadStatus, Host.Outcome.next.injEq] at h; subst h
    exact K.framed p l _ s hs (q _ (port_quiet p _ s rfl rfl rfl))
  case readHalt p l =>
    simp only [execReadHalt, Host.Outcome.next.injEq] at h; subst h
    exact K.framed p l _ s hs (q _ (port_quiet p _ s rfl rfl rfl))
  case faultClear p l =>
    simp only [execFaultClear, Host.Outcome.next.injEq] at h; subst h
    refine K.bare p l _ s hs (q _ ?_)
    unfold takeFaultClear
    split
    · exact laneAnswer_quiet p _ s
    · exact quiet_trans (aisleOnly_quiet (fun _ a => { a with faultInProgress := false }) s)
        (laneAnswer_quiet p .ok (clearFault s))
  case portReset p l =>
    simp only [execPortReset, Host.Outcome.next.injEq] at h; subst h
    exact K.bare p l _ s hs (K.takePortReset p s hs)
  case laneUnknownCommand p c l =>
    simp only [execLaneUnknownCommand, Host.Outcome.next.injEq] at h; subst h
    exact K.framed p l _ s hs (q _ (laneAnswer_quiet p _ s))
  case laneFrameDiscard p =>
    simp only [execLaneFrameDiscard, Host.Outcome.next.injEq] at h; subst h
    exact q _ (discardFrame_quiet p s)
  case evaluationBegin =>
    simp only [execEvaluationBegin, Host.Outcome.next.injEq] at h; subst h
    exact K.engineNext s hs
  case verdictReadyEvent =>
    simp only [execVerdictReadyEvent, Host.Outcome.next.injEq] at h; subst h
    exact K.endEvaluation s hs
  case applyWaitingFrame =>
    simp only [execApplyWaitingFrame, Host.Outcome.next.injEq] at h; subst h
    exact (K.applyWaiting s hs).1
  case heldActivationTest =>
    simp only [execHeldActivationTest, Host.Outcome.next.injEq] at h; subst h
    exact q _ (heldActivation_quiet s)
  case confirmTimerExpiry p =>
    simp only [execConfirmTimerExpiry] at h
    split at h <;> simp only [Host.Outcome.next.injEq] at h <;> subst h
    · exact hs
    · rename_i t hc
      exact K.confirmExpired p _ (q _ (reach_quiet t s)) (by cases p <;> simp_all [State.port])
  case appendCompletion =>
    simp only [execAppendCompletion] at h
    split at h <;> simp only [Host.Outcome.next.injEq] at h <;> subst h
    · exact hs
    · rename_i a rest hq
      exact K.complete s a rest hj hs hq
  case rawLevelChange i level =>
    simp only [execRawLevelChange, Host.Outcome.next.injEq] at h; subst h
    exact q _ (aisleOnly_quiet _ s)
  case filteredChange i =>
    simp only [execFilteredChange] at h
    split at h <;> simp only [Host.Outcome.next.injEq] at h <;> subst h
    · exact hs
    · exact q _ (quiet_trans (reach_quiet _ s) (aisle_quiet _ _))
  case settleEnd =>
    simp only [execSettleEnd] at h
    split at h <;> simp only [Host.Outcome.next.injEq] at h <;> subst h
    · exact hs
    · exact q _ (quiet_trans (reach_quiet _ s) (aisle_quiet _ _))
  case travelTimeoutExpiry =>
    simp only [execTravelTimeoutExpiry] at h
    split at h <;> simp only [Host.Outcome.next.injEq] at h <;> subst h
    · exact hs
    · exact q _ (quiet_trans (reach_quiet _ s) (aisle_quiet _ _))
  case blankWindowEnd =>
    simp only [execBlankWindowEnd] at h
    split at h <;> simp only [Host.Outcome.next.injEq] at h <;> subst h
    · exact hs
    · exact q _ (quiet_trans (reach_quiet _ s) (aisleOnly_quiet _ _))
  case zoneClearTimerExpiry =>
    simp only [execZoneClearTimerExpiry] at h
    split at h <;> simp only [Host.Outcome.next.injEq] at h <;> subst h
    · exact hs
    · exact q _ (quiet_trans (reach_quiet _ s) (aisleOnly_quiet _ _))
  case alarmTimerExpiry =>
    simp only [execAlarmTimerExpiry] at h
    split at h <;> simp only [Host.Outcome.next.injEq] at h <;> subst h
    · exact hs
    · exact q _ (quiet_trans (reach_quiet _ s) (aisleOnly_quiet _ _))
  case loiterLimitReached =>
    simp only [execLoiterLimitReached] at h
    split at h <;> simp only [Host.Outcome.next.injEq] at h <;> subst h
    · exact hs
    · exact q _ (quiet_trans (reach_quiet _ s) (aisleOnly_quiet _ _))
  case holdWindowExpiry =>
    simp only [execHoldWindowExpiry] at h
    split at h <;> simp only [Host.Outcome.next.injEq] at h <;> subst h
    · exact hs
    · exact q _ (quiet_trans (reach_quiet _ s) (aisle_quiet _ _))
  case idleTimerExpiry =>
    simp only [execIdleTimerExpiry] at h
    split at h <;> simp only [Host.Outcome.next.injEq] at h <;> subst h
    · exact hs
    · exact q _ (quiet_trans (reach_quiet _ s) (aisleOnly_quiet _ _))
  case clockAdvance =>
    simp only [execClockAdvance] at h
    split at h <;> simp only [Host.Outcome.next.injEq] at h <;> subst h
    · exact K.advance _ _ (q _ (reach_quiet _ s))
    · exact hs
  case tornRecordExpiry n =>
    simp only [execTornRecordExpiry, Host.Outcome.next.injEq] at h; subst h
    split
    · exact hs
    · rename_i hn; exact K.expireIfDue n s hs hn
  case linkWatchExpiry =>
    simp only [execLinkWatchExpiry] at h
    split at h <;> simp only [Host.Outcome.next.injEq] at h <;> subst h
    · exact hs
    · exact q _ (quiet_trans (reach_quiet _ s) (watchExpired_quiet _))
  case standaloneTimerExpiry =>
    simp only [execStandaloneTimerExpiry] at h
    split at h <;> simp only [Host.Outcome.next.injEq] at h <;> subst h
    · exact hs
    · exact q _ (quiet_of_parts rfl rfl rfl (journalQuiet_refl _))
  case time addr l =>
    simp only [execTime, Host.Outcome.next.injEq] at h; subst h
    refine K.stationFrame _ _ s hs (fun s hs _ => K.quiet _ _ ?_ (broadcastEnd_quiet _ _))
    unfold applyTimePayload
    split
    · exact K.quiet _ _ (K.remainingStages s hs) (takeTime_quiet _ _ _)
    · exact hs
  case sighting addr l =>
    simp only [execSighting, Host.Outcome.next.injEq] at h; subst h
    refine K.stationFrame _ _ s hs (fun s hs hw => (K.applySighting _ s ⟨hs, ?_⟩).1)
    rcases hw with hw | hw
    · simp [waitsForEvaluation] at hw
    · exact hw
  case emergency addr l =>
    simp only [execEmergency, Host.Outcome.next.injEq] at h; subst h
    exact sf _ _ (fun s => quietEnd _ (applyEmergencyPayload_quiet l s))
  case denyBaseBegin addr l =>
    simp only [execDenyBaseBegin, Host.Outcome.next.injEq] at h; subst h
    exact sf _ _ (fun s => (Kept.deny_quiet _ s).1)
  case denyBaseAdd addr l =>
    simp only [execDenyBaseAdd, Host.Outcome.next.injEq] at h; subst h
    exact sf _ _ (fun s => (Kept.deny_quiet _ s).2.1)
  case denyBaseEnd addr l =>
    simp only [execDenyBaseEnd, Host.Outcome.next.injEq] at h; subst h
    exact sf _ _ (fun s => (Kept.deny_quiet _ s).2.2.1)
  case denyDelta addr l =>
    simp only [execDenyDelta, Host.Outcome.next.injEq] at h; subst h
    exact sf _ _ (fun s => (Kept.deny_quiet _ s).2.2.2)
  case tariffBegin addr l =>
    simp only [execTariffBegin, Host.Outcome.next.injEq] at h; subst h
    exact sf _ _ (fun s => quietEnd _ (tariff_quiet l s).1)
  case tariffData addr l =>
    simp only [execTariffData, Host.Outcome.next.injEq] at h; subst h
    exact sf _ _ (fun s => quietEnd _ (tariff_quiet l s).2.1)
  case tariffEnd addr l =>
    simp only [execTariffEnd, Host.Outcome.next.injEq] at h; subst h
    exact sf _ _ (fun s => quietEnd _ (tariff_quiet l s).2.2)
  case poll addr l =>
    simp only [execPoll, Host.Outcome.next.injEq] at h; subst h
    exact sf _ _ (fun s => fl _ _ _ s (takePoll_quiet _ s))
  case collected addr l =>
    simp only [execCollected, Host.Outcome.next.injEq] at h; subst h
    exact sf _ _ (fun s => fl _ _ _ s (station_quiet _ s).1)
  case keyLoad addr l =>
    simp only [execKeyLoad, Host.Outcome.next.injEq] at h; subst h
    exact sf _ _ (fun s => Kept.applyKeyLoad_quiet _ s)
  case configure addr l =>
    simp only [execConfigure, Host.Outcome.next.injEq] at h; subst h
    exact sf _ _ (fun s => Kept.applyConfigure_quiet _ s)
  case identify addr l =>
    simp only [execIdentify, Host.Outcome.next.injEq] at h; subst h
    exact sf _ _ (fun s => fl _ _ _ s (sendReply_quiet _ _ _ s))
  case restore addr l =>
    simp only [execRestore, Host.Outcome.next.injEq] at h; subst h
    exact sf _ _ (fun s => fl _ _ _ s (station_quiet _ s).2.1)
  case stationFaultClear addr l =>
    simp only [execStationFaultClear, Host.Outcome.next.injEq] at h; subst h
    exact sf _ _ (fun s => fl _ _ _ s (station_quiet _ s).2.2.1)
  case journalClear addr l =>
    simp only [execJournalClear, Host.Outcome.next.injEq] at h; subst h
    exact sf _ _ (fun s => fl _ _ _ s (station_quiet _ s).2.2.2.1)
  case forceCheckFault addr =>
    simp only [execForceCheckFault, Host.Outcome.next.injEq] at h; subst h
    exact sf _ _ (fun s => fl _ _ _ s (station_quiet _ s).2.2.2.2)
  case maintUnknownOperation addr l =>
    simp only [execMaintUnknownOperation, Host.Outcome.next.injEq] at h; subst h
    exact sf _ _ (fun s => fl _ _ _ s (station_quiet _ s).2.2.2.2)
  case reset addr l =>
    simp only [execReset, Host.Outcome.next.injEq] at h; subst h
    exact sf _ _ (fun s => fl _ _ _ s (quiet_of_parts rfl rfl rfl (journalQuiet_refl _)))
  case stationUnknownCommand addr code l =>
    simp only [execStationUnknownCommand, Host.Outcome.next.injEq] at h; subst h
    refine sf _ _ (fun s => ?_)
    split
    · exact quiet_refl s
    · exact sendReply_quiet _ _ _ s
  case frameOverrun addr code l =>
    simp only [execFrameOverrun, Host.Outcome.next.injEq] at h; subst h
    unfold takeOverrun
    split
    · exact q _ (sl_quiet s _)
    · exact hs
  case stationFrameIgnored =>
    simp only [execStationFrameIgnored, Host.Outcome.next.injEq] at h; subst h; exact hs
  case stationFrameAbandon =>
    simp only [execStationFrameAbandon, Host.Outcome.next.injEq] at h; subst h; exact hs
  case stationReplyEnd =>
    simp only [execStationReplyEnd] at h
    split at h <;> simp only [Host.Outcome.next.injEq] at h <;> subst h
    · exact hs
    · exact q _ (sl_quiet s _)

/-- A condition that `Kept` names is kept by every step. -/
theorem step_kept {J : Journal → Prop} {P : State → Prop} (K : Kept J P) (s t : State) (h : step s = .next t) (hj : J s.jn)
    (hs : P s) : P t := by
  unfold step at h
  split at h
  · unfold tick at h
    split at h
    · exact exec_kept K _ s t h hj hs
    · split at h
      · split at h
        · exact exec_kept K _ s t h hj hs
        · simp only [Host.Outcome.next.injEq] at h
          subst h
          exact K.stage s hs
      · simp only [Host.Outcome.next.injEq] at h
        subst h
        exact K.quiet _ _ hs (quiet_of_parts rfl rfl rfl (journalQuiet_refl _))
  · refine exec_kept K _ _ t h hj (K.quiet _ _ hs ?_)
    exact quiet_of_parts rfl rfl rfl (journalQuiet_refl _)

/-! ## What the Verdict Engine's moves leave as it is -/

/-- A port after one port is set. -/
theorem port_upd (s : State) (p q : Port) (l : LanePort) : (s.setPort p l).port q = if q = p then l else s.port q := by
  cases p <;> cases q <;> rfl

/-- Appends without a commit do not count for a port. -/
theorem commits_append (j : Journal) (l : List Append) (p : Port) (hl : ∀ a ∈ l, a.commit = none) :
   (j.queue ++ l).countP (fun a => a.commit == some p) = j.queue.countP (fun a => a.commit == some p) := by
    rw [List.countP_append]
    have : l.countP (fun a => a.commit == some p) = 0 := by
      rw [List.countP_eq_zero]; intro a ha; rw [hl a ha]; simp
    omega

theorem commits_alerts (s : State) (cs) (p) : commitsQueued (postAlerts cs s) p = commitsQueued s p := by
  obtain ⟨l, e, hl, _⟩ := (postAlerts_quiet cs s).jn.1
  unfold commitsQueued; rw [e]; exact commits_append s.jn l p hl

theorem reserve_queue (j j' : Journal) (h : reserveSlot j = some j') : j'.queue = j.queue := by
  unfold reserveSlot at h; split at h <;> cases h; rfl

/-- The reservations leave the ports, the wait queue, the in-flight set and the Torn-Write Table (R73, R74). -/
theorem reserveBoth_keep (d : Option Dir) (v : Verdict) (e : Evaluation) (s : State) :
    (∀ p, (reserveBoth d v e s).port p = s.port p) ∧ (reserveBoth d v e s).ve.queue = s.ve.queue
      ∧ (reserveBoth d v e s).ve.inFlight = s.ve.inFlight ∧ (reserveBoth d v e s).ve.torn = s.ve.torn
      ∧ (reserveBoth d v e s).ve.eval.map (·.port) = some e.port
      ∧ ∀ p, commitsQueued (reserveBoth d v e s) p = commitsQueued s p := by
  unfold reserveBoth
  split
  · exact ⟨fun p => by cases p <;> rfl, rfl, rfl, rfl, rfl, fun _ => rfl⟩
  · dsimp only
    split
    · cases d <;> exact ⟨fun p => by cases p <;> rfl, rfl, rfl, rfl, rfl, fun _ => rfl⟩
    · rename_i j hj
      refine ⟨fun p => by cases p <;> rfl, rfl, rfl, rfl, rfl, fun p => ?_⟩
      have := reserve_queue _ _ hj
      show j.queue.countP _ = _
      rw [this]; rfl

/-- The reservations end in a refusal, or in the verdict with the slot made (R73, R74). -/
theorem reserveBoth_eval (d : Option Dir) (v : Verdict) (e : Evaluation) (s : State) :
    (∃ w : Verdict, w.code ≠ .accept ∧ w.code ≠ .resumed
        ∧ (reserveBoth d v e s).ve.eval = some { e with verdict := some w })
      ∨ (reserveBoth d v e s).ve.eval
        = some { e with creditMade := d.isSome, slotMade := true, verdict := some v } := by
  unfold reserveBoth
  split
  · exact .inl ⟨refusal e .aisleFull 0, by simp [refusal], by simp [refusal], rfl⟩
  · dsimp only
    split
    · exact .inl ⟨refusal e .outOfService 5, by simp [refusal], by simp [refusal], rfl⟩
    · exact .inr rfl

/-- The fare stage refuses with no other code than its own (R49). -/
theorem fare_codes (e : Evaluation) (b : Bank) (s : State) (c : VCode) (d x : Nat) (y : Int)
    (h : chargingOutcome e b s = .refused c d x y) : c ≠ .accept ∧ c ≠ .resumed := by
  unfold chargingOutcome at h
  split at h
  · unfold entryFare at h
    repeat' split at h
    all_goals (cases h <;> simp)
  · unfold exitFare balanceStage at h
    dsimp only at h
    repeat' split at h
    all_goals (cases h <;> simp)

/-- The gate refuses with no other code than its own (R69). -/
theorem gate_codes (p : Port) (f : Bool) (s : State) (c : VCode) (d : Nat) (h : gateRefusal p f s = some (c, d)) :
    c ≠ .accept ∧ c ≠ .resumed := by
  unfold gateRefusal at h
  repeat' split at h
  all_goals (simp at h <;> simp [← h.1])

/-- A stage leaves the ports, the wait queue and the in-flight set, and queues no commit (R68). -/
theorem evalStep_keep (s : State) :
    (∀ p, (evalStep s).port p = s.port p) ∧ (evalStep s).ve.queue = s.ve.queue
      ∧ (evalStep s).ve.inFlight = s.ve.inFlight ∧ (evalStep s).ve.eval.map (·.port) = s.ve.eval.map (·.port)
      ∧ ∀ p, commitsQueued (evalStep s) p = commitsQueued s p := by
  have hp : ∀ s t : State, t.portA = s.portA → t.portB = s.portB → ∀ p, t.port p = s.port p := by
    intro s t a b p; cases p <;> simp [State.port, a, b]
  unfold evalStep
  split
  · exact ⟨fun _ => rfl, rfl, rfl, rfl, fun _ => rfl⟩
  · rename_i e he
    split
    · exact ⟨fun _ => rfl, rfl, rfl, rfl, fun _ => rfl⟩
    · rw [he]
      split
      · unfold gateStage; dsimp only; split <;> exact ⟨hp _ _ rfl rfl, rfl, rfl, rfl, fun _ => rfl⟩
      · unfold formStage; split <;> exact ⟨hp _ _ rfl rfl, rfl, rfl, rfl, fun _ => rfl⟩
      · unfold inFlightStage; split <;> exact ⟨hp _ _ rfl rfl, rfl, rfl, rfl, fun _ => rfl⟩
      · unfold tornStage; dsimp only; split
        · exact ⟨hp _ _ rfl rfl, rfl, rfl, rfl, fun _ => rfl⟩
        · split
          · exact ⟨hp _ _ rfl rfl, rfl, rfl, rfl, fun _ => rfl⟩
          · split
            · exact ⟨hp _ _ rfl rfl, rfl, rfl, rfl, fun _ => rfl⟩
            · split
              · rename_i r _ _ _ _ _ _
                have := reserveBoth_keep r.dir (resumedVerdict r) { e with held := some r.serial } s
                exact ⟨this.1, this.2.1, this.2.2.1, this.2.2.2.2.1, this.2.2.2.2.2⟩
              · split
                · exact ⟨hp _ _ rfl rfl, rfl, rfl, rfl, fun _ => rfl⟩
                · exact ⟨hp _ _ rfl rfl, rfl, rfl, rfl, fun p => commits_alerts (s.setTorn _) _ p⟩
      · unfold keyCheckStage; split
        · exact ⟨hp _ _ rfl rfl, rfl, rfl, rfl, fun _ => rfl⟩
        · split <;> exact ⟨hp _ _ rfl rfl, rfl, rfl, rfl, fun _ => rfl⟩
      · unfold denyStage; split <;> exact ⟨hp _ _ rfl rfl, rfl, rfl, rfl, fun _ => rfl⟩
      · unfold cloneStage; dsimp only; split
        · exact ⟨hp _ _ rfl rfl, rfl, rfl, rfl, fun _ => rfl⟩
        · split
          · exact ⟨hp _ _ rfl rfl, rfl, rfl, rfl, fun _ => rfl⟩
          · refine ⟨hp _ _ rfl rfl, rfl, rfl, rfl, fun p => ?_⟩
            exact commits_alerts { s with su := _ } _ p
      · unfold exhaustionStage; split <;> exact ⟨hp _ _ rfl rfl, rfl, rfl, rfl, fun _ => rfl⟩
      · unfold fareStage fareEnd; split
        · exact ⟨hp _ _ rfl rfl, rfl, rfl, rfl, fun _ => rfl⟩
        · split
          · exact ⟨hp _ _ rfl rfl, rfl, rfl, rfl, fun _ => rfl⟩
          · split
            · split <;> exact ⟨hp _ _ rfl rfl, rfl, rfl, rfl, fun _ => rfl⟩
            · exact ⟨hp _ _ rfl rfl, rfl, rfl, rfl, fun _ => rfl⟩
      · unfold reservationsStage; split
        · exact ⟨hp _ _ rfl rfl, rfl, rfl, rfl, fun _ => rfl⟩
        · rename_i f _
          have := reserveBoth_keep (if e.freeExit then none else some (tapDir e.port)) (acceptVerdict e f) e s
          exact ⟨this.1, this.2.1, this.2.2.1, this.2.2.2.2.1, this.2.2.2.2.2⟩

/-- The verdict-ready event changes the evaluated port alone, and queues a commit there for a RESUMED only (R79). -/
theorem ready_port (e : Evaluation) (v : Verdict) (s : State) :
    (∀ q, q ≠ e.port → (readyByCode e v s).port q = s.port q) ∧ (readyByCode e v s).ve.queue = s.ve.queue
      ∧ (readyByCode e v s).ve.eval = s.ve.eval
      ∧ (∀ q, q ≠ e.port → commitsQueued (readyByCode e v s) q = commitsQueued s q)
      ∧ commitsQueued (readyByCode e v s) e.port ≤ commitsQueued s e.port + (if v.code = .resumed then 1 else 0)
      ∧ (readyByCode e v s).port e.port =
        { (s.port e.port).withVerdict e.image v (if v.code = .resumed then .committing else .verdictReady) with
          confirmEnd := if v.code = .accept then some (s.now + s.cfg.confirmLimit) else (s.port e.port).confirmEnd } := by
  have ho := fun q hq l (x : State) => setPort_port_other x e.port q l hq
  have hs := fun l (x : State) => setPort_port_same x e.port l
  have pj : ∀ (s : State) v q, ({ s with ve := v } : State).port q = s.port q := by intro s v q; cases q <;> rfl
  have pj2 : ∀ (s : State) v q, ({ s with jn := v } : State).port q = s.port q := by intro s v q; cases q <;> rfl
  have pt : ∀ (s : State) v q, (s.setTorn v).port q = s.port q := by intro s v q; cases q <;> rfl
  by_cases ha : v.code = .accept
  · have e1 : readyByCode e v s = readyAccept e v s := by unfold readyByCode; rw [ha]
    rw [e1]; unfold readyAccept joinInFlight
    dsimp only
    refine ⟨fun q hq => ?_, ?_, ?_, ?_, ?_, ?_⟩
    · rw [ho q hq, pj]
    · simp
    · simp
    · simp [commitsQueued]
    · simp [commitsQueued]
    · rw [hs, pj]; simp [ha, LanePort.withVerdict]
  · by_cases hr : v.code = .resumed
    · have e1 : readyByCode e v s = readyResumed e v s := by unfold readyByCode; rw [hr]
      rw [e1]; unfold readyResumed joinInFlight
      dsimp only
      split
      · refine ⟨fun q hq => ?_, ?_, ?_, ?_, ?_, ?_⟩
        · rw [ho q hq, pj]
        · simp
        · simp
        · simp [commitsQueued]
        · simp [commitsQueued]
        · rw [hs, pj]; simp [hr, LanePort.withVerdict]
      · refine ⟨fun q hq => ?_, ?_, ?_, ?_, ?_, ?_⟩
        · rw [pj2, pt, ho q hq, pj]
        · simp [State.setTorn]
        · simp [State.setTorn]
        · intro q hq
          have : e.port ≠ q := fun x => hq x.symm
          simp [commitsQueued, requestFare, enqueue, this]
        · simp [commitsQueued, requestFare, enqueue, hr]
        · rw [pj2, pt, hs, pj]; simp [hr, LanePort.withVerdict]
    · have e1 : readyByCode e v s = readyRefusal e v s := by unfold readyByCode; split <;> simp_all
      rw [e1]; unfold readyRefusal
      refine ⟨fun q hq => ?_, ?_, ?_, ?_, ?_, ?_⟩
      · rw [ho q hq]
      · simp
      · simp
      · simp [commitsQueued]
      · simp [commitsQueued]
      · rw [hs]; simp [ha, hr, LanePort.withVerdict]

end Sys2Proof.Machine
end

