-- ==== Sys2Proof/Tests/Slice0.lean ====
section
/-! SUPPORT. Tests: the ill-formed terms that WellFormed refuses, the worked cases of the manual, and for every statement with
hypotheses a state and operands that meet them. -/

namespace Sys2Proof.Tests

open Sys2Proof Sys2Proof.Machine

/-! ## What WellFormed refuses -/

theorem test_long_lane_payload : wellFormed (.tap .a (List.replicate 41 0)) = false := by decide
theorem test_longest_lane_payload : wellFormed (.tap .a (List.replicate 40 0)) = true := by decide
theorem test_long_station_payload : wellFormed (.time 0 (List.replicate 97 0)) = false := by decide
theorem test_longest_station_payload : wellFormed (.time 0 (List.replicate 96 0)) = true := by decide
theorem test_defined_lane_code : wellFormed (.laneUnknownCommand .b 0x0A []) = false := by decide
theorem test_undefined_lane_code : wellFormed (.laneUnknownCommand .b 0x0B []) = true := by decide
theorem test_defined_station_code : wellFormed (.stationUnknownCommand 1 0x49 []) = false := by decide
theorem test_undefined_station_code : wellFormed (.stationUnknownCommand 1 0x4A []) = true := by decide
theorem test_invalid_serial_expiry : wellFormed (.tornRecordExpiry 4294967295) = false := by decide
theorem test_zero_serial_expiry : wellFormed (.tornRecordExpiry 0) = false := by decide
theorem test_known_operation : wellFormed (.maintUnknownOperation 1 [0x01#8]) = false := by decide

/-- A broadcast frame at address 0 with a good check is no ignored frame. -/
theorem test_good_frame_not_ignored : wellFormed (.stationFrameIgnored 0 0x20 [] (frameCheck 0 0x20 [])) = false := by
  decide +kernel

/-! ## Reset -/

theorem test_reset_drive : State.reset.ac.leaf = .released ∧ State.reset.ac.settleEnd = some 8 := by decide
theorem test_reset_settings : itemValues State.reset.cfg
    = [1, 0, 0, 0, 8, 4, 2000, 192, 1500, 8000, 10, 40, 600, 3, 2000, 120, 10, 30, 240] := by decide

/-! ## The check generator -/

/-- The published check value of the generator x^16 + x^12 + x^5 + 1 from FFFFh over the digits 1 to 9. -/
theorem test_crc_digits : crc crcInit [0x31, 0x32, 0x33, 0x34, 0x35, 0x36, 0x37, 0x38, 0x39] = 0x29B1#16 := by decide +kernel

/-! ## Decoding: words written out from the frame layouts and the Code columns of R186 and R192 -/

/-- Code, length, payload and the check over them, for each code 01h to 0Ah and the first undefined one (R185, R186). -/
theorem test_lane_codes :
    decodeSelection .a [0x01, 0x02, 0xAA, 0x55, 0x64, 0xF1] = .tap .a [0xAA, 0x55]
      ∧ decodeSelection .a [0x02, 0x00, 0x7B, 0x6D] = .readVerdict .a []
      ∧ decodeSelection .b [0x03, 0x00, 0x48, 0x5C] = .written .b []
      ∧ decodeSelection .a [0x04, 0x00, 0xD1, 0xCB] = .notWritten .a []
      ∧ decodeSelection .a [0x05, 0x00, 0xE2, 0xFA] = .uncertain .a []
      ∧ decodeSelection .a [0x06, 0x00, 0xB7, 0xA9] = .cancel .a []
      ∧ decodeSelection .b [0x07, 0x00, 0x84, 0x98] = .readStatus .b []
      ∧ decodeSelection .a [0x08, 0x00, 0x94, 0xA6] = .readHalt .a []
      ∧ decodeSelection .a [0x09, 0x00, 0xA7, 0x97] = .faultClear .a []
      ∧ decodeSelection .a [0x0A, 0x00, 0xF2, 0xC4] = .portReset .a []
      ∧ decodeSelection .a [0x0B, 0x00, 0xC1, 0xF5] = .laneUnknownCommand .a 0x0B [] := by decide +kernel

/-- One bit of the check wrong, a payload cut short, and nothing clocked but the code (R185). -/
theorem test_lane_discards :
    decodeSelection .a [0x03, 0x00, 0x48, 0x5D] = .laneFrameDiscard .a
      ∧ decodeSelection .a [0x01, 0x02, 0xAA, 0x55, 0x64] = .laneFrameDiscard .a
      ∧ decodeSelection .a [0x03] = .laneFrameDiscard .a := by decide +kernel

/-- The broadcast codes 20h to 29h at address 0 (R190, R192). -/
theorem test_broadcast_codes :
    decodeStation [0xA5, 0x00, 0x20, 0x00, 0xCA, 0x7A] = some (.time 0 [])
      ∧ decodeStation [0xA5, 0x00, 0x21, 0x00, 0xF9, 0x4B] = some (.sighting 0 [])
      ∧ decodeStation [0xA5, 0x00, 0x22, 0x01, 0x01, 0x4F, 0x76] = some (.emergency 0 [0x01])
      ∧ decodeStation [0xA5, 0x00, 0x23, 0x00, 0x9F, 0x29] = some (.denyBaseBegin 0 [])
      ∧ decodeStation [0xA5, 0x00, 0x24, 0x00, 0x06, 0xBE] = some (.denyBaseAdd 0 [])
      ∧ decodeStation [0xA5, 0x00, 0x25, 0x00, 0x35, 0x8F] = some (.denyBaseEnd 0 [])
      ∧ decodeStation [0xA5, 0x00, 0x26, 0x00, 0x60, 0xDC] = some (.denyDelta 0 [])
      ∧ decodeStation [0xA5, 0x00, 0x27, 0x00, 0x53, 0xED] = some (.tariffBegin 0 [])
      ∧ decodeStation [0xA5, 0x00, 0x28, 0x00, 0x43, 0xD3] = some (.tariffData 0 [])
      ∧ decodeStation [0xA5, 0x00, 0x29, 0x00, 0x70, 0xE2] = some (.tariffEnd 0 []) := by decide +kernel

/-- The addressed codes 40h to 49h at address 1, MAINT with its operation, and the first undefined code (R190, R192, R195). -/
theorem test_addressed_codes :
    decodeStation [0xA5, 0x01, 0x40, 0x00, 0xF6, 0x60] = some (.poll 1 [])
      ∧ decodeStation [0xA5, 0x01, 0x41, 0x00, 0xC5, 0x51] = some (.collected 1 [])
      ∧ decodeStation [0xA5, 0x01, 0x42, 0x00, 0x90, 0x02] = some (.keyLoad 1 [])
      ∧ decodeStation [0xA5, 0x01, 0x43, 0x00, 0xA3, 0x33] = some (.configure 1 [])
      ∧ decodeStation [0xA5, 0x01, 0x44, 0x00, 0x3A, 0xA4] = some (.identify 1 [])
      ∧ decodeStation [0xA5, 0x01, 0x45, 0x00, 0x09, 0x95] = some (.restore 1 [])
      ∧ decodeStation [0xA5, 0x01, 0x46, 0x00, 0x5C, 0xC6] = some (.stationFaultClear 1 [])
      ∧ decodeStation [0xA5, 0x01, 0x47, 0x00, 0x6F, 0xF7] = some (.journalClear 1 [])
      ∧ decodeStation [0xA5, 0x01, 0x48, 0x01, 0x01, 0x65, 0x68] = some (.forceCheckFault 1)
      ∧ decodeStation [0xA5, 0x01, 0x48, 0x00, 0x7F, 0xC9] = some (.maintUnknownOperation 1 [])
      ∧ decodeStation [0xA5, 0x01, 0x49, 0x00, 0x4C, 0xF8] = some (.reset 1 [])
      ∧ decodeStation [0xA5, 0x01, 0x4A, 0x00, 0x19, 0xAB] = some (.stationUnknownCommand 1 0x4A []) := by decide +kernel

/-- Characters before the marker, a wrong check, a frame cut short, and no marker at all (R190). -/
theorem test_station_frames :
    decodeStation [0x00, 0xFF, 0xA5, 0x01, 0x40, 0x00, 0xF6, 0x60] = some (.poll 1 [])
      ∧ decodeStation [0xA5, 0x01, 0x40, 0x00, 0xF6, 0x61] = some (.stationFrameIgnored 1 0x40 [] 0xF661)
      ∧ decodeStation [0xA5, 0x01, 0x40, 0x00, 0xF6] = some .stationFrameAbandon
      ∧ decodeStation [0x01, 0x40] = none := by decide +kernel

/-! ## The form tests (01, Worked sequence: form tests) -/

/-- A card image with every field 0 but the serial and the format. -/
def card : CardImage :=
  { serial := 7, format := 1, keyIndex := 0, pass := false, cls := 0, spareBit := false, seq := 57, balance := 0,
    journeyIn := false, overdraft := false, exitRecorded := false, unusedFlags := 0, entryStation := 0, entryZone := 0,
    entryDay := 0, entryMinute := 0, spareByte := 0, exitDay := 0, exitMinute := 0, spendDay := 0, daySpend := 0,
    passExpiry := 0, zoneLow := 0, zoneHigh := 0, check := 0 }

theorem test_form_a : formDetail { card with entryMinute := 2000, zoneLow := 9, zoneHigh := 2 } = none := by decide
theorem test_form_b : formDetail { card with pass := true, zoneLow := 9, zoneHigh := 2 } = some 5 := by decide
theorem test_form_c : formDetail { card with journeyIn := true, entryMinute := 1440 } = some 4 := by decide
theorem test_form_d : formDetail { card with serial := 0, format := 2 } = some 1 := by decide
theorem test_form_e : formDetail { card with exitMinute := 1439, unusedFlags := 1 } = some 3 := by decide

/-! ## The fare computation (03, Worked cases) -/

/-- A bank whose contents are given position by position. -/
def bankOf (at_ : Nat → Nat) : Bank :=
  { state := .active, version := 9, effDay := 0, contents := (List.range 314).map at_ }

/-- Charge, balance, zones and three fields of the new image, or the refusal. -/
def shown : FareOutcome → Option (Nat × Int × Nat × Nat × Nat × Bool)
  | .done _ charge balance z1 z2 img => some (charge, balance, z1, z2, img.daySpend, img.overdraft)
  | .refused _ _ _ _ => none

/-- Case 1. -/
def case1Bank : Bank := bankOf (fun i =>
  if i = 2 * 16 + 5 then 240 else if i = 256 then 3 else if i = 258 then 64 else if i = 259 then 420
  else if i = 260 then 80 else if i = 261 then 570 else if i = 262 then 64 else if i = 273 + 3 then 128
  else if i = 281 + 3 then 600 else if i = 305 then 30 else if i = 306 then 40 else if i = 307 then 10
  else if i = 312 then 180 else 0)

def case1Card : CardImage :=
  { card with cls := 3, balance := 1000, journeyIn := true, entryZone := 2, entryDay := 812, entryMinute := 480,
              exitRecorded := true, exitDay := 812, exitMinute := 455, spendDay := 812, daySpend := 520 }

theorem test_fare_case1 :
    shown (exitFare { bank := case1Bank, day := 812, minute := 512, station := 1, zone := 5 } case1Card)
      = some (80, 920, 2, 5, 600, false) := by decide

/-- Case 2: the overdraft limit 150, a charge of 110 and of 20 by the penalty of zone 4 and of zone 5. -/
def case2Bank : Bank := bankOf (fun i => if i = 293 then 110 else if i = 294 then 20 else if i = 308 then 150 else 0)

theorem test_fare_case2_once :
    shown (exitFare { bank := case2Bank, day := 1, minute := 0, station := 1, zone := 4 } { card with balance := 30 })
      = some (110, -80, 0, 4, 0, true) := by decide

theorem test_fare_case2_again :
    exitFare { bank := case2Bank, day := 1, minute := 0, station := 1, zone := 5 }
        { card with balance := -80, overdraft := true } = .refused .insufficient 2 20 (-100) := by decide

/-- Case 3. -/
def case3Bank (limit : Nat) : Bank := bankOf (fun i => if i = 293 then 500 else if i = 308 then limit else 0)

theorem test_fare_case3 :
    exitFare { bank := case3Bank 150, day := 1, minute := 0, station := 1, zone := 4 } { card with balance := 320 }
      = .refused .insufficient 3 500 (-180) := by decide

theorem test_fare_case3_limit :
    shown (exitFare { bank := case3Bank 200, day := 1, minute := 0, station := 1, zone := 4 } { card with balance := 320 })
      = some (500, -180, 0, 4, 0, true) := by decide

/-- Case 4. -/
def case4Bank : Bank := bankOf (fun i =>
  if i = 0 then 60000 else if i = 256 then 1 else if i = 258 then 96 else if i = 273 then 256 else if i = 307 then 2
  else if i = 312 then 180 else if i = 313 then 65535 else 0)

theorem test_fare_case4 :
    shown (exitFare { bank := case4Bank, day := 1, minute := 200, station := 1, zone := 0 }
        { card with balance := 200000, journeyIn := true, entryDay := 1 })
      = some (131069, 68931, 0, 0, 65534, false) := by decide

/-- Case 5. -/
def case5Bank : Bank := bankOf (fun i => if i = 309 then 200 else if i = 310 then 350 else if i = 311 then 5 else 0)

def case5 (minute : Nat) (c : CardImage) : FareOutcome :=
  entryFare { bank := case5Bank, day := 812, minute := minute, station := 310, zone := 3 } c

theorem test_fare_case5_a :
    case5 605 { card with balance := 900, journeyIn := true, entryStation := 310, entryDay := 812, entryMinute := 600 }
      = .refused .passback 5 0 900 := by decide
theorem test_fare_case5_b :
    shown (case5 606 { card with
        balance := 900, journeyIn := true, entryStation := 310, entryDay := 812, entryMinute := 600 })
      = some (350, 550, 3, 0, 0, false) := by decide
theorem test_fare_case5_c :
    case5 10 { card with balance := 500, journeyIn := true, entryStation := 122, entryDay := 811, entryMinute := 1300 }
      = .refused .insufficient 1 350 150 := by decide
theorem test_fare_case5_e :
    shown (case5 10 { card with pass := true, zoneLow := 1, zoneHigh := 4, passExpiry := 900 })
      = some (0, 0, 3, 0, 0, false) := by decide
theorem test_fare_case5_f :
    case5 10 { card with pass := true, zoneLow := 1, zoneHigh := 4, passExpiry := 811, balance := 5000 }
      = .refused .passExpired 0 0 5000 := by decide

/-! ## Aisle timing (07, Worked example: flow base and hold; 08, Worked sequence: a full cycle and its timing) -/

def streamAisle (captures : List Nat) : Aisle := { factoryAisle with captures := captures }
def envOf (factor : Nat) : Env :=
  { now := 0, cfg := { factorySettings with holdFactor := factor }, tl := State.reset.tl }

theorem test_hold : holdOf (envOf 255) (streamAisle [1800, 2200, 2600, 1400]) = 3984
    ∧ holdOf (envOf 192) (streamAisle [1800, 2200, 2600, 1400]) = 3000 := by decide
theorem test_hold_depth_one : holdOf (envOf 255) (streamAisle [1400]) = 2789
    ∧ holdOf (envOf 192) (streamAisle [1400]) = 2100 := by decide
theorem test_hold_bounds : holdOf (envOf 192) (streamAisle [6000]) = 8000
    ∧ holdOf (envOf 192) (streamAisle [700]) = 1500 := by decide
theorem test_travel : travelTimeoutOf factorySettings [640, 660, 700, 620] = 1410
    ∧ travelTimeoutOf factorySettings [720, 760, 740, 780] = 1600
    ∧ blankWindowOf factorySettings { factoryAisle with closeHist := [720, 760, 740, 780] } = 234 := by decide
theorem test_travel_capture :
    (captureTravel { (envOf 192) with now := 680 } .toOpen
      { factoryAisle with
        openHist := [640, 660, 700, 620]
        motion := some { start := 0, timeout := 1410, full := true, blankEnd := none, blankTaken := false } }).openHist
      = [660, 700, 620, 680] := by decide

/-! ## Tariff values (03, R42's examples) -/

theorem test_limits : limitValue 4 2 0 = 1 ∧ limitValue 1 2 300 = 255 ∧ limitValue 1 1 1500 = 1439 := by decide

/-! ## States for the witnesses -/

/-- A presented image of serial 7 in format 1. -/
def image : List Byte := imageBytes card

/-- A verdict of a code; an ACCEPT carries the image with the next sequence. -/
def verdictOf (code : VCode) : Verdict :=
  { code := code, detail := 0, charge := 80, balance := 920, dir := some .ab, version := 9,
    image := if code = .accept then some (imageBytes { card with seq := 58 }) else none, kind := some .entry,
    entryZone := 3, exitZone := 0 }

/-- Port A in a tap state, with the image and a verdict in its slot. -/
def portIn (tap : TapState) (verdict : Option Verdict) : State :=
  { State.reset with portA := { resetPort with tap := tap, slot := some { image := image, verdict := verdict } } }

/-- The evaluation of port A's tap before a stage. -/
def evalAt (stage : Stage) (verdict : Option Verdict) (held : Option Nat) : State :=
  { portIn .evaluating none with ve := { State.reset.ve with
      eval := some { freshEvaluation .a image with stage := stage, verdict := verdict, held := held } } }

/-- A torn record of serial 7. -/
def tornOf (state : TornState) : TornRecord :=
  { serial := 7, state := state, origin := .a, dir := some .ab, oldSeq := 57, oldCheck := 0, newSeq := 58, newCheck := 1,
    newImage := imageBytes { card with seq := 58, check := 1 },
    kind := .entry, charge := 80, balance := 920, version := 9, entryZone := 3, exitZone := 0 }

/-- The reset state with a part of it changed. -/
def withCredits (cs : List Credit) : Aisle := { factoryAisle with credits := cs, idleEnd := none }
def creditOf (state : CreditState) (dir : Dir) : Credit := { state := state, dir := dir, serial := 7, port := .a }
def withAc (a : Aisle) : State := { State.reset with ac := a }
def withTl (t : TimeLink) : State := { State.reset with tl := t }
def withDenyList (d : DenyList) : State := { State.reset with su := { State.reset.su with deny := d } }

/-- A journal record with its check, and one whose stored check is inverted. -/
def record (number : Nat) : JRecord :=
  newRecord State.reset.tl .plain { kind := .linkMode, side := .none } { State.reset.jn with assigned := number - 1 }
def badRecord (number : Nat) : JRecord := { record number with check := ~~~(recordCheck (record number)) }

/-- Two held records and none queued. -/
def twoHeld : Journal := { State.reset.jn with held := [record 1, record 2], durable := 2, assigned := 2 }

def suspectJournal : Journal := { State.reset.jn with suspect := true }

/-- The station line ready at the unit address, and open for broadcasts. -/
theorem open_reset : lineOpen State.reset := ⟨rfl, rfl, fun _ => rfl⟩
theorem ready_reset : lineReady 1 State.reset := ⟨open_reset, rfl, by decide⟩

/-- The same of a state whose station line stands as after reset, with no activation test held. -/
theorem open_state {s : State} (hl : s.sl = State.reset.sl) (ht : s.fu.heldTest = false) : lineOpen s :=
  ⟨by rw [hl]; rfl, by rw [hl]; rfl, fun _ => ht⟩

theorem ready_state {s : State} (hl : s.sl = State.reset.sl) (ht : s.fu.heldTest = false) (hu : s.cfg.unitAddress = 1) :
    lineReady 1 s := ⟨open_state hl ht, hu.symm, by decide⟩

/-! ## Witnesses: a state and operands that meet the hypotheses of each statement, clause by clause -/

theorem witness_StepRunsFrontCommand :
    ({ State.reset with pending := [.powerOn] } : State).pending = .powerOn :: [] := rfl

theorem witness_EmptyQueueStep_event : dueEvent { State.reset with now := 8 } = some .settleEnd := by decide
theorem witness_EmptyQueueStep_verdict :
    dueEvent (evalAt .form (some (verdictOf .denied)) none) = none
      ∧ (evalAt .form (some (verdictOf .denied)) none).ve.eval.isSome = true := by decide
theorem witness_EmptyQueueStep_stage : dueEvent (evalAt .gate none none) = none
    ∧ (evalAt .gate none none).ve.eval.bind (·.verdict) = none := by decide
theorem witness_EmptyQueueStep_time : dueEvent { State.reset with now := 7 } = none := by decide

/-- Nothing is due: the settle interval runs to 8; a record without window is held; no evaluation, and an end before 8. -/
theorem witness_EmptyQueueStep_none :
    (let s : State := { evalAt .deny none (some 7) with
        ve := { (evalAt .deny none (some 7)).ve with torn := [tornOf (.unresolved 0)] } };
      dueEvent s = none ∧ heldSerial s.ve = some 7 ∧ s.ac.settleEnd = some 8 ∧ s.now < 8)
      ∧ (dueEvent State.reset = none ∧ State.reset.ve.eval = none) := by decide

/-- Four credits, seven bodies and the first of the credits claimed. -/
def fullAisle : Aisle :=
  { withCredits [creditOf (.inAisle 1 0 0) .ab, creditOf (.granted 2 0 none) .ab, creditOf (.reserved false) .ba,
                 creditOf (.reserved true) .ba] with
    bodiesAB := 7
    leaf := .opening
    motion := some { start := 0, timeout := 1300, full := true, blankEnd := none, blankTaken := false } }

theorem witness_StepKeepsCredits : ∃ t, CreditsOk fullAisle ∧ step (withAc fullAisle) = .next t :=
  ⟨_, ⟨by decide, by decide, by decide, by intro d; cases d <;> decide, by decide, by decide⟩, rfl⟩

theorem witness_StepKeepsDriveAndTimers :
    ∃ t, (DriveOk fullAisle ∧ WindowOk fullAisle ∧ IdleOk fullAisle) ∧ step (withAc fullAisle) = .next t :=
  ⟨_, ⟨⟨by decide, by decide, by decide, by decide⟩, by unfold WindowOk; decide, by decide, by decide⟩, rfl⟩

/-- A list of a LOCAL and a STATION entry in a load. -/
def loadingList : DenyList :=
  { entries := [{ serial := 7, reason := 15, source := .localEntry 1 }, { serial := 9, reason := 3, source := .station true }],
    version := 4, loading := true, pending := 5, full := false, mismatch := false }

theorem witness_StepKeepsScreeningTables :
    ∃ t, (DenyOk loadingList ∧ SeenOk (withDenyList loadingList).su.seen) ∧ step (withDenyList loadingList) = .next t :=
  ⟨_, ⟨⟨by decide, by decide, by decide, by decide, by decide, by decide, by decide⟩, by decide, by decide⟩, rfl⟩

/-- Banks of 314 positions, the first ACTIVE and the second READY. -/
def twoBanks : FareUnit :=
  { State.reset.fu with bank0 := { emptyBank with state := .active, version := 1 },
                        bank1 := { emptyBank with state := .ready, version := 2 } }

theorem twoBanks_ok : BanksOk twoBanks := ⟨List.length_replicate, List.length_replicate, by decide⟩

theorem witness_StepKeepsTariffBanks :
    ∃ t, BanksOk twoBanks ∧ twoBanks.activeBank.isSome = true ∧ step { State.reset with fu := twoBanks } = .next t :=
  ⟨_, twoBanks_ok, rfl, rfl⟩

theorem record_checked (number : Nat) : checkStored (record number) := by
  simp [checkStored, record, newRecord, State.reset, recordCheck, recordBody]

theorem twoHeld_ok : JournalOk twoHeld :=
  ⟨by decide, by decide, by decide, by decide, by decide, by decide,
   by intro r hr
      simp only [twoHeld, List.mem_cons, List.not_mem_nil, or_false] at hr
      rcases hr with rfl | rfl <;> exact record_checked _,
   by intro a ha; cases ha⟩

theorem witness_StepKeepsJournal : ∃ t, JournalOk twoHeld ∧ step { State.reset with jn := twoHeld } = .next t :=
  ⟨_, twoHeld_ok, rfl⟩

/-- A valid clock at the end of the last day, in RESYNC with the count 2. -/
def lateClock : TimeLink :=
  { State.reset.tl with valid := true, day := 65535, second := 86399, phase := some 0, mode := .resync, resync := some 2,
                        watchEnd := some 30000 }

theorem witness_StepKeepsClockAndLink : ∃ t, TimeOk lateClock ∧ step (withTl lateClock) = .next t :=
  ⟨_, ⟨by decide, by decide, by decide, by decide, by decide, by decide, by decide, by decide, by decide⟩, rfl⟩

/-- Key 7 ACTIVE and the signing key. -/
def keyed : State :=
  { State.reset with
    su := { State.reset.su with keys := State.reset.su.keys.set 7 { state := .active, word := 0xBEEF#16 } }
    cfg := { factorySettings with signingKey := 7 } }

theorem witness_StepKeepsSettingsAndSigningKey :
    ∃ t, SettingsOk keyed.cfg ∧ signingPresent keyed.su keyed.cfg = true ∧ step keyed = .next t :=
  ⟨_, by unfold SettingsOk; decide, by decide, rfl⟩

/-- The factory's key table, and one with a key. -/
theorem witness_StepKeepsSettings_keys : ∃ t, KeysOk State.reset.su.keys ∧ KeysOk keyed.su.keys ∧ step keyed = .next t :=
  ⟨_, by unfold KeysOk; decide, by unfold KeysOk; decide, rfl⟩

theorem witness_StepKeepsTapStates : ∃ t, TapsOk (portIn .verdictReady (some (verdictOf .denied)))
    ∧ step (portIn .verdictReady (some (verdictOf .denied))) = .next t :=
  ⟨_, ⟨by decide, by intro p; cases p <;> exact ⟨by decide, by decide, by decide, by decide, by decide, by decide, by decide⟩⟩,
   rfl⟩

theorem witness_GrantsOnlyAtCompletion :
    ∃ t, exec (.faultClear .a []) (withAc fullAisle) = .next t ∧ passages (withAc fullAisle).ac = 2 :=
  ⟨_, rfl, by decide⟩

theorem witness_HeldRecordsChangeOnlyByTwo :
    ∃ t, exec (.faultClear .a []) { State.reset with jn := twoHeld } = .next t ∧ twoHeld.held.length = 2 :=
  ⟨_, rfl, by decide⟩

theorem witness_LaneCommandLeavesOtherPort :
    ∃ t, lanePort (.tap .a image) = some .a ∧ Port.a ≠ Port.b ∧ exec (.tap .a image) State.reset = .next t :=
  ⟨_, rfl, by decide, rfl⟩

/-- A LOCKED_OUT aisle with the flag set. -/
def lockedAisle : Aisle := { factoryAisle with lockedOut := true, faultInProgress := true }

theorem witness_FaultStatesEnd_lockout : ∃ t, exec (.restore 1 []) (withAc lockedAisle) = .next t
    ∧ (withAc lockedAisle).ac.lockedOut = true ∧ t.ac.lockedOut = false := ⟨_, rfl, rfl, by decide⟩
theorem witness_FaultStatesEnd_flag :
    ∃ t, exec (.faultClear .a []) (withAc { lockedAisle with lockedOut := false }) = .next t
      ∧ t.ac.faultInProgress = false := ⟨_, rfl, by decide⟩

/-- Every field at the greatest value its bits hold. -/
def widest : CardImage :=
  { serial := 4294967295, format := 255, keyIndex := 7, pass := true, cls := 7, spareBit := true, seq := 65535,
    balance := -8388608, journeyIn := true, overdraft := true, exitRecorded := true, unusedFlags := 31, entryStation := 4095,
    entryZone := 15, entryDay := 65535, entryMinute := 65535, spareByte := 255, exitDay := 65535, exitMinute := 65535,
    spendDay := 65535, daySpend := 65535, passExpiry := 65535, zoneLow := 15, zoneHigh := 15, check := 0xFFFF#16 }

theorem witness_ImageBytesAndFieldsAgree : ImageInRange widest ∧ (imageBytes widest).length = 32 := by
  unfold ImageInRange; decide

/-- The longest payloads of both frames, and characters before the marker. -/
theorem witness_ImageBytesAndFieldsAgree_frames :
    (wellFormed (.tap .b (List.replicate 40 1)) = true
        ∧ laneCommandBytes (.tap .b (List.replicate 40 1)) = some (.b, laneFrameBytes 0x01 (List.replicate 40 1)))
      ∧ (wellFormed (.laneUnknownCommand .a 0xFF []) = true
        ∧ laneCommandBytes (.laneUnknownCommand .a 0xFF []) = some (.a, laneFrameBytes 0xFF []))
      ∧ (wellFormed (.sighting 0 (List.replicate 96 1)) = true
        ∧ stationCommandBytes (.sighting 0 (List.replicate 96 1)) = some (stationFrameBytes 0 0x21 (List.replicate 96 1)))
      ∧ (wellFormed (.forceCheckFault 62) = true
        ∧ stationCommandBytes (.forceCheckFault 62) = some (stationFrameBytes 62 0x48 [0x01#8]))
      ∧ (∀ b ∈ [0x00#8, 0xFF#8], b ≠ 0xA5#8) :=
  ⟨⟨by decide, rfl⟩, ⟨by decide, rfl⟩, ⟨by decide, rfl⟩, ⟨by decide, rfl⟩, by decide⟩

/-- The last byte of an image, a pair of each list of codes, MAINT of another operation, and the undefined codes that border
on the defined ones. -/
theorem witness_ImageBytesAndFieldsAgree_codes :
    (imageBytes widest)[0 + 31]? = some 0xFF#8
      ∧ (0x0A#8, Instr.portReset .b []) ∈ [(0x01#8, Instr.tap .b []), (0x0A#8, .portReset .b []), (0x0A#8, .laneUnknownCommand .b 0x0A [])]
      ∧ (0x29#8, Instr.tariffEnd 0 []) ∈ [(0x20#8, Instr.time 0 []), (0x29#8, .tariffEnd 0 []), (0x49#8, .reset 0 [])]
      ∧ [0x02#8] ≠ [0x01#8]
      ∧ [0x1F#8, 0x2A#8, 0x3F#8, 0x4A#8].map stationCodeDefined = [false, false, false, false]
      ∧ [0x20#8, 0x29#8, 0x40#8, 0x49#8].map stationCodeDefined = [true, true, true, true] := by decide +kernel

/-- What a selection of port A on the reset state shifts out. -/
def shifts (clocked : List Byte) : List Byte :=
  match laneSelection .a clocked State.reset with
  | .next r => r.2
  | _ => []

/-- 00h while a frame is received; after READ_HALT the reply from its length on, cut short, whole, and 00h past its end; after
WRITTEN and in a discarded selection 00h alone (R185). -/
theorem test_selection_shifts :
    (shifts [0x08, 0x00, 0x94, 0xA6] = [0, 0, 0, 0] ∧ shifts [0x08, 0x00, 0x94, 0xA6, 0xFF] = [0, 0, 0, 0, 18])
      ∧ ((shifts ([0x08, 0x00, 0x94, 0xA6] ++ List.replicate 23 0)).drop 4
          = laneReply (0 :: haltBytes State.reset.ac.halt) ++ [0, 0])
      ∧ shifts [0x03, 0x00, 0x48, 0x5C, 0xFF, 0xFF] = [0, 0, 0, 0, 0, 0]
      ∧ shifts [0x08, 0x00, 0x94, 0xA7, 0xFF] = [0, 0, 0, 0, 0] := by decide +kernel

/-- A read and a non-read command with bytes clocked after them, a discarded selection, and none of any byte. -/
theorem witness_ImageBytesAndFieldsAgree_selection :
    (wellFormed (.readHalt .a []) = true ∧ laneCommandBytes (.readHalt .a []) = some (.a, [0x08, 0x00, 0x94, 0xA6]))
      ∧ (wellFormed (.written .b []) = true ∧ laneCommandBytes (.written .b []) = some (.b, [0x03, 0x00, 0x48, 0x5C]))
      ∧ (decodeSelection .a [0x03] = .laneFrameDiscard .a ∧ decodeSelection .b [] = .laneFrameDiscard .b)
      ∧ sentBits [0xA0#8] = [true, false, true, false, false, false, false, false] := by decide +kernel

theorem witness_SignedImageVerifies :
    signingPresent keyed.su keyed.cfg = true ∧ keyed.cfg.signingKey ≤ 7 ∧ ImageInRange widest := by
  unfold ImageInRange; decide

/-- The shift of the check generator, and a body of 30 bytes. -/
theorem witness_SignedImageVerifies_generator :
    (∃ next : Word16 → Bool → Word16,
        ∀ x bit, next x bit = if bit = x.getLsbD 15 then x <<< 1 else x <<< 1 ^^^ 0x1021#16)
      ∧ ((imageBytes widest).take 30).length = 30 := ⟨⟨_, fun _ _ => rfl⟩, by decide⟩

/-- The exit of case 3 at an overdraft limit of 180, the least balance that it allows, and the entry of case 5 card b. -/
theorem witness_AcceptedFareKeepsItsBounds :
    (∃ img, exitFare { bank := case3Bank 180, day := 1, minute := 0, station := 1, zone := 4 } { card with balance := 320 }
        = .done .exit 500 (-180) 0 4 img)
      ∧ ∃ img, case5 606 { card with
          balance := 900, journeyIn := true, entryStation := 310, entryDay := 812, entryMinute := 600 }
        = .done .entry 350 550 3 0 img := ⟨⟨_, rfl⟩, _, rfl⟩

/-- Case 5: PASS_EXPIRED of card f, PASSBACK of card a at the last minute, INSUFFICIENT of card c, and card e. -/
theorem witness_AcceptedFare_entry :
    let e : FareEnv := { bank := case5Bank, day := 812, minute := 605, station := 310, zone := 3 }
    let a : CardImage := { card with balance := 900, journeyIn := true, entryStation := 310, entryDay := 812, entryMinute := 600 }
    let p : CardImage := { card with pass := true, zoneLow := 1, zoneHigh := 4, passExpiry := 812 }
    ({ p with passExpiry := 811 }.pass = true ∧ { p with passExpiry := 811 }.passExpiry < e.day)
      ∧ (a.pass = false ∧ a.journeyIn = true ∧ a.entryStation = e.station
        ∧ (e.day * 1440 + e.minute) - (a.entryDay * 1440 + a.entryMinute) = 5 ∧ 5 ≤ e.bank.passback)
      ∧ (a.balance = 900 ∧ e.bank.unclosedCharge = 350 ∧ (549 : Int) - e.bank.unclosedCharge < e.bank.entryMinimum
        ∧ (e.bank.entryMinimum : Int) ≤ a.balance - e.bank.unclosedCharge)
      ∧ (p.pass = true ∧ e.day ≤ p.passExpiry ∧ p.zoneLow ≤ e.zone ∧ e.zone ≤ p.zoneHigh ∧ p.journeyIn = false) := by decide

/-- The journey of case 1, in its second of three bands; a covered journey; no journey. -/
theorem witness_AcceptedFare_exit :
    (case1Card.journeyIn = true ∧ covered { bank := case1Bank, day := 812, minute := 512, station := 1, zone := 5 } case1Card = false
        ∧ 1 < case1Bank.bandCount ∧ case1Bank.bandStart 1 ≤ case1Card.entryMinute
        ∧ (∀ j, 1 < j → j < case1Bank.bandCount → case1Card.entryMinute < case1Bank.bandStart j))
      ∧ (let c : CardImage := { card with pass := true, journeyIn := true, passExpiry := 812, zoneHigh := 15 }
        c.journeyIn = true ∧ (c.pass && decide (812 ≤ c.passExpiry) && decide (c.zoneLow ≤ c.entryZone ∧ c.entryZone ≤ c.zoneHigh)
          && decide (c.zoneLow ≤ 5 ∧ 5 ≤ c.zoneHigh)) = true)
      ∧ card.journeyIn = false := by
  refine ⟨⟨rfl, by decide, by decide, by decide, ?_⟩, by decide, rfl⟩
  intro j h1 h2
  have hc : case1Bank.bandCount = 3 := by decide
  obtain rfl : j = 2 := by omega
  decide

/-- New balances 0 and above, below 0 with the overdraft used, below the limit, and at the limit. -/
theorem witness_AcceptedFare_balance :
    (0 ≤ (1000 : Int) - (80 : Nat)) ∧ ((-80 : Int) - (20 : Nat) < 0 ∧ { card with overdraft := true }.overdraft = true)
      ∧ ((320 : Int) - (500 : Nat) < -((case3Bank 150).overdraftLimit : Int) ∧ card.overdraft = false)
      ∧ (-((case3Bank 180).overdraftLimit : Int) ≤ (320 : Int) - (500 : Nat) ∧ (320 : Int) - (500 : Nat) < 0) := by decide

/-- The fare stage of a card at port A, with case 5's bank ACTIVE and a clock at day 812, minute 605. -/
def fareStageOf (c : CardImage) (free : Bool) : State :=
  { State.reset with
    cfg := { factorySettings with stationNumber := 310, stationZone := 3 }
    fu := { State.reset.fu with bank0 := case5Bank }
    tl := { State.reset.tl with valid := true, day := 812, second := 605 * 60, phase := some 0 }
    ve := { State.reset.ve with
      eval := some { freshEvaluation .a (imageBytes c) with stage := .fare, freeExit := free } } }

theorem witness_AcceptedFare_stage :
    ((fareStageOf card true).ve.eval.map (fun e => (e.verdict, e.stage, e.freeExit)) = some (none, .fare, true))
      ∧ ((fareStageOf card false).ve.eval.map (fun e => (e.verdict, e.stage, e.freeExit, e.port)) = some (none, .fare, false, .a)
        ∧ (fareStageOf card false).fu.activeBank = some case5Bank)
      ∧ (∃ img, case5 605 (parseImage (imageBytes { card with balance := 900 })) = .done .entry 0 900 3 0 img)
      ∧ case5 605 (parseImage (imageBytes card)) = .refused .insufficient 1 0 0
      ∧ case5 605 (parseImage (imageBytes { card with pass := true, passExpiry := 811 })) = .refused .passExpired 0 0 0 :=
  ⟨by decide, ⟨by decide, rfl⟩, ⟨_, rfl⟩, by decide, by decide⟩

theorem witness_TapIsTaken :
    (image.length = 32 ∧ ((evalAt .gate none none).port .b).tap = .idle
        ∧ (evalAt .gate none none).ve.eval.isSome = true)
      ∧ (State.reset.ve.eval = none ∧ State.reset.ve.queue = [] ∧ State.reset.sl.slot = none
        ∧ State.reset.fu.heldTest = false ∧ (State.reset.port .a).tap = .idle)
      ∧ ((portIn .queued none).port .a).slot = some { image := image, verdict := none }
      ∧ ({ portIn .queued none with ve := { State.reset.ve with queue := [.a] } } : State).ve.queue = .a :: [] := by decide

/-- A TAP and an EVALUATION_BEGIN behind a waiting frame, and behind a held test: both commands before them answer. -/
theorem witness_TapIsTaken_behind :
    (let s : State := { State.reset with sl := { State.reset.sl with slot := some { addr := 1, code := 0x43, payload := [] } } };
      image.length = 32 ∧ (s.port .a).tap = .idle ∧ s.ve.eval = none ∧ s.ve.queue = [] ∧ s.sl.slot.isSome = true)
      ∧ (let s : State := { State.reset with fu := { State.reset.fu with heldTest := true } };
        (s.port .a).tap = .idle ∧ s.ve.eval = none ∧ s.ve.queue = [] ∧ s.fu.heldTest = true)
      ∧ (let s : State := { portIn .queued none with ve := { State.reset.ve with queue := [.a, .b] } };
        s.ve.eval = none ∧ s.ve.queue = .a :: [.b] ∧ (s.port .a).slot = some { image := image, verdict := none })
      ∧ (∀ s : State, ∃ u w, exec .applyWaitingFrame s = .next u ∧ exec .heldActivationTest u = .next w) :=
  ⟨by decide, by decide, by decide, fun _ => ⟨_, _, rfl, rfl⟩⟩

theorem witness_ReportsOutOfPlace :
    (State.reset.port .a).tap = .idle
      ∧ (((portIn .queued none).port .a).tap ≠ .idle ∧ ((portIn .queued none).port .a).tap ≠ .awaitingWrite)
      ∧ ((evalAt .gate none none).port .a).tap = .evaluating
      ∧ ((portIn .committing (some (verdictOf .accept))).port .a).tap = .committing
      ∧ (∃ t, exec (.written .a []) State.reset = .next t ∧ (t.port .a).last ≠ (State.reset.port .a).last)
      ∧ (List.replicate 40 (0 : Byte)).length ≤ 40 :=
  ⟨rfl, by decide, rfl, rfl, ⟨_, rfl, by decide⟩, by decide⟩

/-- A RESUMED evaluation that holds its record, one with the window 0. -/
def resuming : State :=
  { evalAt .torn (some (verdictOf .resumed)) (some 7) with
    ve := { (evalAt .torn (some (verdictOf .resumed)) (some 7)).ve with torn := [tornOf (.unresolved 0)] } }

/-- A state's evaluation is at its verdict, holding a torn record or none, with a code. -/
def atVerdict (s : State) (code : VCode) (held : Option Nat) : Bool :=
  s.ve.eval.map (fun e => (e.verdict.map (·.code), e.held)) == some (some code, held)

theorem witness_VerdictReadyByCode :
    atVerdict (evalAt .form (some (verdictOf .denied)) none) .denied none = true
      ∧ atVerdict (evalAt .form (some (verdictOf .accept)) none) .accept none = true
      ∧ atVerdict resuming .resumed (some (parseImage image).serial) = true
      ∧ unresolvedOf resuming.ve.torn (parseImage image).serial = some (tornOf (.unresolved 0)) := by decide

/-- An evaluation before its first stage, and one before the reservations without a fare result. -/
theorem witness_VerdictReadyByCode_stages :
    (evalAt .gate none none).ve.eval.map (·.verdict) = some none
      ∧ (evalAt .reservations none none).ve.eval.map (fun e => (e.verdict, e.fare)) = some (none, none) := by decide

/-- The event that finds no verdict makes the stages first: without a signing key the gate refuses. -/
theorem test_verdict_ready_makes_stages : ∃ t, exec .verdictReadyEvent (evalAt .gate none none) = .next t
    ∧ (t.port .a).tap = .verdictReady ∧ ((t.port .a).slot.bind (·.verdict)).map (fun v => (v.code, v.detail))
      = some (.outOfService, 2) := ⟨_, rfl, by decide, by decide⟩

/-- A refused verdict whose record stays (windows remain, and none is held), and one whose record expires. -/
theorem witness_VerdictReady_held :
    (∀ n r, (some 7 : Option Nat) = some n → unresolvedOf [tornOf (.unresolved 5)] n = some r → r.state ≠ .unresolved 0)
      ∧ atVerdict (evalAt .torn (some (verdictOf .damaged)) (some 7)) .damaged (some 7) = true
      ∧ unresolvedOf [tornOf (.unresolved 0)] 7 = some (tornOf (.unresolved 0))
      ∧ (verdictOf .damaged).code ≠ .accept ∧ (verdictOf .damaged).code ≠ .resumed := by
  refine ⟨?_, by decide, by decide, by decide, by decide⟩
  rintro n r h hr
  cases h
  obtain rfl : tornOf (.unresolved 5) = r := Option.some.inj hr
  decide

/-- An ACCEPT that waits to be read, with a number of torn records in the table. -/
def unread (count : Nat) : State :=
  { portIn .verdictReady (some (verdictOf .accept)) with
    ve := { State.reset.ve with torn := List.replicate count (tornOf (.unresolved 5)) } }

theorem witness_ReadVerdictByCode :
    (((portIn .verdictReady (some (verdictOf .denied))).port .a).tap = .verdictReady
        ∧ ((portIn .verdictReady (some (verdictOf .denied))).port .a).slot
            = some { image := image, verdict := some (verdictOf .denied) } ∧ (verdictOf .denied).code ≠ .accept)
      ∧ (((unread 7).port .a).tap = .verdictReady
        ∧ ((unread 7).port .a).slot = some { image := image, verdict := some (verdictOf .accept) }
        ∧ (verdictOf .accept).code = .accept ∧ (unread 7).ve.torn.length < 8)
      ∧ (((portIn .awaitingWrite (some (verdictOf .accept))).port .a).tap = .awaitingWrite
        ∧ ((portIn .awaitingWrite (some (verdictOf .accept))).port .a).slot
            = some { image := image, verdict := some (verdictOf .accept) })
      ∧ (((portIn .committing (some (verdictOf .accept))).port .a).tap ≠ .verdictReady
        ∧ ((portIn .committing (some (verdictOf .accept))).port .a).tap ≠ .awaitingWrite) := by decide

/-- The first and the last code, with and without an image and a direction, at the ends of what the fields hold. -/
theorem witness_ReadVerdict_layout :
    ([VCode.accept, .resumed, .emergency, .outOfService, .offline, .badFormat, .cardInUse, .damaged, .unknownKey, .badCheck,
        .denied, .clone, .exhausted, .passback, .passExpired, .insufficient, .aisleFull][16]? = some (verdictOf .aisleFull).code
        ∧ [none, some Dir.ab, some Dir.ba][1]? = some (verdictOf .aisleFull).dir ∧ (verdictOf .aisleFull).image = none)
      ∧ (verdictOf .accept).image.isSome = true
      ∧ verdictBytes { verdictOf .insufficient with charge := 65793, balance := -8388608, dir := some .ba, version := 65535 }
          = [16, 0, 0, 1, 1, 1, 0x80#8, 0, 0, 2, 0xFF#8, 0xFF#8] := by decide

/-- A full table: the PENDING record and the one the evaluation holds are passed, the next UNRESOLVED one is the oldest. -/
def fullTable : State :=
  { unread 5 with ve := { State.reset.ve with
      eval := some { freshEvaluation .b image with held := some 8 }
      torn := { tornOf (.pending .b) with serial := 9 } :: { tornOf (.unresolved 1) with serial := 8 }
        :: { tornOf (.unresolved 2) with serial := 10 } :: List.replicate 5 (tornOf (.unresolved 5)) } }

theorem witness_ReadVerdict_full :
    (fullTable.port .a).tap = .verdictReady
      ∧ (fullTable.port .a).slot = some { image := image, verdict := some (verdictOf .accept) } ∧ 8 ≤ fullTable.ve.torn.length
      ∧ fullTable.ve.torn = [{ tornOf (.pending .b) with serial := 9 }, { tornOf (.unresolved 1) with serial := 8 }]
          ++ { tornOf (.unresolved 2) with serial := 10 } :: List.replicate 5 (tornOf (.unresolved 5))
      ∧ heldSerial fullTable.ve ≠ some 10
      ∧ (∃ q, ({ tornOf (.pending .b) with serial := 9 } : TornRecord).state = .pending q) ∧ heldSerial fullTable.ve = some 8 :=
  ⟨by decide, by decide, by decide, rfl, by decide, ⟨.b, rfl⟩, by decide⟩

theorem witness_WrittenRequestsTheFare :
    ((portIn .awaitingWrite (some (verdictOf .accept))).port .a).tap = .awaitingWrite
      ∧ ((portIn .awaitingWrite (some (verdictOf .accept))).port .a).slot
          = some { image := image, verdict := some (verdictOf .accept) }
      ∧ (verdictOf .accept).image = some (imageBytes { card with seq := 58 })
      ∧ (verdictOf .accept).kind = some .entry := by decide

/-- A Journal with no record and a number of slots reserved. -/
def reservedOf (n : Nat) : Journal := { State.reset.jn with reserved := n }

/-- Room for one unreserved append, and none: the last free slot taken, or 6 unreserved appends queued. -/
theorem witness_WrittenRequests_room :
    ((reservedOf 1023).queue.countP (fun a => a.commit.isNone) < 6
        ∧ min (1024 - (reservedOf 1023).held.length - (reservedOf 1023).queue.length - (reservedOf 1023).reserved)
            (4294967295 - (reservedOf 1023).assigned - (reservedOf 1023).reserved) = 1)
      ∧ freeSlots (reservedOf 1024) = 0
      ∧ ¬ ({ State.reset.jn with queue := List.replicate 6 { record := record 1, commit := none } } : Journal).queue.countP
          (fun a => a.commit.isNone) < 6
      ∧ freeSlots (reservedOf 991) = 33 ∧ freeSlots (reservedOf 992) = 32
      ∧ freeSlots { State.reset.jn with assigned := 4294967295 } = 0
      ∧ State.reset.tl.valid = false ∧ lateClock.valid = true := by decide

/-- An ACCEPT in a tap state with its confirm timer running. -/
def confirming (tap : TapState) : State :=
  { State.reset with portA := { (portIn tap (some (verdictOf .accept))).portA with confirmEnd := some 2000 } }

theorem witness_AbandonsByTheirCommands :
    (((confirming .awaitingWrite).port .a).tap = .awaitingWrite
        ∧ ((confirming .awaitingWrite).port .a).confirmEnd = some 2000)
      ∧ (((confirming .verdictReady).port .a).tap = .verdictReady
        ∧ holdsAccept ((confirming .verdictReady).port .a) = true
        ∧ ((confirming .verdictReady).port .a).confirmEnd = some 2000) := by decide

theorem witness_Abandons_others :
    ((portIn .queued none).port .a).tap = .queued
      ∧ (((portIn .verdictReady (some (verdictOf .resumed))).port .a).tap = .verdictReady
        ∧ holdsAccept ((portIn .verdictReady (some (verdictOf .resumed))).port .a) = false) := by decide

theorem witness_PortResetByTapState :
    ((State.reset.port .a).tap = .idle ∧ ((portIn .committing (some (verdictOf .accept))).port .a).tap = .committing)
      ∧ ((portIn .queued none).port .a).tap = .queued
      ∧ (((evalAt .reservations none none).port .a).tap = .evaluating
        ∧ (evalAt .reservations none none).ve.eval.map (fun e => (e.port, e.held)) = some (.a, none))
      ∧ (((portIn .verdictReady (some (verdictOf .denied))).port .a).tap = .verdictReady
        ∧ holdsAccept ((portIn .verdictReady (some (verdictOf .denied))).port .a) = false) := by decide

/-- An evaluation that holds a torn record: one with a window, one without, and one whose record has gone. -/
theorem witness_PortReset_held :
    (((evalAt .deny none (some 7)).port .a).tap = .evaluating
        ∧ (evalAt .deny none (some 7)).ve.eval.map (fun e => (e.port, e.held)) = some (.a, some 7))
      ∧ (unresolvedOf [tornOf (.unresolved 0)] 7 = some (tornOf (.unresolved 0)) ∧ (tornOf (.unresolved 0)).state = .unresolved 0)
      ∧ (unresolvedOf [tornOf (.unresolved 1)] 7 = some (tornOf (.unresolved 1)) ∧ (tornOf (.unresolved 1)).state ≠ .unresolved 0)
      ∧ unresolvedOf [tornOf (.pending .b)] 7 = none := by decide

theorem witness_ReadStatusAndHalt : (List.replicate 40 (0 : Byte)).length ≤ 40 := by decide

/-- The codes at the ends of their lists. -/
theorem witness_ReadStatus_layout :
    ([Leaf.closed, .opening, .opened, .closing, .released][4]? = some State.reset.ac.leaf
        ∧ [none, some Dir.ab, some Dir.ba][1]? = some (direction fullAisle)
        ∧ [LinkMode.unsynced, .resync, .linked, .standalone][0]? = some State.reset.tl.mode
        ∧ [none, some Violation.tailgate, some Violation.contraflow][0]? = some fullAisle.violation
        ∧ [TapState.idle, .queued, .evaluating, .verdictReady, .awaitingWrite, .committing][0]? = some (State.reset.port .a).tap)
      ∧ ([none, some HaltCode.doubleFault, some HaltCode.stopConflict][0]? = some State.reset.ac.halt.code
        ∧ [none, some Target.toOpen, some Target.toClosed][0]? = some State.reset.ac.halt.target
        ∧ [Leaf.closed, .opening, .opened, .closing, .released][0]? = some State.reset.ac.halt.leaf) := by decide

/-- An opening aisle with 7 bodies A to B, a claimed, a granted and two reserved entries. -/
theorem test_status_layout : statusBytes (statusRecord (withAc fullAisle) .a) = [1, 1, 2, 1, 1, 7, 0, 0, 0, 0, 0] := by decide

/-- Attention by an unread verdict, without a snapshot, by a difference, and none: the snapshot shows the status record. -/
def seenStatus (s : State) : State := s.setPort .a { s.port .a with snapshot := some (statusRecord s .a) }

theorem witness_ReadStatus_attention :
    (attention (portIn .verdictReady (some (verdictOf .denied))) .a = true ∧ attention State.reset .a = true)
      ∧ attention (seenStatus State.reset) .a = false
      ∧ attention { seenStatus State.reset with jn := suspectJournal } .a = true
      ∧ (∃ t, exec (.readStatus .a []) State.reset = .next t ∧ attention t .a = false) :=
  ⟨by decide, by decide, by decide, _, rfl, by decide⟩

theorem witness_FaultClearByLockout : lineReady 1 State.reset ∧ lineReady 1 (withAc lockedAisle)
    ∧ State.reset.ac.lockedOut = false ∧ (withAc lockedAisle).ac.lockedOut = true :=
  ⟨ready_reset, ready_state rfl rfl rfl, rfl, rfl⟩

/-- The reset state with a frame in the receive slot. -/
def waiting : State :=
  { State.reset with sl := { State.reset.sl with slot := some { addr := 1, code := 0x43, payload := [] } } }

theorem witness_FramesTurnedAway :
    ((List.replicate 31 (0 : Byte)).length ≤ 40 ∧ (List.replicate 31 (0 : Byte)).length ≠ 32)
      ∧ ((List.replicate 40 (0 : Byte)).length ≤ 40 ∧ (List.replicate 40 (0 : Byte)).length ≠ 32)
      ∧ (image.length = 32 ∧ ((portIn .queued none).port .a).tap ≠ .idle)
      ∧ (waiting.sl.tx = none ∧ waiting.sl.slot.isSome = true ∧ (1 : Byte).toNat = waiting.cfg.unitAddress ∧ (1 : Byte) ≠ 0)
      ∧ (lineReady 1 State.reset ∧ stationCodeDefined 0x1F = false ∧ stationCodeDefined 0x4A = false)
      ∧ (([0x00#8] : List Byte).length = 1 ∧ [0x00#8] ≠ [0x01#8]) :=
  ⟨by decide, by decide, by decide, by decide, ⟨ready_reset, by decide, by decide⟩, by decide⟩

/-- A frame behind a waiting one during an evaluation, payloads where none belongs, and frames cut short, too long or wrong. -/
theorem witness_FramesTurnedAway_bytes :
    ({ evalAt .gate none none with sl := waiting.sl }.ve.eval.isSome = true
        ∧ { evalAt .gate none none with sl := waiting.sl }.sl.slot.isSome = true ∧ waiting.sl.tx = none)
      ∧ ([0x00#8] : List Byte) ≠ []
      ∧ (([0x03#8] : List Byte).length < 2 ∧ 40 < (41#8).toNat ∧ ([0x48#8] : List Byte).length < (0#8).toNat + 2
        ∧ (0#8).toNat = ([] : List Byte).length ∧ (0#16) ≠ laneCheck 0x03 [])
      ∧ ((∀ b ∈ [0x00#8, 0x01#8], b ≠ 0xA5#8) ∧ ([0x01#8, 0x40#8] : List Byte).length < 3 ∧ 96 < (97#8).toNat
        ∧ ([0xF6#8] : List Byte).length < (0#8).toNat + 2 ∧ (0#16) ≠ frameCheck 1 0x40 []) := by decide +kernel

/-- A reply being sent; another unit's address; an addressed and an undefined code at address 0; a broadcast on a full slot. -/
theorem witness_FramesTurnedAway_lost :
    ({ State.reset.sl with tx := some { bytes := [], resets := false } } : StationLine).tx.isSome = true
      ∧ ((2 : Byte) ≠ 0 ∧ (2 : Byte).toNat ≠ State.reset.cfg.unitAddress)
      ∧ ((0x1F : Byte).toNat < 32 ∧ 41 < (0x2A : Byte).toNat ∧ 41 < (0x49 : Byte).toNat)
      ∧ (32 ≤ (0x20 : Byte).toNat ∧ (0x29 : Byte).toNat ≤ 41 ∧ waiting.sl.tx = none ∧ waiting.sl.slot.isSome = true
        ∧ { evalAt .gate none none with sl := waiting.sl }.ve.eval.isSome = true) := by decide

/-- The service gate of port A's tap with an aisle, keys and settings, a fare unit, a journal and a clock. -/
def gateOf (a : Aisle) (k : State) (f : FareUnit) (j : Journal) (t : TimeLink) : State :=
  { evalAt .gate none none with ac := a, su := k.su, cfg := k.cfg, fu := f, jn := j, tl := t }

/-- What the gate of a state reads: emergency, lockout, signing key, SUSPECT, a bank, the clock, the entry stop. -/
def gateReads (s : State) : List Bool :=
  [emergencyActive s.ac, s.ac.lockedOut, signingPresent s.su s.cfg, s.jn.suspect, s.fu.activeBank.isSome, s.tl.valid,
   s.tl.entryStop]

theorem witness_GateTestsInOrder :
    (∃ e e', (evalAt .form none none).ve.eval = some e ∧ e.stage ≠ .gate ∧ (evalStep (evalAt .form none none)).ve.eval = some e')
      ∧ (evalAt .gate none none).ve.eval.map (fun e => (e.port, e.verdict, e.stage)) = some (.a, none, .gate)
      ∧ gateReads (gateOf { factoryAisle with stationEmergency := true } keyed twoBanks State.reset.jn lateClock)
          = [true, false, true, false, true, true, false]
      ∧ gateReads (gateOf lockedAisle keyed twoBanks State.reset.jn lateClock) = [false, true, true, false, true, true, false]
      ∧ gateReads (gateOf factoryAisle State.reset twoBanks State.reset.jn lateClock)
          = [false, false, false, false, true, true, false]
      ∧ gateReads (gateOf factoryAisle keyed twoBanks suspectJournal lateClock)
          = [false, false, true, true, true, true, false]
      ∧ gateReads (gateOf factoryAisle keyed State.reset.fu State.reset.jn lateClock)
          = [false, false, true, false, false, true, false]
      ∧ gateReads (gateOf factoryAisle keyed twoBanks State.reset.jn State.reset.tl)
          = [false, false, true, false, true, false, false]
      ∧ gateReads (gateOf factoryAisle keyed twoBanks State.reset.jn { lateClock with entryStop := true })
          = [false, false, true, false, true, true, true]
      ∧ gateReads (gateOf factoryAisle keyed twoBanks State.reset.jn lateClock)
          = [false, false, true, false, true, true, false] :=
  ⟨⟨_, _, rfl, by decide, rfl⟩, by decide, by decide, by decide, by decide, by decide, by decide, by decide, by decide,
   by decide⟩

/-- A tap at port B in emergency: its gate passes SUSPECT and the want of a tariff. -/
def freeGate : State :=
  { evalAt .gate none none with
    ac := { factoryAisle with stationEmergency := true }
    jn := suspectJournal
    tl := lateClock
    su := keyed.su
    cfg := keyed.cfg
    ve := { State.reset.ve with eval := some (freshEvaluation .b image) } }

theorem witness_GateTests_free :
    freeGate.ve.eval.map (fun e => (e.port, e.verdict, e.stage)) = some (.b, none, .gate)
      ∧ gateReads freeGate = [true, false, true, true, false, true, false]
      ∧ (evalStep freeGate).ve.eval.map (fun e => (e.freeExit, e.stage, e.verdict)) = some (true, .form, none) := by decide

/-- An evaluation past its gate whose stage leaves an evaluation. -/
theorem witness_GateTests_later : ∃ e', (evalAt .form none none).ve.eval.map (·.stage) = some .form
    ∧ (evalStep (evalAt .form none none)).ve.eval = some e' := ⟨_, rfl, rfl⟩

/-- A seen entry of serial 7. -/
def seenOf (seq : Nat) (check : Word16) : SeenEntry := { serial := 7, seq := seq, check := check, stamp := 0, second := 0 }

/-- The evaluation of an image before a stage, on a state. -/
def stageOf (stage : Stage) (c : CardImage) (s : State) : State :=
  { s with ve := { s.ve with eval := some { freshEvaluation .a (imageBytes c) with stage := stage } } }

theorem witness_StagesJudgeInOrder_early :
    (stageOf .form card State.reset).ve.eval.map (fun e => (e.verdict, e.stage)) = some (none, .form)
      ∧ formDetail (parseImage image) = none ∧ formDetail (parseImage (imageBytes { card with format := 2 })) = some 2
      ∧ (∃ p, ((parseImage image).serial, p) ∈ [(7, Port.b)] ∧ p ≠ .a)
      ∧ (∀ p, ((parseImage image).serial, p) ∈ [(8, Port.b), (7, Port.a)] → p = .a)
      ∧ unresolvedOf [tornOf (.pending .a)] (parseImage image).serial = none
      ∧ usableKey State.reset.su (parseImage image).keyIndex = none
      ∧ usableKey keyed.su (parseImage (imageBytes { card with keyIndex := 7 })).keyIndex = some 0xBEEF#16 :=
  ⟨by decide, by decide, by decide, ⟨.b, by decide, by decide⟩, by intro p; cases p <;> decide, by decide, by decide, by decide⟩

/-- The torn stage of an image with a record of its serial: key absent, check wrong, new image, old image, another. -/
theorem witness_StagesJudgeInOrder_torn :
    (stageOf .torn card State.reset).ve.eval.map (fun e => (e.verdict, e.stage)) = some (none, .torn)
      ∧ unresolvedOf [tornOf (.unresolved 5)] (parseImage image).serial = some (tornOf (.unresolved 5))
      ∧ ((parseImage (imageBytes { card with seq := 58, check := 1 })).seq = (tornOf (.unresolved 5)).newSeq
        ∧ (parseImage (imageBytes { card with seq := 58, check := 1 })).check = (tornOf (.unresolved 5)).newCheck)
      ∧ ((parseImage image).seq = (tornOf (.unresolved 5)).oldSeq ∧ (parseImage image).check = (tornOf (.unresolved 5)).oldCheck
        ∧ ¬ ((parseImage image).seq = (tornOf (.unresolved 5)).newSeq))
      ∧ ¬ ((parseImage (imageBytes { card with seq := 59 })).seq = (tornOf (.unresolved 5)).newSeq)
      ∧ ¬ ((parseImage (imageBytes { card with seq := 59 })).seq = (tornOf (.unresolved 5)).oldSeq) := by decide

/-- The image that key 7 signs, and the same image with another check word. -/
theorem witness_StagesJudgeInOrder_check :
    checkWord 0xBEEF#16 (signedBytes keyed card) = (parseImage (signedBytes keyed card)).check
      ∧ checkWord 0xBEEF#16 (imageBytes { card with keyIndex := 7 })
          ≠ (parseImage (imageBytes { card with keyIndex := 7 })).check := by decide +kernel

theorem witness_StagesJudgeInOrder_late :
    (denyLookup loadingList.entries (parseImage image).serial).isSome = true
      ∧ denyLookup State.reset.su.deny.entries (parseImage image).serial = none
      ∧ seenLookup [seenOf 57 0] (parseImage image).serial = some (seenOf 57 0)
      ∧ seenLookup [] (parseImage image).serial = none
      ∧ (seenOf 56 0).seq < (parseImage image).seq
      ∧ ((parseImage image).seq = (seenOf 57 0).seq ∧ (parseImage image).check = (seenOf 57 0).check)
      ∧ (parseImage image).seq < (seenOf 58 0).seq
      ∧ ((parseImage image).seq = (seenOf 57 1).seq ∧ (parseImage image).check ≠ (seenOf 57 1).check)
      ∧ (parseImage (imageBytes { card with seq := 65535 })).seq = 65535
      ∧ (parseImage (imageBytes { card with seq := 65534 })).seq ≠ 65535 := by decide

/-- An entry that is ABSENT and one that is not, the last of the eight; the codes of a finding and of an outcome at both ends;
a serial without UNRESOLVED record, for want of a record and with a PENDING one. -/
theorem witness_StagesJudgeInOrder_helpers :
    (7 < keyed.su.keys.length ∧ usableKey keyed.su 0 = none ∧ (usableKey keyed.su 7).isSome = true)
      ∧ ([CloneKind.rollback, .divergent][0]? = some .rollback ∧ [CloneKind.rollback, .divergent][1]? = some .divergent)
      ∧ ([Listing.listed, .alreadyListed, .notListed][0]? = some .listed
        ∧ [Listing.listed, .alreadyListed, .notListed][2]? = some .notListed)
      ∧ (unresolvedOf [] 7 = none ∧ unresolvedOf [tornOf (.pending .b)] 7 = none
        ∧ unresolvedOf [tornOf (.unresolved 0)] 7 = some (tornOf (.unresolved 0))) := by decide

/-- The bounds of each form test: serials, formats, minutes and zones next to the ones that are refused. -/
theorem test_form_bounds :
    ([1, 4294967294].map (fun n => formDetail { card with serial := n }) = [none, none]
        ∧ formDetail { card with serial := 4294967295 } = some 1 ∧ formDetail { card with format := 0 } = some 2)
      ∧ (formDetail { card with spareBit := true } = some 3 ∧ formDetail { card with spareByte := 1 } = some 3)
      ∧ (formDetail { card with exitRecorded := true, exitMinute := 1440 } = some 4
        ∧ formDetail { card with exitRecorded := true, exitMinute := 1439 } = none
        ∧ formDetail { card with pass := true, zoneLow := 9, zoneHigh := 9 } = none) := by decide

/-- A fare result. -/
def fareOf : FareResult :=
  { kind := .entry, charge := 80, balance := 920, version := 9, entryZone := 3, exitZone := 0, image := image }

/-- The reservations before a queue of credits and a Journal with exactly 33 free slots. -/
def reserving (cs : List Credit) : State :=
  { State.reset with
    ac := withCredits cs
    jn := { State.reset.jn with reserved := 1024 - 33 }
    ve := { State.reset.ve with
      eval := some { freshEvaluation .a image with stage := .reservations, fare := some fareOf } } }

theorem witness_StagesJudgeInOrder_reservations :
    (reserving fullAisle.credits).ve.eval.map (fun e => (e.verdict, e.stage, e.fare, e.freeExit))
        = some (none, .reservations, some fareOf, false)
      ∧ (reserving fullAisle.credits).ac.credits.length = 4
      ∧ (reserving (fullAisle.credits.take 3)).ac.credits.length < 4
      ∧ freeSlots (reserving (fullAisle.credits.take 3)).jn = 33 := by decide

/-- The reservations of a tap at the last slot too few: one more is reserved, and the queue has no entry of the port. -/
def noRoom (cs : List Credit) : State := { reserving cs with jn := { State.reset.jn with reserved := 1024 - 32 } }

theorem witness_StagesJudgeInOrder_full :
    freeSlots (noRoom []).jn = 32 ∧ (noRoom []).ac.credits.length < 4
      ∧ (∀ c ∈ (noRoom [{ creditOf (.reserved false) .ba with port := .b }]).ac.credits, isReservedPort .a c = false)
      ∧ (tornOf (.unresolved 5)).dir = some .ab ∧ ({ tornOf (.unresolved 5) with dir := none } : TornRecord).dir.isSome = false := by
  decide

/-- A port in COMMITTING with its fare append queued, and its torn record held. -/
def committingOf (code : VCode) : State :=
  let reserved : Journal := { State.reset.jn with reserved := 1 }
  { portIn .committing (some (verdictOf code)) with
    jn := requestFare State.reset.tl .plain .a { kind := .entry, side := .a } reserved
    ve := { State.reset.ve with inFlight := [(7, .a)], torn := [tornOf (.pending .a)] } }

theorem witness_CompletionCommits :
    (requestAlert State.reset.tl { kind := .lockout, side := .none } State.reset.jn).queue.map (·.commit) = [none]
      ∧ ((committingOf .accept).jn.queue.map (·.commit) = [some .a]
        ∧ ((committingOf .accept).port .a).slot = some { image := image, verdict := some (verdictOf .accept) }
        ∧ (verdictOf .accept).code = .accept ∧ (verdictOf .accept).image = some (imageBytes { card with seq := 58 }))
      ∧ ((committingOf .resumed).jn.queue.map (·.commit) = [some .a]
        ∧ ((committingOf .resumed).port .a).slot = some { image := image, verdict := some (verdictOf .resumed) }
        ∧ (verdictOf .resumed).code = .resumed ∧ (verdictOf .resumed).image = none
        ∧ pendingOf (committingOf .resumed).ve.torn .a = some (tornOf (.pending .a))) := by decide

/-- The ACCEPT of port A in COMMITTING meets every condition of the taps, the Torn-Write Table and the Journal. -/
theorem committing_taps : TapsOk (committingOf .accept) :=
  ⟨by decide, fun p => by cases p <;> exact ⟨by decide, by decide, by decide, by decide, by decide, by decide, by decide⟩⟩

theorem committing_journal : JournalOk (committingOf .accept).jn := by
  refine ⟨by decide, by decide, by decide, by decide, by decide, by decide, ?_, ?_⟩
  · intro r hr; cases hr
  intro a ha
  simp only [committingOf, requestFare, enqueue, State.reset, List.nil_append, List.mem_singleton] at ha
  subst ha
  simp [checkStored, newRecord, recordCheck, recordBody]

theorem committing_torn : TornOk (committingOf .accept) := by
  refine ⟨by decide, by decide, fun p => by cases p <;> decide, ?_, fun p => by cases p <;> decide, ⟨?_, ?_⟩, ?_⟩
  · intro r hr p hp
    obtain rfl : r = tornOf (.pending .a) := by simpa [committingOf] using hr
    cases hp
    decide
  · intro n p
    cases p
    · constructor
      · intro h
        obtain rfl : n = 7 := by simpa [committingOf] using h
        decide
      · rintro ⟨-, rfl⟩
        decide
    · constructor
      · intro h; simp [committingOf] at h
      · rintro ⟨h | h, -⟩ <;> cases h
  · rintro n ⟨-, h⟩
    simp [committingOf] at h
  · intro e he; cases he

/-- The conditions of the taps, the table and the Journal together, with an append that completes a commit queued. -/
theorem witness_StepKeepsJournal_room : ∃ t, JournalOk (committingOf .accept).jn ∧ TapsOk (committingOf .accept)
    ∧ TornOk (committingOf .accept) ∧ RoomOk (committingOf .accept) ∧ (committingOf .accept).jn.queue.length = 1
    ∧ step (committingOf .accept) = .next t :=
  ⟨_, committing_journal, committing_taps, committing_torn, by unfold RoomOk; decide, by decide, rfl⟩

theorem witness_StepKeepsTapStates_torn : ∃ t, TapsOk (committingOf .accept) ∧ TornOk (committingOf .accept)
    ∧ step (committingOf .accept) = .next t := ⟨_, committing_taps, committing_torn, rfl⟩

theorem witness_GrantAndReleaseByBar :
    (fullAisle.credits = [creditOf (.inAisle 1 0 0) .ab, creditOf (.granted 2 0 none) .ab]
          ++ creditOf (.reserved false) .ba :: [creditOf (.reserved true) .ba]
        ∧ (∀ x ∈ [creditOf (.inAisle 1 0 0) .ab, creditOf (.granted 2 0 none) .ab], isReservedPort .a x = false)
        ∧ (creditOf (.reserved false) .ba).port = .a)
      ∧ ((withCredits [creditOf (.reserved true) .ba]).credits = [] ++ creditOf (.reserved true) .ba :: []
        ∧ (creditOf (.reserved true) .ba).port = .a) := by decide

/-- A held test with a READY bank, on a clock. -/
def testHeld (t : TimeLink) (day : Nat) : State :=
  { State.reset with
    tl := t
    fu := { twoBanks with heldTest := true, bank1 := { emptyBank with state := .ready, version := 2, effDay := day } } }

theorem testHeld_ok (t : TimeLink) (day : Nat) : BanksOk (testHeld t day).fu :=
  ⟨List.length_replicate, List.length_replicate, by simp [testHeld, twoBanks]⟩

theorem witness_HeldTestActivates :
    ((testHeld lateClock 65535).fu.heldTest = true ∧ (testHeld lateClock 65535).ve.eval = none
        ∧ BanksOk (testHeld lateClock 65535).fu ∧ (testHeld lateClock 65535).fu.bankIn .ready = some true
        ∧ (testHeld lateClock 65535).tl.valid = true
        ∧ ((testHeld lateClock 65535).fu.bank true).effDay ≤ (testHeld lateClock 65535).tl.day)
      ∧ ((testHeld State.reset.tl 0).fu.heldTest = true ∧ (testHeld State.reset.tl 0).tl.valid = false)
      ∧ (testHeld { lateClock with day := 4 } 5).tl.day < ((testHeld { lateClock with day := 4 } 5).fu.bank true).effDay :=
  ⟨⟨rfl, rfl, testHeld_ok _ _, by decide, rfl, by decide⟩, ⟨rfl, rfl⟩, by decide⟩

theorem witness_TableFramesWait :
    (acceptedFrame { addr := 1, code := 0x43, payload := List.replicate 96 0 } (evalAt .gate none none) = true
        ∧ (evalAt .gate none none).sl.tx = none ∧ (evalAt .gate none none).sl.slot = none
        ∧ (evalAt .gate none none).ve.eval.isSome = true)
      ∧ (acceptedFrame { addr := 0, code := 0x21, payload := [] } (evalAt .gate none none) = true)
      ∧ (acceptedFrame { addr := 1, code := 0x43, payload := [] } waiting = true ∧ waiting.sl.tx = none
        ∧ waiting.sl.slot = some { addr := 1, code := 0x43, payload := [] } ∧ waiting.ve.eval = none) := by decide

/-- A POLL and a TIME behind a waiting CONFIGURE, whose reply is being sent then; and behind a waiting SIGHTING, without. -/
theorem witness_TableFramesWait_second :
    (∃ u first, exec .applyWaitingFrame waiting = .next u ∧ u.sl.tx = some first ∧ u.sl.slot = none
        ∧ waiting.sl.tx = none ∧ waiting.sl.slot.isSome = true ∧ waiting.ve.eval = none
        ∧ acceptedFrame { addr := 1, code := 0x40, payload := [] } waiting = true
        ∧ acceptedFrame { addr := 1, code := 0x40, payload := [] } u = true)
      ∧ (let s : State := { State.reset with sl := { State.reset.sl with slot := some { addr := 0, code := 0x21, payload := [] } } }
        ∃ u, exec .applyWaitingFrame s = .next u ∧ u.sl.tx = none ∧ s.sl.tx = none ∧ s.sl.slot.isSome = true ∧ s.ve.eval = none
          ∧ acceptedFrame { addr := 0, code := 0x20, payload := [] } s = true
          ∧ acceptedFrame { addr := 0, code := 0x20, payload := [] } u = true) :=
  ⟨⟨_, _, rfl, rfl, rfl, rfl, rfl, rfl, by decide, by decide⟩, ⟨_, rfl, rfl, rfl, rfl, rfl, by decide, by decide⟩⟩

/-- A frame behind a held test alone, and a waiting frame beside a held test. -/
theorem witness_TableFramesWait_test :
    (∃ u w, exec .applyWaitingFrame (testHeld lateClock 5) = .next u ∧ exec .heldActivationTest u = .next w ∧ w.sl.tx = none
        ∧ (testHeld lateClock 5).sl.tx = none ∧ (testHeld lateClock 5).fu.heldTest = true ∧ (testHeld lateClock 5).ve.eval = none
        ∧ acceptedFrame { addr := 0, code := 0x27, payload := [0, 3, 0, 0] } (testHeld lateClock 5) = true
        ∧ acceptedFrame { addr := 0, code := 0x27, payload := [0, 3, 0, 0] } w = true)
      ∧ (let s : State := { testHeld lateClock 5 with sl := waiting.sl };
        acceptedFrame { addr := 1, code := 0x43, payload := [] } s = true ∧ s.sl.tx = none ∧ s.fu.heldTest = true
          ∧ s.sl.slot = some { addr := 1, code := 0x43, payload := [] } ∧ s.ve.eval = none) :=
  ⟨⟨_, _, rfl, rfl, by decide, by decide, by decide, by decide, by decide, by decide⟩, by decide⟩

/-- A TARIFF_BEGIN after the evaluation's end finds the held test made: the READY bank that is due is ACTIVE, and the load takes
the other one (R39, R46). -/
theorem test_begin_after_held_test : ∃ t, exec (.tariffBegin 0 [0, 3, 0, 0]) (testHeld lateClock 5) = .next t
    ∧ (t.fu.bank1.state, t.fu.bank1.version) = (.active, 2) ∧ (t.fu.bank0.state, t.fu.bank0.version) = (.loading, 3)
    ∧ t.fu.heldTest = false := ⟨_, rfl, by decide, by decide, by decide⟩

/-- The frame behind the waiting one is taken after the evaluation's end: OVERRUN stays clear, and both replies are formed. -/
theorem test_second_frame_taken : ∃ t, exec (.poll 1 []) waiting = .next t ∧ t.sl.overrun = false ∧ t.sl.slot = none
    ∧ (t.sl.tx.map (fun r => r.bytes.getD 2 0)) = some 0x43 ∧ (t.sl.next.map (fun r => r.bytes.getD 2 0)) = some 0x40 :=
  ⟨_, rfl, rfl, rfl, rfl, rfl⟩

/-- During the evaluation it is discarded with OVERRUN. -/
theorem test_second_frame_overrun :
    exec (.poll 1 []) { evalAt .gate none none with sl := waiting.sl }
      = .next { evalAt .gate none none with sl := { waiting.sl with overrun := true } } := rfl

/-- The end of the first reply begins the second. -/
theorem test_second_reply : ∃ t, exec .stationReplyEnd
      { State.reset with sl := { State.reset.sl with tx := some { bytes := [1], resets := false },
                                                     next := some { bytes := [2], resets := true } } } = .next t
    ∧ t.sl.tx = some { bytes := [2], resets := true } ∧ t.sl.next = none ∧ t.sl.resetDue = false := ⟨_, rfl, rfl, rfl, rfl⟩

/-- The reset state with a line of input L1. -/
def withLine (l : Line) : State := withAc { factoryAisle with inputs := factoryAisle.inputs.put .l1 l }

theorem witness_InputsAreFiltered :
    (State.reset.ac.inputs.line .emerg).raw = false ∧ (State.reset.ac.inputs.line .emerg).raw ≠ true
      ∧ ((withLine { raw := true, filtered := false, filterEnd := some 8 }).ac.inputs.line .l1).filterEnd = some 8
      ∧ ((withLine { raw := true, filtered := true, filterEnd := some 8 }).ac.inputs.line .l1).filterEnd = some 8
      ∧ ((withLine { raw := true, filtered := true, filterEnd := some 8 }).ac.inputs.line .l1).raw
          = ((withLine { raw := true, filtered := true, filterEnd := some 8 }).ac.inputs.line .l1).filtered := by decide

/-- The outer beam of end A about to clear after a body came in by the pair, and the outer beam of end B the other way. -/
def atBeams (i : Input) (a : Aisle) : State := withAc { a with inputs := a.inputs.put i { raw := false, filtered := true, filterEnd := some 8 } }

theorem witness_DetectorFollowsItsTable :
    (let s := atBeams .aInner { factoryAisle with detA := .inI };
      (s.ac.inputs.line .aInner).filterEnd = some 8 ∧ (s.ac.inputs.line .aInner).raw ≠ (s.ac.inputs.line .aInner).filtered
        ∧ s.ac.detA.next s.ac.inputs.aOuter.filtered false = (.idle, some .crossIn))
      ∧ (let s := atBeams .bOuter { factoryAisle with detB := .outO };
        (s.ac.inputs.line .bOuter).filterEnd = some 8 ∧ (s.ac.inputs.line .bOuter).raw ≠ (s.ac.inputs.line .bOuter).filtered
          ∧ s.ac.detB.next false s.ac.inputs.bInner.filtered = (.idle, some .crossOut)) := by decide

theorem witness_CrossingInClaims :
    (fullAisle.credits = [creditOf (.inAisle 1 0 0) .ab]
          ++ creditOf (.granted 2 0 none) .ab :: [creditOf (.reserved false) .ba, creditOf (.reserved true) .ba]
        ∧ (∀ x ∈ [creditOf (.inAisle 1 0 0) .ab], isGrantedDir .ab x = false))
      ∧ (fullAisle.credits.any (isGrantedDir .ba) = false ∧ emergencyActive fullAisle = false
        ∧ direction fullAisle = some (Dir.other .ba))
      ∧ (factoryAisle.credits.any (isGrantedDir .ab) = false ∧ emergencyActive factoryAisle = false
        ∧ direction factoryAisle ≠ some (Dir.other .ab))
      ∧ (lockedAisle.credits.any (isGrantedDir .ab) = false
        ∧ emergencyActive { lockedAisle with stationEmergency := true } = true) := by decide

theorem witness_CrossingOutDepartsOrReturns :
    (0 < bodies fullAisle .ab
        ∧ fullAisle.credits = [] ++ creditOf (.inAisle 1 0 0) .ab :: fullAisle.credits.tail
        ∧ isInAisleDir .ab (creditOf (.inAisle 1 0 0) .ab) = true)
      ∧ (0 < bodies { factoryAisle with bodiesAB := 1 } .ab
        ∧ ({ factoryAisle with bodiesAB := 1 } : Aisle).credits.any (isInAisleDir .ab) = false)
      ∧ (bodies fullAisle .ba = 0 ∧ 0 < bodies fullAisle (Dir.other .ba) ∧ fullAisle.lockedOut = false
        ∧ (creditOf (.inAisle 1 0 0) .ab).dir = Dir.other .ba
        ∧ ∀ x ∈ fullAisle.credits.tail, isInAisleDir (Dir.other .ba) x = false)
      ∧ (bodies { fullAisle with lockedOut := true } .ba = 0 ∧ 0 < bodies { fullAisle with lockedOut := true } (Dir.other .ba))
      ∧ (bodies factoryAisle .ab = 0 ∧ bodies factoryAisle (Dir.other .ab) = 0) := by decide

/-- The headway after a completion of the direction, without one, and at a turn. -/
theorem witness_CrossingOut_headway :
    (let a : Aisle := { fullAisle with lastAB := some 5, histDir := some .ab };
      (if Dir.ab = .ab then a.lastAB else a.lastBA) = some 5 ∧ a.histDir ≠ some (Dir.other .ab))
      ∧ (if Dir.ab = .ab then fullAisle.lastAB else fullAisle.lastBA) = none
      ∧ ({ fullAisle with histDir := some .ba } : Aisle).histDir = some (Dir.other .ab) := by decide

/-- The station emergency flag set, on the aisle of the reset state. -/
def inEmergency : State := withAc { factoryAisle with stationEmergency := true }

theorem witness_EmergencyFrameActs :
    (lineOpen State.reset ∧ emergencyActive State.reset.ac = false)
      ∧ (lineOpen inEmergency ∧ emergencyActive inEmergency.ac = true)
      ∧ (inEmergency.ac.stationEmergency = true ∧ inEmergency.ac.inputs.emerg.filtered = false)
      ∧ State.reset.ac.stationEmergency = false
      ∧ (([] : List Byte) ≠ [0x00#8] ∧ ([] : List Byte) ≠ [0x01#8]) :=
  ⟨⟨open_reset, by decide⟩, ⟨open_state rfl rfl, by decide⟩, by decide, rfl, by decide, by decide⟩

/-- The EMERG input about to become active, and about to end, with the station's flag clear and set. -/
def emergAt (raw filtered flag : Bool) : State :=
  withAc { fullAisle with
    inputs := factoryAisle.inputs.put .emerg { raw := raw, filtered := filtered, filterEnd := some 8 }
    stationEmergency := flag }

theorem witness_EmergencyFrameActs_input :
    ((emergAt true false false).ac.inputs.emerg.filterEnd = some 8 ∧ emergencyActive (emergAt true false false).ac = false
        ∧ (emergAt true false false).ac.inputs.emerg.raw = true)
      ∧ ((emergAt false true false).ac.stationEmergency = false ∧ (emergAt false true false).ac.inputs.emerg.filtered = true
        ∧ (emergAt false true false).ac.inputs.emerg.raw = false)
      ∧ (emergAt true false true).ac.stationEmergency = true
      ∧ (∃ t, lineOpen inEmergency ∧ exec (.emergency 0 [0x00#8]) inEmergency = .next t) :=
  ⟨by decide, by decide, rfl, _, open_state rfl rfl, rfl⟩

/-- The cause numbers at both ends, an entry that is withdrawn and one that is not. -/
theorem witness_EmergencyFrameActs_alerts :
    ([Cause.holdExpired, .emergency, .lockout][0]? = some .holdExpired
        ∧ [Cause.holdExpired, .emergency, .lockout][2]? = some .lockout)
      ∧ (creditOf (.granted 65536 0 none) .ba).state = .granted 65536 0 none
      ∧ (grantedAlert (envOf 192) .lockout (creditOf (.granted 65536 0 none) .ba)).map (fun c => (c.side, c.exitZone, c.detail))
          = some (.b, 3, 0)
      ∧ grantedAlert (envOf 192) .lockout (creditOf (.reserved false) .ba) = none := by decide

theorem witness_SettleEndTakesLevels : State.reset.ac.settleEnd = some 8 := rfl

/-- The aisle of the reset state with two pins at a level at the end of the settle interval. -/
def settling (i j : Input) : State :=
  withAc { factoryAisle with
    inputs := (factoryAisle.inputs.put i { raw := true, filtered := false, filterEnd := none }).put j
      { raw := true, filtered := false, filterEnd := none } }

theorem witness_SettleEnd_forms :
    ((settling .aOuter .aInner).ac.detA = .idle ∧ (settling .aOuter .aInner).ac.inputs.aOuter.raw = true
        ∧ (settling .aOuter .aInner).ac.inputs.aInner.raw = true)
      ∧ ((settling .bOuter .bInner).ac.detB = .idle ∧ (settling .bOuter .bInner).ac.inputs.bOuter.raw = true
        ∧ (settling .bOuter .bInner).ac.inputs.bInner.raw = true)
      ∧ (lockedAisle.lockedOut = true ∧ lockedAisle.leaf = .released ∧ State.reset.ac.lockedOut = false)
      ∧ ((settling .emerg .openStop).ac.inputs.emerg.raw = true ∧ (settling .emerg .openStop).ac.inputs.openStop.raw = true
        ∧ (settling .emerg .openStop).ac.inputs.closedStop.raw = false)
      ∧ (State.reset.ac.inputs.emerg.raw = false ∧ State.reset.ac.stationEmergency = false) := by decide

/-- The states after the settle: both beams of end A give AMBIG and the re-home; on the closed stop CLOSED, with a granted entry
OPENING; in emergency OPENING, on the open stop OPEN; in LOCKED_OUT RELEASED. -/
theorem test_settle_ends :
    (∃ t, exec .settleEnd (settling .aOuter .aInner) = .next t ∧ t.ac.detA = .ambig ∧ t.ac.detB = .idle ∧ t.ac.leaf = .closing)
      ∧ (∃ t, exec .settleEnd (settling .closedStop .closedStop) = .next t ∧ t.ac.leaf = .closed ∧ demandOpen t.ac = false)
      ∧ (∃ t, exec .settleEnd (withAc { withCredits [creditOf (.granted 2 0 none) .ab] with settleEnd := some 8 }) = .next t
        ∧ t.ac.leaf = .opening ∧ demandOpen t.ac = true)
      ∧ (∃ t, exec .settleEnd (settling .emerg .l1) = .next t ∧ t.ac.leaf = .opening)
      ∧ (∃ t, exec .settleEnd (settling .emerg .openStop) = .next t ∧ t.ac.leaf = .opened)
      ∧ (∃ t, exec .settleEnd (withAc lockedAisle) = .next t ∧ t.ac.leaf = .released) := by
  refine ⟨⟨_, rfl, ?_⟩, ⟨_, rfl, ?_⟩, ⟨_, rfl, ?_⟩, ⟨_, rfl, ?_⟩, ⟨_, rfl, ?_⟩, ⟨_, rfl, ?_⟩⟩ <;> decide

theorem witness_TravelTimeoutFaults :
    ((withAc fullAisle).ac.motion
          = some { start := 0, timeout := 1300, full := true, blankEnd := none, blankTaken := false }
        ∧ (withAc fullAisle).ac.leaf = movingLeaf .toOpen ∧ (withAc fullAisle).ac.faultInProgress = false
        ∧ stopsAt (withAc fullAisle).ac .toOpen = false ∧ DriveOk (withAc fullAisle).ac)
      ∧ ({ fullAisle with faultInProgress := true } : Aisle).leaf = movingLeaf .toOpen
      ∧ ({ fullAisle with faultInProgress := true } : Aisle).faultInProgress = true :=
  ⟨⟨rfl, rfl, rfl, rfl, by decide, by decide, by decide, by decide⟩, rfl, rfl⟩

/-- The open stop comes active beside the closed stop, without and with the flag set. -/
def conflictAisle (flag : Bool) : Aisle :=
  { fullAisle with
    inputs := (factoryAisle.inputs.put .closedStop { raw := true, filtered := true, filterEnd := none }).put .openStop
      { raw := true, filtered := false, filterEnd := some 8 }
    faultInProgress := flag }

theorem witness_TravelTimeoutFaults_conflict :
    ((conflictAisle false).inputs.closedStop.filtered = true ∧ ((conflictAisle false).inputs.line .openStop).filterEnd = some 8
        ∧ ((conflictAisle false).inputs.line .openStop).raw = true ∧ ((conflictAisle false).inputs.line .openStop).filtered = false
        ∧ leafTarget (conflictAisle false).leaf = some .toOpen ∧ (conflictAisle false).faultInProgress = false
        ∧ DriveOk (conflictAisle false))
      ∧ (conflictAisle true).faultInProgress = true :=
  ⟨⟨rfl, rfl, rfl, rfl, rfl, rfl, by decide, by decide, by decide, by decide⟩, rfl⟩

/-- The halt record of a lockout: three entries of each kind's count, seven bodies, the stops, and no valid clock (R152). -/
theorem test_halt_record :
    ∃ t, exec (.filteredChange .openStop) (withAc (conflictAisle true)) = .next t
      ∧ (t.ac.halt.reserved, t.ac.halt.granted, t.ac.halt.inAisle, t.ac.halt.bodiesAB, t.ac.halt.bodiesBA) = (2, 1, 1, 7, 0)
      ∧ (t.ac.halt.openStop, t.ac.halt.closedStop, t.ac.halt.timeValid, t.ac.halt.stamp) = (true, true, false, 0)
      ∧ t.ac.credits.map (·.state) = [.inAisle 1 0 0, .reserved true, .reserved true] := ⟨_, rfl, by decide⟩

/-- A closing drive at the end of its blank window, with the zone clear or occupied. -/
def closingAisle (occupied : Bool) : Aisle :=
  { factoryAisle with
    leaf := .closing
    motion := some { start := 0, timeout := 1300, full := true, blankEnd := some 187, blankTaken := false }
    inputs := factoryAisle.inputs.put .l1 { raw := occupied, filtered := occupied, filterEnd := none }
    reversals := 2 }

theorem witness_DriveTimersAct :
    ((closingAisle false).leaf = .closing
        ∧ (closingAisle false).motion.map (fun m => (m.blankEnd, m.blankTaken)) = some (some 187, false)
        ∧ DriveOk (closingAisle false) ∧ zoneClear (closingAisle false) = true)
      ∧ ((closingAisle true).leaf = .closing
        ∧ (closingAisle true).motion.map (fun m => (m.blankEnd, m.blankTaken)) = some (some 187, false)
        ∧ DriveOk (closingAisle true) ∧ zoneClear (closingAisle true) = false ∧ 2 ≤ (closingAisle true).reversals)
      ∧ (withAc { factoryAisle with zoneClearEnd := some 1000 }).ac.zoneClearEnd = some 1000 :=
  ⟨⟨rfl, rfl, ⟨by decide, by decide, by decide, by decide⟩, by decide⟩,
   ⟨rfl, rfl, ⟨by decide, by decide, by decide, by decide⟩, by decide, by decide⟩, rfl⟩

/-- Input L1 about to change: occupied past the blank window of a close, and clear again under the hold, in an OPEN leaf without
demand, and elsewhere. -/
def zoneAt (raw : Bool) (a : Aisle) : Aisle :=
  { a with inputs := a.inputs.put .l1 { raw := raw, filtered := !raw, filterEnd := some 200 } }
def openLeaf (hold : Bool) : Aisle := { factoryAisle with leaf := .opened, obstructHold := hold }

theorem witness_DriveTimersAct_zone :
    (DriveOk (zoneAt true (closingAisle false)) ∧ ((zoneAt true (closingAisle false)).inputs.line .l1).filterEnd = some 200
        ∧ (zoneAt true (closingAisle false)).leaf = .closing
        ∧ (zoneAt true (closingAisle false)).motion.bind (·.blankEnd) = some 187)
      ∧ (DriveOk (zoneAt false (openLeaf true)) ∧ (zoneAt false (openLeaf true)).obstructHold = true)
      ∧ (DriveOk (zoneAt false (openLeaf false)) ∧ (zoneAt false (openLeaf false)).leaf = .opened
        ∧ demandOpen (zoneAt false (openLeaf false)) = false ∧ (zoneAt false (openLeaf false)).inputs.l2.filtered = false)
      ∧ (DriveOk (zoneAt false factoryAisle) ∧ (zoneAt false factoryAisle).leaf ≠ .opened) := by
  refine ⟨⟨?_, by decide, rfl, rfl⟩, ⟨?_, rfl⟩, ⟨?_, rfl, by decide, rfl⟩, ?_, by decide⟩ <;> (unfold DriveOk; decide)

/-- An end stop about to change: a motion's own stop reached, with and without demand, and a held stop lost. -/
def stopAt (i : Input) (raw : Bool) (a : Aisle) : Aisle :=
  { a with inputs := a.inputs.put i { raw := raw, filtered := !raw, filterEnd := some 700 } }

theorem witness_DriveTimersAct_stops :
    (DriveOk (stopAt .openStop true fullAisle) ∧ (stopAt .openStop true fullAisle).motion.map (·.full) = some true
        ∧ ((stopAt .openStop true fullAisle).inputs.openStop.raw, (stopAt .openStop true fullAisle).inputs.closedStop.filtered)
            = (true, false) ∧ demandOpen (stopAt .openStop true fullAisle) = true)
      ∧ (DriveOk (stopAt .openStop true { fullAisle with credits := [], bodiesAB := 0 })
        ∧ demandOpen { fullAisle with credits := [], bodiesAB := 0 } = false ∧ zoneClear fullAisle = true)
      ∧ (DriveOk (stopAt .closedStop true (closingAisle false)) ∧ (stopAt .closedStop true (closingAisle false)).leaf = .closing)
      ∧ DriveOk (stopAt .openStop false (openLeaf true))
      ∧ DriveOk (stopAt .closedStop false { factoryAisle with leaf := .closed })
      ∧ (DriveOk (stopAt .closedStop true factoryAisle) ∧ (stopAt .closedStop true factoryAisle).leaf = .released) := by
  refine ⟨⟨?_, rfl, rfl, by decide⟩, ⟨?_, by decide, by decide⟩, ⟨?_, rfl⟩, ?_, ?_, ?_, rfl⟩ <;> (unfold DriveOk; decide)

/-- A hold window that runs for the second entry. -/
def windowAisle : Aisle :=
  withCredits [creditOf (.inAisle 1 0 0) .ab, creditOf (.granted 70000 0 (some 3000)) .ab]

theorem witness_AisleTimersAct :
    (withAc { factoryAisle with alarmEnd := some 3000 }).ac.alarmEnd = some 3000
      ∧ nextLoiter (withAc fullAisle).env (withAc fullAisle).ac = some 10001
      ∧ State.reset.ac.idleEnd = some 10000
      ∧ ((withAc windowAisle).ac.credits
            = [creditOf (.inAisle 1 0 0) .ab] ++ creditOf (.granted 70000 0 (some 3000)) .ab :: []
        ∧ ∀ x ∈ [creditOf (.inAisle 1 0 0) .ab], holdEndOf x = none) := by decide

/-- Settling: no direction; the history's direction and a turn; an OPEN aisle with a GRANTED head; idle and not; LOITER. -/
theorem witness_AisleTimersAct_settle :
    direction factoryAisle = none
      ∧ (direction fullAisle = some .ab ∧ fullAisle.histDir = none)
      ∧ ({ fullAisle with histDir := some .ba } : Aisle).histDir = some (Dir.other .ab)
      ∧ ((settle (envOf 192) false { fullAisle with leaf := .opened, motion := none }).leaf = .opened
        ∧ fullAisle.credits = [creditOf (.inAisle 1 0 0) .ab] ++ creditOf (.granted 2 0 none) .ab
            :: [creditOf (.reserved false) .ba, creditOf (.reserved true) .ba]
        ∧ (∀ x ∈ [creditOf (.inAisle 1 0 0) .ab], isGrantedDir .ab x = false))
      ∧ (settle (envOf 192) false fullAisle).leaf ≠ .opened
      ∧ (factoryAisle.credits = [] ∧ factoryAisle.bodiesAB = 0 ∧ factoryAisle.bodiesBA = 0 ∧ fullAisle.credits ≠ [])
      ∧ fullAisle.bodiesAB = 7 := by decide

/-- What the leaf drive answers on settling: a GRANTED entry opens a CLOSED drive in full and reverses a CLOSING one, not in
full, each at once on the open stop; without demand an OPEN drive closes in full, at once on the closed stop, and stays under
an occupied zone, under the hold, and while RELEASED (R145). -/
def driveAt (leaf : Leaf) (credits : List Credit) (on : Option Input) : Aisle :=
  let base : Aisle := if leaf = .closing then closingAisle false else { factoryAisle with leaf := leaf }
  { base with
    credits := credits
    inputs := match on with
      | none => base.inputs
      | some i => base.inputs.put i { raw := true, filtered := true, filterEnd := none } }

theorem test_drive_answers :
    (let answer : Aisle → Leaf × Option Bool := fun a =>
        let t := settle (envOf 192) false a
        (t.leaf, t.motion.map (·.full));
      let granted := [creditOf (.granted 2 0 none) .ab];
      [driveAt .closed granted none, driveAt .closed granted (some .openStop), driveAt .closing granted none,
        driveAt .closing granted (some .openStop), driveAt .opened granted none, driveAt .opened [] none,
        driveAt .opened [] (some .closedStop), driveAt .opened [] (some .l2), openLeaf true, driveAt .closed [] none,
        driveAt .released granted none].map answer
        = [(.opening, some true), (.opened, none), (.opening, some false), (.opened, none), (.opened, none),
           (.closing, some true), (.closed, none), (.opened, none), (.opened, none), (.closed, none),
           (.released, none)]) := by decide

/-- The drive at the start of an emergency, CLOSED and CLOSING, and at its end with a RESERVED entry alone (R139, R145, R156). -/
theorem test_emergency_drive :
    (∃ t, exec (.emergency 0 [0x01#8]) (withAc (driveAt .closed [] none)) = .next t
        ∧ t.ac.leaf = .opening ∧ t.ac.motion.map (·.full) = some true)
      ∧ (∃ t, exec (.emergency 0 [0x01#8]) (withAc (driveAt .closing [] none)) = .next t
        ∧ t.ac.leaf = .opening ∧ t.ac.motion.map (·.full) = some false)
      ∧ (∃ t, exec (.emergency 0 [0x00#8]) (withAc { driveAt .opened [creditOf (.reserved true) .ba] none with
            stationEmergency := true }) = .next t
        ∧ t.ac.leaf = .closing ∧ t.ac.motion.map (·.full) = some true) :=
  ⟨⟨_, rfl, by decide⟩, ⟨_, rfl, by decide⟩, _, rfl, by decide⟩

/-- The demand and the direction: an entry that passes behind one that does not, and none; a body of the second direction. -/
theorem witness_AisleTimersAct_demand :
    ((withCredits [creditOf (.reserved false) .ba, creditOf (.granted 2 0 none) .ab]).credits
          = [creditOf (.reserved false) .ba] ++ creditOf (.granted 2 0 none) .ab :: [])
      ∧ (demandOpen (withCredits [creditOf (.reserved false) .ba]) = false
        ∧ demandOpen { lockedAisle with stationEmergency := true } = false
        ∧ direction { factoryAisle with bodiesBA := 1 } = some .ba) := by decide

theorem witness_ClockAndLinkTimersAct :
    ((withTl lateClock).tl.valid = true ∧ (withTl lateClock).tl.phase = some 0 ∧ (withTl lateClock).tl.second = 86399)
      ∧ ((withTl { lateClock with second := 86398 }).tl.valid = true ∧ (withTl { lateClock with second := 86398 }).tl.second ≠ 86399)
      ∧ (unresolvedOf [tornOf (.unresolved 0)] (tornOf (.unresolved 0)).serial = some (tornOf (.unresolved 0))
        ∧ heldSerial State.reset.ve ≠ some (tornOf (.unresolved 0)).serial)
      ∧ ((withTl lateClock).tl.watchEnd = some 30000 ∧ (withTl lateClock).tl.mode = .resync)
      ∧ (withTl { lateClock with standaloneEnd := some 14400000 }).tl.standaloneEnd = some 14400000 := by decide

/-- The day's end with a READY bank, with and without an evaluation in progress; a held record; the watch in LINKED. -/
theorem witness_ClockAndLinkTimersAct_test :
    ((testHeld lateClock 65535).tl.second = 86399 ∧ (testHeld lateClock 65535).ve.eval = none
        ∧ (testHeld lateClock 65535).fu.bankIn .ready = some true)
      ∧ ({ evalAt .gate none none with tl := lateClock }.ve.eval.isSome = true
        ∧ { evalAt .gate none none with tl := lateClock }.tl.second = 86399)
      ∧ heldSerial (evalAt .deny none (some 7)).ve = some (tornOf (.unresolved 0)).serial
      ∧ (withTl { lateClock with mode := .linked, resync := none }).tl.watchEnd = some 30000 := by decide

theorem witness_TimeFrameSetsClockAndMode :
    (lineOpen State.reset ∧ ([0xFF#8, 0xFF#8, 0x01#8, 0x51#8, 0x7F#8] : List Byte).length = 5
        ∧ fieldAt [0xFF#8, 0xFF#8, 0x01#8, 0x51#8, 0x7F#8] 2 3 = 86399 ∧ State.reset.tl.mode = .unsynced)
      ∧ (lineOpen (withTl lateClock) ∧ (withTl lateClock).tl.mode = .resync ∧ (withTl lateClock).tl.resync = some 2)
      ∧ (withTl { lateClock with resync := some 1 }).tl.resync = some 1
      ∧ (withTl { lateClock with mode := .linked, resync := none }).tl.mode = .linked
      ∧ (withTl { lateClock with mode := .standalone, resync := none, watchEnd := none }).tl.mode = .standalone
      ∧ (([0xFF#8, 0xFF#8, 0x01#8, 0x51#8, 0x80#8] : List Byte).length ≤ 96
        ∧ 86400 ≤ fieldAt [0xFF#8, 0xFF#8, 0x01#8, 0x51#8, 0x80#8] 2 3) :=
  ⟨⟨open_reset, by decide, by decide, rfl⟩, ⟨open_state rfl rfl, rfl, rfl⟩, rfl, rfl, rfl, by decide⟩

/-- The standalone timer running and the entry stop set in STANDALONE and in RESYNC with the count 1: both stand (R181). -/
def stoppedAt (mode : LinkMode) (count : Option Nat) : TimeLink :=
  { lateClock with mode := mode, resync := count, watchEnd := none, standaloneEnd := some 14400000, entryStop := true }

theorem test_time_keeps_entry_stop :
    (∃ t, exec (.time 0 [0, 5, 0, 0, 0]) (withTl (stoppedAt .standalone none)) = .next t
        ∧ (t.tl.mode, t.tl.resync, t.tl.standaloneEnd, t.tl.entryStop) = (.resync, some 1, some 14400000, true))
      ∧ (∃ t, exec (.time 0 [0, 5, 0, 0, 0]) (withTl (stoppedAt .resync (some 1))) = .next t
        ∧ (t.tl.mode, t.tl.resync, t.tl.standaloneEnd, t.tl.entryStop) = (.resync, some 2, some 14400000, true))
      ∧ (∃ t, exec (.time 0 [0, 5, 0, 0, 0]) (withTl (stoppedAt .resync (some 2))) = .next t
        ∧ (t.tl.mode, t.tl.resync, t.tl.standaloneEnd, t.tl.entryStop) = (.linked, none, none, false)) :=
  ⟨⟨_, rfl, by decide⟩, ⟨_, rfl, by decide⟩, _, rfl, by decide⟩

/-- A READY bank with no test held. -/
def bankReady (t : TimeLink) (day : Nat) : State :=
  { testHeld t day with fu := { (testHeld t day).fu with heldTest := false } }

/-- The activation test that TIME makes: a READY bank that the set clock reaches, one that it does not, and none. -/
theorem witness_TimeFrame_test :
    (lineOpen (bankReady State.reset.tl 5) ∧ (bankReady State.reset.tl 5).tl.mode ≠ .standalone
        ∧ (bankReady State.reset.tl 5).ve.eval = none ∧ (bankReady State.reset.tl 5).fu.bankIn .ready = some true
        ∧ fieldAt [0, 5, 0, 0, 0] 0 2 = 5 ∧ ((bankReady State.reset.tl 5).fu.bank true).effDay ≤ 5
        ∧ 4 < ((bankReady State.reset.tl 5).fu.bank true).effDay)
      ∧ State.reset.fu.bankIn .ready = none
      ∧ (lineOpen (evalAt .gate none none) ∧ (evalAt .gate none none).ve.eval.isSome = true) := by
  refine ⟨⟨open_state rfl rfl, by decide, rfl, by decide, by decide, by decide, by decide⟩, by decide, open_state rfl rfl, rfl⟩

/-- Port A's tap before its gate, with the signing key and an ACTIVE bank, on a clock that is not valid. -/
def awaitingGate : State := { evalAt .gate none none with su := keyed.su, cfg := keyed.cfg, fu := twoBanks }

/-- An evaluation with stages left and one with its verdict; a TIME frame makes the clock valid and its verdict OFFLINE,
CLOCK_INVALID stays, where the next evaluation finds the clock (R68, R69, R177). -/
theorem witness_TimeFrame_evaluation :
    (lineOpen awaitingGate ∧ awaitingGate.ve.eval.bind (·.verdict) = none)
      ∧ (lineOpen (evalAt .form (some (verdictOf .denied)) none)
        ∧ ((evalAt .form (some (verdictOf .denied)) none).ve.eval.bind (·.verdict)).isSome = true)
      ∧ (∃ t u, exec (.time 0 [0, 5, 0, 0, 0]) awaitingGate = .next t ∧ exec .verdictReadyEvent t = .next u
        ∧ t.tl.valid = true ∧ t.portA.tap = .evaluating
        ∧ u.portA.slot.bind (fun x => x.verdict.map (fun v => (v.code, v.detail))) = some (.offline, 1)) :=
  ⟨⟨open_state rfl rfl, rfl⟩, ⟨open_state rfl rfl, rfl⟩, _, _, rfl, rfl, by decide⟩

/-- The same frame in LINKED changes no mode and requests no record; from RESYNC with the count 2 it requests one. -/
theorem test_link_mode_alert :
    (∃ t, exec (.time 0 [0, 5, 0, 0, 0]) (withTl lateClock) = .next t
        ∧ t.jn.queue.map (fun a => (a.record.content.kind, a.record.content.entryZone, a.record.content.exitZone,
            a.record.content.detail)) = [(.linkMode, 1, 2, 1)])
      ∧ ∃ t, exec (.time 0 [0, 5, 0, 0, 0]) (withTl { lateClock with mode := .linked, resync := none }) = .next t
        ∧ t.jn.queue = [] := ⟨⟨_, rfl, by decide⟩, _, rfl, by decide⟩

theorem witness_ReplyCarriesResultAndSummary :
    [LinkMode.unsynced, .resync, .linked, .standalone][1]? = some lateClock.mode
      ∧ [BankState.empty, .loading, .ready, .active, .retired][3]? = some twoBanks.bank0.state
      ∧ [BankState.empty, .loading, .ready, .active, .retired][2]? = some twoBanks.bank1.state
      ∧ [Reject.none, .check, .bands, .step][0]? = some twoBanks.reject := by decide

/-- The summary of a RESYNC part with two held records, banks ACTIVE and READY and a load of the list in version 4. -/
theorem test_summary_layout :
    summaryBytes { withDenyList loadingList with tl := lateClock, fu := twoBanks, jn := twoHeld }
      = [1, 0, 0, 2, 4, 0, 4, 3, 0, 1, 2, 0, 2, 0] := by decide

theorem witness_BroadcastToUnitIsAnswered : lineReady 1 State.reset ∧ State.reset.ve.eval = none
    ∧ (List.replicate 96 (0 : Byte)).length ≤ 96 := ⟨ready_reset, rfl, by decide⟩

/-- The bytes of a sighting of serial 7 at minute 1439 and second 59. -/
def sightingBytes : List Byte := [0, 0, 0, 7, 0, 57, 0, 1, 0, 2, 0, 1, 0x05#8, 0x9F#8, 59]

theorem witness_SightingIsMerged :
    sightingBytes.length = 15 ∧ (parseSighting sightingBytes).skipped = false
      ∧ (parseSighting (List.replicate 15 0)).skipped = true
      ∧ unresolvedOf State.reset.ve.torn 7 = none ∧ seenLookup State.reset.su.seen 7 = none
      ∧ (seenOf 56 0).seq < (parseSighting sightingBytes).seq
      ∧ ((parseSighting sightingBytes).seq = (seenOf 57 1).seq ∧ (parseSighting sightingBytes).check = (seenOf 57 1).check)
      ∧ (parseSighting sightingBytes).check ≠ (seenOf 57 0).check
      ∧ ((parseSighting sightingBytes).seq < (seenOf 58 0).seq
        ∧ stampLater (parseSighting sightingBytes).stamp (parseSighting sightingBytes).second 0 0 = true
        ∧ stampLater (parseSighting sightingBytes).stamp (parseSighting sightingBytes).second 2879 59 = false) := by decide

/-- The fields of a sighting with every origin bit set, and the bounds of what is skipped: serials, minutes and seconds (R31). -/
def sightingOf (serial minute second : Nat) : Sighting :=
  parseSighting (beBytes 4 serial ++ [0, 57, 0, 1, 0xFF#8, 0xFF#8, 0, 1] ++ beBytes 2 minute ++ beBytes 1 second)

theorem test_sighting_bounds :
    ((sightingOf 7 1439 59).origin = 4095 ∧ (sightingOf 7 1439 59).stamp = 2879 ∧ (sightingOf 7 1439 59).second = 59)
      ∧ ((sightingOf 1 0 0).skipped = false ∧ (sightingOf 4294967294 1439 59).skipped = false)
      ∧ ((sightingOf 0 0 0).skipped = true ∧ (sightingOf 4294967295 0 0).skipped = true ∧ (sightingOf 7 1440 0).skipped = true
        ∧ (sightingOf 7 0 60).skipped = true)
      ∧ (stampLater 5 10 5 9 = true ∧ stampLater 5 10 5 10 = false ∧ stampLater 6 0 5 59 = true ∧ stampLater 4 59 5 0 = false) := by
  decide

/-- A torn record of the sighting's serial: newer sequence, the new image, another check, an older one; room and none. -/
theorem witness_SightingIsMerged_torn :
    let g := parseSighting sightingBytes
    unresolvedOf [tornOf (.unresolved 5)] g.serial = some (tornOf (.unresolved 5))
      ∧ ({ tornOf (.unresolved 5) with newSeq := 56 } : TornRecord).newSeq < g.seq
      ∧ (g.seq = ({ tornOf (.unresolved 5) with newSeq := 57 } : TornRecord).newSeq ∧ g.check = (tornOf (.unresolved 5)).newCheck)
      ∧ g.check ≠ ({ tornOf (.unresolved 5) with newSeq := 57, newCheck := 9 } : TornRecord).newCheck
      ∧ g.seq < (tornOf (.unresolved 5)).newSeq
      ∧ (requestRemote State.reset.tl { kind := .entry, side := .a } (reservedOf 1023)).isSome = true
      ∧ unreservedFits (reservedOf 1024) = false := by decide

/-- Two sightings in one frame, the most in one frame, and lengths that are no whole sightings. -/
theorem witness_SightingIsMerged_more :
    (sightingBytes.length = 15 ∧ sightingBytes.length % 15 = 0 ∧ sightingBytes ≠ []
        ∧ sightingBytes.length + sightingBytes.length ≤ 96)
      ∧ ((List.replicate 75 (0 : Byte)).length % 15 = 0 ∧ 15 + (List.replicate 75 (0 : Byte)).length ≤ 96)
      ∧ ((List.replicate 96 (0 : Byte)).length ≤ 96 ∧ (List.replicate 96 (0 : Byte)).length % 15 ≠ 0) := by decide

/-- Writing a listed serial and a new one below the table's size; a full table of 512. -/
def fullSeen : List SeenEntry := (List.range 512).map (fun i => { seenOf 57 0 with serial := i + 8 })

theorem witness_SightingIsMerged_table :
    ((seenOf 57 0).serial ∈ [seenOf 56 0].map (·.serial)) ∧ ((seenOf 57 0).serial ∉ ([] : List SeenEntry).map (·.serial))
      ∧ ((seenOf 57 0).serial ∉ fullSeen.map (·.serial) ∧ 512 ≤ fullSeen.length) := by
  refine ⟨by decide, by decide, ?_, by simp [fullSeen]⟩
  simp [fullSeen, seenOf]

theorem witness_BaseLoadBeginsAndEnds : lineOpen (withDenyList loadingList) ∧ loadingList.loading = true
    ∧ State.reset.su.deny.loading = false ∧ ([0xFF#8, 0xFF#8] : List Byte).length = 2 := ⟨open_state rfl rfl, rfl, rfl, rfl⟩

/-- A BEGIN of the lengths beside 2, and an END with a payload. -/
theorem witness_BaseLoad_ignored : ([0xFF#8] : List Byte).length ≠ 2 ∧ ([0, 0, 0] : List Byte).length ≠ 2 ∧ [0x00#8] ≠ [] := by
  decide

/-- A list of 4096 STATION entries, serials 2 to 4097. -/
def fullList : DenyList :=
  { loadingList with entries := (List.range 4096).map (fun i => { serial := i + 2, reason := 0, source := .station false }) }

theorem fullList_station (e : DenyEntry) (he : e ∈ fullList.entries) : e.source = .station false := by
  simp only [fullList, List.mem_map] at he
  obtain ⟨i, -, rfl⟩ := he
  rfl

theorem fullList_orders : localOrders fullList.entries = [] := by
  rw [localOrders, List.filterMap_eq_nil_iff]
  intro e he
  rw [fullList_station e he]

theorem fullList_count : localCount fullList.entries = 0 := by
  rw [localCount, List.countP_eq_zero]
  intro e he
  simp [DenyEntry.isLocal, fullList_station e he]

theorem fullList_length : fullList.entries.length = 4096 := by
  simp only [fullList, List.length_map, List.length_range]

theorem fullList_ok : DenyOk fullList := by
  refine ⟨?_, fullList_length.le, by rw [fullList_count]; decide, ?_, ?_, ?_, ?_⟩
  · simp only [fullList, List.pairwise_map]
    exact List.pairwise_lt_range.imp (fun h => by simpa using h)
  · rw [fullList_orders]; exact List.nodup_nil
  · rw [fullList_orders]; intro n hn; cases hn
  · intro e he hl; simp [DenyEntry.isLocal, fullList_station e he] at hl
  · intro _ e he; simp [DenyEntry.isStale, fullList_station e he]

theorem fullList_absent : denyLookup fullList.entries 1 = none := by
  simp only [denyLookup, List.find?_eq_none, fullList, List.mem_map]
  rintro e ⟨i, -, rfl⟩
  simp

theorem witness_DenyPairsListTheirSerial :
    (DenyOk loadingList ∧ serialValid 7 = true ∧ (denyLookup loadingList.entries 7).isSome = true)
      ∧ (serialValid 1 = true ∧ serialValid 4294967294 = true ∧ loadingList.entries.length < 4096)
      ∧ (DenyOk fullList ∧ denyLookup fullList.entries 1 = none ∧ fullList.entries.length = 4096) :=
  ⟨⟨⟨by decide, by decide, by decide, by decide, by decide, by decide, by decide⟩, by decide, by decide⟩, by decide,
   fullList_ok, fullList_absent, fullList_length⟩

/-- A list of 64 LOCAL entries in age order, serials 1 to 64: a local addition evicts the oldest. -/
def localList : DenyList :=
  { loadingList with
    entries := (List.range 64).map (fun i => { serial := i + 1, reason := 15, source := .localEntry (i + 1) })
    loading := false }

theorem witness_DenyPairs_local :
    (DenyOk loadingList ∧ denyLookup loadingList.entries 7 ≠ none)
      ∧ (denyLookup loadingList.entries 8 = none ∧ localCount loadingList.entries < 64)
      ∧ (DenyOk localList ∧ denyLookup localList.entries 65 = none ∧ localCount localList.entries = 64)
      ∧ (denyLookup fullList.entries 1 = none ∧ localCount fullList.entries < 64 ∧ fullList.entries.length = 4096) := by
  refine ⟨⟨⟨by decide, by decide, by decide, by decide, by decide, by decide, by decide⟩, by decide⟩, by decide,
    ⟨⟨?_, ?_, ?_, ?_, ?_, ?_, ?_⟩, ?_, ?_⟩, fullList_absent, by rw [fullList_count]; decide, fullList_length⟩ <;> decide +kernel

/-- The serials of R20 that a load skips, and the ones next to them, which it lists. -/
theorem test_deny_pair_bounds :
    (denyAddPair loadingList (0, 3) = loadingList ∧ denyAddPair loadingList (4294967295, 3) = loadingList)
      ∧ ((denyLookup (denyAddPair loadingList (1, 3)).entries 1).isSome = true
        ∧ (denyLookup (denyAddPair loadingList (4294967294, 3)).entries 4294967294).isSome = true) := by decide

theorem witness_DenyFramesChangeTheList :
    (lineOpen (withDenyList loadingList) ∧ (withDenyList loadingList).ve.eval = none
        ∧ (withDenyList loadingList).su.deny.loading = true)
      ∧ (lineOpen State.reset ∧ State.reset.ve.eval = none ∧ State.reset.su.deny.loading = false)
      ∧ parsePairs [0, 0, 0, 1, 15] = some [(1, 15)]
      ∧ (parseDelta [0, 0, 0, 1, 0, 0]).map (·.fromV) = some State.reset.su.deny.version
      ∧ (parseDelta [0, 1, 0, 2, 0, 0]).map (·.fromV) ≠ some State.reset.su.deny.version :=
  ⟨⟨open_state rfl rfl, rfl, rfl⟩, ⟨open_reset, rfl, rfl⟩, by decide, by decide, by decide⟩

/-- The fewest and the most pairs, and lengths that are none; the greatest counts that fit a frame, and counts that do not. -/
theorem witness_DenyFrames_forms :
    (([0, 0, 0, 1, 15] : List Byte).length % 5 = 0 ∧ (List.replicate 80 (0 : Byte)).length % 5 = 0
        ∧ (List.replicate 80 (0 : Byte)) ≠ [] ∧ (List.replicate 80 (0 : Byte)).length ≤ 80)
      ∧ (80 < (List.replicate 85 (0 : Byte)).length ∧ ([0] : List Byte).length % 5 ≠ 0)
      ∧ (let full : List Byte := [0, 0, 0, 1, 8, 8] ++ List.replicate 72 0;
        6 ≤ full.length ∧ fieldAt full 4 1 ≤ 8 ∧ fieldAt full 5 1 ≤ 8 ∧ full.length = 6 + 4 * fieldAt full 4 1 + 5 * fieldAt full 5 1)
      ∧ (let more : List Byte := [0, 0, 0, 1, 9, 0] ++ List.replicate 36 0;
        8 < fieldAt more 4 1 ∧ more.length = 6 + 4 * fieldAt more 4 1 + 5 * fieldAt more 5 1)
      ∧ (([0, 0, 0, 1, 0] : List Byte).length < 6 ∧ 8 < fieldAt [0, 0, 0, 1, 0, 9] 5 1
        ∧ ([0, 0, 0, 1, 1, 0] : List Byte).length ≠ 6 + 4 * 1 + 5 * 0) := by decide

/-- A bank in LOADING. -/
def loadingUnit : FareUnit := { State.reset.fu with bank0 := { emptyBank with state := .loading } }

/-- A bank in LOADING whose contents pass every test: one band from minute 0 and a fare step of 1. -/
def goodBank : Bank := { bankOf (fun i => if i = 256 then 1 else if i = 307 then 1 else 0) with state := .loading }
def goodUnit : FareUnit := { State.reset.fu with bank0 := goodBank }

theorem witness_TariffFramesLoadABank :
    (lineOpen State.reset ∧ ([0, 1, 0, 0] : List Byte).length = 4 ∧ fieldAt [0, 1, 0, 0] 0 2 ≠ 0)
      ∧ fieldAt [0, 0, 0, 0] 0 2 = 0
      ∧ ((parseTariffData [4, 8, 0xFF#8, 0xFF#8]).map (fun d => (d.section_, d.first, d.values)) = some (4, 8, [65535])
        ∧ loadingUnit.bankIn .loading = some false ∧ 8 + [65535].length ≤ sectionSize 4)
      ∧ (([0, 0] : List Byte).length = 2 ∧ State.reset.fu.bankIn .loading = none)
      ∧ (goodUnit.bankIn .loading = some false ∧ (evalAt .gate none none).ve.eval.isSome = true) :=
  ⟨⟨open_reset, by decide, by decide⟩, by decide, by decide, ⟨rfl, rfl⟩, rfl, rfl⟩

/-- TARIFF_DATA of one value and of 40; of none, half a value and 41; a section over 4, past the end; no LOADING bank. -/
theorem witness_TariffFramesLoadABank_data :
    (4 ≤ ([4, 8, 0, 0] : List Byte).length ∧ ([4, 8, 0, 0] : List Byte).length % 2 = 0
        ∧ (List.replicate 82 (0 : Byte)).length ≤ 82 ∧ (List.replicate 82 (0 : Byte)).length % 2 = 0)
      ∧ (([4, 8] : List Byte).length < 4 ∧ ([4, 8, 0, 0, 0] : List Byte).length % 2 = 1 ∧ 82 < (List.replicate 84 (0 : Byte)).length)
      ∧ (4 < fieldAt [5, 0, 0, 0] 0 1 ∧ sectionSize (fieldAt [4, 9, 0, 0] 0 1) < fieldAt [4, 9, 0, 0] 1 1 + (4 - 2) / 2)
      ∧ State.reset.fu.bankIn .loading = none ∧ ([0] : List Byte).length ≠ 2 := by decide

/-- The payload of a TARIFF_END that carries a check. -/
theorem check_of_payload (w : Word16) : BitVec.ofNat 16 (fieldAt (checkBytes w) 0 2) = w := by
  apply BitVec.eq_of_toNat_eq
  have := w.isLt
  simp [fieldAt, checkBytes, beBytes, beNat]
  omega

/-- A bank with the check of its contents passes every test, or fails the band test when it is empty. -/
theorem witness_TariffFramesLoadABank_end :
    ((checkBytes (bankCheck goodBank)).length = 2
        ∧ validateBank (BitVec.ofNat 16 (fieldAt (checkBytes (bankCheck goodBank)) 0 2)) goodBank = .none)
      ∧ validateBank (BitVec.ofNat 16 (fieldAt (checkBytes (bankCheck (loadingUnit.bank false))) 0 2)) (loadingUnit.bank false)
          = .bands := by
  refine ⟨⟨rfl, ?_⟩, ?_⟩ <;> rw [check_of_payload, validateBank, if_neg (fun h => h rfl)] <;> decide

/-- A passed bank with no evaluation in progress; the three refusals and their order; each choice of the load target. -/
theorem witness_TariffFramesLoadABank_tests :
    (goodUnit.bankIn .loading = some false ∧ ({ State.reset with fu := goodUnit } : State).ve.eval = none)
      ∧ crc 0xFFFF#16 (goodBank.contents.flatMap (beBytes 2)) ≠ ~~~(bankCheck goodBank)
      ∧ (goodBank.bandCount ≠ 0 ∧ goodBank.bandStart 0 = 0 ∧ goodBank.bandCount = 1 ∧ goodBank.fareStep ≠ 0)
      ∧ (bankOf (fun i => if i = 256 then 1 else 0)).fareStep = 0
      ∧ twoBanks.loadTarget = true ∧ ({ goodUnit with bank1 := { emptyBank with state := .active } } : FareUnit).loadTarget = false
      ∧ goodUnit.loadTarget = false ∧ ({ goodUnit with bank0 := emptyBank, bank1 := goodBank } : FareUnit).loadTarget = true
      ∧ State.reset.fu.loadTarget = false := by
  refine ⟨⟨rfl, rfl⟩, ?_, by decide, by decide, rfl, rfl, rfl, rfl, rfl⟩
  change bankCheck goodBank ≠ ~~~(bankCheck goodBank)
  generalize bankCheck goodBank = w
  intro h
  have := congrArg (fun x : Word16 => x.getLsbD 0) h
  simp at this

/-- The last position of the last section; a value in each kind of range, and at the bounds of one. -/
theorem witness_TariffValuesAreLimited :
    (4 ≤ 4 ∧ 8 + [65535].length ≤ sectionSize 4 ∧ (List.range 314).length = 314)
      ∧ (255 + [65535].length ≤ sectionSize 0 ∧ 16 + [256].length ≤ sectionSize 1 ∧ 15 + [9].length ≤ sectionSize 2
        ∧ 15 + [9].length ≤ sectionSize 3)
      ∧ (max 1 (min 0 8) = 1 ∧ max 1 (min 9 8) = 8 ∧ max 1 (min 8 8) = 8 ∧ max 0 (min 1440 1439) = 1439) :=
  ⟨⟨by decide, by decide, List.length_range⟩, by decide, by decide⟩

/-- A bank of 314 contents, read at the last index of each of its sections. -/
theorem witness_TariffValuesAreLimited_contents :
    (bankOf id).contents.length = 314 ∧ (∀ i, i < 314 → (bankOf id).contents[i]? = some (id i))
      ∧ ((15 < 16 ∧ 7 < 8) ∧ (bankOf id).matrix 15 15 = 255 ∧ (bankOf id).bandFactor 7 = 272 ∧ (bankOf id).dailyCap 7 = 288
        ∧ (bankOf id).penalty 15 = 304 ∧ (bankOf id).overtimeCharge = 313) := by
  refine ⟨by simp [bankOf], fun i hi => by simp [bankOf, hi], by decide⟩

/-- Journals whose delivered records are good, fail behind a good one, and fail with a capture of one of them. -/
def failing (captured : Bool) : Journal :=
  { twoHeld with held := [record 1, badRecord 2, badRecord 3], durable := 3, assigned := 3,
                 capture := { valid := captured, number := 2, lost := false } }

theorem witness_PollDeliversOldest :
    lineReady 1 { State.reset with jn := twoHeld }
      ∧ (([] : List Nat) = ((twoHeld.held.take 4).filter (fun r => recordCheck r != r.check)).map (·.number))
      ∧ ((2 :: [3] : List Nat) = (((failing false).held.take 4).filter (fun r => recordCheck r != r.check)).map (·.number)
        ∧ (failing false).capture.valid = false)
      ∧ (failing true).capture.valid = true := by
  refine ⟨ready_state rfl rfl rfl, ?_, ⟨?_, rfl⟩, rfl⟩ <;> decide +kernel

/-- The kinds and sides at both ends of their codes, and the marks of a record whose every field shows its place. -/
def marked : JRecord :=
  { record 1 with
    number := 0x01020304, standalone := true, forced := true, day := 0x0506, second := 0x010203
    content := { kind := .entry, side := .station, serial := 0x0708090A, seqAfter := 0x0B0C, charge := 0x0D0E0F, balance := -2,
                 version := 0x1011, entryZone := 3, exitZone := 12, detail := 0x1213 } }

theorem witness_PollDeliversOldest_body :
    (marked.content.kind, 1) ∈ [(RecKind.entry, 1), (.linkMode, 24)]
      ∧ [Side.none, .a, .b, .station][3]? = some marked.content.side
      ∧ recordBody marked = [1, 2, 3, 4, 1, 9, 5, 6, 1, 2, 3, 3, 7, 8, 9, 10, 11, 12, 13, 14, 15, 255, 255, 254, 16, 17, 60, 0,
          18, 19] := by decide

theorem witness_CollectedRemovesUpToNumber : lineReady 1 { State.reset with jn := twoHeld }
    ∧ ([0, 0, 0, 1] : List Byte).length = 4 ∧ JournalOk twoHeld := ⟨ready_state rfl rfl rfl, rfl, twoHeld_ok⟩

theorem witness_KeyLoadGuardsTheSigningKey :
    lineReady 1 keyed ∧ keyed.ve.eval = none
      ∧ (fieldAt [8, 1, 0, 0] 0 1 > 7 ∧ fieldAt [7, 3, 0, 0] 1 1 > 2)
      ∧ (fieldAt [7, 0, 0, 0] 0 1 = keyed.cfg.signingKey ∧ parseKeyState (fieldAt [7, 0, 0, 0] 1 1) = some .absent)
      ∧ keyed.su.keys[7]? = some { state := .active, word := 0xBEEF#16 }
      ∧ fieldAt [6, 0, 0, 0] 0 1 ≠ keyed.cfg.signingKey :=
  ⟨ready_state rfl rfl rfl, rfl, by decide, by decide, by decide, by decide⟩

/-- No payload, another length, and another word for the ACTIVE signing key; the same word again. -/
theorem witness_KeyLoad_words :
    (([] : List Byte) = [] ∧ ([7, 1, 0] : List Byte).length ≠ 4 ∧ ([7, 1, 0xBE#8, 0xEF#8] : List Byte).length = 4)
      ∧ (BitVec.ofNat 16 (fieldAt [7, 1, 0, 1] 2 2) ≠ (0xBEEF#16 : Word16))
      ∧ BitVec.ofNat 16 (fieldAt [7, 1, 0xBE#8, 0xEF#8] 2 2) = (0xBEEF#16 : Word16) := by decide

/-- A table of eight entries, one of each state, and the list it gives with the signing key present and not. -/
def keyTable : Screening :=
  { State.reset.su with
    keys := [{ state := .absent, word := 0 }, { state := .active, word := 1 }, { state := .retired, word := 2 },
             { state := .absent, word := 0 }, { state := .absent, word := 0 }, { state := .absent, word := 0 },
             { state := .absent, word := 0 }, { state := .active, word := 7 }] }

theorem witness_KeyLoad_list :
    (∃ code : KeyEntry → Nat, ∀ k ∈ keyTable.keys, (k.state, code k) ∈ [(KeyState.absent, 0), (.active, 1), (.retired, 2)])
      ∧ (1 : Nat) = (if keyTable.keys[keyed.cfg.signingKey]?.map (·.state) = some .active then 1 else 0)
      ∧ keyStateList keyTable keyed.cfg = [0, 1, 2, 0, 0, 0, 0, 1, 7, 1]
      ∧ keyStateList keyTable State.reset.cfg = [0, 1, 2, 0, 0, 0, 0, 1, 0, 0] :=
  ⟨⟨fun k => if k.state = .absent then 0 else if k.state = .active then 1 else 2, by decide⟩, by decide, by decide, by decide⟩

theorem witness_ConfigureSetsItems :
    lineReady 1 State.reset ∧ State.reset.ve.eval = none ∧ [(0 : Byte)].length % 3 ≠ 0
      ∧ parseItems [19, 0xFF#8, 0xFF#8] = some [(19, 65535)]
      ∧ itemAllowed State.reset.su.keys (19, 65535) = true ∧ itemAllowed State.reset.su.keys (20, 0) = false
      ∧ (applyItems State.reset.cfg [(10, 500)]).maxHold < (applyItems State.reset.cfg [(10, 500)]).minHold
      ∧ (applyItems State.reset.cfg [(19, 65535)]).minHold ≤ (applyItems State.reset.cfg [(19, 65535)]).maxHold :=
  ⟨ready_reset, rfl, by decide, by decide, by decide, by decide, by decide, by decide⟩

/-- Item codes at both ends, with a value below, in and above the range, and a value that is limited and one that is not. -/
theorem witness_ConfigureSetsItems_limits :
    (1 ≤ 1 ∧ 19 ≤ 19 ∧ (1, 1, 62) ∈ [((1 : Nat), (1 : Nat), (62 : Nat))])
      ∧ (clampItem 5 9 = 16 ∧ clampItem 6 3 = 4 ∧ clampItem 1 0 = 1 ∧ clampItem 1 63 = 62 ∧ clampItem 19 65535 = 1440)
      ∧ (anyClamped [(19, 65535)] = true ∧ anyClamped [(19, 240)] = false)
      ∧ (itemAllowed keyed.su.keys (4, 7) = true ∧ itemAllowed keyed.su.keys (4, 0) = false
        ∧ itemAllowed keyed.su.keys (1, 63) = false) := by decide

/-- One triple and thirty-two of them. -/
theorem witness_ConfigureSetsItems_items :
    (([19, 0xFF#8, 0xFE#8] : List Byte) ≠ [] ∧ ([19, 0xFF#8, 0xFE#8] : List Byte).length % 3 = 0
        ∧ parseItems [19, 0xFF#8, 0xFE#8] = some [(fieldAt [19, 0xFF#8, 0xFE#8] 0 1, fieldAt [19, 0xFF#8, 0xFE#8] 1 2)])
      ∧ ((List.replicate 96 (5 : Byte)).length % 3 = 0 ∧ (List.replicate 96 (5 : Byte)).length ≤ 96
        ∧ parseItems (List.replicate 96 (5 : Byte)) = some (List.replicate 32 (5, 1285))) := by decide

theorem witness_ServiceCommandsAct :
    lineReady 1 (withAc lockedAisle) ∧ (withAc lockedAisle).ac.lockedOut = true ∧ State.reset.ac.lockedOut = false
      ∧ ({ lockedAisle with settleEnd := none } : Aisle).settleEnd = none
      ∧ State.reset.jn.held = [] ∧ twoHeld.held ≠ []
      ∧ ({ State.reset.sl with tx := some { bytes := [], resets := true } } : StationLine).tx
          = some { bytes := [], resets := true } :=
  ⟨ready_state rfl rfl rfl, rfl, rfl, rfl, rfl, by decide, rfl⟩

/-- Payloads of another length, a reply that resets, and one that waits behind it. -/
theorem witness_ServiceCommandsAct_replies :
    (([0x00#8] : List Byte) ≠ [] ∧ ([0, 0, 1] : List Byte).length ≠ 4 ∧ ([0x01#8, 0x01#8] : List Byte).length ≠ 1)
      ∧ lineReady 1 { State.reset with jn := twoHeld }
      ∧ (∃ t, exec (.reset 1 []) State.reset = .next t ∧ t.sl.tx.map (fun r => (r.bytes.getD 4 9, r.resets)) = some (0, true)) :=
  ⟨by decide, ready_state rfl rfl rfl, _, rfl, by decide⟩

/-- RESTORE in a lockout, outside the settle interval: the re-home alone, on the closed stop, with an entry in the aisle, which
reverses it; in the interval the drive stays RELEASED (R145, R154). -/
def restoring (credits : List Credit) (on : Option Input) : State :=
  withAc { driveAt .released credits on with lockedOut := true, faultInProgress := true, settleEnd := none }

theorem test_restore_drive :
    (∃ t, exec (.restore 1 []) (restoring [] none) = .next t
        ∧ t.ac.leaf = .closing ∧ t.ac.motion.map (·.full) = some false)
      ∧ (∃ t, exec (.restore 1 []) (restoring [] (some .closedStop)) = .next t ∧ t.ac.leaf = .closed)
      ∧ (∃ t, exec (.restore 1 []) (restoring [creditOf (.inAisle 1 0 0) .ab] none) = .next t
        ∧ t.ac.leaf = .opening ∧ t.ac.motion.map (·.full) = some false)
      ∧ (∃ t, exec (.restore 1 []) (withAc lockedAisle) = .next t
        ∧ lockedAisle.settleEnd.isSome = true ∧ lockedAisle.leaf = .released ∧ t.ac.leaf = .released) :=
  ⟨⟨_, rfl, by decide⟩, ⟨_, rfl, by decide⟩, ⟨_, rfl, by decide⟩, _, rfl, by decide⟩

theorem witness_ResetsTakeTheirValues : Instr.powerOn = .powerOn ∧ Instr.lineReset = .lineReset := ⟨rfl, rfl⟩

/-- Tables that a reset keeps or changes: torn records of each state, a load, a LOADING bank, a held test. -/
theorem witness_ResetsTakeTheirValues_tables :
    ([tornOf (.pending .a), { tornOf (.unresolved 0) with serial := 8 }, { tornOf (.unresolved 3) with serial := 9 }].map
        (·.serial)).Nodup
      ∧ loadingList.loading = true ∧ loadingUnit.bank0.state = .loading ∧ (testHeld lateClock 65535).fu.heldTest = true := by
  decide

/-- A PENDING record keeps its place as UNRESOLVED with the torn window, and the one without window expires with its alert. -/
theorem test_reset_torn : ∃ t, exec .lineReset { State.reset with ve := { State.reset.ve with
      torn := [tornOf (.pending .a), { tornOf (.unresolved 0) with serial := 8 }] } } = .next t
    ∧ t.ve.torn = [tornOf (.unresolved 120)] ∧ t.jn.queue.map (fun a => a.record.content.serial) = [8] := by
  refine ⟨_, rfl, ?_, ?_⟩ <;> decide

end Sys2Proof.Tests
end

