-- ==== Sys2Proof/Proofs/KeyLoad.lean ====
section
/-! PROOFS. KEY_LOAD (R10 to R12): what the key load tests answer, what the command makes of each answer, and the key state
list. -/

namespace Sys2Proof.Machine

/-! ## A station frame on a line that is ready -/

/-- The address of a ready line is accepted for every command code (R190). -/
theorem toUnit_of_lineReady {f : Frame} {s : State} (h : lineReady f.addr s) : toUnit f s = true := by
  obtain ⟨-, haddr, hne⟩ := h
  have hnat : f.addr.toNat ≠ 0 := fun h0 => hne (BitVec.eq_of_toNat_eq h0)
  simp [toUnit, haddr, haddr ▸ hnat]

/-- A frame to this unit that meets no reply, no evaluation and nothing that waits is applied at once (R190, R191). -/
theorem stationFrame_ready {f : Frame} {s : State} (act : State → State) (h : lineReady f.addr s) (he : s.ve.eval = none)
    (hlen : f.payload.length ≤ 96) : stationFrame f act s = act s := by
  have hunit := toUnit_of_lineReady h
  obtain ⟨⟨htx, hslot, htest⟩, -⟩ := h
  have hwait : workWaits s = false := workWaits_eq_false.2 ⟨hslot, htest he⟩
  simp [stationFrame, acceptedFrame, hunit, htx, he, hwait, Nat.not_lt.2 hlen]

theorem exec_keyLoad_ready {addr : Byte} {payload : List Byte} {s : State} (h : lineReady addr s) (he : s.ve.eval = none)
    (hlen : payload.length ≤ 96) :
    exec (.keyLoad addr payload) s = .next (applyKeyLoad { addr := addr, code := 0x42, payload := payload } s) :=
  congrArg _ (stationFrame_ready (applyKeyLoad { addr := addr, code := 0x42, payload := payload }) h he hlen)

/-! ## The codes of the key states -/

theorem parseKeyState_eq_none {n : Nat} : parseKeyState n = none ↔ 2 < n := by
  unfold parseKeyState
  split_ifs <;> simp <;> omega

/-- A number that stands beside a state in the table of codes is the code the list carries for it (R12). -/
theorem keyStateCode_of_mem {st : KeyState} {n : Nat} (h : (st, n) ∈ [(KeyState.absent, 0), (.active, 1), (.retired, 2)]) :
    keyStateCode st = n := by
  cases st <;> simp_all [keyStateCode]

/-- The last byte of the key state list: the signing key is present while its entry is ACTIVE (R8). -/
theorem bitNat_signingPresent (su : Screening) (cfg : Settings) :
    bitNat (signingPresent su cfg) = if su.keys[cfg.signingKey]?.map (·.state) = some .active then 1 else 0 := by
  simp only [bitNat, signingPresent, beq_iff_eq]

/-! ## The tests of a KEY_LOAD (R11) -/

section Tests
variable {su : Screening} {signing index state : Nat} {st : KeyState} {word : Word16}

/-- RANGE: the index or the state is none that the table has. -/
theorem keyLoadRefusal_range (h : 7 < index ∨ 2 < state) : keyLoadRefusal su signing index state word = some 2 := by
  unfold keyLoadRefusal
  cases hp : parseKeyState state with
  | none => rfl
  | some st =>
    have hstate : ¬ 2 < state := fun hn => by simp [parseKeyState_eq_none.2 hn] at hp
    exact if_pos (h.resolve_right hstate)

/-- KEY_IN_USE: the signing key's entry would leave ACTIVE, or change its word while it is ACTIVE. -/
theorem keyLoadRefusal_keyInUse (hi : index ≤ 7) (hp : parseKeyState state = some st) (hs : index = signing)
    (h : st ≠ .active ∨ ∃ k, su.keys[index]? = some k ∧ k.state = .active ∧ k.word ≠ word) :
    keyLoadRefusal su signing index state word = some 3 := by
  simp only [keyLoadRefusal, hp, if_neg (Nat.not_lt.2 hi)]
  by_cases hst : st = .active
  · obtain ⟨k, hk, hactive, hword⟩ := h.resolve_left (not_not.2 hst)
    simp [hst, hs, hs ▸ hk, hactive, hword]
  · exact if_pos ⟨hs, hst⟩

/-- No test holds: another entry than the signing key's, or the signing key's ACTIVE with no word but its own while it is
ACTIVE. -/
theorem keyLoadRefusal_none (hi : index ≤ 7) (hp : parseKeyState state = some st)
    (h : index ≠ signing ∨ st = .active ∧ ∀ k, su.keys[index]? = some k → k.state = .active → k.word = word) :
    keyLoadRefusal su signing index state word = none := by
  simp only [keyLoadRefusal, hp, if_neg (Nat.not_lt.2 hi)]
  obtain hs | ⟨hst, hword⟩ := h
  · simp [hs]
  · cases hk : su.keys[index]? with
    | none => simp [hst]
    | some k => simpa [hst] using fun _ hactive => hword k hk hactive

end Tests

/-! ## What a KEY_LOAD does (R10 to R12) -/

theorem applyKeyLoad_empty {f : Frame} {s : State} (h : f.payload = []) : applyKeyLoad f s = keyReply f .ok s := if_pos h

theorem applyKeyLoad_badLength {f : Frame} {s : State} (hne : f.payload ≠ []) (hlen : f.payload.length ≠ 4) :
    applyKeyLoad f s = keyReply f .range s := by
  rw [applyKeyLoad, if_neg hne, if_pos hlen]

section FullLength
variable {f : Frame} {s : State} {index : Nat} {word : Word16}

/-- A payload of four bytes that a test refuses changes nothing and is answered with the test's result (R11, R12). -/
theorem applyKeyLoad_refused {n : Nat} (hlen : f.payload.length = 4) (hi : index = fieldAt f.payload 0 1)
    (hw : word = BitVec.ofNat 16 (fieldAt f.payload 2 2))
    (h : keyLoadRefusal s.su s.cfg.signingKey index (fieldAt f.payload 1 1) word = some n) :
    applyKeyLoad f s = keyReply f (refusalResult n) s := by
  subst hi hw
  have hne : f.payload ≠ [] := List.ne_nil_of_length_eq_add_one hlen
  simp [applyKeyLoad, hne, hlen, h]

/-- A payload of four bytes that no test refuses is loaded, and answered OK with the list after it (R10, R12). -/
theorem applyKeyLoad_loaded {st : KeyState} (hlen : f.payload.length = 4) (hi : index = fieldAt f.payload 0 1)
    (hw : word = BitVec.ofNat 16 (fieldAt f.payload 2 2)) (hp : parseKeyState (fieldAt f.payload 1 1) = some st)
    (h : keyLoadRefusal s.su s.cfg.signingKey index (fieldAt f.payload 1 1) word = none) :
    applyKeyLoad f s = keyReply f .ok { s with su := loadKey s.su index st word } := by
  subst hi hw
  have hne : f.payload ≠ [] := List.ne_nil_of_length_eq_add_one hlen
  simp [applyKeyLoad, hne, hlen, h, hp]

end FullLength

/-! ## The key state list (R12) -/

/-- Eight entries give ten bytes: their states' codes, the signing key index, and whether the signing key is present. -/
theorem keyStateList_eight (su : Screening) (cfg : Settings) (k0 k1 k2 k3 k4 k5 k6 k7 : KeyEntry) (code : KeyEntry → Nat)
    (hkeys : su.keys = [k0, k1, k2, k3, k4, k5, k6, k7])
    (hcode : ∀ k ∈ su.keys, (k.state, code k) ∈ [(KeyState.absent, 0), (.active, 1), (.retired, 2)]) :
    keyStateList su cfg = [byteOf (code k0), byteOf (code k1), byteOf (code k2), byteOf (code k3), byteOf (code k4),
      byteOf (code k5), byteOf (code k6), byteOf (code k7), byteOf cfg.signingKey,
      byteOf (bitNat (signingPresent su cfg))] := by
  have hstates : su.keys.map (fun k => byteOf (keyStateCode k.state)) = su.keys.map (fun k => byteOf (code k)) :=
    List.map_congr_left fun k hk => congrArg byteOf (keyStateCode_of_mem (hcode k hk))
  rw [keyStateList, hstates, hkeys]
  rfl

/-- Settles O57: each clause is one test of R11, or the load, at a line that applies the frame at once. -/
theorem keyLoadGuardsTheSigningKey : Obligations.KeyLoadGuardsTheSigningKey := by
  refine ⟨⟨rfl, rfl, rfl, fun n => parseKeyState_eq_none.2⟩, ?list, ?load⟩
  case list =>
    intro su cfg k0 k1 k2 k3 k4 k5 k6 k7 code present hkeys hcode hpresent
    rw [keyStateList_eight su cfg k0 k1 k2 k3 k4 k5 k6 k7 code hkeys hcode, bitNat_signingPresent, ← hpresent]
  case load =>
    intro addr payload s f index word hready he hf hmax
    rw [exec_keyLoad_ready hready he hmax, ← hf]
    have hpayload : f.payload = payload := by rw [hf]
    clear hf
    subst hpayload
    refine ⟨fun hempty => congrArg _ (applyKeyLoad_empty hempty),
      fun hne hlen => congrArg _ (applyKeyLoad_badLength hne hlen), fun hlen hindex hword => ⟨fun hrange => ?range,
        fun st hi hp => ⟨fun hs hguard => ?keyInUse, fun hfree => ?loaded⟩⟩⟩
    case range =>
      exact congrArg _ (applyKeyLoad_refused hlen hindex hword (keyLoadRefusal_range hrange))
    case keyInUse =>
      exact congrArg _ (applyKeyLoad_refused hlen hindex hword (keyLoadRefusal_keyInUse hi hp hs hguard))
    case loaded =>
      exact ⟨_, _, rfl, rfl,
        congrArg _ (applyKeyLoad_loaded hlen hindex hword hp (keyLoadRefusal_none hi hp hfree))⟩

end Sys2Proof.Machine
end

