-- ==== Sys2Proof/Proofs/BaseLoad.lean ====
section
/-! PROOFS. DENY_BASE_BEGIN and DENY_BASE_END (R19, R21): a broadcast frame on an open line, what the two commands make of the
deny list, and the payloads that do not fit them (R193). -/

namespace Sys2Proof.Machine

/-! ## A broadcast frame on a line that is open -/

/-- An accepted frame that meets no reply, no evaluation and nothing that waits is applied at once (R190, R191). -/
theorem stationFrame_open {f : Frame} {s : State} (act : State → State) (h : lineOpen s) (he : s.ve.eval = none)
    (haccept : acceptedFrame f s = true) (hlen : f.payload.length ≤ 96) : stationFrame f act s = act s := by
  obtain ⟨htx, hslot, htest⟩ := h
  have hwait : workWaits s = false := workWaits_eq_false.2 ⟨hslot, htest he⟩
  simp [stationFrame, haccept, htx, he, hwait, Nat.not_lt.2 hlen]

/-- A broadcast command is accepted at address 0 whatever the unit's own address is (R190). -/
theorem acceptedFrame_of_broadcast {f : Frame} {s : State} (haddr : f.addr = 0) (hcode : isBroadcast f.code = true) :
    acceptedFrame f s = true := by
  simp [acceptedFrame, haddr, hcode]

/-- A command sent to address 0 is not answered (R190). -/
theorem broadcastEnd_of_broadcast {f : Frame} (s : State) (haddr : f.addr = 0) : broadcastEnd f s = s := if_pos haddr

/-- A broadcast DENY_BASE_BEGIN begins a load where its payload has two bytes, and else does nothing (R19, R193). -/
theorem exec_denyBaseBegin_open {payload : List Byte} {s : State} (h : lineOpen s) (he : s.ve.eval = none)
    (hlen : payload.length ≤ 96) :
    exec (.denyBaseBegin 0 payload) s
      = .next (if payload.length = 2 then withDeny (denyBegin (beNat payload)) s else s) := by
  have happly := stationFrame_open (f := { addr := 0, code := 0x23, payload := payload })
    (applyDenyBegin { addr := 0, code := 0x23, payload := payload }) h he (acceptedFrame_of_broadcast rfl rfl) hlen
  exact congrArg _ (happly.trans (broadcastEnd_of_broadcast _ rfl))

/-- A broadcast DENY_BASE_END ends a load where it has no payload, and else does nothing (R21, R193). -/
theorem exec_denyBaseEnd_open {payload : List Byte} {s : State} (h : lineOpen s) (he : s.ve.eval = none)
    (hlen : payload.length ≤ 96) :
    exec (.denyBaseEnd 0 payload) s = .next (if payload = [] then withDeny denyEnd s else s) := by
  have happly := stationFrame_open (f := { addr := 0, code := 0x25, payload := payload })
    (applyDenyEnd { addr := 0, code := 0x25, payload := payload }) h he (acceptedFrame_of_broadcast rfl rfl) hlen
  exact congrArg _ (happly.trans (broadcastEnd_of_broadcast _ rfl))

/-! ## The deny list at the end of a load (R21) -/

/-- The entries that are not stale, said by their source: a STATION entry stays by its mark, a LOCAL one always. -/
theorem filter_not_isStale {kept : DenyEntry → Bool} (es : List DenyEntry)
    (hstation : ∀ n reason stale, kept { serial := n, reason := reason, source := .station stale } = !stale)
    (hlocal : ∀ n reason order, kept { serial := n, reason := reason, source := .localEntry order } = true) :
    es.filter (fun e => !e.isStale) = es.filter kept := by
  refine List.filter_congr fun ⟨n, reason, source⟩ _ => ?_
  cases source with
  | station stale => exact (hstation n reason stale).symm
  | localEntry order => exact (hlocal n reason order).symm

theorem denyEnd_of_loading {d : DenyList} (h : d.loading = true) :
    denyEnd d = { d with entries := d.entries.filter (fun e => !e.isStale), version := d.pending, loading := false,
                         mismatch := false } := if_pos h

theorem denyEnd_of_idle {d : DenyList} (h : d.loading = false) : denyEnd d = d := if_neg (Bool.eq_false_iff.1 h)

/-- An end outside a load changes nothing of the state (R21). -/
theorem withDeny_denyEnd_of_idle {s : State} (h : s.su.deny.loading = false) : withDeny denyEnd s = s := by
  rw [withDeny, denyEnd_of_idle h]

/-- Settles O50: at an open line each command is its test of the payload's length, and behind it the list's begin or end. -/
theorem baseLoadBeginsAndEnds : Obligations.BaseLoadBeginsAndEnds := by
  intro s hopen he
  have hbegin {payload : List Byte} := exec_denyBaseBegin_open (payload := payload) hopen he
  have hend {payload : List Byte} := exec_denyBaseEnd_open (payload := payload) hopen he
  refine ⟨fun payload htwo => ?begins, fun hload => ?ends, fun hidle => ?idle,
    fun payload hmax => ⟨fun hlen => ?badBegin, fun hne => ?badEnd⟩⟩
  case begins => rw [hbegin (by omega), if_pos htwo]; rfl
  case ends =>
    rw [hend (Nat.zero_le _), if_pos rfl, withDeny, denyEnd_of_loading hload, filter_not_isStale]
    · exact fun _ _ _ => rfl
    · exact fun _ _ _ => rfl
  case idle => rw [hend (Nat.zero_le _), if_pos rfl, withDeny_denyEnd_of_idle hidle]
  case badBegin => rw [hbegin hmax, if_neg hlen]
  case badEnd => rw [hend hmax, if_neg hne]

end Sys2Proof.Machine
end

