-- ==== Sys2Proof/Proofs/LastResults.lean ====
section
/-! PROOFS. The last result of a lane port (R93, R186): which operations leave it, that a lane command changes it at its own
port alone and a read command nowhere, that the resets set it to OK, and what a report or CANCEL out of place answers. -/

namespace Sys2Proof.Machine

/-! ## What leaves a port as it is -/

section Ports
variable {s t : State} {q : Port}

theorem port_of_parts (ha : t.portA = s.portA) (hb : t.portB = s.portB) : t.port q = s.port q := by
  cases q
  · exact ha
  · exact hb

theorem fixedLength_port {act : State → State} (hact : (act s).port q = s.port q) (f : Frame) (n : Nat) :
    (fixedLength f n act s).port q = s.port q := by
  obtain ⟨-, h⟩ | ⟨-, h⟩ := fixedLength_eq f n act s
  · rw [h, sendReply_port]
  · rw [h, hact]

theorem waitingWork_port : (waitingWork s).port q = s.port q := port_of_parts (waitingWork_portA s) (waitingWork_portB s)

/-- A station frame leaves a port that its command leaves (R190, R191). -/
theorem stationFrame_port {act : State → State} (hact : ∀ u, (act u).port q = u.port q) (f : Frame) :
    (stationFrame f act s).port q = s.port q := by
  have hafter : (afterWaiting act s).port q = s.port q := by
    obtain ⟨-, h⟩ | ⟨first, s1, s2, -, h1, h2, h⟩ := afterWaiting_eq act s
    · rw [h, hact, waitingWork_port]
    · have hs1 : s1.port q = (waitingWork s).port q := h1 ▸ rfl
      rw [h]
      exact (congrArg (State.port · q) h2).trans ((hact s1).trans (hs1.trans waitingWork_port))
  obtain h | ⟨-, -, -, -, -, h⟩ | ⟨-, -, -, -, -, h⟩ | ⟨-, -, -, -, -, -, h⟩ | ⟨-, -, -, -, -, h⟩ := stationFrame_eq f act s
  · rw [h]
  · rw [h]; rfl
  · rw [h, hafter]
  · rw [h]; rfl
  · rw [h, hact]

/-- A command of the station line whose effect leaves a port leaves it as a frame (R190). -/
theorem next_stationFrame_port {act : State → State} {f : Frame}
    (h : (.next (stationFrame f act s) : Host.Outcome State Fault Refusal) = .next t)
    (hact : ∀ u, (act u).port q = u.port q) : t.port q = s.port q := by
  rw [← Host.Outcome.next.inj h, stationFrame_port hact]

end Ports

/-! ## What leaves the last results -/

section Lasts
variable {s : State} {p q : Port}

theorem setPort_last {l : LanePort} (h : l.last = (s.port p).last) : ((s.setPort p l).port q).last = (s.port q).last := by
  by_cases hq : q = p
  · rw [hq, setPort_port_same, h]
  · rw [setPort_port_other s p q l hq]

theorem setPort_ended_last : ((s.setPort p (s.port p).ended).port q).last = (s.port q).last := setPort_last rfl

theorem discardFrame_last : ((discardFrame p s).port q).last = (s.port q).last := setPort_last rfl

theorem abandon_last (fate : TornFate) : ((abandon p fate s).port q).last = (s.port q).last :=
  setPort_ended_last.trans rfl

theorem commitPort_last (l : LanePort) : (commitPort l).last = l.last := by
  unfold commitPort
  split <;> rfl

theorem completeCommit_last (recordNo : Nat) : ((completeCommit p recordNo s).port q).last = (s.port q).last := by
  refine (setPort_last (commitPort_last _)).trans (congrArg LanePort.last ?_)
  exact port_of_parts (seenCommit_portA p _) (seenCommit_portB p _)

theorem takeCompletion_last (a : Append) (rest : List Append) :
    ((takeCompletion a rest s).port q).last = (s.port q).last := by
  unfold takeCompletion
  split
  · rfl
  · exact (completeCommit_last _).trans rfl

theorem confirmExpired_last : ((confirmExpired p s).port q).last = (s.port q).last := by
  unfold confirmExpired
  split
  · exact abandon_last .remove
  · exact abandon_last .keep
  · exact setPort_last rfl

theorem beginEvaluation_last (rest : List Port) : ((beginEvaluation p rest s).port q).last = (s.port q).last := by
  unfold beginEvaluation
  exact setPort_last rfl

theorem engineNext_last : ((engineNext s).port q).last = (s.port q).last := by
  have hwork : ((waitingWork s).port q).last = (s.port q).last := congrArg _ waitingWork_port
  unfold engineNext
  split
  · rfl
  · dsimp only
    split
    · exact hwork
    · rw [beginEvaluation_last, hwork]

theorem readyByCode_last (e : Evaluation) (v : Verdict) : ((readyByCode e v s).port q).last = (s.port q).last := by
  obtain ⟨hother, -, -, -, -, hown⟩ := ready_port e v s
  by_cases hq : q = e.port
  · rw [hq, hown]; rfl
  · rw [hother q hq]

theorem endEvaluation_last : ((endEvaluation s).port q).last = (s.port q).last := by
  have hstages : ((remainingStages s).port q).last = (s.port q).last :=
    congrArg _ (port_of_parts (remainingStages_portA s) (remainingStages_portB s))
  unfold endEvaluation
  dsimp only
  split
  · exact hstages
  · split
    · exact hstages
    · rw [Kept.endHold_port, readyByCode_last, setEval_port, hstages]

theorem withdrawQueued_last : ((withdrawQueued p s).port q).last = (s.port q).last := setPort_ended_last.trans rfl

theorem discardVerdict_last : ((discardVerdict p s).port q).last = (s.port q).last := by
  unfold discardVerdict
  split
  · exact abandon_last .remove
  · exact setPort_ended_last

theorem dropTap_last : ((dropTap p s).port q).last = (s.port q).last := by
  refine setPort_ended_last.trans (congrArg LanePort.last ?_)
  split
  · split
    · exact port_of_parts (dropEvaluation_portA _ s) (dropEvaluation_portB _ s)
    · rfl
  · rfl

theorem resetTap_last : ((resetTap p s).port q).last = (s.port q).last := by
  unfold resetTap
  split
  · rfl
  · exact withdrawQueued_last
  · exact dropTap_last
  · exact discardVerdict_last
  · exact abandon_last .keep
  · rfl

end Lasts

/-! ## The read commands (R80, R152, R186, R187) -/

section Reads
variable {s : State} {p q : Port}

theorem tornCreate_port (r : TornRecord) : (tornCreate r s).port q = s.port q :=
  port_of_parts (tornCreate_portA r s) (tornCreate_portB r s)

/-- A verdict that is read leaves the last results and the reply formed. -/
theorem afterRead_last_shiftOut (v : Verdict) :
    ((afterRead p v s).port q).last = (s.port q).last ∧ ((afterRead p v s).port p).shiftOut = (s.port p).shiftOut := by
  unfold afterRead
  dsimp only
  split
  · exact ⟨rfl, rfl⟩
  · split
    · split
      · simp only [tornCreate_port, setPort_port_same, and_true]
        exact setPort_last rfl
      · exact ⟨rfl, rfl⟩
    · exact ⟨setPort_last rfl, by rw [setPort_port_same]⟩

theorem takeReadVerdict_last : ((takeReadVerdict p s).port q).last = (s.port q).last := by
  unfold takeReadVerdict
  dsimp only
  split
  · exact setPort_last (s := s) rfl
  · exact (afterRead_last_shiftOut _).1.trans (setPort_last rfl)

theorem takeReadStatus_last : ((takeReadStatus p s).port q).last = (s.port q).last := setPort_last rfl

theorem takeReadHalt_last : ((takeReadHalt p s).port q).last = (s.port q).last := setPort_last rfl

theorem takeReadVerdict_reply :
    ∃ rest, ((takeReadVerdict p s).port p).shiftOut = laneReply (byteOf (lastCode (s.port p).last) :: rest) := by
  unfold takeReadVerdict
  dsimp only
  split
  · exact ⟨_, congrArg LanePort.shiftOut (setPort_port_same s p _)⟩
  · exact ⟨_, ((afterRead_last_shiftOut (q := p) _).2).trans (congrArg LanePort.shiftOut (setPort_port_same s p _))⟩

theorem takeReadStatus_reply :
    ∃ rest, ((takeReadStatus p s).port p).shiftOut = laneReply (byteOf (lastCode (s.port p).last) :: rest) :=
  ⟨_, congrArg LanePort.shiftOut (setPort_port_same s p _)⟩

theorem takeReadHalt_reply :
    ∃ rest, ((takeReadHalt p s).port p).shiftOut = laneReply (byteOf (lastCode (s.port p).last) :: rest) :=
  ⟨_, congrArg LanePort.shiftOut (setPort_port_same s p _)⟩

end Reads

/-! ## The non-read commands at the other port (R186) -/

section OtherPort
variable {s : State} {p q : Port} {payload : List Byte} {act : State → State}

theorem laneAnswer_last (hq : q ≠ p) (r : LastResult) : ((laneAnswer p r s).port q).last = (s.port q).last :=
  congrArg _ (setPort_port_other s p q _ hq)

theorem laneFrame_last (hact : ((act s).port q).last = (s.port q).last) :
    ((laneFrame p payload act s).port q).last = (s.port q).last := by
  obtain ⟨-, h⟩ | ⟨-, h⟩ := laneFrame_eq p payload act s
  · rw [h, discardFrame_last]
  · rw [h, hact]

theorem laneBare_last (hq : q ≠ p) (hact : ((act s).port q).last = (s.port q).last) :
    ((laneBare p payload act s).port q).last = (s.port q).last := by
  obtain ⟨-, h⟩ | ⟨-, h⟩ | ⟨-, h⟩ := laneBare_eq p payload act s
  · rw [h, discardFrame_last]
  · rw [h, laneAnswer_last hq]
  · rw [h, hact]

theorem takeTap_last (hq : q ≠ p) : ((takeTap p payload s).port q).last = (s.port q).last := by
  have hjoined (l : LanePort) : ((joinQueue p (s.setPort p l)).port q).last = (s.port q).last :=
    congrArg LanePort.last (setPort_port_other s p q l hq)
  unfold takeTap
  dsimp only
  split
  · exact laneAnswer_last hq _
  · split
    · exact laneAnswer_last hq _
    · split
      · exact engineNext_last.trans (hjoined _)
      · exact hjoined _

theorem takeWritten_last (hq : q ≠ p) : ((takeWritten p s).port q).last = (s.port q).last := by
  unfold takeWritten
  dsimp only
  split
  · rw [setPort_port_other _ p q _ hq, port_of_parts (requestTapFare_portA p s) (requestTapFare_portB p s)]
  · exact laneAnswer_last hq _

theorem takeNotWritten_last (hq : q ≠ p) : ((takeNotWritten p s).port q).last = (s.port q).last := by
  unfold takeNotWritten
  split
  · rw [laneAnswer_last hq, abandon_last]
  · exact laneAnswer_last hq _

theorem takeUncertain_last (hq : q ≠ p) : ((takeUncertain p s).port q).last = (s.port q).last := by
  unfold takeUncertain
  split
  · rw [laneAnswer_last hq, abandon_last]
  · exact laneAnswer_last hq _

theorem takeCancel_last (hq : q ≠ p) : ((takeCancel p s).port q).last = (s.port q).last := by
  unfold takeCancel
  split
  · rw [laneAnswer_last hq, withdrawQueued_last]
  · rw [laneAnswer_last hq, discardVerdict_last]
  · rw [laneAnswer_last hq, abandon_last]
  · exact laneAnswer_last hq _

theorem takeFaultClear_last (hq : q ≠ p) : ((takeFaultClear p s).port q).last = (s.port q).last := by
  unfold takeFaultClear
  split
  · exact laneAnswer_last hq _
  · exact (laneAnswer_last hq _).trans rfl

theorem takePortReset_last (hq : q ≠ p) : ((takePortReset p s).port q).last = (s.port q).last := by
  unfold takePortReset
  rw [setPort_port_other _ p q _ hq, resetTap_last]

end OtherPort

/-! ## When a last result changes (R93) -/

section Commands
variable {c : Instr} {s t : State} {p q : Port}

/-- A lane command changes no last result at the other port (R186). -/
theorem lane_last_other (hc : lanePort c = some p) (hq : q ≠ p) (h : exec c s = .next t) :
    (t.port q).last = (s.port q).last := by
  cases c <;> cases hc <;> cases h
  case tap => exact laneFrame_last (takeTap_last hq)
  case readVerdict => exact laneFrame_last takeReadVerdict_last
  case written => exact laneBare_last hq (takeWritten_last hq)
  case notWritten => exact laneBare_last hq (takeNotWritten_last hq)
  case uncertain => exact laneBare_last hq (takeUncertain_last hq)
  case cancel => exact laneBare_last hq (takeCancel_last hq)
  case readStatus => exact laneFrame_last takeReadStatus_last
  case readHalt => exact laneFrame_last takeReadHalt_last
  case faultClear => exact laneBare_last hq (takeFaultClear_last hq)
  case portReset => exact laneBare_last hq (takePortReset_last hq)
  case laneUnknownCommand => exact laneFrame_last (laneAnswer_last hq _)
  case laneFrameDiscard => exact discardFrame_last

/-- A read command changes no last result at all (R93, R186). -/
theorem read_last {l : List Byte} (hc : c = .readVerdict p l ∨ c = .readStatus p l ∨ c = .readHalt p l)
    (h : exec c s = .next t) : (t.port q).last = (s.port q).last := by
  obtain rfl | rfl | rfl := hc <;> cases h
  · exact laneFrame_last takeReadVerdict_last
  · exact laneFrame_last takeReadStatus_last
  · exact laneFrame_last takeReadHalt_last

theorem expireAtReset_port : (expireAtReset s).port q = s.port q := by
  have hfold (serials : List Nat) (u : State) :
      (serials.foldl (fun acc serial => expireIfDue serial acc) u).port q = u.port q := by
    induction serials generalizing u with
    | nil => rfl
    | cons n rest ih => rw [List.foldl_cons, ih, port_of_parts (expireIfDue_portA n u) (expireIfDue_portB n u)]
  exact hfold _ s

/-- Either reset sets the last result of both ports to OK (R92, R189). -/
theorem reset_last (hc : c = .powerOn ∨ c = .lineReset) (h : exec c s = .next t) : (t.port q).last = .ok := by
  have hblocks (now : Nat) (keep : Bool) (j : Journal) (tl : TimeLink) :
      ((expireAtReset (resetBlocks now keep j tl s)).port q).last = .ok := by
    rw [expireAtReset_port]
    cases q <;> rfl
  obtain rfl | rfl := hc <;> cases h
  · exact hblocks _ _ _ _
  · split
    · rw [port_of_parts (runActivation_portA _) (runActivation_portB _), hblocks]
    · exact hblocks _ _ _ _

/-- What is no lane command and no reset changes no last result (R93). -/
theorem last_of_not_lane (hlane : lanePort c = none) (hpower : c ≠ .powerOn) (hline : c ≠ .lineReset)
    (h : exec c s = .next t) : (t.port q).last = (s.port q).last := by
  cases c <;> cases hlane
  case powerOn => exact absurd rfl hpower
  case lineReset => exact absurd rfl hline
  case evaluationBegin => cases h; exact engineNext_last
  case verdictReadyEvent => cases h; exact endEvaluation_last
  case applyWaitingFrame => cases h; exact congrArg _ (port_of_parts (applyWaiting_portA s) (applyWaiting_portB s))
  case heldActivationTest => cases h; exact congrArg _ (port_of_parts (heldActivation_portA s) (heldActivation_portB s))
  case confirmTimerExpiry p =>
    simp only [exec, execConfirmTimerExpiry] at h
    split at h <;> cases h
    · rfl
    · rw [confirmExpired_last, reach_port]
  case appendCompletion =>
    simp only [exec, execAppendCompletion] at h
    split at h <;> cases h
    · rfl
    · exact takeCompletion_last _ _
  case rawLevelChange => cases h; rw [withAisleOnly_port]
  case filteredChange | settleEnd | travelTimeoutExpiry | blankWindowEnd | zoneClearTimerExpiry | alarmTimerExpiry
      | loiterLimitReached | holdWindowExpiry | idleTimerExpiry =>
    simp only [exec, execFilteredChange, execSettleEnd, execTravelTimeoutExpiry, execBlankWindowEnd,
      execZoneClearTimerExpiry, execAlarmTimerExpiry, execLoiterLimitReached, execHoldWindowExpiry,
      execIdleTimerExpiry] at h
    split at h <;> cases h
    · rfl
    · simp only [withAisle_port, withAisleOnly_port, reach_port]
  case clockAdvance =>
    simp only [exec, execClockAdvance] at h
    split at h <;> cases h
    · rw [port_of_parts (takeAdvance_portA _ _) (takeAdvance_portB _ _), reach_port]
    · rfl
  case tornRecordExpiry n =>
    cases h
    split
    · rfl
    · exact congrArg _ (port_of_parts (expireIfDue_portA n s) (expireIfDue_portB n s))
  case linkWatchExpiry =>
    simp only [exec, execLinkWatchExpiry] at h
    split at h <;> cases h
    · rfl
    · rw [port_of_parts (watchExpired_portA _) (watchExpired_portB _), reach_port]
  case standaloneTimerExpiry =>
    simp only [exec, execStandaloneTimerExpiry] at h
    split at h <;> cases h <;> rfl
  case time | sighting | emergency | denyBaseBegin | denyBaseAdd | denyBaseEnd | denyDelta | tariffBegin | tariffData
      | tariffEnd | keyLoad | configure =>
    exact congrArg _ (next_stationFrame_port h fun u => port_of_parts (by simp) (by simp))
  case poll | collected | identify | restore | stationFaultClear | journalClear | forceCheckFault
      | maintUnknownOperation | reset =>
    exact congrArg _ (next_stationFrame_port h fun u => fixedLength_port (port_of_parts (by simp) (by simp)) _ _)
  case stationUnknownCommand =>
    refine congrArg _ (next_stationFrame_port h fun u => ?_)
    split
    · rfl
    · rw [sendReply_port]
  case frameOverrun => cases h; exact congrArg _ (port_of_parts (takeOverrun_portA _ s) (takeOverrun_portB _ s))
  case stationFrameIgnored | stationFrameAbandon => cases h; rfl
  case stationReplyEnd =>
    simp only [exec, execStationReplyEnd] at h
    split at h <;> cases h <;> rfl

/-- A last result that changes does so by a reset, or by a non-read command of its port (R93). -/
theorem reset_or_own_of_last_ne (h : exec c s = .next t) (hne : (t.port p).last ≠ (s.port p).last) :
    ((c = .powerOn ∨ c = .lineReset) ∧ (t.port p).last = .ok)
      ∨ (lanePort c = some p ∧ (∀ l, c ≠ .readVerdict p l) ∧ (∀ l, c ≠ .readStatus p l) ∧ ∀ l, c ≠ .readHalt p l) := by
  cases hlane : lanePort c with
  | none =>
    by_cases hreset : c = .powerOn ∨ c = .lineReset
    · exact .inl ⟨hreset, reset_last hreset h⟩
    · obtain ⟨hpower, hline⟩ := not_or.1 hreset
      exact absurd (last_of_not_lane hlane hpower hline h) hne
  | some r =>
    obtain rfl : r = p := by_contra fun hr => hne (lane_last_other hlane (Ne.symm hr) h)
    exact .inr ⟨rfl, fun l hc => hne (read_last (.inl hc) h), fun l hc => hne (read_last (.inr (.inl hc)) h),
      fun l hc => hne (read_last (.inr (.inr hc)) h)⟩

end Commands

/-! ## Reports and CANCEL out of place (R93) -/

section OutOfPlace
variable {s : State} {p : Port} {c : Instr}

theorem laneBare_nil (act : State → State) : laneBare p [] act s = act s := by simp [laneBare, laneFrame]

theorem outOfPlace_idle (h : (s.port p).tap = .idle) :
    outOfPlace p s = s.setPort p { s.port p with last := .noTap, shiftOut := [] } := by
  rw [outOfPlace, if_pos h]
  rfl

theorem outOfPlace_other (h : (s.port p).tap ≠ .idle) :
    outOfPlace p s = s.setPort p { s.port p with last := .wrongState, shiftOut := [] } := by
  rw [outOfPlace, if_neg h]
  rfl

/-- A report belongs to AWAITING_WRITE alone (R81, R82, R83, R93). -/
theorem exec_report_outOfPlace (hc : c = .written p [] ∨ c = .notWritten p [] ∨ c = .uncertain p [])
    (h : (s.port p).tap ≠ .awaitingWrite) : exec c s = .next (outOfPlace p s) := by
  obtain rfl | rfl | rfl := hc
  · exact congrArg Host.Outcome.next ((laneBare_nil (takeWritten p)).trans (if_neg h))
  · exact congrArg Host.Outcome.next ((laneBare_nil (takeNotWritten p)).trans (if_neg h))
  · exact congrArg Host.Outcome.next ((laneBare_nil (takeUncertain p)).trans (if_neg h))

/-- CANCEL does not belong to IDLE, EVALUATING and COMMITTING (R82, R93). -/
theorem exec_cancel_outOfPlace (h : (s.port p).tap = .idle ∨ (s.port p).tap = .evaluating ∨ (s.port p).tap = .committing) :
    exec (.cancel p []) s = .next (outOfPlace p s) := by
  have htake : takeCancel p s = outOfPlace p s := by
    obtain h | h | h := h <;> rw [takeCancel, h]
  exact congrArg Host.Outcome.next ((laneBare_nil (takeCancel p)).trans htake)

/-- Every read reply begins with the last result (R93, R186). -/
theorem exec_read_reply {payload : List Byte} (hlen : payload.length ≤ 40)
    (hc : c = .readVerdict p payload ∨ c = .readStatus p payload ∨ c = .readHalt p payload) :
    ∃ t rest, exec c s = .next t ∧ (t.port p).shiftOut = laneReply (byteOf (lastCode (s.port p).last) :: rest) := by
  have hframe (act : State → State) : laneFrame p payload act s = act s := if_neg (Nat.not_lt.2 hlen)
  obtain rfl | rfl | rfl := hc
  · obtain ⟨rest, h⟩ := takeReadVerdict_reply (s := s) (p := p)
    exact ⟨_, rest, congrArg Host.Outcome.next (hframe (takeReadVerdict p)), h⟩
  · obtain ⟨rest, h⟩ := takeReadStatus_reply (s := s) (p := p)
    exact ⟨_, rest, congrArg Host.Outcome.next (hframe (takeReadStatus p)), h⟩
  · obtain ⟨rest, h⟩ := takeReadHalt_reply (s := s) (p := p)
    exact ⟨_, rest, congrArg Host.Outcome.next (hframe (takeReadHalt p)), h⟩

end OutOfPlace

/-- Settles O21: the reports and CANCEL by the tap state, the commands that change a last result, and the read replies. -/
theorem reportsOutOfPlace : Obligations.ReportsOutOfPlace := by
  refine ⟨fun p s c hc => ⟨fun hidle => ?_, fun hidle hawait => ?_⟩, fun p s => ⟨fun hidle => ?_, fun hbusy => ?_⟩,
    fun c p s t => reset_or_own_of_last_ne, fun p payload s c => exec_read_reply⟩
  · rw [exec_report_outOfPlace hc (by simp [hidle]), outOfPlace_idle hidle]
  · rw [exec_report_outOfPlace hc hawait, outOfPlace_other hidle]
  · rw [exec_cancel_outOfPlace (.inl hidle), outOfPlace_idle hidle]
  · have hnotIdle : (s.port p).tap ≠ .idle := by obtain h | h := hbusy <;> simp [h]
    rw [exec_cancel_outOfPlace (.inr hbusy), outOfPlace_other hnotIdle]

end Sys2Proof.Machine
end

