-- ==== Sys2Proof/Proofs/FaultClear.lean ====
section
/-! PROOFS. FAULT_CLEAR (R153): what it does by the lockout, taken at a lane port and from the station. -/

namespace Sys2Proof.Machine

/-- A frame to this unit whose command does not wait for the end of an evaluation is applied at once, with an evaluation in
progress or without one (R34, R190, R191). -/
theorem stationFrame_ready_of_not_waits {f : Frame} {s : State} (act : State → State) (h : lineReady f.addr s)
    (hcode : waitsForEvaluation f.code = false) (hlen : f.payload.length ≤ 96) : stationFrame f act s = act s := by
  cases he : s.ve.eval with
  | none => exact stationFrame_ready act h he hlen
  | some e =>
    have hunit := toUnit_of_lineReady h
    obtain ⟨⟨htx, hslot, -⟩, -⟩ := h
    simp [stationFrame, acceptedFrame, hunit, htx, hslot, he, hcode, Nat.not_lt.2 hlen]

/-! ## At a lane port -/

section Lane
variable {s : State} {p : Port}

theorem clearFault_port : (clearFault s).port p = s.port p := port_of_parts (clearFault_portA s) (clearFault_portB s)

theorem exec_faultClear_bare : exec (.faultClear p []) s = .next (takeFaultClear p s) :=
  congrArg Host.Outcome.next (laneBare_nil (takeFaultClear p))

theorem takeFaultClear_of_free (h : s.ac.lockedOut = false) :
    takeFaultClear p s = (clearFault s).setPort p { s.port p with last := .ok, shiftOut := [] } := by
  rw [takeFaultClear, if_neg (Bool.eq_false_iff.1 h), laneAnswer, clearFault_port]
  rfl

theorem takeFaultClear_of_lockedOut (h : s.ac.lockedOut = true) :
    takeFaultClear p s = s.setPort p { s.port p with last := .refused, shiftOut := [] } := if_pos h

end Lane

/-! ## From the station -/

section Station
variable {s : State}

/-- A command without payload that does not wait for the end of an evaluation acts at once on a ready line (R190, R193). -/
theorem stationFrame_bare_ready {f : Frame} (act : State → State) (h : lineReady f.addr s)
    (hcode : waitsForEvaluation f.code = false) (hbare : f.payload.length = 0) :
    stationFrame f (fixedLength f 0 act) s = act s := by
  rw [stationFrame_ready_of_not_waits _ h hcode (hbare ▸ Nat.zero_le 96), fixedLength, if_pos hbare]

theorem exec_stationFaultClear_ready {addr : Byte} (h : lineReady addr s) :
    exec (.stationFaultClear addr []) s
      = .next (takeStationFaultClear { addr := addr, code := 0x46, payload := [] } s) :=
  congrArg Host.Outcome.next (stationFrame_bare_ready (takeStationFaultClear _) h rfl rfl)

theorem takeStationFaultClear_of_free {f : Frame} (h : s.ac.lockedOut = false) :
    takeStationFaultClear f s = sendReply f .ok [] (clearFault s) := if_neg (Bool.eq_false_iff.1 h)

theorem takeStationFaultClear_of_lockedOut {f : Frame} (h : s.ac.lockedOut = true) :
    takeStationFaultClear f s = sendReply f .refused [] s := if_pos h

end Station

/-- Settles O28: at either party the command is taken at once, and acts by the lockout alone. -/
theorem faultClearByLockout : Obligations.FaultClearByLockout := by
  refine ⟨fun p s => ⟨fun hfree => ?_, fun hlocked => ?_⟩, fun addr s hready => ⟨fun hfree => ?_, fun hlocked => ?_⟩⟩
  · rw [exec_faultClear_bare, takeFaultClear_of_free hfree, clearFault]
  · rw [exec_faultClear_bare, takeFaultClear_of_lockedOut hlocked]
  · rw [exec_stationFaultClear_ready hready, takeStationFaultClear_of_free hfree, clearFault]
  · rw [exec_stationFaultClear_ready hready, takeStationFaultClear_of_lockedOut hlocked]

end Sys2Proof.Machine
end

