-- ==== Sys2Proof/Proofs/Collected.lean ====
section
/-! PROOFS. COLLECTED (R173): the records that leave from the oldest end are those numbered up to the bound. -/

namespace Sys2Proof.Machine

/-! ## Collected records leave from the oldest end (R173) -/

/-- On a list in ascending order of a key, the entries that a bound drops from the front are all the entries up to it. -/
theorem dropWhile_le_eq_filter_lt {α : Type*} {key : α → Nat} {n : Nat} {xs : List α}
    (h : xs.Pairwise (fun a b => key a < key b)) :
    xs.dropWhile (fun a => decide (key a ≤ n)) = xs.filter (fun a => decide (n < key a)) := by
  induction h with
  | nil => rfl
  | @cons x xs hx _ ih =>
    obtain hle | hlt := le_or_gt (key x) n
    · simp [hle, Nat.not_lt.2 hle, ih]
    · have hall : ∀ a ∈ x :: xs, n < key a :=
        List.forall_mem_cons.2 ⟨hlt, fun a ha => hlt.trans (hx a ha)⟩
      rw [List.filter_eq_self.2 (by simpa using hall), List.dropWhile_cons_of_neg (by simpa using hlt)]

/-- The held records stand in ascending order of their numbers (R160). -/
theorem JournalOk.held_ascending {j : Journal} (h : JournalOk j) :
    j.held.Pairwise (fun a b => a.number < b.number) := by
  obtain ⟨-, hnumbers, -⟩ := h
  exact List.pairwise_map.1 (hnumbers ▸ List.pairwise_lt_range' _)

theorem collect_eq_filter {j : Journal} (h : JournalOk j) (n : Nat) :
    collect n j = { j with held := j.held.filter (fun r => decide (n < r.number)) } := by
  rw [collect, dropWhile_le_eq_filter_lt h.held_ascending]

/-! ## COLLECTED on a line that is ready -/

/-- COLLECTED does not wait for the end of an evaluation, and acts at once with a record number of four bytes (R190, R193). -/
theorem exec_collected_ready {addr : Byte} {payload : List Byte} {s : State} (h : lineReady addr s)
    (hlen : payload.length = 4) :
    exec (.collected addr payload) s
      = .next (takeCollected { addr := addr, code := 0x41, payload := payload } s) := by
  refine congrArg Host.Outcome.next ?_
  rw [stationFrame_ready_of_not_waits _ h rfl (by simp [hlen]), fixedLength, if_pos hlen]

/-- Settles O56: COLLECTED drops from the oldest end, which by the ascending numbers is every record up to the bound. -/
theorem collectedRemovesUpToNumber : Obligations.CollectedRemovesUpToNumber := by
  intro addr payload s hready hlen hjournal
  rw [exec_collected_ready hready hlen, takeCollected, collect_eq_filter hjournal]

end Sys2Proof.Machine
end

