-- ==== Sys2Proof/Proofs/Blocks.lean ====
section
/-! PROOFS. A condition on one block that the block's moves keep is kept by every step: the form in which the conditions of
the blocks are proved. -/

namespace Sys2Proof.Machine

/-! ## Conditions on one block -/

theorem closed_fu {Q : FareUnit → Prop} (move : ∀ f f', Q f → FareMove f f' → Q f') : Closed (fun s => Q s.fu) where
  now _ _ := id
  free _ _ := id
  port s p l h := by simpa using h
  ve _ _ := id
  sl _ _ := id
  su _ _ h _ := h
  fu s f h m := move s.fu f h m
  ac _ _ h _ := h
  acReset _ _ _ := id
  jn _ _ h _ := h
  tl _ _ h _ := h
  cfg _ _ h _ := h

theorem closed_tl {Q : TimeLink → Prop} (move : ∀ now cfg t t', Q t → TimeMove now cfg t t' → Q t') :
    Closed (fun s => Q s.tl) where
  now _ _ := id
  free _ _ := id
  port s p l h := by simpa using h
  ve _ _ := id
  sl _ _ := id
  su _ _ h _ := h
  fu _ _ h _ := h
  ac _ _ h _ := h
  acReset _ _ _ := id
  jn _ _ h _ := h
  tl s t h m := move s.now s.cfg s.tl t h m
  cfg _ _ h _ := h

theorem closed_jn {Q : Journal → Prop} (move : ∀ j j', Q j → JournalMove j j' → Q j') : Closed (fun s => Q s.jn) where
  now _ _ := id
  free _ _ := id
  port s p l h := by simpa using h
  ve _ _ := id
  sl _ _ := id
  su _ _ h _ := h
  fu _ _ h _ := h
  ac _ _ h _ := h
  acReset _ _ _ := id
  jn s j h m := move s.jn j h m
  tl _ _ h _ := h
  cfg _ _ h _ := h

theorem closed_su {Q : Screening → Prop} (move : ∀ k u u', Q u → ScreenMove k u u' → Q u') : Closed (fun s => Q s.su) where
  now _ _ := id
  free _ _ := id
  port s p l h := by simpa using h
  ve _ _ := id
  sl _ _ := id
  su s u h m := move s.cfg.signingKey s.su u h m
  fu _ _ h _ := h
  ac _ _ h _ := h
  acReset _ _ _ := id
  jn _ _ h _ := h
  tl _ _ h _ := h
  cfg _ _ h _ := h

theorem closed_ac {Q : Aisle → Prop} (move : ∀ env a a', Q a → AisleMove env a a' → Q a')
    (reset : ∀ env keep a, Q a → Q (resetAisle env keep a)) : Closed (fun s => Q s.ac) where
  now _ _ := id
  free _ _ := id
  port s p l h := by simpa using h
  ve _ _ := id
  sl _ _ := id
  su _ _ h _ := h
  fu _ _ h _ := h
  ac s a h m := move s.env s.ac a h m
  acReset s env keep h := reset env keep s.ac h
  jn _ _ h _ := h
  tl _ _ h _ := h
  cfg _ _ h _ := h

/-- The step keeps a condition on a block, other than the Journal and the Aisle Controller, that the moves keep. -/
theorem step_keeps_fu {Q : FareUnit → Prop} (move : ∀ f f', Q f → FareMove f f' → Q f') {s t : State}
    (h : step s = .next t) (hs : Q s.fu) : Q t.fu :=
  step_closed (closed_fu move) (fun _ _ => id) (fun _ _ _ => id) (fun _ _ _ h _ => h) (fun _ _ => id) s t h hs

theorem step_keeps_tl {Q : TimeLink → Prop} (move : ∀ now cfg t t', Q t → TimeMove now cfg t t' → Q t') {s t : State}
    (h : step s = .next t) (hs : Q s.tl) : Q t.tl :=
  step_closed (closed_tl move) (fun _ _ => id) (fun _ _ _ => id) (fun _ _ _ h _ => h) (fun _ _ => id) s t h hs

theorem step_keeps_su {Q : Screening → Prop} (move : ∀ k u u', Q u → ScreenMove k u u' → Q u') {s t : State}
    (h : step s = .next t) (hs : Q s.su) : Q t.su :=
  step_closed (closed_su move) (fun _ _ => id) (fun _ _ _ => id) (fun _ _ _ h _ => h) (fun _ _ => id) s t h hs

/-- For the Aisle Controller a grant is one move more. -/
theorem step_keeps_ac {Q : Aisle → Prop} (move : ∀ env a a', Q a → AisleMove env a a' → Q a')
    (reset : ∀ env keep a, Q a → Q (resetAisle env keep a)) (grant : ∀ env p n a, Q a → Q (grantCredit env p n a))
    {s t : State} (h : step s = .next t) (hs : Q s.ac) : Q t.ac :=
  step_closed (closed_ac move reset) (fun _ _ => id) (fun s p n h => grant s.env p n s.ac h) (fun _ _ _ h _ => h)
    (fun _ _ => id) s t h hs

/-- For the Journal a completion and a collection are moves more. -/
theorem step_keeps_jn {Q : Journal → Prop} (move : ∀ j j', Q j → JournalMove j j' → Q j')
    (complete : ∀ j a rest, Q j → j.queue = a :: rest → Q (completeAppend a rest j))
    (collected : ∀ j n, Q j → Q (collect n j)) {s t : State} (h : step s = .next t) (hs : Q s.jn) : Q t.jn :=
  step_closed (closed_jn move) (fun _ _ => id) (fun _ _ _ => id) (fun s a rest h => complete s.jn a rest h)
    (fun s n h => collected s.jn n h) s t h hs

end Sys2Proof.Machine
end

