-- ==== Sys2Proof/Proofs/TariffBanks.lean ====
section
/-! PROOFS. The tariff banks under every move of the Fare Unit (R36, R38, R48): the bank that a move writes, and the other. -/

namespace Sys2Proof.Machine

/-! ## Two banks by number -/

section Banks
variable {f : FareUnit} {b : Bank} {one two : Bool} {st : BankState}

theorem setBank_bank_same : (f.setBank one b).bank one = b := by
  cases one <;> rfl

theorem setBank_bank_other (h : two ≠ one) : (f.setBank one b).bank two = f.bank two := by
  cases one <;> cases two <;> simp_all [FareUnit.setBank, FareUnit.bank]

/-- The bank that a search by state finds has the state (R38). -/
theorem bank_state_of_bankIn (h : f.bankIn st = some one) : (f.bank one).state = st := by
  unfold FareUnit.bankIn at h
  split_ifs at h with h0 h1 <;> cases h
  · exact h0
  · exact h1

theorem bankIn_isSome_iff : (f.bankIn st).isSome = true ↔ ∃ one, (f.bank one).state = st := by
  constructor
  · intro h
    obtain ⟨one, h⟩ := Option.isSome_iff_exists.1 h
    exact ⟨one, bank_state_of_bankIn h⟩
  · rintro ⟨one, h⟩
    unfold FareUnit.bankIn
    cases one <;> simp only [FareUnit.bank, Bool.false_eq_true, if_true, if_false] at h
    · simp [h]
    · split_ifs <;> rfl

theorem activeBank_isSome_iff : f.activeBank.isSome = true ↔ ∃ one, (f.bank one).state = .active := by
  rw [FareUnit.activeBank, Option.isSome_map, bankIn_isSome_iff]

/-- The banks are in order when each has its 314 positions and no two of different numbers are ACTIVE. -/
theorem banksOk_iff : BanksOk f ↔ (∀ one, (f.bank one).contents.length = 314)
    ∧ ∀ one, (f.bank one).state = .active → (f.bank !one).state ≠ .active := by
  simp only [BanksOk, Bool.forall_bool, FareUnit.bank, Bool.not_true, Bool.not_false, if_true, Bool.false_eq_true, if_false]
  tauto

theorem forall_bank_setBank {C : Bank → Prop} (h : ∀ two, two ≠ one → C (f.bank two)) (hb : C b) :
    ∀ two, C ((f.setBank one b).bank two) := by
  intro two
  by_cases e : two = one
  · subst e; rwa [setBank_bank_same]
  · rw [setBank_bank_other e]; exact h two e

end Banks

/-- The banks in order, one of them ACTIVE where that is asked (R36, R38, R48). -/
def BanksKept (ask : Prop) (f : FareUnit) : Prop := BanksOk f ∧ (ask → f.activeBank.isSome = true)

section Moves
variable {f : FareUnit} {b : Bank} {one : Bool} {ask : Prop}

/-- A bank that is not ACTIVE may be replaced by one that is not ACTIVE, of 314 positions. -/
theorem BanksKept.setBank (h : BanksKept ask f) (hold : (f.bank one).state ≠ .active) (hnew : b.state ≠ .active)
    (hlen : b.contents.length = 314) : BanksKept ask (f.setBank one b) := by
  obtain ⟨hok, hsome⟩ := h
  obtain ⟨hlens, huniq⟩ := banksOk_iff.1 hok
  refine ⟨banksOk_iff.2 ⟨forall_bank_setBank (C := fun b => b.contents.length = 314) (fun two _ => hlens two) hlen, ?_⟩, ?_⟩
  · intro two hact
    have htwo : two ≠ one := by rintro rfl; exact hnew (by rwa [setBank_bank_same] at hact)
    have hnot : (!two) = one := (Bool.eq_not_of_ne htwo.symm).symm
    rwa [hnot, setBank_bank_same]
  · intro hs
    obtain ⟨two, hact⟩ := activeBank_isSome_iff.1 (hsome hs)
    refine activeBank_isSome_iff.2 ⟨two, ?_⟩
    rwa [setBank_bank_other (by rintro rfl; exact hold hact)]

/-- Fields beside the banks do not bear on them. -/
theorem BanksKept.of_banks {g : FareUnit} (h : BanksKept ask f) (h0 : g.bank0 = f.bank0) (h1 : g.bank1 = f.bank1) :
    BanksKept ask g := by
  unfold BanksKept BanksOk FareUnit.activeBank FareUnit.bankIn at *
  rw [h0, h1]
  simpa using h

/-- The load target of a TARIFF_BEGIN is not the ACTIVE bank (R39). -/
theorem loadTarget_not_active (h : BanksOk f) : (f.bank f.loadTarget).state ≠ .active := by
  obtain ⟨-, huniq⟩ := banksOk_iff.1 h
  cases hact : f.bankIn .active with
  | some one =>
    rw [show f.loadTarget = !one by simp [FareUnit.loadTarget, hact]]
    exact huniq one (bank_state_of_bankIn hact)
  | none =>
    intro hc
    have := bankIn_isSome_iff.2 ⟨f.loadTarget, hc⟩
    simp [hact] at this

theorem writeValues_length (sec pos : Nat) (vs contents : List Nat) :
    (writeValues sec pos vs contents).length = contents.length := by
  induction vs generalizing pos contents with
  | nil => rfl
  | cons v vs ih => rw [writeValues, ih, List.length_set]

theorem tariffBegin_keeps (v d : Nat) (h : BanksKept ask f) : BanksKept ask (tariffBegin v d f) := by
  refine BanksKept.of_banks (h.setBank (one := f.loadTarget) (loadTarget_not_active h.1) (b := ⟨.loading, v, d, _⟩) ?_ ?_) rfl rfl
  · simp
  · exact List.length_replicate

theorem not_active_of_bankIn {st : BankState} (h : f.bankIn st = some one) (hst : st ≠ .active) :
    (f.bank one).state ≠ .active := by
  rwa [bank_state_of_bankIn h]

theorem tariffData_keeps (td : TariffData) (h : BanksKept ask f) : BanksKept ask (tariffData td f) := by
  unfold tariffData
  split
  · exact h
  · rename_i one hload
    split
    · exact h
    · have hst := bank_state_of_bankIn hload
      refine h.setBank (by simp [hst]) (by simp [hst]) ?_
      exact (writeValues_length _ _ _ _).trans ((banksOk_iff.1 h.1).1 one)

theorem tariffEnd_keeps (check : Word16) (h : BanksKept ask f) : BanksKept ask (tariffEnd check f).1 := by
  unfold tariffEnd
  split
  · exact h
  · rename_i one hload
    have hold := not_active_of_bankIn hload (by decide)
    split
    · exact h.setBank hold (by simp) ((banksOk_iff.1 h.1).1 one)
    · exact (h.setBank hold (b := clearedBank) (by decide) List.length_replicate).of_banks rfl rfl

theorem retireBank_not_active (b : Bank) : (retireBank b).state ≠ .active := by
  unfold retireBank
  split_ifs with h
  · simp
  · exact h

theorem retireBank_length (b : Bank) : (retireBank b).contents.length = b.contents.length := by
  unfold retireBank
  split_ifs <;> rfl

/-- An activation leaves the activated bank the only ACTIVE one (R45). -/
theorem activationTest_keeps (t : TimeLink) (h : BanksKept ask f) : BanksKept ask (activationTest t f).1 := by
  unfold activationTest
  split
  · exact h
  · rename_i one hready
    split
    · have hlens := (banksOk_iff.1 h.1).1
      obtain ⟨h0, h1⟩ := Bool.forall_bool.1 hlens
      refine ⟨⟨?_, ?_, ?_⟩, fun _ => activeBank_isSome_iff.2 ⟨one, by rw [setBank_bank_same]⟩⟩
      · cases one
        · exact h0
        · exact (retireBank_length f.bank0).trans h0
      · cases one
        · exact (retireBank_length f.bank1).trans h1
        · exact h1
      · rintro ⟨a0, a1⟩
        cases one
        · exact retireBank_not_active _ a1
        · exact retireBank_not_active _ a0
    · exact h

theorem bankAfterReset_eq (b : Bank) :
    ((bankAfterReset b).state = .active ↔ b.state = .active)
      ∧ (b.contents.length = 314 → (bankAfterReset b).contents.length = 314) := by
  unfold bankAfterReset
  split_ifs with h
  · exact ⟨by rw [h]; decide, fun _ => List.length_replicate⟩
  · exact ⟨Iff.rfl, id⟩

theorem fareAfterReset_keeps (h : BanksKept ask f) : BanksKept ask (fareAfterReset f) := by
  obtain ⟨⟨h0, h1, huniq⟩, hsome⟩ := h
  obtain ⟨a0, l0⟩ := bankAfterReset_eq f.bank0
  obtain ⟨a1, l1⟩ := bankAfterReset_eq f.bank1
  refine ⟨⟨l0 h0, l1 h1, fun ⟨x0, x1⟩ => huniq ⟨a0.1 x0, a1.1 x1⟩⟩, fun hs => ?_⟩
  obtain ⟨one, hact⟩ := activeBank_isSome_iff.1 (hsome hs)
  refine activeBank_isSome_iff.2 ⟨one, ?_⟩
  cases one
  · exact a0.2 hact
  · exact a1.2 hact

theorem fareMove_keeps {f' : FareUnit} (h : BanksKept ask f) (m : FareMove f f') : BanksKept ask f' := by
  cases m with
  | start v d => exact tariffBegin_keeps v d h
  | data td => exact tariffData_keeps td h
  | finish check => exact tariffEnd_keeps check h
  | activate t => exact activationTest_keeps t h
  | held => exact h.of_banks rfl rfl
  | reset => exact fareAfterReset_keeps h

end Moves

/-- Settles O8: each move of the Fare Unit keeps the banks in order, and an ACTIVE one where there was one. -/
theorem stepKeepsTariffBanks : Obligations.StepKeepsTariffBanks := by
  intro s t hok h
  exact step_keeps_fu (Q := BanksKept (s.fu.activeBank.isSome = true)) (fun _ _ => fareMove_keeps) h ⟨hok, id⟩

end Sys2Proof.Machine
end

