-- ==== Sys2Proof/Proofs/ClockAndLink.lean ====
section
/-! PROOFS. The clock and the link mode under every move of the Time and Link Unit (R175, R179, R181). -/

namespace Sys2Proof.Machine

section Moves
variable {now : Nat} {cfg : Settings} {t : TimeLink}

theorem advanceClock_ok (ph : Nat) (hv : t.valid = true) (h : TimeOk t) : TimeOk (advanceClock ph t) := by
  obtain ⟨hday, hsec, -, -, hmode, hrest⟩ := h
  unfold advanceClock
  split_ifs with hroll
  · exact ⟨by dsimp only; omega, Nat.zero_lt_succ _, by simp [hv], by simp [hv], hmode, hrest⟩
  · exact ⟨hday, by dsimp only; omega, by simp [hv], by simp [hv], hmode, hrest⟩

theorem enterStandalone_ok (hm : t.mode = .resync ∨ t.mode = .linked) (h : TimeOk t) :
    TimeOk (enterStandalone now cfg t) := by
  obtain ⟨hday, hsec, hzero, hphase, hmode, -⟩ := h
  have hvalid : t.valid ≠ false := by
    rw [ne_eq, hmode]; obtain hm | hm := hm <;> simp [hm]
  exact ⟨hday, hsec, hzero, hphase, by simp [enterStandalone, hvalid], by simp [enterStandalone]⟩

theorem stoppedWatch_ok (hm : ¬(t.mode = .resync ∨ t.mode = .linked)) (h : TimeOk t) :
    TimeOk { t with watchEnd := none } := by
  obtain ⟨hday, hsec, hzero, hphase, hmode, hone, hnone, -, hstop⟩ := h
  exact ⟨hday, hsec, hzero, hphase, hmode, hone, hnone, by simpa using hm, hstop⟩

/-- The standalone timer runs only where its expiry may set the entry stop (R181). -/
theorem entryStop_ok (hs : t.standaloneEnd.isSome = true) (h : TimeOk t) :
    TimeOk { t with standaloneEnd := none, entryStop := true } := by
  obtain ⟨hday, hsec, hzero, hphase, hmode, hone, hnone, hwatch, hstop⟩ := h
  refine ⟨hday, hsec, hzero, hphase, hmode, hone, hnone, hwatch, fun hm => ?_⟩
  rw [(hstop hm).1] at hs
  cases hs

theorem setClock_parts (day second : Nat) (hday : day ≤ 65535) (hsec : second < 86400) (h : TimeOk t) :
    let u := if t.mode != .standalone then setClock now day second t else t
    u.day ≤ 65535 ∧ u.second < 86400 ∧ u.valid = true ∧ u.phase.isSome = u.valid ∧ u.mode = t.mode ∧ u.resync = t.resync
      ∧ u.standaloneEnd = t.standaloneEnd ∧ u.entryStop = t.entryStop := by
  obtain ⟨hday', hsec', -, hphase, hmode, -⟩ := h
  cases hm : t.mode
  case standalone =>
    have hvalid : t.valid = true := by rw [← Bool.not_eq_false, hmode, hm]; simp
    exact ⟨hday', hsec', hvalid, hphase, hm, rfl, rfl, rfl⟩
  all_goals exact ⟨hday, hsec, rfl, rfl, hm, rfl, rfl, rfl⟩

/-- A TIME frame sets the clock or finds it set, and the mode it leads to is RESYNC or LINKED (R177, R178). -/
theorem timeFrame_ok (day second : Nat) (hday : day ≤ 65535) (hsec : second < 86400) (h : TimeOk t) :
    TimeOk (linkAfterFrame now cfg (if t.mode != .standalone then setClock now day second t else t)) := by
  have hparts := setClock_parts (now := now) day second hday hsec h
  obtain ⟨-, -, -, -, -, hone, hnone, -, hstop⟩ := h
  revert hparts
  generalize (if t.mode != .standalone then setClock now day second t else t) = u
  rintro ⟨uday, usec, uvalid, uphase, umode, uresync, uend, uentry⟩
  rw [← umode, ← uresync] at hone hnone
  rw [← umode, ← uend, ← uentry] at hstop
  unfold linkAfterFrame
  cases hm : u.mode
  case resync =>
    by_cases h2 : u.resync = some 2
    · simp only [h2, if_true]
      exact ⟨uday, usec, by simp [uvalid], uphase, by simp [uvalid], by simp, by simp, by simp, by simp⟩
    · simp only [h2, if_false]
      exact ⟨uday, usec, by simp [uvalid], uphase, by simp [uvalid], by simp, by simp, by simp, by simp⟩
  case linked =>
    exact ⟨uday, usec, by simp [uvalid], uphase, by simp [uvalid], by simp, fun _ => hnone (by simp [hm]),
      by simp, fun _ => hstop (.inr hm)⟩
  all_goals
    exact ⟨uday, usec, by simp [uvalid], uphase, by simp [uvalid], by simp, by simp, by simp, by simp⟩

theorem timeMove_ok {t' : TimeLink} (h : TimeOk t) (m : TimeMove now cfg t t') : TimeOk t' := by
  cases m with
  | advance ph _ hv => exact advanceClock_ok ph hv h
  | silent _ hm => exact enterStandalone_ok hm h
  | watch _ hm => exact stoppedWatch_ok hm h
  | limit _ hs => exact entryStop_ok hs h
  | frame day second _ hd hs => exact timeFrame_ok day second hd hs h
  | powerOn => simp [TimeOk, powerOnTime]

end Moves

/-- Settles O10: each move of the Time and Link Unit keeps its condition. -/
theorem stepKeepsClockAndLink : Obligations.StepKeepsClockAndLink :=
  fun _ _ hok h => step_keeps_tl (fun _ _ _ _ => timeMove_ok) h hok

end Sys2Proof.Machine
end

