-- ==== Sys2Proof/Proofs/Settings.lean ====
section
/-! PROOFS. The stored settings, the key table and the signing key under every step (R7, R8, R10, R13, R194). -/

namespace Sys2Proof.Machine

/-! ## CONFIGURE keeps the settings in range -/

/-- A value that an item of a code can hold (R194). -/
def ItemOk (code v : Nat) : Prop :=
  if code = 5 then v = 4 ∨ v = 8 ∨ v = 16 ∨ v = 32
  else if code = 6 then v = 1 ∨ v = 2 ∨ v = 4 ∨ v = 8
  else (itemRange code).1 ≤ v ∧ v ≤ (itemRange code).2

/-- Every item holds a value that it can hold, the two holds not compared (R194). -/
def ItemsInRange (c : Settings) : Prop :=
  ItemOk 1 c.unitAddress ∧ ItemOk 2 c.stationNumber ∧ ItemOk 3 c.stationZone ∧ ItemOk 4 c.signingKey
    ∧ ItemOk 5 c.filterTime ∧ ItemOk 6 c.avgDepth ∧ ItemOk 7 c.flowBase ∧ ItemOk 8 c.holdFactor ∧ ItemOk 9 c.minHold
    ∧ ItemOk 10 c.maxHold ∧ ItemOk 11 c.idleClear ∧ ItemOk 12 c.blankFactor ∧ ItemOk 13 c.travelBase
    ∧ ItemOk 14 c.alarmTime ∧ ItemOk 15 c.confirmLimit ∧ ItemOk 16 c.tornWindow ∧ ItemOk 17 c.loiterLimit
    ∧ ItemOk 18 c.linkWatch ∧ ItemOk 19 c.standaloneLimit

theorem settingsOk_iff (c : Settings) : SettingsOk c ↔ ItemsInRange c ∧ c.minHold ≤ c.maxHold := by
  simp [SettingsOk, ItemsInRange, ItemOk, itemRange, and_assoc]

theorem itemRange_le (code : Nat) : (itemRange code).1 ≤ (itemRange code).2 := by
  unfold itemRange
  split <;> decide

theorem clampTo_mem {r : Nat × Nat} (h : r.1 ≤ r.2) (v : Nat) : r.1 ≤ clampTo r v ∧ clampTo r v ≤ r.2 := by
  unfold clampTo
  split_ifs <;> omega

theorem clampItem_ok (code v : Nat) : ItemOk code (clampItem code v) := by
  unfold ItemOk clampItem
  by_cases h5 : code = 5
  · simp only [h5, if_true]
    split_ifs <;> simp
  · by_cases h6 : code = 6
    · simp only [h6, show ¬(6 : Nat) = 5 by decide, if_true, if_false]
      split_ifs <;> simp
    · simp only [h5, h6, if_false]
      exact clampTo_mem (itemRange_le code) v

theorem putItem_inRange {c : Settings} (h : ItemsInRange c) {code v : Nat} (hv : ItemOk code v) :
    ItemsInRange (putItem c code v) := by
  obtain ⟨h1, h2, h3, h4, h5, h6, h7, h8, h9, h10, h11, h12, h13, h14, h15, h16, h17, h18, h19⟩ := h
  unfold putItem
  split <;> refine ⟨?_, ?_, ?_, ?_, ?_, ?_, ?_, ?_, ?_, ?_, ?_, ?_, ?_, ?_, ?_, ?_, ?_, ?_, ?_⟩ <;> assumption

theorem applyItems_inRange {c : Settings} (h : ItemsInRange c) (items : List (Nat × Nat)) :
    ItemsInRange (applyItems c items) := by
  unfold applyItems
  induction items generalizing c with
  | nil => exact h
  | cons it items ih => exact ih (putItem_inRange h (clampItem_ok it.1 it.2))

/-! ## The signing key (R8, R13) -/

/-- An item that may be carried leaves the signing key index, or sets it to one that names an ACTIVE entry (R13). -/
theorem putItem_signingKey {keys : List KeyEntry} {c : Settings} {it : Nat × Nat} (h : itemAllowed keys it = true) :
    (putItem c it.1 (clampItem it.1 it.2)).signingKey = c.signingKey
      ∨ keys[(putItem c it.1 (clampItem it.1 it.2)).signingKey]?.map (·.state) = some .active := by
  obtain ⟨code, v⟩ := it
  by_cases h4 : code = 4
  · subst h4
    have h' : v ≤ 7 ∧ ∃ a, keys[v]? = some a ∧ a.state = .active := by simpa [itemAllowed, itemRange] using h
    have hv : clampItem 4 v = v := by
      simp only [clampItem, clampTo, itemRange]
      split_ifs <;> omega
    right
    simpa [putItem, hv] using h'.2
  · left
    simp only [putItem]
    split <;> simp_all

theorem applyItems_signingKey {keys : List KeyEntry} {c : Settings} {items : List (Nat × Nat)}
    (h : ∀ it ∈ items, itemAllowed keys it = true) :
    (applyItems c items).signingKey = c.signingKey
      ∨ keys[(applyItems c items).signingKey]?.map (·.state) = some .active := by
  unfold applyItems
  induction items generalizing c with
  | nil => exact .inl rfl
  | cons it items ih =>
    obtain ⟨hit, hitems⟩ := List.forall_mem_cons.1 h
    have hfirst := putItem_signingKey (c := c) hit
    obtain hrest | hrest := ih (c := putItem c it.1 (clampItem it.1 it.2)) hitems
    · rw [List.foldl_cons, hrest]
      exact hfirst
    · exact .inr hrest

theorem itemsRefused_eq_false {s : State} {items : List (Nat × Nat)} : itemsRefused s items = false ↔
    items.length ≤ 32 ∧ (∀ it ∈ items, itemAllowed s.su.keys it = true)
      ∧ (applyItems s.cfg items).minHold ≤ (applyItems s.cfg items).maxHold := by
  simp [itemsRefused, and_assoc]

theorem signingPresent_iff {su : Screening} {cfg : Settings} :
    signingPresent su cfg = true ↔ su.keys[cfg.signingKey]?.map (·.state) = some .active := by
  simp only [signingPresent, beq_iff_eq]

/-! ## The key table (R7, R10) -/

/-- A key load that is not refused leaves the signing key entry ACTIVE (R11). -/
theorem loadKey_signing {u : Screening} {k index state : Nat} {st : KeyState} {word : Word16}
    (h : keyLoadRefusal u k index state word = none) (hs : parseKeyState state = some st)
    (hk : u.keys[k]?.map (·.state) = some .active) :
    (loadKey u index st word).keys[k]?.map (·.state) = some .active := by
  simp only [keyLoadRefusal, hs] at h
  split_ifs at h with h7 hguard
  by_cases hi : index = k
  · subst hi
    have hst : st = .active := by by_contra hne; exact hguard ⟨rfl, hne⟩
    have hlt : index < u.keys.length := by
      by_contra hge
      simp [List.getElem?_eq_none (Nat.le_of_not_lt hge)] at hk
    simp [loadKey, loadedKey, hst, hlt]
  · simpa [loadKey, List.getElem?_set_ne hi] using hk

theorem loadKey_keysOk {u : Screening} (h : KeysOk u.keys) (index : Nat) (st : KeyState) (word : Word16) :
    KeysOk (loadKey u index st word).keys := by
  obtain ⟨hlen, hzero⟩ := h
  refine ⟨(List.length_set).trans hlen, fun k hk habsent => ?_⟩
  obtain hold | rfl := List.mem_or_eq_of_mem_set hk
  · exact hzero k hold habsent
  · exact if_pos habsent

/-- Of the moves of the Screening Unit the key load alone reaches the key table. -/
theorem screenMove_keys {k : Nat} {u u' : Screening} (m : ScreenMove k u u') : u'.keys = u.keys
    ∨ ∃ index state st word, keyLoadRefusal u k index state word = none ∧ parseKeyState state = some st
        ∧ u' = loadKey u index st word := by
  cases m with
  | key index state st word _ h hs => exact .inr ⟨index, state, st, word, h, hs, rfl⟩
  | merge g =>
    left
    unfold mergeSighting
    split <;> rfl
  | _ => exact .inl rfl

theorem screenMove_keysOk {k : Nat} {u u' : Screening} (m : ScreenMove k u u') (h : KeysOk u.keys) : KeysOk u'.keys := by
  obtain heq | ⟨index, state, st, word, -, -, rfl⟩ := screenMove_keys m
  · rwa [heq]
  · exact loadKey_keysOk h index st word

theorem screenMove_signing {k : Nat} {u u' : Screening} (m : ScreenMove k u u')
    (h : u.keys[k]?.map (·.state) = some .active) : u'.keys[k]?.map (·.state) = some .active := by
  obtain heq | ⟨index, state, st, word, hok, hs, rfl⟩ := screenMove_keys m
  · rwa [heq]
  · exact loadKey_signing hok hs h

/-! ## Every step -/

/-- What holds of the settings, the key table and the signing key of a state, each where it is asked for. -/
def SettingsKept (settings keys signing : Prop) (s : State) : Prop :=
  (settings → SettingsOk s.cfg) ∧ (keys → KeysOk s.su.keys) ∧ (signing → signingPresent s.su s.cfg = true)

theorem closed_settings (settings keys signing : Prop) : Closed (SettingsKept settings keys signing) where
  now _ _ := id
  free _ _ := id
  port s p l h := by simpa [SettingsKept] using h
  ve _ _ := id
  sl _ _ := id
  fu _ _ h _ := h
  ac _ _ h _ := h
  acReset _ _ _ := id
  jn _ _ h _ := h
  tl _ _ h _ := h
  su s u h m := by
    obtain ⟨hcfg, hkeys, hsign⟩ := h
    exact ⟨hcfg, fun k => screenMove_keysOk m (hkeys k),
      fun g => signingPresent_iff.2 (screenMove_signing m (signingPresent_iff.1 (hsign g)))⟩
  cfg s items h hok := by
    obtain ⟨hcfg, hkeys, hsign⟩ := h
    obtain ⟨-, hallowed, hhold⟩ := itemsRefused_eq_false.1 hok
    refine ⟨fun c => (settingsOk_iff _).2 ⟨applyItems_inRange ((settingsOk_iff _).1 (hcfg c)).1 items, hhold⟩, hkeys,
      fun g => signingPresent_iff.2 ?_⟩
    obtain heq | hact := applyItems_signingKey (c := s.cfg) hallowed
    · simpa only [heq] using signingPresent_iff.1 (hsign g)
    · exact hact

/-- Settles O11: a CONFIGURE limits each item and tests the identity items, a KEY_LOAD guards the signing key's entry, and
nothing else reaches the settings or the key table. -/
theorem stepKeepsSettingsAndSigningKey : Obligations.StepKeepsSettingsAndSigningKey := by
  intro s t h
  exact step_closed (closed_settings (SettingsOk s.cfg) (KeysOk s.su.keys) (signingPresent s.su s.cfg = true))
    (fun _ _ => id) (fun _ _ _ => id) (fun _ _ _ h _ => h) (fun _ _ => id) s t h ⟨id, id, id⟩

end Sys2Proof.Machine
end

