-- ==== Sys2Proof/Proofs/DenyEntries.lean ====
section
/-! PROOFS. The operations of the deny list (R15 to R24): what a lookup finds after each of them, what they do to the serials,
and the order they keep. -/

namespace Sys2Proof.Machine

/-! ## Lookups (R18) -/

section Lookup
variable {es : List DenyEntry} {e : DenyEntry} {n m : Nat}

theorem denyLookup_eq_none_iff : denyLookup es n = none ↔ ∀ x ∈ es, x.serial ≠ n := by
  simp [denyLookup]

theorem mem_of_denyLookup (h : denyLookup es n = some e) : e ∈ es ∧ e.serial = n :=
  ⟨List.mem_of_find?_eq_some h, by simpa using List.find?_some h⟩

theorem denyLookup_map {g : DenyEntry → DenyEntry} (hg : ∀ x, (g x).serial = x.serial) :
    denyLookup (es.map g) n = (denyLookup es n).map g := by
  simp only [denyLookup, List.find?_map]
  congr 2
  funext x
  simp [hg]

theorem denyLookup_filter_self : denyLookup (es.filter (fun x => x.serial != n)) n = none :=
  denyLookup_eq_none_iff.2 fun x hx => by simpa using (List.mem_filter.1 hx).2

theorem denyLookup_filter_other (h : m ≠ n) :
    denyLookup (es.filter (fun x => x.serial != n)) m = denyLookup es m := by
  simp only [denyLookup, List.find?_filter]
  congr 1
  funext x
  by_cases hx : x.serial = m <;> simp [hx, h]

theorem denyLookup_insert_self (h : denyLookup es e.serial = none) : denyLookup (denyInsert e es) e.serial = some e := by
  induction es with
  | nil => simp [denyInsert, denyLookup]
  | cons x xs ih =>
    obtain ⟨hx, hxs⟩ := List.forall_mem_cons.1 (denyLookup_eq_none_iff.1 h)
    unfold denyInsert
    split_ifs with hlt
    · simp [denyLookup]
    · rw [denyLookup, List.find?_cons_of_neg (by simpa using hx)]
      exact ih (denyLookup_eq_none_iff.2 hxs)

theorem denyLookup_insert_other (h : m ≠ e.serial) : denyLookup (denyInsert e es) m = denyLookup es m := by
  induction es with
  | nil => simpa [denyInsert, denyLookup] using Ne.symm h
  | cons x xs ih =>
    unfold denyInsert
    split_ifs with hlt
    · rw [denyLookup, List.find?_cons_of_neg (by simpa using Ne.symm h)]; rfl
    · simp only [denyLookup, List.find?_cons] at ih ⊢
      rw [ih]

/-! ## What a departure does to the others (R17) -/

theorem moveDown_serial (k : Nat) (x : DenyEntry) : (moveDown k x).serial = x.serial := by
  unfold moveDown
  repeat' split
  all_goals rfl

theorem moveDown_reason (k : Nat) (x : DenyEntry) : (moveDown k x).reason = x.reason := by
  unfold moveDown
  repeat' split
  all_goals rfl

theorem moveDown_isLocal (k : Nat) (x : DenyEntry) : (moveDown k x).isLocal = x.isLocal := by
  obtain ⟨_, _, source⟩ := x
  cases source with
  | station => rfl
  | localEntry m => simp only [moveDown]; split_ifs <;> rfl

theorem moveDown_isStale (k : Nat) (x : DenyEntry) : (moveDown k x).isStale = x.isStale := by
  obtain ⟨_, _, source⟩ := x
  cases source with
  | station => rfl
  | localEntry m => simp only [moveDown]; split_ifs <;> rfl

/-- The move of the other entries where an entry leaves the age order. -/
def closeMove (gone x : DenyEntry) : DenyEntry :=
  match gone.source with
  | .localEntry n => moveDown n x
  | .station _ => x

theorem closeUp_eq_map (gone : DenyEntry) (es : List DenyEntry) : closeUp gone es = es.map (closeMove gone) := by
  unfold closeUp closeMove
  cases gone.source with
  | localEntry n => rfl
  | station st => exact (List.map_id' es).symm

@[simp] theorem closeMove_serial (gone x : DenyEntry) : (closeMove gone x).serial = x.serial := by
  unfold closeMove
  split
  · exact moveDown_serial _ x
  · rfl

@[simp] theorem closeMove_reason (gone x : DenyEntry) : (closeMove gone x).reason = x.reason := by
  unfold closeMove
  split
  · exact moveDown_reason _ x
  · rfl

@[simp] theorem closeMove_isLocal (gone x : DenyEntry) : (closeMove gone x).isLocal = x.isLocal := by
  unfold closeMove
  split
  · exact moveDown_isLocal _ x
  · rfl

@[simp] theorem closeMove_isStale (gone x : DenyEntry) : (closeMove gone x).isStale = x.isStale := by
  unfold closeMove
  split
  · exact moveDown_isStale _ x
  · rfl

theorem denyRemove_of_none (h : denyLookup es n = none) : denyRemove n es = es := by
  rw [denyRemove, h]

theorem denyRemove_of_some (h : denyLookup es n = some e) :
    denyRemove n es = (es.filter (fun x => x.serial != n)).map (closeMove e) := by
  rw [denyRemove, h]
  exact closeUp_eq_map e _

theorem denyLookup_remove_self (n : Nat) (es : List DenyEntry) : denyLookup (denyRemove n es) n = none := by
  cases h : denyLookup es n with
  | none => rwa [denyRemove_of_none h]
  | some e => rw [denyRemove_of_some h, denyLookup_map (closeMove_serial e), denyLookup_filter_self]; rfl

theorem denyLookup_remove_other (hm : m ≠ n) (h : denyLookup es n = some e) :
    denyLookup (denyRemove n es) m = (denyLookup es m).map (closeMove e) := by
  rw [denyRemove_of_some h, denyLookup_map (closeMove_serial e), denyLookup_filter_other hm]

/-- The entry that a pair leaves of a present one (R20). -/
def confirmEntry (old : DenyEntry) (reason : Nat) (x : DenyEntry) : DenyEntry :=
  if x.serial = old.serial then { x with reason := reason, source := .station false } else x

@[simp] theorem confirmEntry_serial (old : DenyEntry) (reason : Nat) (x : DenyEntry) :
    (confirmEntry old reason x).serial = x.serial := by
  unfold confirmEntry
  split <;> rfl

theorem denyConfirm_eq_map (old : DenyEntry) (reason : Nat) (es : List DenyEntry) :
    denyConfirm old reason es = es.map (fun x => confirmEntry old reason (closeMove old x)) := by
  rw [denyConfirm, closeUp_eq_map, List.map_map]
  rfl

theorem denyLookup_confirm (old : DenyEntry) (reason : Nat) :
    denyLookup (denyConfirm old reason es) m
      = (denyLookup es m).map (fun x => confirmEntry old reason (closeMove old x)) := by
  rw [denyConfirm_eq_map, denyLookup_map]
  simp

end Lookup

/-! ## The local age order (R17) -/

/-- Numbers that run from 1 to their count without gaps. -/
def Gapless (l : List Nat) : Prop := l.Nodup ∧ ∀ n ∈ l, 1 ≤ n ∧ n ≤ l.length

section Order
variable {es : List DenyEntry} {e : DenyEntry} {n : Nat}

theorem Gapless.perm {l l' : List Nat} (p : l.Perm l') (h : Gapless l) : Gapless l' :=
  ⟨p.nodup_iff.1 h.1, fun n hn => p.length_eq ▸ h.2 n (p.mem_iff.2 hn)⟩

/-- A new number joins as the newest. -/
theorem Gapless.newest {l : List Nat} (h : Gapless l) : Gapless ((l.length + 1) :: l) := by
  refine ⟨List.nodup_cons.2 ⟨fun hm => ?_, h.1⟩, List.forall_mem_cons.2 ⟨by simp, fun n hn => ?_⟩⟩
  · have := (h.2 _ hm).2; omega
  · have := h.2 n hn; simp only [List.length_cons]; omega

/-- The order closes up where a number leaves it. -/
theorem Gapless.close {l : List Nat} {n : Nat} (h : Gapless (n :: l)) :
    Gapless (l.map (fun m => if n < m then m - 1 else m)) := by
  obtain ⟨hnodup, hrange⟩ := h
  obtain ⟨hn, hl⟩ := List.nodup_cons.1 hnodup
  obtain ⟨hn1, hrest⟩ := List.forall_mem_cons.1 hrange
  simp only [List.length_cons] at hn1 hrest
  refine ⟨(List.nodup_map_iff_inj_on hl).2 fun a ha b hb hab => ?_, ?_⟩
  · have hne : ∀ m ∈ l, m ≠ n := fun m hm he => hn (he ▸ hm)
    have := hne a ha
    have := hne b hb
    have := hrest a ha
    have := hrest b hb
    split_ifs at hab <;> omega
  · intro k hk
    obtain ⟨m, hm, rfl⟩ := List.mem_map.1 hk
    have hmn : m ≠ n := fun he => hn (he ▸ hm)
    have := hrest m hm
    rw [List.length_map]
    split_ifs <;> omega

/-- The number of a LOCAL entry (R15). -/
def orderOf (e : DenyEntry) : Option Nat :=
  match e.source with
  | .localEntry n => some n
  | .station _ => none

theorem localOrders_eq (es : List DenyEntry) : localOrders es = es.filterMap orderOf := rfl

theorem isLocal_eq_orderOf (e : DenyEntry) : e.isLocal = (orderOf e).isSome := by
  obtain ⟨_, _, source⟩ := e
  cases source <;> rfl

theorem localCount_eq (es : List DenyEntry) : localCount es = (localOrders es).length := by
  rw [localOrders_eq, List.length_filterMap_eq_countP, localCount]
  congr 1
  funext e
  exact isLocal_eq_orderOf e

theorem orderOf_moveDown (n : Nat) (x : DenyEntry) :
    orderOf (moveDown n x) = (orderOf x).map (fun m => if n < m then m - 1 else m) := by
  obtain ⟨_, _, source⟩ := x
  cases source with
  | station => rfl
  | localEntry m =>
    simp only [orderOf, moveDown, Option.map_some]
    split_ifs <;> rfl

/-- The list is in ascending order of serials. -/
theorem denyLookup_perm (hs : (es.map (·.serial)).Pairwise (· < ·)) (h : denyLookup es n = some e) :
    es.Perm (e :: es.filter (fun x => x.serial != n)) := by
  induction es with
  | nil => cases h
  | cons x xs ih =>
    obtain ⟨hx, hxs⟩ := List.pairwise_cons.1 hs
    by_cases hn : x.serial = n
    · rw [denyLookup, List.find?_cons_of_pos (by simpa using hn)] at h
      cases h
      have hrest : xs.filter (fun x => x.serial != n) = xs := List.filter_eq_self.2 fun y hy => by
        have := hx y.serial (List.mem_map_of_mem hy)
        simp only [bne_iff_ne]; dsimp only at this; omega
      rw [List.filter_cons_of_neg (by simpa using hn), hrest]
    · rw [denyLookup, List.find?_cons_of_neg (by simpa using hn)] at h
      rw [List.filter_cons_of_pos (by simpa using hn)]
      exact ((ih hxs h).cons x).trans (List.Perm.swap e x _)

/-- The age order after an entry has left it, whether or not it was LOCAL. -/
theorem gapless_map_closeMove {l : List DenyEntry} (h : Gapless (localOrders (e :: l))) :
    Gapless (localOrders (l.map (closeMove e))) := by
  rw [localOrders_eq] at h ⊢
  unfold closeMove
  cases he : e.source with
  | station st =>
    have : orderOf e = none := by simp [orderOf, he]
    rw [List.filterMap_cons_none this] at h
    simpa using h
  | localEntry n =>
    have : orderOf e = some n := by simp [orderOf, he]
    rw [List.filterMap_cons_some this] at h
    rw [List.filterMap_map, show orderOf ∘ moveDown n = fun x => (orderOf x).map (fun m => if n < m then m - 1 else m) from
      funext (orderOf_moveDown n), ← List.map_filterMap]
    exact h.close

theorem localOrders_length_map_closeMove (l : List DenyEntry) :
    (localOrders (l.map (closeMove e))).length = (localOrders l).length := by
  rw [← localCount_eq, ← localCount_eq, localCount, localCount, List.countP_map]
  congr 1
  funext x
  simp

end Order

/-! ## The entries in order (R15, R17) -/

/-- The entries of a deny list, but for their stale marks: ascending by serial, within the list's size and the LOCAL one, with
a gapless age order and the reason 15 of a LOCAL entry. -/
structure EntriesOk (es : List DenyEntry) : Prop where
  sorted  : (es.map (·.serial)).Pairwise (· < ·)
  size    : es.length ≤ 4096
  locals  : (localOrders es).length ≤ 64
  gapless : Gapless (localOrders es)
  reasons : ∀ e ∈ es, e.isLocal = true → e.reason = 15

theorem denyOk_iff (d : DenyList) :
    DenyOk d ↔ EntriesOk d.entries ∧ (d.loading = false → ∀ e ∈ d.entries, e.isStale = false) := by
  simp only [DenyOk, localCount_eq, ← List.pairwise_map (f := DenyEntry.serial) (R := (· < ·))]
  constructor
  · rintro ⟨h1, h2, h3, h4, h5, h6, h7⟩
    exact ⟨⟨h1, h2, h3, ⟨h4, h5⟩, h6⟩, h7⟩
  · rintro ⟨⟨h1, h2, h3, ⟨h4, h5⟩, h6⟩, h7⟩
    exact ⟨h1, h2, h3, h4, h5, h6, h7⟩

section Keep
variable {es : List DenyEntry} {e : DenyEntry} {n : Nat}

/-- A change of the entries that keeps their serials, kinds, numbers and LOCAL reasons keeps them in order. -/
theorem EntriesOk.map (h : EntriesOk es) {g : DenyEntry → DenyEntry} (hserial : ∀ x, (g x).serial = x.serial)
    (horder : ∀ x, orderOf (g x) = orderOf x) (hreason : ∀ x, (g x).reason = x.reason) : EntriesOk (es.map g) := by
  have hserials : (es.map g).map (·.serial) = es.map (·.serial) := by simp [hserial]
  have horders : localOrders (es.map g) = localOrders es := by
    simp only [localOrders_eq, List.filterMap_map]
    exact congrArg (List.filterMap · es) (funext horder)
  refine ⟨hserials ▸ h.sorted, (List.length_map g).trans_le h.size, horders ▸ h.locals, horders ▸ h.gapless, ?_⟩
  refine List.forall_mem_map.2 fun x hx hl => ?_
  rw [hreason]
  exact h.reasons x hx (by rwa [isLocal_eq_orderOf, ← horder, ← isLocal_eq_orderOf])

/-- Entries that leave without a number of the age order leave the others in order. -/
theorem EntriesOk.filter (h : EntriesOk es) {q : DenyEntry → Bool} (hq : ∀ x ∈ es, x.isLocal = true → q x = true) :
    EntriesOk (es.filter q) := by
  have horders : localOrders (es.filter q) = localOrders es := by
    simp only [localOrders_eq, List.filterMap_filter]
    refine List.filterMap_congr fun x hx => ?_
    cases hl : x.isLocal
    · rw [isLocal_eq_orderOf, Option.isSome_eq_false_iff, Option.isNone_iff_eq_none] at hl
      simp [hl]
    · simp [hq x hx hl]
  exact ⟨h.sorted.sublist (List.filter_sublist.map _), (List.length_filter_le _ _).trans h.size,
    horders ▸ h.locals, horders ▸ h.gapless, fun x hx => h.reasons x (List.mem_of_mem_filter hx)⟩

theorem EntriesOk.remove (h : EntriesOk es) (n : Nat) : EntriesOk (denyRemove n es) := by
  cases hn : denyLookup es n with
  | none => rwa [denyRemove_of_none hn]
  | some e =>
    have hperm := denyLookup_perm h.sorted hn
    rw [denyRemove_of_some hn]
    refine ⟨?_, ?_, ?_, ?_, ?_⟩
    · rw [List.map_map, show (fun x : DenyEntry => x.serial) ∘ closeMove e = (·.serial) from funext (closeMove_serial e)]
      exact h.sorted.sublist (List.filter_sublist.map _)
    · rw [List.length_map]
      exact (List.length_filter_le _ _).trans h.size
    · rw [localOrders_length_map_closeMove]
      exact (List.filter_sublist.filterMap orderOf).length_le.trans h.locals
    · exact gapless_map_closeMove (h.gapless.perm (hperm.filterMap orderOf))
    · refine List.forall_mem_map.2 fun x hx hl => ?_
      rw [closeMove_reason]
      exact h.reasons x (List.mem_of_mem_filter hx) (by rwa [closeMove_isLocal] at hl)

/-- A confirmed entry leaves the age order as a removed one does (R17, R20). -/
theorem localOrders_confirm (h : denyLookup es n = some e) (reason : Nat) :
    localOrders (denyConfirm e reason es) = localOrders (denyRemove n es) := by
  obtain ⟨-, hn⟩ := mem_of_denyLookup h
  rw [denyRemove_of_some h, denyConfirm_eq_map]
  simp only [localOrders_eq, List.filterMap_map, List.filterMap_filter]
  congr 1
  funext x
  by_cases hx : x.serial = n
  · simp [Function.comp, confirmEntry, hx, hn, orderOf]
  · simp [Function.comp, confirmEntry, hx, hn]

theorem EntriesOk.confirm (h : EntriesOk es) (hn : denyLookup es n = some e) (reason : Nat) :
    EntriesOk (denyConfirm e reason es) := by
  have hremoved := h.remove n
  refine ⟨?_, ?_, localOrders_confirm hn reason ▸ hremoved.locals, localOrders_confirm hn reason ▸ hremoved.gapless, ?_⟩
  · rw [denyConfirm_eq_map, List.map_map]
    simpa [Function.comp_def] using h.sorted
  · rw [denyConfirm_eq_map, List.length_map]
    exact h.size
  · rw [denyConfirm_eq_map]
    refine List.forall_mem_map.2 fun x hx hl => ?_
    unfold confirmEntry at hl ⊢
    split_ifs at hl ⊢ with he
    · cases hl
    · rw [closeMove_reason]
      exact h.reasons x hx (by rwa [closeMove_isLocal] at hl)

theorem denyInsert_perm (e : DenyEntry) (es : List DenyEntry) : (denyInsert e es).Perm (e :: es) := by
  induction es with
  | nil => exact List.Perm.refl _
  | cons x xs ih =>
    unfold denyInsert
    split_ifs
    · exact List.Perm.refl _
    · exact (ih.cons x).trans (List.Perm.swap e x xs)

theorem denyInsert_sorted (hs : (es.map (·.serial)).Pairwise (· < ·)) (h : denyLookup es e.serial = none) :
    ((denyInsert e es).map (·.serial)).Pairwise (· < ·) := by
  induction es with
  | nil => simp [denyInsert]
  | cons x xs ih =>
    obtain ⟨hx, hxs⟩ := List.pairwise_cons.1 hs
    obtain ⟨hne, hrest⟩ := List.forall_mem_cons.1 (denyLookup_eq_none_iff.1 h)
    unfold denyInsert
    split_ifs with hlt
    · refine List.pairwise_cons.2 ⟨List.forall_mem_cons.2 ⟨hlt, fun m hm => hlt.trans (hx m hm)⟩, hs⟩
    · refine List.pairwise_cons.2 ⟨fun m hm => ?_, ih hxs (denyLookup_eq_none_iff.2 hrest)⟩
      obtain ⟨y, hy, rfl⟩ := List.mem_map.1 hm
      obtain rfl | hy := List.mem_cons.1 ((denyInsert_perm e xs).mem_iff.1 hy)
      · exact lt_of_le_of_ne (Nat.le_of_not_lt hlt) hne
      · exact hx _ (List.mem_map_of_mem hy)

/-- A new entry joins where there is room: a STATION one, or a LOCAL one as the newest of at most 64. -/
theorem EntriesOk.insert (h : EntriesOk es) (hnew : denyLookup es e.serial = none) (hroom : es.length < 4096)
    (hlocals : (localOrders (e :: es)).length ≤ 64) (hgapless : Gapless (localOrders (e :: es)))
    (hreason : e.isLocal = true → e.reason = 15) : EntriesOk (denyInsert e es) := by
  have hperm := denyInsert_perm e es
  have horders : (localOrders (denyInsert e es)).Perm (localOrders (e :: es)) := hperm.filterMap orderOf
  refine ⟨denyInsert_sorted h.sorted hnew, ?_, horders.length_eq.trans_le hlocals, hgapless.perm horders.symm, ?_⟩
  · rw [hperm.length_eq]; exact hroom
  · intro x hx
    obtain rfl | hx := List.mem_cons.1 (hperm.mem_iff.1 hx)
    · exact hreason
    · exact h.reasons x hx

end Keep

end Sys2Proof.Machine
end

