-- ==== Sys2Proof/Proofs/ScreeningTables.lean ====
section
/-! PROOFS. The deny list and the seen table under every move of the Screening Unit (R15 to R33), and what a deny pair, a
remove and the local addition list, skip and evict. -/

namespace Sys2Proof.Machine

/-! ## Deny pairs and removes (R20, R23) -/

section Pairs
variable {d : DenyList} {es : List DenyEntry} {e : DenyEntry} {n reason : Nat}

theorem denyAddPair_of_invalid (h : serialValid n = false) : denyAddPair d (n, reason) = d := by
  simp [denyAddPair, h]

theorem denyAddPair_of_listed (hv : serialValid n = true) (h : denyLookup d.entries n = some e) :
    denyAddPair d (n, reason) = { d with entries := denyConfirm e reason d.entries } := by
  simp [denyAddPair, hv, h]

theorem denyAddPair_of_room (hv : serialValid n = true) (h : denyLookup d.entries n = none)
    (hroom : d.entries.length < 4096) : denyAddPair d (n, reason)
      = { d with entries := denyInsert { serial := n, reason := reason, source := .station false } d.entries } := by
  simp [denyAddPair, hv, h, Config.denyCap, hroom]

theorem denyAddPair_of_full (hv : serialValid n = true) (h : denyLookup d.entries n = none)
    (hfull : ¬d.entries.length < 4096) : denyAddPair d (n, reason) = { d with full := true } := by
  simp [denyAddPair, hv, h, Config.denyCap, hfull]

/-- An entry that is not stale after an insertion. -/
theorem insert_notStale (he : e.isStale = false) (h : ∀ x ∈ es, x.isStale = false) :
    ∀ x ∈ denyInsert e es, x.isStale = false := fun x hx => by
  obtain rfl | hx := List.mem_cons.1 ((denyInsert_perm e es).mem_iff.1 hx)
  · exact he
  · exact h x hx

theorem remove_notStale (h : ∀ x ∈ es, x.isStale = false) (n : Nat) : ∀ x ∈ denyRemove n es, x.isStale = false := by
  cases hn : denyLookup es n with
  | none => rwa [denyRemove_of_none hn]
  | some e =>
    rw [denyRemove_of_some hn]
    exact List.forall_mem_map.2 fun x hx => (closeMove_isStale e x).trans (h x (List.mem_of_mem_filter hx))

theorem confirm_notStale (h : ∀ x ∈ es, x.isStale = false) (old : DenyEntry) (reason : Nat) :
    ∀ x ∈ denyConfirm old reason es, x.isStale = false := by
  rw [denyConfirm_eq_map]
  refine List.forall_mem_map.2 fun x hx => ?_
  unfold confirmEntry
  split_ifs
  · rfl
  · exact (closeMove_isStale old x).trans (h x hx)

theorem denyAddPair_ok (h : DenyOk d) (pr : Nat × Nat) : DenyOk (denyAddPair d pr) := by
  obtain ⟨n, reason⟩ := pr
  obtain ⟨hok, hstale⟩ := (denyOk_iff d).1 h
  cases hv : serialValid n
  case false => rwa [denyAddPair_of_invalid hv]
  cases hn : denyLookup d.entries n with
  | some e =>
    rw [denyAddPair_of_listed hv hn, denyOk_iff]
    exact ⟨hok.confirm hn reason, fun hl => confirm_notStale (hstale hl) e reason⟩
  | none =>
    by_cases hroom : d.entries.length < 4096
    · rw [denyAddPair_of_room hv hn hroom, denyOk_iff]
      exact ⟨hok.insert hn hroom hok.locals hok.gapless (fun hl => by cases hl),
        fun hl => insert_notStale rfl (hstale hl)⟩
    · rw [denyAddPair_of_full hv hn hroom]
      exact (denyOk_iff _).2 ⟨hok, hstale⟩

theorem denyAddPairs_ok (prs : List (Nat × Nat)) (h : DenyOk d) : DenyOk (prs.foldl denyAddPair d) := by
  induction prs generalizing d with
  | nil => exact h
  | cons pr prs ih => exact ih (denyAddPair_ok h pr)

theorem denyRemoves_ok (ns : List Nat) (h : DenyOk d) :
    DenyOk { d with entries := ns.foldl (fun es n => denyRemove n es) d.entries } := by
  induction ns generalizing d with
  | nil => exact h
  | cons n ns ih =>
    obtain ⟨hok, hstale⟩ := (denyOk_iff d).1 h
    exact ih (d := { d with entries := denyRemove n d.entries })
      ((denyOk_iff _).2 ⟨hok.remove n, fun hl => remove_notStale (hstale hl) n⟩)

end Pairs

/-! ## The local addition (R24) -/

section Local
variable {es : List DenyEntry} {e : DenyEntry} {n m : Nat}

/-- A gapless order that is not empty has an oldest entry, the number 1. -/
theorem Gapless.one_mem {l : List Nat} (h : Gapless l) (hne : 0 < l.length) : 1 ∈ l := by
  obtain ⟨hnodup, hrange⟩ := h
  have hsub : l.toFinset ⊆ Finset.Icc 1 l.length := fun k hk => Finset.mem_Icc.2 (hrange k (List.mem_toFinset.1 hk))
  have hcard : (Finset.Icc 1 l.length).card ≤ l.toFinset.card := by
    rw [List.toFinset_card_of_nodup hnodup, Nat.card_Icc]; omega
  have heq := Finset.eq_of_subset_of_card_le hsub hcard
  exact List.mem_toFinset.1 (heq ▸ Finset.mem_Icc.2 ⟨le_rfl, hne⟩)

theorem orderOf_eq_some {k : Nat} : orderOf e = some k ↔ e.source = .localEntry k := by
  obtain ⟨_, _, source⟩ := e
  cases source <;> simp [orderOf]

/-- A list in serial order has no serial twice. -/
theorem denyLookup_of_mem (hs : (es.map (·.serial)).Pairwise (· < ·)) (h : e ∈ es) :
    denyLookup es e.serial = some e := by
  cases hn : denyLookup es e.serial with
  | none => exact absurd rfl (denyLookup_eq_none_iff.1 hn e h)
  | some x =>
    obtain ⟨hx, hserial⟩ := mem_of_denyLookup hn
    have hnodup : (es.map (·.serial)).Nodup := hs.imp (fun h => Nat.ne_of_lt h)
    rw [List.inj_on_of_nodup_map hnodup hx h hserial]

/-- While the LOCAL entries are fewer than 64 none is evicted (R24). -/
theorem evictOldestLocal_of_lt (h : localCount es < 64) : evictOldestLocal es = es := by
  rw [evictOldestLocal, Config.localCap, if_neg (Nat.ne_of_lt h)]

/-- At 64 LOCAL entries the one of number 1 is removed (R24). -/
theorem evictOldestLocal_of_full (h : EntriesOk es) (hfull : localCount es = 64) :
    ∃ old, denyLookup es old.serial = some old ∧ old.source = .localEntry 1
      ∧ evictOldestLocal es = denyRemove old.serial es := by
  have hone : 1 ∈ localOrders es := h.gapless.one_mem (by rw [← localCount_eq, hfull]; decide)
  obtain ⟨x, hx, hx1⟩ := List.mem_filterMap.1 (localOrders_eq es ▸ hone)
  have hfind : (es.find? (fun e => e.source == .localEntry 1)).isSome = true :=
    List.find?_isSome.2 ⟨x, hx, by simpa using orderOf_eq_some.1 hx1⟩
  obtain ⟨old, hold⟩ := Option.isSome_iff_exists.1 hfind
  refine ⟨old, denyLookup_of_mem h.sorted (List.mem_of_find?_eq_some hold), by simpa using List.find?_some hold, ?_⟩
  rw [evictOldestLocal, Config.localCap, if_pos hfull, hold]

/-- The age order with an entry of number k taken out. -/
theorem localOrders_perm_of_lookup {k : Nat} (h : EntriesOk es) (hn : denyLookup es n = some e)
    (hk : e.source = .localEntry k) :
    (localOrders es).Perm (k :: localOrders (es.filter (fun x => x.serial != n))) := by
  have := (denyLookup_perm h.sorted hn).filterMap orderOf
  rwa [List.filterMap_cons_some (orderOf_eq_some.2 hk)] at this

theorem localCount_remove_local {k : Nat} (h : EntriesOk es) (hn : denyLookup es n = some e)
    (hk : e.source = .localEntry k) : localCount (denyRemove n es) + 1 = localCount es := by
  rw [denyRemove_of_some hn, localCount_eq, localCount_eq, localOrders_length_map_closeMove,
    (localOrders_perm_of_lookup h hn hk).length_eq, List.length_cons]

theorem length_remove_listed (h : EntriesOk es) (hn : denyLookup es n = some e) :
    (denyRemove n es).length + 1 = es.length := by
  rw [denyRemove_of_some hn, List.length_map, (denyLookup_perm h.sorted hn).length_eq, List.length_cons]

theorem denyListLocally_of_listed (h : denyLookup es n ≠ none) : denyListLocally n es = (es, .alreadyListed) := by
  obtain ⟨e, he⟩ := Option.ne_none_iff_exists'.1 h
  rw [denyListLocally, he]

theorem denyListLocally_of_room (h : denyLookup es n = none) (hroom : (evictOldestLocal es).length < 4096) :
    denyListLocally n es = (denyInsert
      { serial := n, reason := 15, source := .localEntry (localCount (evictOldestLocal es) + 1) }
      (evictOldestLocal es), .listed) := by
  rw [denyListLocally, h]
  exact if_pos hroom

theorem denyListLocally_of_full (h : denyLookup es n = none) (hfull : ¬(evictOldestLocal es).length < 4096) :
    denyListLocally n es = (evictOldestLocal es, .notListed) := by
  rw [denyListLocally, h]
  exact if_neg hfull

theorem denyLookup_evict_none (h : denyLookup es n = none) : denyLookup (evictOldestLocal es) n = none := by
  unfold evictOldestLocal
  split_ifs
  · split
    · rename_i old _
      by_cases hm : n = old.serial
      · rw [hm]; exact denyLookup_remove_self _ es
      · cases hold : denyLookup es old.serial with
        | none => rwa [denyRemove_of_none hold]
        | some x => rw [denyLookup_remove_other hm hold, h]; rfl
    · exact h
  · exact h

/-- The eviction leaves the entries in order, with a place in the age order. -/
theorem evictOldestLocal_ok (h : EntriesOk es) :
    EntriesOk (evictOldestLocal es) ∧ localCount (evictOldestLocal es) < 64 := by
  have hle : localCount es ≤ 64 := localCount_eq es ▸ h.locals
  obtain hlt | hfull := Nat.lt_or_eq_of_le hle
  · rw [evictOldestLocal_of_lt hlt]
    exact ⟨h, hlt⟩
  · obtain ⟨old, hold, hsource, heq⟩ := evictOldestLocal_of_full h hfull
    rw [heq]
    have := localCount_remove_local h hold hsource
    exact ⟨h.remove _, by omega⟩

theorem evict_notStale (h : ∀ x ∈ es, x.isStale = false) : ∀ x ∈ evictOldestLocal es, x.isStale = false := by
  unfold evictOldestLocal
  split_ifs
  · split
    · exact remove_notStale h _
    · exact h
  · exact h

/-- The new LOCAL entry takes the number after the newest one's. -/
theorem EntriesOk.insertLocal (h : EntriesOk es) (hn : denyLookup es n = none) (hroom : es.length < 4096)
    (hlocal : localCount es < 64) :
    EntriesOk (denyInsert { serial := n, reason := 15, source := .localEntry (localCount es + 1) } es) := by
  refine h.insert hn hroom ?_ ?_ (fun _ => rfl)
  · rw [localCount_eq] at hlocal
    exact hlocal
  · rw [localCount_eq]
    exact h.gapless.newest

theorem denyListLocally_ok {d : DenyList} (h : DenyOk d) (n : Nat) :
    DenyOk { d with entries := (denyListLocally n d.entries).1 } := by
  obtain ⟨hok, hstale⟩ := (denyOk_iff d).1 h
  by_cases hn : denyLookup d.entries n = none
  case neg => rwa [denyListLocally_of_listed hn]
  obtain ⟨hevict, hlocal⟩ := evictOldestLocal_ok hok
  have hnew := denyLookup_evict_none hn
  by_cases hroom : (evictOldestLocal d.entries).length < 4096
  · rw [denyListLocally_of_room hn hroom, denyOk_iff]
    exact ⟨hevict.insertLocal hnew hroom hlocal, fun hl => insert_notStale rfl (evict_notStale (hstale hl))⟩
  · rw [denyListLocally_of_full hn hroom, denyOk_iff]
    exact ⟨hevict, fun hl => evict_notStale (hstale hl)⟩

end Local

/-! ## Loads and resets (R19, R21, R26) -/

section Loads
variable {d : DenyList}

theorem markStale_ok {es : List DenyEntry} (h : EntriesOk es) : EntriesOk (es.map markStale) := by
  refine h.map ?_ ?_ ?_ <;> rintro ⟨_, _, source⟩ <;> cases source <;> rfl

theorem clearStale_ok {es : List DenyEntry} (h : EntriesOk es) : EntriesOk (es.map clearStale) := by
  refine h.map ?_ ?_ ?_ <;> rintro ⟨_, _, source⟩ <;> cases source <;> rfl

theorem clearStale_notStale (e : DenyEntry) : (clearStale e).isStale = false := by
  obtain ⟨_, _, source⟩ := e
  cases source <;> rfl

theorem not_isStale_of_isLocal {e : DenyEntry} (h : e.isLocal = true) : e.isStale = false := by
  obtain ⟨_, _, source⟩ := e
  cases source
  · cases h
  · rfl

theorem denyBegin_ok (v : Nat) (h : DenyOk d) : DenyOk (denyBegin v d) :=
  (denyOk_iff _).2 ⟨markStale_ok ((denyOk_iff d).1 h).1, fun hl => by cases hl⟩

theorem denyAdd_ok (prs : List (Nat × Nat)) (h : DenyOk d) : DenyOk (denyAdd prs d) := by
  unfold denyAdd
  split_ifs
  · exact denyAddPairs_ok prs h
  · exact h

theorem denyEnd_ok (h : DenyOk d) : DenyOk (denyEnd d) := by
  cases hl : d.loading
  · rwa [denyEnd_of_idle hl]
  · rw [denyEnd, if_pos hl, denyOk_iff]
    refine ⟨((denyOk_iff d).1 h).1.filter fun x _ hx => by rw [not_isStale_of_isLocal hx]; rfl, fun _ x hx => ?_⟩
    simpa using (List.mem_filter.1 hx).2

theorem denyDelta_ok (dl : Delta) (h : DenyOk d) : DenyOk (denyDelta dl d) := by
  unfold denyDelta
  split_ifs
  · exact denyAddPairs_ok dl.adds (denyRemoves_ok dl.removes h)
  · exact h

theorem denyAfterReset_ok (h : DenyOk d) : DenyOk (denyAfterReset d) := by
  unfold denyAfterReset
  split_ifs
  · exact (denyOk_iff _).2 ⟨clearStale_ok ((denyOk_iff d).1 h).1,
      fun _ => List.forall_mem_map.2 fun x _ => clearStale_notStale x⟩
  · exact h

end Loads

/-! ## The seen table (R27 to R32) -/

section Seen
variable {t : List SeenEntry} {e : SeenEntry}

theorem seenLookup_eq_none_iff {n : Nat} : seenLookup t n = none ↔ ∀ x ∈ t, x.serial ≠ n := by
  simp [seenLookup]

theorem mem_of_seenLookup {n : Nat} (h : seenLookup t n = some e) : e ∈ t ∧ e.serial = n :=
  ⟨List.mem_of_find?_eq_some h, by simpa using List.find?_some h⟩

/-- An entry whose serial no entry has joins at the most recent end. -/
theorem seen_append_nodup (h : (t.map (·.serial)).Nodup) (hn : ∀ x ∈ t, x.serial ≠ e.serial) :
    ((t ++ [e]).map (·.serial)).Nodup := by
  rw [List.map_append, List.map_singleton]
  refine List.nodup_append.2 ⟨h, List.nodup_singleton _, ?_⟩
  rintro _ hmem _ hy
  obtain ⟨x, hx, rfl⟩ := List.mem_map.1 hmem
  exact List.mem_singleton.1 hy ▸ hn x hx

/-- A present serial's entry is replaced and moves to the most recent end (R28). -/
theorem seenTouch_ok (h : SeenOk t) (hn : ∃ x ∈ t, x.serial = e.serial) : SeenOk (seenTouch e t) := by
  obtain ⟨hlen, hnodup⟩ := h
  refine ⟨?_, seen_append_nodup (hnodup.sublist (List.filter_sublist.map _)) fun x hx => by
    simpa using (List.mem_filter.1 hx).2⟩
  have hlt : (t.filter (fun x => x.serial != e.serial)).length < t.length := by
    obtain ⟨x, hx, he⟩ := hn
    exact List.length_filter_lt_length_iff_exists.2 ⟨x, hx, by simpa using he⟩
  rw [seenTouch, List.length_append, List.length_singleton]
  omega

theorem seenWrite_ok (e : SeenEntry) (h : SeenOk t) : SeenOk (seenWrite e t) := by
  unfold seenWrite
  split
  · rename_i x hx
    exact seenTouch_ok h ⟨x, mem_of_seenLookup hx⟩
  · rename_i hnone
    obtain ⟨hlen, hnodup⟩ := h
    have hfresh := seenLookup_eq_none_iff.1 hnone
    rw [Config.seenCap]
    split_ifs with hfull
    · refine ⟨?_, seen_append_nodup (hnodup.sublist ((List.drop_sublist 1 t).map _)) fun x hx =>
        hfresh x (List.mem_of_mem_drop hx)⟩
      rw [List.length_append, List.length_drop, List.length_singleton]
      omega
    · refine ⟨?_, seen_append_nodup hnodup hfresh⟩
      rw [List.length_append, List.length_singleton]
      omega

theorem sightingSeen_ok (g : Sighting) (h : SeenOk t) : SeenOk (sightingSeen g t) := by
  unfold sightingSeen
  split
  · exact seenWrite_ok _ h
  · rename_i e he
    split_ifs
    · exact seenWrite_ok _ h
    · exact h
    · exact seenTouch_ok h ⟨e, (mem_of_seenLookup he).1, rfl⟩

end Seen

/-! ## Every step -/

/-- The deny list and the seen table of a Screening Unit in order. -/
def TablesOk (u : Screening) : Prop := DenyOk u.deny ∧ SeenOk u.seen

theorem listLocally_ok {u : Screening} (n : Nat) (h : TablesOk u) : TablesOk (listLocally n u).1 :=
  ⟨denyListLocally_ok h.1 n, h.2⟩

theorem screenMove_tables {k : Nat} {u u' : Screening} (h : TablesOk u) (m : ScreenMove k u u') : TablesOk u' := by
  obtain ⟨hdeny, hseen⟩ := h
  cases m with
  | merge g =>
    have hmerged : TablesOk { u with seen := sightingSeen g u.seen } := ⟨hdeny, sightingSeen_ok g hseen⟩
    unfold mergeSighting
    split
    · exact hmerged
    · exact listLocally_ok _ hmerged
  | denyBegin v => exact ⟨denyBegin_ok v hdeny, hseen⟩
  | denyAdd l => exact ⟨denyAdd_ok l hdeny, hseen⟩
  | denyEnd => exact ⟨denyEnd_ok hdeny, hseen⟩
  | denyDelta dl => exact ⟨denyDelta_ok dl hdeny, hseen⟩
  | key => exact ⟨hdeny, hseen⟩
  | touch n x _ hx => exact ⟨hdeny, seenTouch_ok hseen ⟨x, (mem_of_seenLookup hx).1, rfl⟩⟩
  | list n => exact listLocally_ok n ⟨hdeny, hseen⟩
  | write e => exact ⟨hdeny, seenWrite_ok e hseen⟩
  | reset => exact ⟨denyAfterReset_ok hdeny, Nat.zero_le _, List.nodup_nil⟩

/-- Settles O7: each move of the Screening Unit keeps both tables in order. -/
theorem stepKeepsScreeningTables : Obligations.StepKeepsScreeningTables :=
  fun _ _ hok h => step_keeps_su (fun _ _ _ => screenMove_tables) h hok

end Sys2Proof.Machine
end

