-- ==== Sys2Proof/Proofs/DenyPairs.lean ====
section
/-! PROOFS. What a deny pair, a remove and the local addition list, skip, evict and keep (R17, R20, R23, R24). -/

namespace Sys2Proof.Machine

section Pairs
variable {d : DenyList} {es : List DenyEntry} {e : DenyEntry} {n m reason : Nat}

/-- What the other entries of a list keep at a pair or a remove: their reason and their kind. -/
theorem closeMove_kept (gone : DenyEntry) (o : Option DenyEntry) :
    (o.map (closeMove gone)).map (fun e => (e.reason, e.isLocal)) = o.map (fun e => (e.reason, e.isLocal)) := by
  simp [Option.map_map, Function.comp_def]

theorem denyRemove_kept (hm : m ≠ n) : (denyLookup (denyRemove n es) m).map (fun e => (e.reason, e.isLocal))
    = (denyLookup es m).map (fun e => (e.reason, e.isLocal)) := by
  cases h : denyLookup es n with
  | none => rw [denyRemove_of_none h]
  | some e => rw [denyLookup_remove_other hm h, closeMove_kept]

theorem denyLookup_confirm_self (h : denyLookup es n = some e) :
    denyLookup (denyConfirm e reason es) n = some { serial := n, reason := reason, source := .station false } := by
  obtain ⟨-, rfl⟩ := mem_of_denyLookup h
  rw [denyLookup_confirm, h]
  simp [confirmEntry]

theorem denyConfirm_kept (h : denyLookup es n = some e) (hm : m ≠ n) :
    (denyLookup (denyConfirm e reason es) m).map (fun e => (e.reason, e.isLocal))
      = (denyLookup es m).map (fun e => (e.reason, e.isLocal)) := by
  obtain ⟨-, rfl⟩ := mem_of_denyLookup h
  rw [denyLookup_confirm, ← closeMove_kept e (denyLookup es m)]
  cases hx : denyLookup es m with
  | none => rfl
  | some x =>
    have hserial := (mem_of_denyLookup hx).2
    simp [confirmEntry, hserial, hm]

/-- A pair that is not skipped lists its serial, where it is listed or finds room (R20). -/
theorem denyAddPair_lists (hv : serialValid n = true)
    (h : (denyLookup d.entries n).isSome = true ∨ d.entries.length < 4096) :
    denyLookup (denyAddPair d (n, reason)).entries n = some { serial := n, reason := reason, source := .station false }
      ∧ ∀ m, m ≠ n → (denyLookup (denyAddPair d (n, reason)).entries m).map (fun e => (e.reason, e.isLocal))
          = (denyLookup d.entries m).map (fun e => (e.reason, e.isLocal)) := by
  cases hn : denyLookup d.entries n with
  | some e =>
    rw [denyAddPair_of_listed hv hn]
    exact ⟨denyLookup_confirm_self hn, fun m hm => denyConfirm_kept hn hm⟩
  | none =>
    have hroom : d.entries.length < 4096 := h.resolve_left (by simp [hn])
    rw [denyAddPair_of_room hv hn hroom]
    exact ⟨denyLookup_insert_self hn, fun m hm => by rw [denyLookup_insert_other hm]⟩

theorem serialValid_iff : serialValid n = true ↔ n ≠ 0 ∧ n ≠ 4294967295 := by
  simp [serialValid]

end Pairs

section Local
variable {es : List DenyEntry} {n m : Nat}

/-- With a place in both sizes the serial joins as the newest LOCAL entry (R24). -/
theorem denyListLocally_joins (h : denyLookup es n = none) (hlocal : localCount es < 64) (hroom : es.length < 4096) :
    denyListLocally n es
      = (denyInsert { serial := n, reason := 15, source := .localEntry (localCount es + 1) } es, .listed) := by
  have hevict := evictOldestLocal_of_lt hlocal
  rw [denyListLocally_of_room h (by rwa [hevict]), hevict]

theorem denyListLocally_noRoom (h : denyLookup es n = none) (hlocal : localCount es < 64) (hfull : es.length = 4096) :
    denyListLocally n es = (es, .notListed) := by
  have hevict := evictOldestLocal_of_lt hlocal
  rw [denyListLocally_of_full h (by rw [hevict, hfull]; decide), hevict]

/-- With the oldest LOCAL entry gone each other one has the number below its own. -/
theorem closeMove_oldest {old x : DenyEntry} (hok : EntriesOk es) (hold : denyLookup es old.serial = some old)
    (hone : old.source = .localEntry 1) (hx : denyLookup es m = some x) (hm : m ≠ old.serial) :
    closeMove old x = match x.source with
      | .localEntry k => { x with source := .localEntry (k - 1) }
      | .station _ => x := by
  obtain ⟨hmem, hserial⟩ := mem_of_denyLookup hx
  have hperm := localOrders_perm_of_lookup hok hold hone
  have hfresh := (List.nodup_cons.1 (hperm.nodup_iff.1 hok.gapless.1)).1
  cases hsource : x.source with
  | station => simp [closeMove, hone, moveDown, hsource]
  | localEntry k =>
    have hk : 1 < k := by
      have hpos := (hok.gapless.2 k (List.mem_filterMap.2 ⟨x, hmem, orderOf_eq_some.2 hsource⟩)).1
      refine lt_of_le_of_ne hpos fun h1 => hfresh (List.mem_filterMap.2 ⟨x, List.mem_filter.2 ⟨hmem, ?_⟩, ?_⟩)
      · simpa [hserial] using hm
      · exact orderOf_eq_some.2 (h1 ▸ hsource)
    simp [closeMove, hone, moveDown, hsource, hk]

/-- At 64 LOCAL entries the oldest leaves for the new one, and the others move down (R24). -/
theorem denyListLocally_evicts (hok : EntriesOk es) (h : denyLookup es n = none) (hfull : localCount es = 64) :
    ∃ old, denyLookup es old.serial = some old ∧ old.source = .localEntry 1
      ∧ (denyListLocally n es).2 = .listed
      ∧ denyLookup (denyListLocally n es).1 n = some { serial := n, reason := 15, source := .localEntry 64 }
      ∧ denyLookup (denyListLocally n es).1 old.serial = none
      ∧ ∀ m, m ≠ n → m ≠ old.serial → denyLookup (denyListLocally n es).1 m = (denyLookup es m).map (fun e =>
          match e.source with
          | .localEntry k => { e with source := .localEntry (k - 1) }
          | .station _ => e) := by
  obtain ⟨old, hold, hone, hevict⟩ := evictOldestLocal_of_full hok hfull
  have hcount := localCount_remove_local hok hold hone
  have hlength := length_remove_listed hok hold
  have hroom : (evictOldestLocal es).length < 4096 := by have := hok.size; rw [hevict]; omega
  have hnew : denyLookup (denyRemove old.serial es) n = none := hevict ▸ denyLookup_evict_none h
  have hne : old.serial ≠ n := by intro he; rw [← he, hold] at h; cases h
  rw [denyListLocally_of_room h hroom, hevict, show localCount (denyRemove old.serial es) + 1 = 64 by omega]
  refine ⟨old, hold, hone, rfl, denyLookup_insert_self hnew, ?_, fun m hm hmo => ?_⟩
  · rw [denyLookup_insert_other hne, denyLookup_remove_self]
  · rw [denyLookup_insert_other hm, denyLookup_remove_other hmo hold]
    cases hx : denyLookup es m with
    | none => rfl
    | some x => exact congrArg some (closeMove_oldest hok hold hone hx hmo)

end Local

/-- Settles O51: the lookup after each operation of a list that is in order. -/
theorem denyPairsListTheirSerial : Obligations.DenyPairsListTheirSerial := by
  refine ⟨fun d n reason hn => denyAddPair_of_invalid ?_,
    fun es n => ⟨⟨denyLookup_eq_none_iff, fun e => mem_of_denyLookup⟩, ?_⟩, fun e => ?_, fun d n reason hok h0 hmax => ?_,
    fun d n hok => ?_⟩
  · obtain rfl | rfl := hn <;> rfl
  · rfl
  · rw [isLocal_eq_orderOf, Option.isSome_iff_exists]
    simp only [orderOf_eq_some]
  · have hv := serialValid_iff.2 ⟨h0, hmax⟩
    exact ⟨denyAddPair_lists hv, fun hn hfull => denyAddPair_of_full hv hn (by rw [hfull]; decide),
      denyLookup_remove_self n d.entries, fun m hm => denyRemove_kept hm⟩
  · have hentries := ((denyOk_iff d).1 hok).1
    refine ⟨denyListLocally_of_listed, fun hn hlocal hroom => ?_, denyListLocally_evicts hentries, denyListLocally_noRoom⟩
    rw [denyListLocally_joins hn hlocal hroom]
    exact ⟨rfl, denyLookup_insert_self hn, fun m hm => denyLookup_insert_other hm⟩

end Sys2Proof.Machine
end

