-- ==== Sys2Proof/Proofs/JournalKept.lean ====
section
/-! PROOFS. The Journal's numbering, its unreserved appends and its checks under every move (R160 to R174), and the two
commands that change held records. -/

namespace Sys2Proof.Machine

/-! ## The numbering and the checks -/

section Moves
variable {j j' : Journal}

/-- The condition bears on the held records, the queue, the two numbers and the queue mark alone. -/
theorem JournalOk.of_fields (h : JournalOk j) (hheld : j'.held = j.held) (hdurable : j'.durable = j.durable)
    (hassigned : j'.assigned = j.assigned) (hqueue : j'.queue = j.queue) (hmark : j'.queueMark = j.queueMark) :
    JournalOk j' := by
  unfold JournalOk unreservedCount at *
  rwa [hheld, hdurable, hassigned, hqueue, hmark]

theorem newRecord_number (t : TimeLink) (g : FareFlag) (c : Content) (j : Journal) :
    (newRecord t g c j).number = j.assigned + 1 := rfl

theorem newRecord_checkStored (t : TimeLink) (g : FareFlag) (c : Content) (j : Journal) :
    checkStored (newRecord t g c j) := rfl

/-- An append that is admitted takes the next number (R161). -/
theorem enqueue_ok (t : TimeLink) (g : FareFlag) (commit : Option Port) (c : Content) (h : JournalOk j)
    (hroom : commit = none → unreservedCount j < 6) : JournalOk (enqueue t g commit c j) := by
  obtain ⟨hlen, hheld, hqueue, hassigned, hcount, hmark, hchecks, hqueued⟩ := h
  refine ⟨hlen, hheld, ?_, ?_, ?_, ?_, hchecks, ?_⟩
  · simp only [enqueue, List.map_append, hqueue, List.map_singleton, newRecord_number, List.length_append,
      List.length_singleton, List.range'_concat, hassigned]
    congr 2
    omega
  · simp only [enqueue, List.length_append, List.length_singleton, hassigned]
    omega
  · simp only [unreservedCount, enqueue, List.countP_append, List.countP_singleton] at *
    cases commit with
    | none => have := hroom rfl; simp only [Option.isNone_none, if_true]; omega
    | some p => simpa using hcount
  · simp only [enqueue]
    cases hq : j.queue with
    | nil => simp
    | cons a rest => simp [hmark, hq]
  · refine List.forall_mem_append.2 ⟨hqueued, List.forall_mem_singleton.2 (newRecord_checkStored t g c j)⟩

theorem unreservedFits_lt (h : unreservedFits j = true) : unreservedCount j < 6 := by
  exact of_decide_eq_true (Bool.and_eq_true_iff.1 h).1

theorem pollFailures_eq (j : Journal) :
    ∃ suspect capture, pollFailures j = { j with suspect := suspect, capture := capture } := by
  unfold pollFailures
  generalize (polled j).filter _ = l
  induction l generalizing j with
  | nil => exact ⟨_, _, rfl⟩
  | cons r l ih =>
    obtain ⟨suspect, capture, h⟩ := ih (takeFailure j r.number)
    have hone : ∃ suspect capture, takeFailure j r.number = { j with suspect := suspect, capture := capture } := by
      unfold takeFailure
      split_ifs <;> exact ⟨_, _, rfl⟩
    obtain ⟨x, y, hone⟩ := hone
    exact ⟨suspect, capture, h.trans (by rw [hone])⟩

/-- After either reset no append waits, and numbering goes on from the durable number (R161, R174). -/
theorem JournalOk.emptied (h : JournalOk j) (hheld : j'.held = j.held) (hdurable : j'.durable = j.durable)
    (hassigned : j'.assigned = j.durable) (hqueue : j'.queue = []) (hmark : j'.queueMark = false) : JournalOk j' := by
  obtain ⟨hlen, hnumbers, -, -, -, -, hchecks, -⟩ := h
  unfold JournalOk unreservedCount
  rw [hheld, hdurable, hassigned, hqueue, hmark]
  exact ⟨hlen, hnumbers, rfl, rfl, Nat.zero_le 6, rfl, hchecks, fun _ ha => by cases ha⟩

theorem journalMove_ok (h : JournalOk j) (m : JournalMove j j') : JournalOk j' := by
  cases m with
  | alert t c =>
    unfold requestAlert
    split_ifs with hfits
    · exact enqueue_ok t .plain none c h fun _ => unreservedFits_lt hfits
    · exact h.of_fields rfl rfl rfl rfl rfl
  | remote t c _ _ hremote =>
    unfold requestRemote at hremote
    split_ifs at hremote with hfits
    cases hremote
    exact enqueue_ok t .remote none c h fun _ => unreservedFits_lt hfits
  | fare t g p c => exact (enqueue_ok t g (some p) c h fun hp => by cases hp).of_fields rfl rfl rfl rfl rfl
  | reserve _ _ hreserve =>
    unfold reserveSlot at hreserve
    split_ifs at hreserve
    cases hreserve
    exact h.of_fields rfl rfl rfl rfl rfl
  | poll =>
    obtain ⟨_, _, heq⟩ := pollFailures_eq j
    exact heq ▸ h.of_fields rfl rfl rfl rfl rfl
  | powerOn => exact h.emptied rfl rfl rfl rfl rfl
  | lineReset => exact h.emptied rfl rfl rfl rfl rfl
  | _ => exact h.of_fields rfl rfl rfl rfl rfl

/-- The oldest queued record is the one after the durable number, and becomes the newest held one (R160, R163). -/
theorem completeAppend_ok {a : Append} {rest : List Append} (h : JournalOk j) (hq : j.queue = a :: rest) :
    JournalOk (completeAppend a rest j) := by
  obtain ⟨hlen, hheld, hqueue, hassigned, hcount, hmark, hchecks, hqueued⟩ := h
  rw [hq] at hqueue hassigned hqueued hmark
  simp only [unreservedCount, hq, List.countP_cons] at hcount
  simp only [List.map_cons, List.length_cons, List.range'_succ, List.cons.injEq] at hqueue
  obtain ⟨hnumber, hrest⟩ := hqueue
  obtain ⟨ha, hqueued⟩ := List.forall_mem_cons.1 hqueued
  refine ⟨?_, ?_, ?_, ?_, ?_, ?_, List.forall_mem_append.2 ⟨hchecks, List.forall_mem_singleton.2 ha⟩, hqueued⟩
  · simp only [completeAppend, List.length_append, List.length_singleton, hnumber]
    omega
  · simp only [completeAppend, List.map_append, List.map_singleton, hheld, List.length_append, List.length_singleton,
      hnumber, List.range'_concat]
    have hstart : j.durable + 1 + 1 - (j.held.length + 1) = j.durable + 1 - j.held.length := by omega
    rw [hstart]
    congr 2
    omega
  · simp only [completeAppend, hrest, hnumber]
  · simp only [completeAppend, hassigned, hnumber, List.length_cons]
    omega
  · simp only [unreservedCount, completeAppend]
    omega
  · cases rest <;> simp [completeAppend, hmark]

/-- Held records leave from the oldest end, so no gap opens (R160, R173). -/
theorem collect_ok (h : JournalOk j) (n : Nat) : JournalOk (collect n j) := by
  obtain ⟨hlen, hheld, hqueue, hassigned, hcount, hmark, hchecks, hqueued⟩ := h
  have hsuffix := List.dropWhile_suffix (fun r : JRecord => decide (r.number ≤ n)) (l := j.held)
  have hle := hsuffix.length_le
  refine ⟨hle.trans hlen, ?_, hqueue, hassigned, hcount, hmark, fun r hr => hchecks r (hsuffix.subset hr), hqueued⟩
  simp only [collect]
  rw [List.suffix_iff_eq_drop] at hsuffix
  rw [hsuffix, List.map_drop, hheld, List.drop_range', List.length_drop]
  congr 1
  omega

end Moves

theorem step_keeps_journalOk {s t : State} (h : step s = .next t) (hok : JournalOk s.jn) : JournalOk t.jn :=
  step_keeps_jn (fun _ _ => journalMove_ok) (fun _ _ _ => completeAppend_ok) (fun _ n h => collect_ok h n) h hok

/-! ## Held records and the durable number (R160) -/

theorem journalMove_held {j j' : Journal} (m : JournalMove j j') : j'.held = j.held ∧ j'.durable = j.durable := by
  cases m with
  | alert t c => unfold requestAlert; split_ifs <;> exact ⟨rfl, rfl⟩
  | remote t c _ _ h => unfold requestRemote at h; split_ifs at h; cases h; exact ⟨rfl, rfl⟩
  | reserve _ _ h => unfold reserveSlot at h; split_ifs at h; cases h; exact ⟨rfl, rfl⟩
  | poll => obtain ⟨_, _, heq⟩ := pollFailures_eq j; rw [heq]; exact ⟨rfl, rfl⟩
  | _ => exact ⟨rfl, rfl⟩

/-- Settles O14: no move but a completion and a collection reaches a held record or the durable number. -/
theorem heldRecordsChangeOnlyByTwo : Obligations.HeldRecordsChangeOnlyByTwo := by
  intro c s t h hcompletion hcollected
  refine exec_closed (closed_jn (Q := fun j => j.held = s.jn.held ∧ j.durable = s.jn.durable) ?_) c s t h ⟨rfl, rfl⟩
    (fun hc => absurd hc hcompletion) (fun hc => absurd hc hcompletion) (fun addr l hc => absurd hc (hcollected addr l))
  rintro j j' ⟨hheld, hdurable⟩ m
  obtain ⟨mheld, mdurable⟩ := journalMove_held m
  exact ⟨mheld.trans hheld, mdurable.trans hdurable⟩

end Sys2Proof.Machine
end

