-- ==== Sys2Proof/Proofs/CreditQueue.lean ====
section
/-! PROOFS. The Credit Queue's operations (R124): the entry that a test picks, and the hold window of the head, which leaves
everything else of the entries as it is (R135 to R137). -/

namespace Sys2Proof.Machine

/-! ## The entry that a test picks -/

section Change
variable {p : Credit → Bool} {f : Credit → Option Credit} {cs : List Credit}

/-- No entry is picked, or the first one is, and it is changed in its place or leaves it. -/
theorem changeFirst_eq (p : Credit → Bool) (f : Credit → Option Credit) (cs : List Credit) :
    ((∀ c ∈ cs, p c = false) ∧ changeFirst p f cs = cs)
      ∨ ∃ l c r, cs = l ++ c :: r ∧ p c = true ∧ (∀ x ∈ l, p x = false)
          ∧ changeFirst p f cs = l ++ ((f c).toList ++ r) := by
  induction cs with
  | nil => exact .inl ⟨by simp, rfl⟩
  | cons x xs ih =>
    by_cases hx : p x = true
    · refine .inr ⟨[], x, xs, rfl, hx, by simp, ?_⟩
      rw [changeFirst, if_pos hx]
      cases f x <;> rfl
    · have hx' : p x = false := Bool.eq_false_iff.2 hx
      have hstep : changeFirst p f (x :: xs) = x :: changeFirst p f xs := by rw [changeFirst, if_neg hx]
      obtain ⟨hnone, heq⟩ | ⟨l, c, r, rfl, hc, hl, heq⟩ := ih
      · exact .inl ⟨List.forall_mem_cons.2 ⟨hx', hnone⟩, by rw [hstep, heq]⟩
      · exact .inr ⟨x :: l, c, r, rfl, hc, List.forall_mem_cons.2 ⟨hx', hl⟩, by rw [hstep, heq]; rfl⟩

/-- No entry is picked, or the last one is (R116). -/
theorem changeLast_eq (p : Credit → Bool) (f : Credit → Option Credit) (cs : List Credit) :
    ((∀ c ∈ cs, p c = false) ∧ changeLast p f cs = cs)
      ∨ ∃ l c r, cs = l ++ c :: r ∧ p c = true ∧ (∀ x ∈ r, p x = false)
          ∧ changeLast p f cs = l ++ ((f c).toList ++ r) := by
  unfold changeLast
  obtain ⟨hnone, heq⟩ | ⟨l, c, r, hcs, hc, hl, heq⟩ := changeFirst_eq p f cs.reverse
  · exact .inl ⟨fun c hc => hnone c (List.mem_reverse.2 hc), by rw [heq, List.reverse_reverse]⟩
  · refine .inr ⟨r.reverse, c, l.reverse, ?_, hc, fun x hx => hl x (List.mem_reverse.1 hx), ?_⟩
    · rw [← List.reverse_reverse cs, hcs]
      simp
    · rw [heq]
      cases f c <;> simp

end Change

/-! ## The hold window leaves everything else of an entry -/

section Window
variable {c : Credit} {cs : List Credit} {head : Credit → Bool} {newEnd : Nat}

/-- A function of an entry that does not see its hold window. -/
def WindowBlind {α : Type} (g : Credit → α) : Prop :=
  (∀ e c, g (withWindow e c) = g c) ∧ ∀ c, g (withoutWindow c) = g c

theorem windowBlind_of_state {α : Type} {g : Credit → α}
    (h : ∀ no at_ e e' d n p, g ⟨.granted no at_ e, d, n, p⟩ = g ⟨.granted no at_ e', d, n, p⟩) : WindowBlind g := by
  refine ⟨fun e => ?_, ?_⟩
  · rintro ⟨_ | ⟨no, at_, _ | _⟩ | _, d, n, p⟩
    · rfl
    · exact h no at_ (some e) none d n p
    · rfl
    · rfl
  · rintro ⟨_ | ⟨no, at_, _ | e⟩ | _, d, n, p⟩
    · rfl
    · rfl
    · exact h no at_ none (some e) d n p
    · rfl

theorem WindowBlind.comp {α β : Type} {g : Credit → α} (h : WindowBlind g) (k : α → β) : WindowBlind (fun c => k (g c)) :=
  ⟨fun e c => congrArg k (h.1 e c), fun c => congrArg k (h.2 c)⟩

theorem windowBlind_isReserved : WindowBlind Credit.isReserved := windowBlind_of_state fun _ _ _ _ _ _ _ => rfl
theorem windowBlind_isGranted : WindowBlind Credit.isGranted := windowBlind_of_state fun _ _ _ _ _ _ _ => rfl
theorem windowBlind_isInAisle : WindowBlind Credit.isInAisle := windowBlind_of_state fun _ _ _ _ _ _ _ => rfl
theorem windowBlind_isInAisleDir (d : Dir) : WindowBlind (isInAisleDir d) := windowBlind_of_state fun _ _ _ _ _ _ _ => rfl
theorem windowBlind_dir : WindowBlind Credit.dir := windowBlind_of_state fun _ _ _ _ _ _ _ => rfl
theorem windowBlind_withoutWindow : WindowBlind withoutWindow :=
  windowBlind_of_state fun _ _ e e' _ _ _ => by cases e <;> cases e' <;> rfl
theorem windowBlind_loitering (now limit : Nat) : WindowBlind (loitering now limit) :=
  windowBlind_of_state fun _ _ _ _ _ _ _ => rfl
theorem windowBlind_barred : WindowBlind (fun c => decide (c.state = .reserved true)) :=
  windowBlind_of_state fun _ _ _ _ _ _ _ => rfl

theorem windowPass_map {α : Type} {g : Credit → α} (hg : WindowBlind g) (head : Credit → Bool) (newEnd : Nat)
    (cs : List Credit) : (windowPass head newEnd cs).map g = cs.map g := by
  obtain ⟨hon, hoff⟩ := hg
  induction cs with
  | nil => rfl
  | cons c cs ih =>
    unfold windowPass
    split_ifs
    · simp [hon, hoff, Function.comp_def]
    · rw [List.map_cons, List.map_cons, ih, hoff]

theorem windowPass_length (head : Credit → Bool) (newEnd : Nat) (cs : List Credit) :
    (windowPass head newEnd cs).length = cs.length := by
  simpa using congrArg List.length (windowPass_map windowBlind_dir head newEnd cs)

theorem windowPass_countP {q : Credit → Bool} (hq : WindowBlind q) (head : Credit → Bool) (newEnd : Nat)
    (cs : List Credit) : (windowPass head newEnd cs).countP q = cs.countP q := by
  simpa [List.countP_map] using congrArg (List.countP id) (windowPass_map hq head newEnd cs)

theorem windowPass_any {q : Credit → Bool} (hq : WindowBlind q) (head : Credit → Bool) (newEnd : Nat)
    (cs : List Credit) : (windowPass head newEnd cs).any q = cs.any q := by
  simpa [List.any_map] using congrArg (List.any · id) (windowPass_map hq head newEnd cs)

theorem windowPass_all {q : Credit → Bool} (hq : WindowBlind q) (head : Credit → Bool) (newEnd : Nat)
    (cs : List Credit) : (windowPass head newEnd cs).all q = cs.all q := by
  simpa [List.all_map] using congrArg (List.all · id) (windowPass_map hq head newEnd cs)

end Window

/-! ## What settling leaves of the queue -/

section Settle
variable (env : Env) (was : Bool) (a : Aisle)

/-- Of the credits settling changes the hold windows alone (R136, R137). -/
theorem settle_credits : ∃ head newEnd, (settle env was a).credits = windowPass head newEnd a.credits :=
  ⟨_, _, by simp only [settle, loiterUpdate_credits, idleUpdate_credits, windowUpdate, driveAct_credits,
    historyUpdate_credits]; rfl⟩

theorem settle_map {α : Type} {g : Credit → α} (hg : WindowBlind g) :
    (settle env was a).credits.map g = a.credits.map g := by
  obtain ⟨head, newEnd, h⟩ := settle_credits env was a
  rw [h, windowPass_map hg]

theorem settle_entries : entries (settle env was a) = entries a := settle_map env was a windowBlind_withoutWindow

theorem settle_credits_length : (settle env was a).credits.length = a.credits.length := by
  obtain ⟨head, newEnd, h⟩ := settle_credits env was a
  rw [h, windowPass_length]

theorem settle_countP {q : Credit → Bool} (hq : WindowBlind q) :
    (settle env was a).credits.countP q = a.credits.countP q := by
  obtain ⟨head, newEnd, h⟩ := settle_credits env was a
  rw [h, windowPass_countP hq]

theorem settle_all {q : Credit → Bool} (hq : WindowBlind q) :
    (settle env was a).credits.all q = a.credits.all q := by
  obtain ⟨head, newEnd, h⟩ := settle_credits env was a
  rw [h, windowPass_all hq]

theorem settle_any {q : Credit → Bool} (hq : WindowBlind q) :
    (settle env was a).credits.any q = a.credits.any q := by
  obtain ⟨head, newEnd, h⟩ := settle_credits env was a
  rw [h, windowPass_any hq]

theorem settle_passages : passages (settle env was a) = passages a :=
  settle_countP env was a (windowBlind_isReserved.comp (!·))

theorem settle_emergencyActive : emergencyActive (settle env was a) = emergencyActive a := by
  simp [emergencyActive]

/-- A RELEASED drive stays RELEASED (R142). -/
theorem settle_leaf_released (h : a.leaf = .released) : (settle env was a).leaf = .released := by
  simp [settle, driveAct, h]

end Settle

end Sys2Proof.Machine
end

