-- ==== Sys2Proof/Proofs/Passages.lean ====
section
/-! PROOFS. The number of passages granted (R127): every move of the Aisle Controller but a grant leaves it or lowers it. -/

namespace Sys2Proof.Machine

section Queue
variable {p : Credit → Bool} {f : Credit → Option Credit} {q : Credit → Bool} {cs : List Credit}

/-- A change or a departure of one entry does not raise a count that the changed entry was in already. -/
theorem changeFirst_countP_le (h : ∀ c, p c = true → (f c).toList.countP q ≤ [c].countP q) :
    (changeFirst p f cs).countP q ≤ cs.countP q := by
  obtain ⟨-, heq⟩ | ⟨l, c, r, rfl, hc, -, heq⟩ := changeFirst_eq p f cs
  · rw [heq]
  · have := h c hc
    rw [heq, List.append_cons l c r]
    simp only [List.countP_append]
    omega

theorem changeLast_countP_le (h : ∀ c, p c = true → (f c).toList.countP q ≤ [c].countP q) :
    (changeLast p f cs).countP q ≤ cs.countP q := by
  obtain ⟨-, heq⟩ | ⟨l, c, r, rfl, hc, -, heq⟩ := changeLast_eq p f cs
  · rw [heq]
  · have := h c hc
    rw [heq, List.append_cons l c r]
    simp only [List.countP_append]
    omega

end Queue

/-- A change of the aisle that grants no passage. -/
def NoGrant (a b : Aisle) : Prop := passages b ≤ passages a

section Aisle
variable {env : Env} {a b : Aisle} {r : AisleRun} {d : Dir}

theorem NoGrant.trans {c : Aisle} (h : NoGrant a b) (k : NoGrant b c) : NoGrant a c := Nat.le_trans k h

theorem noGrant_of_credits (h : b.credits = a.credits) : NoGrant a b := by
  rw [NoGrant, passages, passages, h]

theorem NoGrant.settled {was : Bool} (h : NoGrant a b) : NoGrant a (settle env was b) := by
  rw [NoGrant, settle_passages]
  exact h

/-- Entries that stay as they are or become barred grant nothing. -/
theorem noGrant_map_barCredit (a : Aisle) : NoGrant a { a with credits := a.credits.map barCredit } := by
  rw [NoGrant, passages, passages, List.countP_map]
  refine le_of_eq (List.countP_congr fun ⟨state, _, _, _⟩ _ => ?_)
  cases state <;> simp [barCredit, Credit.isReserved]

theorem noGrant_filter (a : Aisle) (keep : Credit → Bool) : NoGrant a { a with credits := a.credits.filter keep } :=
  List.filter_sublist.countP_le

theorem noGrant_removeFirst (a : Aisle) (p : Credit → Bool) :
    NoGrant a { a with credits := changeFirst p (fun _ => none) a.credits } :=
  changeFirst_countP_le fun _ _ => Nat.zero_le _

theorem noGrant_removeLast (a : Aisle) (p : Credit → Bool) :
    NoGrant a { a with credits := changeLast p (fun _ => none) a.credits } :=
  changeLast_countP_le fun _ _ => Nat.zero_le _

/-- A claimed entry was granted already (R114). -/
theorem noGrant_claim (a : Aisle) (d : Dir) (now : Nat) :
    NoGrant a { a with credits := changeFirst (isGrantedDir d) (claimCredit now) a.credits } := by
  refine changeFirst_countP_le fun ⟨state, _, _, _⟩ _ => ?_
  cases state <;> simp [claimCredit, Credit.isReserved]

/-- An entry that a back-out returns was granted already (R116). -/
theorem noGrant_return (a : Aisle) (d : Dir) :
    NoGrant a { a with credits := changeLast (isInAisleDir d) returnCredit a.credits } := by
  refine changeLast_countP_le fun ⟨state, _, _, _⟩ _ => ?_
  cases state <;> simp [returnCredit, Credit.isReserved]

theorem crossIn_noGrant (env : Env) (d : Dir) (r : AisleRun) : NoGrant r.ac (crossIn env d r).ac := by
  refine NoGrant.settled ?_
  have hraise : NoGrant r.ac (raiseBodies d r.ac) := noGrant_of_credits (raiseBodies_credits d r.ac)
  split_ifs
  · exact hraise.trans (noGrant_claim _ d env.now)
  · exact hraise
  · exact hraise.trans (noGrant_of_credits rfl)

theorem depart_noGrant (env : Env) (d : Dir) (a : Aisle) : NoGrant a (depart env d a) := by
  have hlower : NoGrant a (lowerBodies d a) := noGrant_of_credits (lowerBodies_credits d a)
  unfold depart
  split_ifs
  · exact (hlower.trans (noGrant_removeFirst _ _)).trans (noGrant_of_credits (headway_credits ..))
  · exact hlower

theorem backOut_noGrant (env : Env) (d : Dir) (r : AisleRun) : NoGrant r.ac (backOut env d r).ac := by
  have hlower : NoGrant r.ac (lowerBodies d r.ac) := noGrant_of_credits (lowerBodies_credits d r.ac)
  unfold backOut
  split
  · exact hlower
  · split_ifs
    · exact hlower.trans (noGrant_removeLast _ _)
    · exact hlower.trans (noGrant_return _ d)

theorem crossOut_noGrant (env : Env) (d : Dir) (r : AisleRun) : NoGrant r.ac (crossOut env d r).ac := by
  unfold crossOut
  split_ifs
  · exact (depart_noGrant env d r.ac).settled
  · exact (backOut_noGrant env d.other r).settled
  · exact Nat.le_refl _

theorem detectorEvent_noGrant (env : Env) (e : Port) (r : AisleRun) : NoGrant r.ac (detectorEvent env e r).ac := by
  have hset (n : Detector) : NoGrant r.ac (setDetector r.ac e n) := noGrant_of_credits (setDetector_credits ..)
  unfold detectorEvent
  dsimp only
  split
  · exact hset _
  · exact (hset _).trans (crossIn_noGrant env _ _)
  · exact (hset _).trans (crossOut_noGrant env _ _)

theorem withdrawGranted_noGrant (env : Env) (cause : Cause) (r : AisleRun) :
    NoGrant r.ac (withdrawGranted env cause r).ac := noGrant_filter r.ac _

theorem emergencyEdge_noGrant (env : Env) (before : Aisle) (r : AisleRun) :
    NoGrant r.ac (emergencyEdge env before r).ac := by
  unfold emergencyEdge
  split_ifs
  · exact (((noGrant_map_barCredit r.ac).trans (withdrawGranted_noGrant env .emergency
      (r.upd (fun a => { a with credits := a.credits.map barCredit })))).trans (noGrant_filter _ _)).settled
  · exact NoGrant.settled (noGrant_of_credits rfl)
  · exact Nat.le_refl _

theorem lockout_noGrant (env : Env) (code : HaltCode) (r : AisleRun) : NoGrant r.ac (lockout env code r).ac :=
  (noGrant_map_barCredit r.ac).trans (noGrant_filter { r.ac with credits := r.ac.credits.map barCredit } _)

theorem leafFault_noGrant (env : Env) (conflict : Bool) (r : AisleRun) :
    NoGrant r.ac (leafFault env conflict r).ac := by
  unfold leafFault
  split
  · exact Nat.le_refl _
  · split_ifs
    · exact lockout_noGrant env _ r
    · exact noGrant_of_credits (startMotion_credits ..)

/-- The leaf position that a target is held at (R142). -/
def heldLeaf : Target → Leaf
  | .toOpen => .opened
  | .toClosed => .closed

/-- A change of an end stop is still, a conflict, a completion, or the loss of a held stop (R143). -/
theorem stopChange_cases (env : Env) (which : Target) (level : Bool) (r : AisleRun) :
    stopChange env which level r = r
      ∨ (r.ac.leaf ≠ .released ∧ stopChange env which level r = leafFault env true r)
      ∨ (∃ tgt, r.ac.leaf = movingLeaf tgt ∧ stopChange env which level r = r.upd (completeMotion env tgt))
      ∨ ∃ tgt, r.ac.leaf = heldLeaf tgt ∧ stopChange env which level r = r.upd (startMotion env tgt false) := by
  cases hboth : r.ac.inputs.openStop.filtered && r.ac.inputs.closedStop.filtered with
  | true =>
    cases hleaf : r.ac.leaf with
    | released => exact .inl (by simp only [stopChange, hleaf])
    | _ => exact .inr (.inl ⟨nofun, by simp only [stopChange, hleaf, hboth, if_true]⟩)
  | false =>
    cases hleaf : r.ac.leaf with
    | released => exact .inl (by simp only [stopChange, hleaf])
    | opening =>
      by_cases hs : stopsAt r.ac .toOpen = true
      · exact .inr (.inr (.inl ⟨.toOpen, rfl, by simp only [stopChange, hleaf, hboth, hs]; rfl⟩))
      · exact .inl (by simp only [stopChange, hleaf, hboth, hs]; rfl)
    | closing =>
      by_cases hs : stopsAt r.ac .toClosed = true
      · exact .inr (.inr (.inl ⟨.toClosed, rfl, by simp only [stopChange, hleaf, hboth, hs]; rfl⟩))
      · exact .inl (by simp only [stopChange, hleaf, hboth, hs]; rfl)
    | opened =>
      by_cases hs : (decide (which = .toOpen) && !level) = true
      · exact .inr (.inr (.inr ⟨.toOpen, rfl, by simp only [stopChange, hleaf, hboth, hs]; rfl⟩))
      · exact .inl (by simp only [stopChange, hleaf, hboth, hs]; rfl)
    | closed =>
      by_cases hs : (decide (which = .toClosed) && !level) = true
      · exact .inr (.inr (.inr ⟨.toClosed, rfl, by simp only [stopChange, hleaf, hboth, hs]; rfl⟩))
      · exact .inl (by simp only [stopChange, hleaf, hboth, hs]; rfl)

theorem stopChange_noGrant (env : Env) (which : Target) (level : Bool) (r : AisleRun) :
    NoGrant r.ac (stopChange env which level r).ac := by
  obtain heq | ⟨-, heq⟩ | ⟨tgt, -, heq⟩ | ⟨tgt, -, heq⟩ := stopChange_cases env which level r <;> rw [heq]
  · exact Nat.le_refl _
  · exact leafFault_noGrant env true r
  · exact noGrant_of_credits (completeMotion_credits ..)
  · exact noGrant_of_credits (startMotion_credits ..)

theorem handFilteredChange_noGrant (env : Env) (before : Aisle) (i : Input) (level : Bool) (r : AisleRun) :
    NoGrant r.ac (handFilteredChange env before i level r).ac := by
  have hzone : NoGrant r.ac (zoneChange env level r.ac) := noGrant_of_credits (zoneChange_credits ..)
  cases i with
  | aOuter | aInner => exact detectorEvent_noGrant env .a r
  | bInner | bOuter => exact detectorEvent_noGrant env .b r
  | l1 | l2 => exact hzone.settled
  | openStop => exact (stopChange_noGrant env .toOpen level r).settled
  | closedStop => exact (stopChange_noGrant env .toClosed level r).settled
  | emerg => exact emergencyEdge_noGrant env before r

theorem endFilter_noGrant (env : Env) (i : Input) (r : AisleRun) : NoGrant r.ac (endFilter env i r).ac := by
  unfold endFilter
  dsimp only
  split_ifs
  · exact noGrant_of_credits rfl
  · exact handFilteredChange_noGrant env r.ac i _ (r.upd _)

/-- The aisle at the settle's end with its filtered levels taken (R110). -/
def takeLevels (a : Aisle) : Aisle :=
  { a with settleEnd := none, inputs := a.inputs.each (fun l => { raw := l.raw, filtered := l.raw, filterEnd := none }) }

/-- The levels, the emergency state, the detectors, the drive's first state, and what follows (R110, R159; log 22). -/
theorem settleInputs_eq (env : Env) (r : AisleRun) {r3 : AisleRun} (h : r3 = detectorEvent env .b (detectorEvent env .a
    (emergencyEdge env r.ac (r.upd takeLevels)))) :
    settleInputs env r = (r3.upd (firstDrive env)).settled env r3.ac := by
  rw [h]
  rfl

theorem firstDrive_credits (env : Env) (a : Aisle) : (firstDrive env a).credits = a.credits := by
  unfold firstDrive
  split_ifs <;> simp

theorem settleInputs_noGrant (env : Env) (r : AisleRun) : NoGrant r.ac (settleInputs env r).ac := by
  have hlevels : NoGrant r.ac (takeLevels r.ac) := noGrant_of_credits rfl
  have hedge := hlevels.trans (emergencyEdge_noGrant env r.ac (r.upd takeLevels))
  have hdetectors := (hedge.trans (detectorEvent_noGrant env .a _)).trans (detectorEvent_noGrant env .b _)
  rw [settleInputs_eq env r rfl]
  exact (hdetectors.trans (noGrant_of_credits (firstDrive_credits env _))).settled

theorem expireHold_noGrant (env : Env) (r : AisleRun) : NoGrant r.ac (expireHold env r).ac := by
  unfold expireHold
  split
  · exact Nat.le_refl _
  · exact (noGrant_removeFirst r.ac _).settled

theorem reserveCredit_noGrant {n : Nat} {p : Port} (h : reserveCredit env n d p a = some b) : NoGrant a b := by
  unfold reserveCredit at h
  split_ifs at h
  cases h
  refine NoGrant.settled ?_
  simp [NoGrant, passages, Credit.isReserved]

theorem restoreAisle_noGrant (env : Env) (a : Aisle) : NoGrant a (restoreAisle env a) := by
  refine NoGrant.settled (noGrant_of_credits ?_)
  split_ifs <;> simp

theorem aisleMove_noGrant (m : AisleMove env a b) : NoGrant a b := by
  cases m with
  | raw i level => exact noGrant_of_credits (by unfold rawChange; dsimp only; split <;> rfl)
  | filter i => exact endFilter_noGrant env i ⟨a, []⟩
  | settled => exact settleInputs_noGrant env ⟨a, []⟩
  | travel => exact (leafFault_noGrant env false ⟨a, []⟩).settled
  | blank m => exact NoGrant.settled (noGrant_of_credits (by split_ifs <;> simp))
  | zoneClear => exact NoGrant.settled (noGrant_of_credits rfl)
  | hold => exact expireHold_noGrant env ⟨a, []⟩
  | reserve n d p _ _ h => exact reserveCredit_noGrant h
  | release p => exact (noGrant_removeFirst a _).settled
  | restore => exact restoreAisle_noGrant env a
  | emergency v => exact emergencyEdge_noGrant env a (AisleRun.upd ⟨a, []⟩ _)
  | _ => exact noGrant_of_credits rfl

end Aisle

/-- Settles O13: no move of the Aisle Controller but a grant raises the number, and a completion alone grants. -/
theorem grantsOnlyAtCompletion : Obligations.GrantsOnlyAtCompletion := by
  intro c s t h hcompletion
  exact exec_closed (closed_ac (Q := fun a => NoGrant s.ac a) (fun _ _ _ h m => h.trans (aisleMove_noGrant m))
    (fun _ _ _ _ => Nat.zero_le _)) c s t h (Nat.le_refl _) (fun hc => absurd hc hcompletion)
    (fun _ _ _ _ h _ => h) (fun _ _ _ _ _ h => h)

end Sys2Proof.Machine
end

