-- ==== Sys2Proof/Proofs/Credits.lean ====
section
/-! PROOFS. The Credit Queue and the body counters under every event of the aisle (R113, R125, R128, R151, R156). -/

namespace Sys2Proof.Machine

/-! ## The body counters (R113, R115, R116) -/

theorem bodies_raise (d e : Dir) (a : Aisle) :
    bodies (raiseBodies d a) e = if e = d then min 7 (bodies a d + 1) else bodies a e := by
  cases d <;> cases e <;> rfl

theorem bodies_lower (d e : Dir) (a : Aisle) :
    bodies (lowerBodies d a) e = if e = d then bodies a d - 1 else bodies a e := by
  cases d <;> cases e <;> rfl

theorem bodies_congr {a b : Aisle} (hab : b.bodiesAB = a.bodiesAB) (hba : b.bodiesBA = a.bodiesBA) :
    bodies b = bodies a := by
  funext d
  cases d
  · exact hab
  · exact hba

/-! ## The queue against the counters and the two states -/

/-- An entry that LOCKED_OUT leaves: RESERVED and barred, or IN_AISLE (R151). -/
def LockedEntry (c : Credit) : Prop := c.state = .reserved true ∨ c.isInAisle = true

/-- The conditions of the Credit Queue by its entries, the counters, the emergency state and LOCKED_OUT. -/
structure QueueOk (cs : List Credit) (n : Dir → Nat) (emergency locked : Bool) : Prop where
  size      : cs.length ≤ 4
  bodies    : ∀ d, n d ≤ 7
  inAisle   : ∀ d, cs.countP (isInAisleDir d) ≤ n d
  emergency : emergency = true → ∀ c ∈ cs, c.state = .reserved true
  locked    : locked = true → ∀ c ∈ cs, LockedEntry c

theorem creditsOk_iff (a : Aisle) : CreditsOk a ↔
    QueueOk a.credits (bodies a) (emergencyActive a) a.lockedOut ∧ (a.lockedOut = true → a.leaf = .released) := by
  constructor
  · rintro ⟨hsize, hab, hba, hin, hem, hlock⟩
    exact ⟨⟨hsize, fun d => by cases d <;> assumption, hin, hem, fun h => (hlock h).2⟩, fun h => (hlock h).1⟩
  · rintro ⟨⟨hsize, hbodies, hin, hem, hlock⟩, hleaf⟩
    exact ⟨hsize, hbodies .ab, hbodies .ba, hin, hem, fun h => ⟨hleaf h, hlock h⟩⟩

section Queue
variable {cs cs' : List Credit} {n n' : Dir → Nat} {em lk : Bool} {c : Credit} {d : Dir}

theorem isInAisleDir_iff : isInAisleDir d c = true ↔ c.isInAisle = true ∧ c.dir = d := by
  simp [isInAisleDir]

theorem not_isInAisleDir_of_granted (h : c.isGranted = true) (d : Dir) : isInAisleDir d c = false := by
  obtain ⟨state, _, _, _⟩ := c
  cases state <;> simp_all [Credit.isGranted, isInAisleDir, Credit.isInAisle]

theorem not_isInAisleDir_of_reserved {b : Bool} (h : c.state = .reserved b) (d : Dir) : isInAisleDir d c = false := by
  simp [isInAisleDir, Credit.isInAisle, h]

/-- Entries may leave, and the counters rise, to 7. -/
theorem QueueOk.sublist (h : QueueOk cs n em lk) (hs : cs'.Sublist cs) (hn : ∀ d, n d ≤ n' d) (h7 : ∀ d, n' d ≤ 7) :
    QueueOk cs' n' em lk where
  size := hs.length_le.trans h.size
  bodies := h7
  inAisle d := (hs.countP_le.trans (h.inAisle d)).trans (hn d)
  emergency he c hc := h.emergency he c (hs.subset hc)
  locked hl c hc := h.locked hl c (hs.subset hc)

theorem QueueOk.subset (h : QueueOk cs n em lk) (hs : cs'.Sublist cs) : QueueOk cs' n em lk :=
  h.sublist hs (fun _ => le_rfl) h.bodies

theorem changeFirst_none_sublist (p : Credit → Bool) (cs : List Credit) :
    (changeFirst p (fun _ => none) cs).Sublist cs := by
  obtain ⟨-, heq⟩ | ⟨l, c, r, rfl, -, -, heq⟩ := changeFirst_eq p (fun _ => none) cs
  · rw [heq]
  · rw [heq]
    exact List.Sublist.append_left (List.sublist_cons_self c r) l

/-- An entry outside RESERVED is at hand neither in emergency nor, GRANTED, in LOCKED_OUT (R151, R156). -/
theorem QueueOk.free_of_granted (h : QueueOk cs n em lk) (hc : c ∈ cs) (hg : c.isGranted = true) :
    em = false ∧ lk = false := by
  obtain ⟨state, _, _, _⟩ := c
  cases state <;> simp only [Credit.isGranted, Bool.false_eq_true] at hg
  constructor
  · by_contra hem
    simpa using h.emergency (Bool.not_eq_false _ ▸ hem) _ hc
  · by_contra hlk
    simpa [LockedEntry, Credit.isInAisle] using h.locked (Bool.not_eq_false _ ▸ hlk) _ hc

theorem QueueOk.calm_of_inAisle (h : QueueOk cs n em lk) (hc : c ∈ cs) (hin : c.isInAisle = true) : em = false := by
  obtain ⟨state, _, _, _⟩ := c
  cases state <;> simp only [Credit.isInAisle, Bool.false_eq_true] at hin
  by_contra hem
  simpa using h.emergency (Bool.not_eq_false _ ▸ hem) _ hc

/-- A claim: one IN_AISLE entry more, and a body more (R114). -/
theorem QueueOk.claim (h : QueueOk cs n em lk) (now : Nat) (d : Dir) (hany : cs.any (isGrantedDir d) = true) :
    QueueOk (changeFirst (isGrantedDir d) (claimCredit now) cs) (fun e => if e = d then min 7 (n d + 1) else n e) em lk := by
  obtain ⟨hnone, -⟩ | ⟨l, c, r, hcs, hc, -, heq⟩ := changeFirst_eq (isGrantedDir d) (claimCredit now) cs
  · obtain ⟨c, hc, hg⟩ := List.any_eq_true.1 hany
    simp [hnone c hc] at hg
  have hgranted : c.isGranted = true ∧ c.dir = d := by simpa [isGrantedDir] using hc
  obtain ⟨rfl, rfl⟩ := h.free_of_granted (by simp [hcs]) hgranted.1
  obtain ⟨c', hclaim, hin⟩ : ∃ c', claimCredit now c = some c' ∧ ∀ e, isInAisleDir e c' = decide (e = d) := by
    obtain ⟨state, dir, n, p⟩ := c
    obtain ⟨hg, rfl⟩ := hgranted
    cases state <;> simp only [Credit.isGranted, Bool.false_eq_true] at hg
    exact ⟨_, rfl, fun e => by simp [isInAisleDir, Credit.isInAisle, Bool.beq_eq_decide_eq, eq_comm]⟩
  have hsize := h.size
  rw [heq, hclaim]
  rw [hcs] at hsize
  simp only [List.length_append, List.length_cons] at hsize
  refine ⟨by simp only [List.length_append, Option.toList_some, List.length_cons, List.length_nil]; omega,
    fun e => by have := h.bodies e; split_ifs <;> omega, fun e => ?_, nofun, nofun⟩
  have hcount := h.inAisle e
  have hl := List.countP_le_length (p := isInAisleDir e) (l := l)
  have hr := List.countP_le_length (p := isInAisleDir e) (l := r)
  rw [hcs] at hcount
  simp only [List.countP_append, List.countP_cons, Option.toList_some, List.countP_nil, hin,
    not_isInAisleDir_of_granted hgranted.1] at hcount ⊢
  by_cases he : e = d
  · subst he; simp only [decide_true, if_true] at hcount ⊢; omega
  · simp only [he, decide_false, if_false] at hcount ⊢; simpa using hcount

/-- The picked IN_AISLE entry and its body leave, or it stays as an entry that is not IN_AISLE (R115, R116). -/
theorem QueueOk.lose {l r : List Credit} {o : Option Credit} (h : QueueOk (l ++ c :: r) n em lk)
    (hc : isInAisleDir d c = true) (ho : ∀ c' ∈ o.toList, (∀ e, isInAisleDir e c' = false) ∧ lk = false) :
    QueueOk (l ++ (o.toList ++ r)) (fun e => if e = d then n d - 1 else n e) em lk := by
  obtain ⟨hin, hdir⟩ := isInAisleDir_iff.1 hc
  have hem : em = false := h.calm_of_inAisle (by simp) hin
  have holen : o.toList.length ≤ 1 := by cases o <;> simp
  have hsize := h.size
  simp only [List.length_append, List.length_cons] at hsize
  refine ⟨by simp only [List.length_append]; omega, fun e => ?_, fun e => ?_, by simp [hem], fun hl => ?_⟩
  · have := h.bodies e
    have := h.bodies d
    split_ifs <;> omega
  · have hcount := h.inAisle e
    have hzero : o.toList.countP (isInAisleDir e) = 0 :=
      List.countP_eq_zero.2 fun c' hc' => by simp [(ho c' hc').1 e]
    simp only [List.countP_append, List.countP_cons, hzero] at hcount ⊢
    by_cases he : e = d
    · subst he; simp only [hc, if_true] at hcount ⊢; omega
    · simp only [he, if_false]; omega
  · have hlocked := h.locked hl
    intro x hx
    obtain hx | hx := List.mem_append.1 hx
    · exact hlocked x (List.mem_append_left _ hx)
    · obtain hx | hx := List.mem_append.1 hx
      · have := (ho x hx).2; simp [this] at hl
      · exact hlocked x (List.mem_append_right _ (List.mem_cons_of_mem c hx))

/-- A body of a direction without an IN_AISLE entry leaves the aisle (R115). -/
theorem QueueOk.loseBody (h : QueueOk cs n em lk) (hnone : ∀ c ∈ cs, isInAisleDir d c = false) :
    QueueOk cs (fun e => if e = d then n d - 1 else n e) em lk := by
  refine ⟨h.size, fun e => ?_, fun e => ?_, h.emergency, h.locked⟩
  · have := h.bodies e
    have := h.bodies d
    split_ifs <;> omega
  · split_ifs with he
    · rw [List.countP_eq_zero.2 fun c hc => by simp [he, hnone c hc]]
      exact Nat.zero_le _
    · exact h.inAisle e

end Queue

/-! ## What settling keeps -/

section Settled
variable {env : Env} {was : Bool} {a b : Aisle}

theorem windowBlind_lockedEntry : WindowBlind LockedEntry :=
  windowBlind_of_state fun _ _ _ _ _ _ _ => by simp [LockedEntry, Credit.isInAisle]

theorem windowBlind_isBarred : WindowBlind (fun c => c.state = .reserved true) :=
  windowBlind_of_state fun _ _ _ _ _ _ _ => by simp

/-- What holds of every entry and does not see the hold window holds of every entry after settling. -/
theorem settle_forall {q : Credit → Prop} (hq : WindowBlind q) (h : ∀ c ∈ a.credits, q c) :
    ∀ c ∈ (settle env was a).credits, q c := by
  intro c hc
  have : q c ∈ (settle env was a).credits.map q := List.mem_map_of_mem hc
  rw [settle_map env was a hq] at this
  obtain ⟨x, hx, he⟩ := List.mem_map.1 this
  exact he ▸ h x hx

theorem CreditsOk.settle (h : CreditsOk a) : CreditsOk (settle env was a) := by
  obtain ⟨hq, hleaf⟩ := (creditsOk_iff a).1 h
  refine (creditsOk_iff _).2 ⟨⟨?_, ?_, ?_, ?_, ?_⟩, ?_⟩
  · rw [settle_credits_length]; exact hq.size
  · rw [bodies_congr (settle_bodiesAB env was a) (settle_bodiesBA env was a)]; exact hq.bodies
  · rw [bodies_congr (settle_bodiesAB env was a) (settle_bodiesBA env was a)]
    intro d
    rw [settle_countP env was a (windowBlind_isInAisleDir d)]
    exact hq.inAisle d
  · rw [settle_emergencyActive]
    exact fun he => settle_forall windowBlind_isBarred (hq.emergency he)
  · rw [settle_lockedOut]
    exact fun hl => settle_forall windowBlind_lockedEntry (hq.locked hl)
  · rw [settle_lockedOut]
    exact fun hl => settle_leaf_released env was a (hleaf hl)

/-- The condition bears on the credits, the counters, the emergency state, LOCKED_OUT and the drive there alone. -/
theorem CreditsOk.of_fields (h : CreditsOk a) (hcredits : b.credits = a.credits) (hab : b.bodiesAB = a.bodiesAB)
    (hba : b.bodiesBA = a.bodiesBA) (hem : emergencyActive b = emergencyActive a) (hlock : b.lockedOut = a.lockedOut)
    (hleaf : a.leaf = .released → b.leaf = .released) : CreditsOk b := by
  rw [creditsOk_iff] at h ⊢
  rw [hcredits, bodies_congr hab hba, hem, hlock]
  exact ⟨h.1, hleaf ∘ h.2⟩

/-- Outside LOCKED_OUT the drive is free to move. -/
theorem CreditsOk.of_drive (h : CreditsOk a) (hcredits : b.credits = a.credits) (hab : b.bodiesAB = a.bodiesAB)
    (hba : b.bodiesBA = a.bodiesBA) (hem : emergencyActive b = emergencyActive a) (hlock : b.lockedOut = a.lockedOut)
    (hfree : a.lockedOut = false) : CreditsOk b := by
  rw [creditsOk_iff] at h ⊢
  rw [hcredits, bodies_congr hab hba, hem, hlock]
  exact ⟨h.1, fun hl => by rw [hfree] at hl; cases hl⟩

/-- The queue and the counters change, the states and the drive stay. -/
theorem CreditsOk.of_queue {n : Dir → Nat} (h : CreditsOk a) (hn : bodies b = n)
    (hq : QueueOk b.credits n (emergencyActive a) a.lockedOut)
    (hem : emergencyActive b = emergencyActive a) (hlock : b.lockedOut = a.lockedOut) (hleaf : b.leaf = a.leaf) :
    CreditsOk b := by
  rw [creditsOk_iff] at h ⊢
  rw [hem, hlock, hleaf, hn]
  exact ⟨hq, h.2⟩

theorem CreditsOk.queue (h : CreditsOk a) : QueueOk a.credits (bodies a) (emergencyActive a) a.lockedOut :=
  ((creditsOk_iff a).1 h).1

theorem CreditsOk.free_of_moving (h : CreditsOk a) (hleaf : a.leaf ≠ .released) : a.lockedOut = false := by
  by_contra hl
  exact hleaf (((creditsOk_iff a).1 h).2 (Bool.not_eq_false _ ▸ hl))

end Settled

/-! ## The events of the aisle -/

section Events
variable {env : Env} {a b : Aisle} {r : AisleRun} {d : Dir}

theorem raiseBodies_ok (d : Dir) (h : CreditsOk a) : CreditsOk (raiseBodies d a) := by
  refine h.of_queue rfl ?_ (by simp [emergencyActive]) (by simp) (by simp)
  rw [raiseBodies_credits]
  refine h.queue.sublist (List.Sublist.refl _) (fun e => ?_) (fun e => ?_)
  · have := h.queue.bodies e
    rw [bodies_raise]
    split_ifs with he
    · subst he; omega
    · exact le_rfl
  · have := h.queue.bodies e
    rw [bodies_raise]
    split_ifs <;> omega

theorem crossIn_ok (env : Env) (d : Dir) (r : AisleRun) (h : CreditsOk r.ac) : CreditsOk (crossIn env d r).ac := by
  refine CreditsOk.settle ?_
  have hraise := raiseBodies_ok d h
  dsimp only
  split_ifs with hany hem
  · refine h.of_queue (funext fun e => bodies_raise d e r.ac) ?_ (by simp [AisleRun.upd, emergencyActive])
      (by simp [AisleRun.upd]) (by simp [AisleRun.upd])
    simpa only [AisleRun.upd, raiseBodies_credits] using h.queue.claim env.now d hany
  · exact hraise
  · exact hraise.of_fields rfl rfl rfl rfl rfl id

theorem depart_ok (env : Env) (h : CreditsOk a) : CreditsOk (depart env d a) := by
  unfold depart
  have hbodies : bodies (lowerBodies d a) = fun e => if e = d then bodies a d - 1 else bodies a e :=
    funext fun e => bodies_lower d e a
  split_ifs with hany
  · refine h.of_queue ((bodies_congr (headway_bodiesAB ..) (headway_bodiesBA ..)).trans hbodies) ?_
      (by simp [emergencyActive]) (by simp) (by simp)
    simp only [headway_credits, lowerBodies_credits]
    obtain ⟨hnone, -⟩ | ⟨l, c, rest, hcs, hc, -, heq⟩ := changeFirst_eq (isInAisleDir d) (fun _ => none) a.credits
    · obtain ⟨c, hc, hg⟩ := List.any_eq_true.1 hany
      simp [hnone c hc] at hg
    · have hq := h.queue
      rw [hcs] at hq
      rw [heq]
      exact hq.lose hc (fun c' hc' => by cases hc')
  · refine h.of_queue hbodies ?_ (by simp [emergencyActive]) (by simp) (by simp)
    rw [lowerBodies_credits]
    exact h.queue.loseBody fun c hc => by simpa using fun hc' => hany (List.any_eq_true.2 ⟨c, hc, hc'⟩)

theorem newestInAisle_eq_none (cs : List Credit) : newestInAisle d cs = none ↔ ∀ c ∈ cs, isInAisleDir d c = false := by
  simp [newestInAisle]

theorem backOut_ok (env : Env) (h : CreditsOk r.ac) : CreditsOk (backOut env d r).ac := by
  have hbodies : bodies (lowerBodies d r.ac) = fun e => if e = d then bodies r.ac d - 1 else bodies r.ac e :=
    funext fun e => bodies_lower d e r.ac
  unfold backOut
  split
  · rename_i hnone
    refine h.of_queue hbodies ?_ (by simp [AisleRun.upd, emergencyActive]) (by simp [AisleRun.upd]) (by simp [AisleRun.upd])
    simp only [AisleRun.upd, lowerBodies_credits]
    exact h.queue.loseBody ((newestInAisle_eq_none _).1 hnone)
  · rename_i c hc
    have hq := h.queue
    have hpick (f : Credit → Option Credit) : ∃ l c rest, r.ac.credits = l ++ c :: rest ∧ isInAisleDir d c = true
        ∧ changeLast (isInAisleDir d) f r.ac.credits = l ++ ((f c).toList ++ rest) := by
      obtain ⟨hnone, -⟩ | ⟨l, c, rest, hcs, hc, -, heq⟩ := changeLast_eq (isInAisleDir d) f r.ac.credits
      · rw [(newestInAisle_eq_none _).2 hnone] at hc; cases hc
      · exact ⟨l, c, rest, hcs, hc, heq⟩
    split_ifs with hlock
    · refine h.of_queue hbodies ?_ (by simp [AisleRun.upd, emergencyActive]) (by simp [AisleRun.upd]) (by simp [AisleRun.upd])
      simp only [AisleRun.upd, lowerBodies_credits]
      obtain ⟨l, c, rest, hcs, hc, heq⟩ := hpick (fun _ => none)
      rw [heq]
      rw [hcs] at hq
      exact hq.lose hc (fun c' hc' => by cases hc')
    · refine h.of_queue hbodies ?_ (by simp [AisleRun.upd, emergencyActive]) (by simp [AisleRun.upd]) (by simp [AisleRun.upd])
      simp only [AisleRun.upd, lowerBodies_credits]
      obtain ⟨l, c, rest, hcs, hc, heq⟩ := hpick returnCredit
      rw [heq]
      rw [hcs] at hq
      refine hq.lose hc fun c' hc' => ⟨fun e => ?_, Bool.eq_false_iff.2 hlock⟩
      obtain ⟨state, dir, n, p⟩ := c
      obtain ⟨hin, -⟩ := isInAisleDir_iff.1 hc
      cases state <;> simp only [Credit.isInAisle, Bool.false_eq_true] at hin
      obtain rfl := List.mem_singleton.1 hc'
      exact not_isInAisleDir_of_granted rfl e

theorem crossOut_ok (env : Env) (h : CreditsOk r.ac) : CreditsOk (crossOut env d r).ac := by
  unfold crossOut
  split_ifs
  · exact (depart_ok env h).settle
  · exact (backOut_ok env h).settle
  · exact h

theorem detectorEvent_ok (env : Env) (e : Port) (h : CreditsOk r.ac) : CreditsOk (detectorEvent env e r).ac := by
  have hset (n : Detector) : CreditsOk (setDetector r.ac e n) :=
    h.of_fields (by simp) (by simp) (by simp) (by simp [emergencyActive]) (by simp) (by simp)
  unfold detectorEvent
  dsimp only
  split
  · exact hset _
  · exact crossIn_ok env _ _ (hset _)
  · exact crossOut_ok env (hset _)

/-! ## Emergency and lockout (R151, R156, R157) -/

theorem barCredit_of_reserved {c : Credit} (h : c.isReserved = true) : (barCredit c).state = .reserved true := by
  obtain ⟨state, _, _, _⟩ := c
  cases state <;> simp_all [Credit.isReserved, barCredit]

theorem barCredit_isGranted (c : Credit) : (barCredit c).isGranted = c.isGranted := by
  obtain ⟨state, _, _, _⟩ := c
  cases state <;> rfl

theorem barCredit_isInAisle (c : Credit) : (barCredit c).isInAisle = c.isInAisle := by
  obtain ⟨state, _, _, _⟩ := c
  cases state <;> rfl

theorem barCredit_isInAisleDir (d : Dir) (c : Credit) : isInAisleDir d (barCredit c) = isInAisleDir d c := by
  obtain ⟨state, _, _, _⟩ := c
  cases state <;> rfl

/-- Barred and without its GRANTED entries a queue holds what LOCKED_OUT allows. -/
theorem lockedEntry_of_withdrawn {cs : List Credit} :
    ∀ c ∈ (cs.map barCredit).filter (fun c => !c.isGranted), LockedEntry c := by
  intro c hc
  obtain ⟨hmem, hg⟩ := List.mem_filter.1 hc
  obtain ⟨⟨state, _, _, _⟩, -, rfl⟩ := List.mem_map.1 hmem
  cases state <;> simp_all [barCredit, LockedEntry, Credit.isGranted, Credit.isInAisle]

theorem withdrawn_countP_le {cs : List Credit} (d : Dir) :
    ((cs.map barCredit).filter (fun c => !c.isGranted)).countP (isInAisleDir d) ≤ cs.countP (isInAisleDir d) := by
  refine (List.filter_sublist.countP_le).trans ?_
  rw [List.countP_map]
  exact le_of_eq (List.countP_congr fun c _ => by simp [barCredit_isInAisleDir])

theorem withdrawn_length_le (cs : List Credit) : ((cs.map barCredit).filter (fun c => !c.isGranted)).length ≤ cs.length :=
  (List.length_filter_le _ _).trans (List.length_map _).le

theorem emergencyBegin_ok {before : Aisle} (h : CreditsOk before) (hcredits : r.ac.credits = before.credits)
    (hbodies : bodies r.ac = bodies before) (hlock : r.ac.lockedOut = before.lockedOut) (hleaf : r.ac.leaf = before.leaf)
    (env : Env) : CreditsOk (emergencyBegin env before r).ac := by
  refine CreditsOk.settle ((creditsOk_iff _).2 ⟨?_, ?_⟩)
  · have hq := h.queue
    simp only [withdrawGranted, AisleRun.upd]
    refine ⟨?_, ?_, fun d => ?_, fun _ c hc => ?_, fun _ c hc => ?_⟩
    · exact (List.length_filter_le _ _).trans ((withdrawn_length_le _).trans (hcredits ▸ hq.size))
    · exact (show bodies _ = bodies before from hbodies) ▸ hq.bodies
    · refine le_trans ?_ ((show bodies _ = bodies before from hbodies) ▸ hq.inAisle d)
      exact (List.filter_sublist.countP_le).trans (hcredits ▸ withdrawn_countP_le d)
    · obtain ⟨hmem, hin⟩ := List.mem_filter.1 hc
      obtain hres | hin' := lockedEntry_of_withdrawn c hmem
      · exact hres
      · simp [hin'] at hin
    · exact lockedEntry_of_withdrawn c (List.mem_filter.1 hc).1
  · simp only [withdrawGranted, AisleRun.upd]
    rw [hlock, hleaf]
    exact ((creditsOk_iff before).1 h).2

/-- In the emergency state no entry is IN_AISLE, so the counters may be cleared at its end (R156, R157). -/
theorem emergencyEnd_ok {before : Aisle} (h : CreditsOk before) (hcredits : r.ac.credits = before.credits)
    (hlock : r.ac.lockedOut = before.lockedOut) (hleaf : r.ac.leaf = before.leaf) (hwas : emergencyActive before = true)
    (hnow : emergencyActive r.ac = false) (env : Env) : CreditsOk (emergencyEnd env before r).ac := by
  refine CreditsOk.settle ((creditsOk_iff _).2 ⟨?_, ?_⟩)
  · have hq := h.queue
    simp only [AisleRun.upd, clearHistory, hcredits, hlock]
    refine ⟨hq.size, fun d => by cases d <;> exact Nat.zero_le 7, fun d => ?_, fun he => ?_, hq.locked⟩
    · rw [List.countP_eq_zero.2 fun c hc => by simp [not_isInAisleDir_of_reserved (hq.emergency hwas c hc)]]
      exact Nat.zero_le _
    · exact absurd he (by simpa [emergencyActive] using hnow)
  · simp only [AisleRun.upd, clearHistory, hlock, hleaf]
    exact ((creditsOk_iff before).1 h).2

theorem emergencyEdge_ok {before : Aisle} (h : CreditsOk before) (hcredits : r.ac.credits = before.credits)
    (hab : r.ac.bodiesAB = before.bodiesAB) (hba : r.ac.bodiesBA = before.bodiesBA)
    (hlock : r.ac.lockedOut = before.lockedOut) (hleaf : r.ac.leaf = before.leaf) (env : Env) :
    CreditsOk (emergencyEdge env before r).ac := by
  unfold emergencyEdge
  split_ifs with hbegin hend
  · exact emergencyBegin_ok h hcredits (bodies_congr hab hba) hlock hleaf env
  · simp only [Bool.and_eq_true, Bool.not_eq_true'] at hend
    exact emergencyEnd_ok h hcredits hlock hleaf hend.1 hend.2 env
  · have hem : emergencyActive r.ac = emergencyActive before := by
      cases h1 : emergencyActive before <;> cases h2 : emergencyActive r.ac <;> simp_all
    exact h.of_fields hcredits hab hba hem hlock (fun hl => hleaf.trans hl)

theorem lockout_ok (env : Env) (code : HaltCode) (h : CreditsOk r.ac) : CreditsOk (lockout env code r).ac := by
  refine (creditsOk_iff _).2 ⟨⟨?_, h.queue.bodies, fun d => ?_, fun he c hc => ?_, fun _ => lockedEntry_of_withdrawn⟩,
    fun _ => rfl⟩
  · exact (withdrawn_length_le _).trans h.queue.size
  · exact (withdrawn_countP_le d).trans (h.queue.inAisle d)
  · obtain ⟨hmem, -⟩ := List.mem_filter.1 hc
    obtain ⟨x, hx, rfl⟩ := List.mem_map.1 hmem
    exact barCredit_of_reserved (by simp [Credit.isReserved, h.queue.emergency he x hx])

theorem leafTarget_released {l : Leaf} {t : Target} (h : leafTarget l = some t) : l ≠ .released := by
  rintro rfl
  cases h

theorem startMotion_ok {b : Aisle} (env : Env) (tgt : Target) (full : Bool) (h : CreditsOk b)
    (hfree : b.lockedOut = false) : CreditsOk (startMotion env tgt full b) :=
  h.of_drive (by simp) (by simp) (by simp) (by simp [emergencyActive]) (by simp) hfree

theorem leafFault_ok (env : Env) (conflict : Bool) (h : CreditsOk r.ac) : CreditsOk (leafFault env conflict r).ac := by
  unfold leafFault
  split
  · exact h
  · rename_i tgt htarget
    split_ifs
    · exact lockout_ok env _ h
    · exact startMotion_ok (b := { r.ac with faultInProgress := true }) env tgt false
        (h.of_fields rfl rfl rfl rfl rfl id) (h.free_of_moving (leafTarget_released htarget))

theorem completeMotion_ok (env : Env) (tgt : Target) (h : CreditsOk a) (hfree : a.lockedOut = false) :
    CreditsOk (completeMotion env tgt a) :=
  h.of_drive (by simp) (by simp) (by simp) (by simp [emergencyActive]) (by simp) hfree

theorem stopChange_ok (env : Env) (which : Target) (level : Bool) (h : CreditsOk r.ac) :
    CreditsOk (stopChange env which level r).ac := by
  obtain heq | ⟨-, heq⟩ | ⟨tgt, hleaf, heq⟩ | ⟨tgt, hleaf, heq⟩ := stopChange_cases env which level r <;> rw [heq]
  · exact h
  · exact leafFault_ok env true h
  · exact completeMotion_ok env tgt h (h.free_of_moving (by rw [hleaf]; cases tgt <;> nofun))
  · exact startMotion_ok env tgt false h (h.free_of_moving (by rw [hleaf]; cases tgt <;> nofun))

theorem obstruct_ok (env : Env) (h : CreditsOk a) (hfree : a.lockedOut = false) : CreditsOk (obstruct env a) :=
  h.of_drive (by simp) (by simp) (by simp) (by simp [emergencyActive]) (by simp) hfree

theorem zoneWatched_leaf (h : zoneWatched env a = true) : a.leaf = .closing :=
  beq_iff_eq.1 (Bool.and_eq_true_iff.1 h).1

/-- The zone-clear timer under the obstruction hold at a change of the zone (R149). -/
def zoneTimed (env : Env) (occupied : Bool) (a : Aisle) : Aisle :=
  if a.obstructHold then
    { a with zoneClearEnd := if occupied then none else if zoneClear a then some (env.now + 1000) else a.zoneClearEnd }
  else a

/-- A change of the zone times the hold, and reverses a watched close that it obstructs (R148, R149). -/
theorem zoneChange_eq (env : Env) (occupied : Bool) (a : Aisle) : zoneChange env occupied a
    = if occupied && zoneWatched env (zoneTimed env occupied a) then obstruct env (zoneTimed env occupied a)
      else zoneTimed env occupied a := rfl

theorem zoneChange_ok (env : Env) (level : Bool) (h : CreditsOk a) : CreditsOk (zoneChange env level a) := by
  have htimed : CreditsOk (zoneTimed env level a) := by
    unfold zoneTimed
    split_ifs <;> exact h.of_fields rfl rfl rfl rfl rfl id
  rw [zoneChange_eq]
  split_ifs with hwatch
  · refine obstruct_ok env htimed (htimed.free_of_moving ?_)
    rw [zoneWatched_leaf (Bool.and_eq_true_iff.1 hwatch).2]
    nofun
  · exact htimed

theorem handFilteredChange_ok {before : Aisle} (i : Input) (level : Bool) (hbefore : CreditsOk before)
    (hcredits : r.ac.credits = before.credits) (hab : r.ac.bodiesAB = before.bodiesAB)
    (hba : r.ac.bodiesBA = before.bodiesBA) (hlock : r.ac.lockedOut = before.lockedOut) (hleaf : r.ac.leaf = before.leaf)
    (h : i ≠ .emerg → CreditsOk r.ac) (env : Env) : CreditsOk (handFilteredChange env before i level r).ac := by
  cases i with
  | aOuter | aInner => exact detectorEvent_ok env .a (h nofun)
  | bInner | bOuter => exact detectorEvent_ok env .b (h nofun)
  | l1 | l2 => exact (zoneChange_ok env level (h nofun)).settle
  | openStop => exact (stopChange_ok env .toOpen level (h nofun)).settle
  | closedStop => exact (stopChange_ok env .toClosed level (h nofun)).settle
  | emerg => exact emergencyEdge_ok hbefore hcredits hab hba hlock hleaf env

/-- Another input's line does not bear on the emergency state (R155). -/
theorem put_emerg {x : Inputs} {i : Input} {l : Line} (h : i ≠ .emerg) : (x.put i l).emerg = x.emerg := by
  cases i
  case emerg => exact absurd rfl h
  all_goals rfl

theorem endFilter_ok (env : Env) (i : Input) (h : CreditsOk r.ac) : CreditsOk (endFilter env i r).ac := by
  have hput (l : Line) (hi : i = .emerg → l.filtered = r.ac.inputs.emerg.filtered) :
      CreditsOk { r.ac with inputs := r.ac.inputs.put i l } := by
    refine h.of_fields rfl rfl rfl (congrArg (· || r.ac.stationEmergency) ?_) rfl id
    by_cases he : i = .emerg
    · rw [← hi he, he]
      rfl
    · exact congrArg Line.filtered (put_emerg he)
  unfold endFilter
  dsimp only
  split_ifs with hsame
  · exact hput _ fun hi => hsame.trans (hi ▸ rfl)
  · refine handFilteredChange_ok (r := r.upd _) i _ h rfl rfl rfl rfl rfl ?_ env
    exact fun hi => hput _ fun he => absurd he hi

theorem firstDrive_ok (env : Env) (h : CreditsOk a) : CreditsOk (firstDrive env a) := by
  unfold firstDrive
  split_ifs with hlock hem
  · exact h
  · exact startMotion_ok env .toOpen false h (Bool.eq_false_iff.2 hlock)
  · exact startMotion_ok env .toClosed false h (Bool.eq_false_iff.2 hlock)

theorem settleInputs_ok (env : Env) (h : CreditsOk r.ac) : CreditsOk (settleInputs env r).ac := by
  have hedge : CreditsOk (emergencyEdge env r.ac (r.upd takeLevels)).ac :=
    emergencyEdge_ok (r := r.upd takeLevels) h rfl rfl rfl rfl rfl env
  rw [settleInputs_eq env r rfl]
  exact (firstDrive_ok env (detectorEvent_ok env .b (detectorEvent_ok env .a hedge))).settle

/-! ## The timers and the reservations (R125 to R127, R138, R148, R149, R154) -/

theorem removeFirst_ok (h : CreditsOk a) (p : Credit → Bool) :
    CreditsOk { a with credits := changeFirst p (fun _ => none) a.credits } :=
  h.of_queue rfl (h.queue.subset (changeFirst_none_sublist p a.credits)) rfl rfl rfl

theorem expireHold_ok (env : Env) (h : CreditsOk r.ac) : CreditsOk (expireHold env r).ac := by
  unfold expireHold
  split
  · exact h
  · exact (removeFirst_ok h _).settle

theorem endBlank_ok (env : Env) (m : Motion) (h : CreditsOk a) : CreditsOk (endBlank env m a) := by
  have hmark : CreditsOk { a with motion := some { m with blankTaken := true } } := h.of_fields rfl rfl rfl rfl rfl id
  refine CreditsOk.settle ?_
  split_ifs with hobstructed
  · refine obstruct_ok env hmark (h.free_of_moving ?_)
    rw [of_decide_eq_true (Bool.and_eq_true_iff.1 hobstructed).1]
    nofun
  · exact hmark

/-- A new entry is RESERVED, barred in emergency and in LOCKED_OUT, and the fourth at most (R125, R128). -/
theorem reserveCredit_ok {n : Nat} {p : Port} (h : CreditsOk a) (hr : reserveCredit env n d p a = some b) :
    CreditsOk b := by
  unfold reserveCredit at hr
  split_ifs at hr with hroom
  cases hr
  rw [Config.creditCap] at hroom
  have hq := h.queue
  refine CreditsOk.settle (h.of_queue (n := bodies a) rfl
    ⟨?_, hq.bodies, fun e => ?_, fun he => ?_, fun hl => ?_⟩ rfl rfl rfl)
  · simp only [List.length_append, List.length_singleton]
    omega
  · rw [List.countP_append, List.countP_singleton, not_isInAisleDir_of_reserved rfl]
    simpa using hq.inAisle e
  · exact List.forall_mem_append.2 ⟨hq.emergency he, List.forall_mem_singleton.2 (by simp [he])⟩
  · exact List.forall_mem_append.2 ⟨hq.locked hl, List.forall_mem_singleton.2 (.inl (by simp [hl]))⟩

theorem restoreAisle_ok (env : Env) (h : CreditsOk a) : CreditsOk (restoreAisle env a) := by
  have hfreed : CreditsOk { a with lockedOut := false, faultInProgress := false, halt := { a.halt with valid := false },
                                   reversals := 0, obstructHold := false, zoneClearEnd := none } := by
    have hq := h.queue
    exact (creditsOk_iff _).2 ⟨⟨hq.size, hq.bodies, hq.inAisle, hq.emergency, nofun⟩, nofun⟩
  refine CreditsOk.settle ?_
  split_ifs
  · exact hfreed
  · exact startMotion_ok env .toClosed false hfreed rfl

theorem aisleMove_creditsOk (h : CreditsOk a) (m : AisleMove env a b) : CreditsOk b := by
  cases m with
  | raw i level =>
    unfold rawChange
    dsimp only
    split
    · exact h
    · refine h.of_fields rfl rfl rfl ?_ rfl id
      cases i <;> rfl
  | filter i => exact endFilter_ok env i (r := ⟨a, []⟩) h
  | settled => exact settleInputs_ok env (r := ⟨a, []⟩) h
  | travel => exact (leafFault_ok env false (r := ⟨a, []⟩) h).settle
  | blank m => exact endBlank_ok env m h
  | zoneClear => exact CreditsOk.settle (h.of_fields rfl rfl rfl rfl rfl id)
  | hold => exact expireHold_ok env (r := ⟨a, []⟩) h
  | reserve n d p _ _ hr => exact reserveCredit_ok h hr
  | release p => exact (removeFirst_ok h _).settle
  | restore => exact restoreAisle_ok env h
  | emergency v => exact emergencyEdge_ok (r := AisleRun.upd ⟨a, []⟩ _) h rfl rfl rfl rfl rfl env
  | _ => exact h.of_fields rfl rfl rfl rfl rfl id

/-- At a completion a barred entry goes, and an open one is granted, which neither state forbids (R127, R128). -/
theorem grantCredit_ok (env : Env) (p : Port) (n : Nat) (h : CreditsOk a) : CreditsOk (grantCredit env p n a) := by
  have hq := h.queue
  refine CreditsOk.settle (h.of_queue (n := bodies a) rfl ?_ rfl rfl rfl)
  obtain ⟨-, heq⟩ | ⟨l, c, r, hcs, hc, -, heq⟩ := changeFirst_eq (isReservedPort p) (grantEntry env.now n) a.credits
  · rw [heq]; exact hq
  obtain ⟨state, dir, serial, port⟩ := c
  cases state with
  | granted | inAisle => simp [isReservedPort, Credit.isReserved] at hc
  | reserved barred =>
    have hrest : QueueOk (l ++ r) (bodies a) (emergencyActive a) a.lockedOut :=
      hq.subset (hcs ▸ List.Sublist.append_left (List.sublist_cons_self _ r) l)
    cases barred with
    | true => rw [heq]; exact hrest
    | false =>
      have hmem : (⟨.reserved false, dir, serial, port⟩ : Credit) ∈ a.credits := by simp [hcs]
      have hem : emergencyActive a = false := by
        by_contra he
        simpa using hq.emergency (Bool.not_eq_false _ ▸ he) _ hmem
      have hlock : a.lockedOut = false := by
        by_contra hl
        simpa [LockedEntry, Credit.isInAisle] using hq.locked (Bool.not_eq_false _ ▸ hl) _ hmem
      rw [heq, hem, hlock]
      refine ⟨?_, hq.bodies, fun d => ?_, nofun, nofun⟩
      · have := hq.size
        rw [hcs] at this
        simpa [grantEntry] using this
      · have hnot : isInAisleDir d ⟨.granted n env.now none, dir, serial, port⟩ = false :=
          not_isInAisleDir_of_granted rfl d
        have := hrest.inAisle d
        rw [List.countP_append] at this
        simpa [List.countP_append, grantEntry, List.countP_cons, hnot] using this

theorem resetAisle_creditsOk (env : Env) (keep : Bool) (a : Aisle) : CreditsOk (resetAisle env keep a) := by
  refine (creditsOk_iff _).2 ⟨⟨Nat.zero_le 4, fun d => by cases d <;> exact Nat.zero_le 7, fun d => ?_, ?_, ?_⟩, fun _ => rfl⟩
  · cases d <;> exact Nat.zero_le _
  · exact fun _ c hc => by cases hc
  · exact fun _ c hc => by cases hc

end Events

/-- Settles O5: every move of the aisle, a grant and both resets keep the queue's conditions. -/
theorem stepKeepsCredits : Obligations.StepKeepsCredits :=
  fun _ _ hok h => step_keeps_ac (fun _ _ _ => aisleMove_creditsOk) (fun env keep a _ => resetAisle_creditsOk env keep a)
    (fun env p n _ => grantCredit_ok env p n) h hok

end Sys2Proof.Machine
end

