-- ==== Sys2Proof/Proofs/DriveAndTimers.lean ====
section
/-! PROOFS. The leaf drive, the hold window, the idle timer and LOITER under every event of the aisle (R122, R133, R135 to
R137, R142, R144, R145, R149): the motion record follows the drive, and settling makes the rest true of whatever it settles. -/

namespace Sys2Proof.Machine

/-! ## The motion record and the reversal count (R142, R149) -/

/-- A motion record exactly while the leaves move, and at most 3 reversals. -/
def MotionOk (a : Aisle) : Prop :=
  (a.motion.isSome = true ↔ a.leaf = .opening ∨ a.leaf = .closing) ∧ a.reversals ≤ 3

section Motion
variable {env : Env} {a b : Aisle} {r : AisleRun} {d : Dir}

theorem MotionOk.of_fields (h : MotionOk a) (hmotion : b.motion = a.motion) (hleaf : b.leaf = a.leaf)
    (hrev : b.reversals = a.reversals) : MotionOk b := by
  rwa [MotionOk, hmotion, hleaf, hrev]

theorem arrive_motionOk (tgt : Target) (hrev : a.reversals ≤ 3) : MotionOk (arrive tgt a) := by
  cases tgt
  · exact ⟨by simp [arrive], hrev⟩
  · exact ⟨by simp [arrive], Nat.zero_le 3⟩

theorem startMotion_motionOk (env : Env) (tgt : Target) (full : Bool) (hrev : a.reversals ≤ 3) :
    MotionOk (startMotion env tgt full a) := by
  unfold startMotion
  dsimp only
  split_ifs
  · exact arrive_motionOk tgt hrev
  · exact ⟨by cases tgt <;> simp [movingLeaf], hrev⟩

theorem startMotion_reversals_le (env : Env) (tgt : Target) (full : Bool) (a : Aisle) :
    (startMotion env tgt full a).reversals ≤ a.reversals := by
  unfold startMotion
  dsimp only
  split_ifs
  · cases tgt
    · exact le_rfl
    · exact Nat.zero_le _
  · exact le_rfl

theorem completeMotion_motionOk (env : Env) (tgt : Target) (h : MotionOk a) : MotionOk (completeMotion env tgt a) := by
  refine arrive_motionOk tgt ?_
  rw [captureTravel_reversals]
  exact h.2

theorem driveAct_motionOk (env : Env) (h : MotionOk a) : MotionOk (driveAct env a) := by
  unfold driveAct
  split
  · split_ifs
    · exact startMotion_motionOk env _ _ h.2
    · exact h
  · split_ifs
    · exact startMotion_motionOk env _ _ h.2
    · exact h
  · split_ifs
    · exact startMotion_motionOk env _ _ h.2
    · exact h
  · exact h
  · exact h

theorem MotionOk.settle (h : MotionOk a) (env : Env) (was : Bool) : MotionOk (settle env was a) := by
  have hdrive : MotionOk (driveAct env (historyUpdate a)) :=
    driveAct_motionOk env (h.of_fields (by simp) (by simp) (by simp))
  exact hdrive.of_fields (by simp [Machine.settle]) (by simp [Machine.settle]) (by simp [Machine.settle])

theorem MotionOk.settle_of_fields (h : MotionOk a) (env : Env) (was : Bool) (b : Aisle) (hmotion : b.motion = a.motion)
    (hleaf : b.leaf = a.leaf) (hrev : b.reversals = a.reversals) : MotionOk (Machine.settle env was b) :=
  (h.of_fields hmotion hleaf hrev).settle env was

theorem setHold_motionOk (h : MotionOk a) : MotionOk (setHold env a) := by
  unfold setHold
  split_ifs
  · exact h
  · exact h.of_fields rfl rfl rfl
  · exact h.of_fields rfl rfl rfl

theorem obstruct_motionOk (env : Env) (a : Aisle) : MotionOk (obstruct env a) := by
  have hstart := startMotion_motionOk env .toOpen false (a := { a with reversals := min 3 (a.reversals + 1) })
    (Nat.min_le_left _ _)
  unfold obstruct
  dsimp only
  split_ifs
  · exact setHold_motionOk hstart
  · exact hstart

theorem crossIn_motionOk (env : Env) (d : Dir) (h : MotionOk r.ac) : MotionOk (crossIn env d r).ac := by
  have hraise : MotionOk (raiseBodies d r.ac) := h.of_fields (by simp) (by simp) (by simp)
  refine MotionOk.settle ?_ env _
  split_ifs <;> exact hraise.of_fields rfl rfl rfl

theorem backOut_motionOk (env : Env) (d : Dir) (h : MotionOk r.ac) : MotionOk (backOut env d r).ac := by
  have hlower : MotionOk (lowerBodies d r.ac) := h.of_fields (by simp) (by simp) (by simp)
  unfold backOut
  split
  · exact hlower
  · split_ifs <;> exact hlower.of_fields rfl rfl rfl

theorem depart_motionOk (env : Env) (d : Dir) (h : MotionOk a) : MotionOk (depart env d a) := by
  have hlower : MotionOk (lowerBodies d a) := h.of_fields (by simp) (by simp) (by simp)
  unfold depart
  split_ifs
  · exact hlower.of_fields (by simp) (by simp) (by simp)
  · exact hlower

theorem crossOut_motionOk (env : Env) (d : Dir) (h : MotionOk r.ac) : MotionOk (crossOut env d r).ac := by
  unfold crossOut
  split_ifs
  · exact (depart_motionOk env d h).settle env _
  · exact (backOut_motionOk env d.other h).settle env _
  · exact h

theorem detectorEvent_motionOk (env : Env) (e : Port) (h : MotionOk r.ac) : MotionOk (detectorEvent env e r).ac := by
  have hset (n : Detector) : MotionOk (setDetector r.ac e n) := h.of_fields (by simp) (by simp) (by simp)
  unfold detectorEvent
  dsimp only
  split
  · exact hset _
  · exact crossIn_motionOk env _ (hset _)
  · exact crossOut_motionOk env _ (hset _)

theorem emergencyEdge_motionOk (env : Env) (before : Aisle) (h : MotionOk r.ac) :
    MotionOk (emergencyEdge env before r).ac := by
  unfold emergencyEdge
  split_ifs
  · exact h.settle_of_fields env _ _ rfl rfl rfl
  · exact h.settle_of_fields env _ _ rfl rfl rfl
  · exact h

theorem lockout_motionOk (env : Env) (code : HaltCode) (r : AisleRun) : MotionOk (lockout env code r).ac := by
  simp [lockout, withdrawGranted, AisleRun.upd, AisleRun.post, releaseDrive, MotionOk]

theorem leafFault_motionOk (env : Env) (conflict : Bool) (h : MotionOk r.ac) :
    MotionOk (leafFault env conflict r).ac := by
  unfold leafFault
  split
  · exact h
  · split_ifs
    · exact lockout_motionOk env _ r
    · exact startMotion_motionOk env _ false (a := { r.ac with faultInProgress := true }) h.2

theorem stopChange_motionOk (env : Env) (which : Target) (level : Bool) (h : MotionOk r.ac) :
    MotionOk (stopChange env which level r).ac := by
  obtain heq | ⟨-, heq⟩ | ⟨tgt, -, heq⟩ | ⟨tgt, -, heq⟩ := stopChange_cases env which level r <;> rw [heq]
  · exact h
  · exact leafFault_motionOk env true h
  · exact completeMotion_motionOk env tgt h
  · exact startMotion_motionOk env tgt false h.2

theorem zoneChange_motionOk (env : Env) (level : Bool) (h : MotionOk a) : MotionOk (zoneChange env level a) := by
  rw [zoneChange_eq]
  split_ifs
  · exact obstruct_motionOk env _
  · unfold zoneTimed
    split_ifs <;> exact h.of_fields rfl rfl rfl

theorem handFilteredChange_motionOk (env : Env) (before : Aisle) (i : Input) (level : Bool) (h : MotionOk r.ac) :
    MotionOk (handFilteredChange env before i level r).ac := by
  cases i with
  | aOuter | aInner => exact detectorEvent_motionOk env .a h
  | bInner | bOuter => exact detectorEvent_motionOk env .b h
  | l1 | l2 => exact (zoneChange_motionOk env level h).settle env _
  | openStop => exact (stopChange_motionOk env .toOpen level h).settle env _
  | closedStop => exact (stopChange_motionOk env .toClosed level h).settle env _
  | emerg => exact emergencyEdge_motionOk env before h

theorem endFilter_motionOk (env : Env) (i : Input) (h : MotionOk r.ac) : MotionOk (endFilter env i r).ac := by
  unfold endFilter
  dsimp only
  split_ifs
  · exact h.of_fields rfl rfl rfl
  · exact handFilteredChange_motionOk (r := r.upd _) env r.ac i _ (h.of_fields rfl rfl rfl)

theorem firstDrive_motionOk (env : Env) (h : MotionOk a) : MotionOk (firstDrive env a) := by
  unfold firstDrive
  split_ifs
  · exact h
  · exact startMotion_motionOk env _ _ h.2
  · exact startMotion_motionOk env _ _ h.2

theorem settleInputs_motionOk (env : Env) (h : MotionOk r.ac) : MotionOk (settleInputs env r).ac := by
  have hlevels : MotionOk (r.upd takeLevels).ac := h.of_fields rfl rfl rfl
  rw [settleInputs_eq env r rfl]
  exact (firstDrive_motionOk env (detectorEvent_motionOk env .b
    (detectorEvent_motionOk env .a (emergencyEdge_motionOk env r.ac hlevels)))).settle env _

theorem expireHold_motionOk (env : Env) (h : MotionOk r.ac) : MotionOk (expireHold env r).ac := by
  unfold expireHold
  split
  · exact h
  · exact h.settle_of_fields env _ _ rfl rfl rfl

/-- The blank window that ends is that of the motion in progress (R146). -/
theorem motion_of_blankDue {m : Motion} {t : Nat} (h : blankDue a = some (m, t)) : a.motion = some m := by
  unfold blankDue at h
  split at h
  · cases h
  · rename_i m' hm
    split_ifs at h
    obtain ⟨_, -, he⟩ := Option.map_eq_some_iff.1 h
    cases he
    exact hm

theorem aisleMove_motionOk (h : MotionOk a) (m : AisleMove env a b) : MotionOk b := by
  cases m with
  | raw i level =>
    unfold rawChange
    dsimp only
    split_ifs <;> exact h.of_fields rfl rfl rfl
  | filter i => exact endFilter_motionOk env i (r := ⟨a, []⟩) h
  | settled => exact settleInputs_motionOk env (r := ⟨a, []⟩) h
  | travel => exact (leafFault_motionOk env false (r := ⟨a, []⟩) h).settle env _
  | blank m t _ hdue =>
    refine MotionOk.settle ?_ env _
    split_ifs
    · exact obstruct_motionOk env _
    · exact ⟨by simpa [motion_of_blankDue hdue] using h.1, h.2⟩
  | zoneClear =>
    refine MotionOk.settle ?_ env _
    exact ⟨h.1, Nat.zero_le 3⟩
  | hold => exact expireHold_motionOk env (r := ⟨a, []⟩) h
  | reserve n d p _ _ hr =>
    unfold reserveCredit at hr
    split_ifs at hr
    cases hr
    exact h.settle_of_fields env _ _ rfl rfl rfl
  | release p => exact h.settle_of_fields env _ _ rfl rfl rfl
  | restore =>
    refine MotionOk.settle ?_ env _
    split_ifs
    · exact ⟨h.1, Nat.zero_le 3⟩
    · exact startMotion_motionOk env _ _ (Nat.zero_le 3)
  | emergency v => exact emergencyEdge_motionOk env a (r := AisleRun.upd ⟨a, []⟩ _) (h.of_fields rfl rfl rfl)
  | _ => exact h.of_fields rfl rfl rfl

end Motion

/-! ## What settling makes true of the drive (R144, R145) -/

section Demand
variable {env : Env} {was : Bool} {a b : Aisle}

/-- The drive has acted on the demand, the zone and the hold. -/
def DemandMet (a : Aisle) : Prop :=
  (a.leaf = .closed ∨ a.leaf = .closing → demandOpen a = false)
    ∧ (a.leaf = .opened → demandOpen a = true ∨ zoneClear a = false ∨ a.obstructHold = true)

theorem driveOk_iff (a : Aisle) : DriveOk a ↔ MotionOk a ∧ DemandMet a := by
  simp only [DriveOk, MotionOk, DemandMet, and_assoc]

theorem demandOpen_congr (hem : emergencyActive b = emergencyActive a) (hlock : b.lockedOut = a.lockedOut)
    (hany : b.credits.any (fun c => !c.isReserved) = a.credits.any (fun c => !c.isReserved)) :
    demandOpen b = demandOpen a := by
  simp only [demandOpen, hem, hlock, hany]

theorem demandOpen_startMotion (tgt : Target) (full : Bool) : demandOpen (startMotion env tgt full a) = demandOpen a :=
  demandOpen_congr (by simp [emergencyActive]) (by simp) (by simp)

/-- Where a motion leaves the drive. -/
theorem startMotion_leaf (env : Env) (tgt : Target) (full : Bool) (a : Aisle) :
    (startMotion env tgt full a).leaf = if stopsAt a tgt then heldLeaf tgt else movingLeaf tgt := by
  unfold startMotion
  dsimp only
  split_ifs
  · cases tgt <;> rfl
  · rfl

theorem startMotion_open_met (full : Bool) (h : demandOpen a = true) : DemandMet (startMotion env .toOpen full a) := by
  rw [DemandMet, demandOpen_startMotion, startMotion_leaf, h]
  split_ifs <;> simp [heldLeaf, movingLeaf]

theorem startMotion_close_met (full : Bool) (h : demandOpen a = false) :
    DemandMet (startMotion env .toClosed full a) := by
  rw [DemandMet, demandOpen_startMotion, startMotion_leaf, h]
  split_ifs <;> simp [heldLeaf, movingLeaf]

theorem driveAct_met (env : Env) (a : Aisle) : DemandMet (driveAct env a) := by
  unfold driveAct
  cases hleaf : a.leaf with
  | closed =>
    dsimp only
    split_ifs with hdemand
    · exact startMotion_open_met true hdemand
    · exact ⟨fun _ => Bool.eq_false_iff.2 hdemand, by simp [hleaf]⟩
  | opened =>
    dsimp only
    split_ifs with hfree
    · simp only [Bool.and_eq_true, Bool.not_eq_true'] at hfree
      exact startMotion_close_met true hfree.1.1
    · refine ⟨by simp [hleaf], fun _ => ?_⟩
      simpa [Bool.not_eq_true', Decidable.or_iff_not_imp_left] using hfree
  | closing =>
    dsimp only
    split_ifs with hdemand
    · exact startMotion_open_met false hdemand
    · exact ⟨fun _ => Bool.eq_false_iff.2 hdemand, by simp [hleaf]⟩
  | opening => exact ⟨by simp [hleaf], by simp [hleaf]⟩
  | released => exact ⟨by simp [hleaf], by simp [hleaf]⟩

theorem DemandMet.of_fields (h : DemandMet a) (hleaf : b.leaf = a.leaf) (hdemand : demandOpen b = demandOpen a)
    (hzone : zoneClear b = zoneClear a) (hhold : b.obstructHold = a.obstructHold) : DemandMet b := by
  rwa [DemandMet, hleaf, hdemand, hzone, hhold]

theorem settle_eq (env : Env) (was : Bool) (a : Aisle) : settle env was a
    = loiterUpdate env (idleUpdate env was (windowUpdate env (driveAct env (historyUpdate a)))) := rfl

theorem windowUpdate_demandOpen (env : Env) (a : Aisle) : demandOpen (windowUpdate env a) = demandOpen a :=
  demandOpen_congr (by simp [emergencyActive]) (by simp)
    (windowPass_any (windowBlind_isReserved.comp (!·)) (isHead a) (env.now + holdOf env a) a.credits)

theorem settle_met (env : Env) (was : Bool) (a : Aisle) : DemandMet (settle env was a) := by
  have hdemand : demandOpen (settle env was a) = demandOpen (windowUpdate env (driveAct env (historyUpdate a))) :=
    demandOpen_congr (by simp [settle_eq, emergencyActive]) (by simp [settle_eq]) (by simp [settle_eq])
  exact (driveAct_met env (historyUpdate a)).of_fields (by simp [settle_eq])
    (hdemand.trans (windowUpdate_demandOpen env _)) (by simp [settle_eq, zoneClear]) (by simp [settle_eq])

end Demand

/-! ## What settling makes true of the hold window (R135 to R137) -/

section Window
variable {env : Env} {was : Bool} {a b : Aisle}

theorem holdEndOf_withoutWindow (c : Credit) : holdEndOf (withoutWindow c) = none := by
  obtain ⟨_ | ⟨_, _, _ | _⟩ | _, _, _, _⟩ := c <;> rfl

theorem holdEndOf_withWindow {c : Credit} (h : c.isGranted = true) (e : Nat) :
    (holdEndOf (withWindow e c)).isSome = true := by
  obtain ⟨_ | ⟨_, _, _ | _⟩ | _, _, _, _⟩ := c
  · cases h
  · rfl
  · rfl
  · cases h

/-- After the comparison the window runs for the head, the first entry that the test picks, and for no other. -/
theorem windowPass_running {head : Credit → Bool} (hblind : WindowBlind head) (hgranted : ∀ c, head c = true → c.isGranted = true)
    (e : Nat) (cs : List Credit) : (windowPass head e cs).filter (fun c => (holdEndOf c).isSome)
      = ((windowPass head e cs).find? head).toList := by
  induction cs with
  | nil => rfl
  | cons c cs ih =>
    unfold windowPass
    split_ifs with hc
    · have hrest : (cs.map withoutWindow).filter (fun c => (holdEndOf c).isSome) = [] := by
        simp [List.filter_eq_nil_iff, holdEndOf_withoutWindow]
      rw [List.filter_cons_of_pos (p := fun c => (holdEndOf c).isSome) (holdEndOf_withWindow (hgranted c hc) e), hrest,
        List.find?_cons_of_pos (by rw [hblind.1, hc])]
      rfl
    · rw [List.filter_cons_of_neg (by simp [holdEndOf_withoutWindow]), List.find?_cons_of_neg (by rw [hblind.2]; exact hc)]
      exact ih

theorem windowBlind_isHead (a : Aisle) : WindowBlind (isHead a) := windowBlind_of_state fun _ _ _ _ _ _ _ => rfl

theorem isHead_granted {a : Aisle} {c : Credit} (h : isHead a c = true) : c.isGranted = true := by
  simp only [isHead, Bool.and_eq_true] at h
  exact h.1.2

/-- The current direction is that of the first entry that is not RESERVED, whatever windows run (R129). -/
theorem direction_congr {α : Type} (key : Credit → α) (dir : α → Dir) (open_ : α → Bool) (hdir : ∀ c, dir (key c) = c.dir)
    (hopen : ∀ c, open_ (key c) = !c.isReserved) (hkeys : b.credits.map key = a.credits.map key)
    (hab : b.bodiesAB = a.bodiesAB) (hba : b.bodiesBA = a.bodiesBA) : direction b = direction a := by
  have hfind (x : Aisle) : (x.credits.find? (fun c => !c.isReserved)).map (·.dir)
      = ((x.credits.map key).find? open_).map dir := by
    rw [List.find?_map, Option.map_map]
    simp only [Function.comp_def, hdir, hopen]
  have hsame := (hfind b).trans ((congrArg (fun l => (l.find? open_).map dir) hkeys).trans (hfind a).symm)
  unfold direction
  rw [hab, hba]
  cases ha : a.credits.find? (fun c => !c.isReserved) <;> cases hb : b.credits.find? (fun c => !c.isReserved) <;>
    simp_all

theorem windowBlind_key : WindowBlind (fun c => (!c.isReserved, c.dir)) := windowBlind_of_state fun _ _ _ _ _ _ _ => rfl

theorem direction_of_windowPass {head : Credit → Bool} {e : Nat} (hcredits : b.credits = windowPass head e a.credits)
    (hab : b.bodiesAB = a.bodiesAB) (hba : b.bodiesBA = a.bodiesBA) : direction b = direction a :=
  direction_congr (fun c => (!c.isReserved, c.dir)) Prod.snd Prod.fst (fun _ => rfl) (fun _ => rfl)
    (hcredits ▸ windowPass_map windowBlind_key head e a.credits) hab hba

theorem isHead_congr (hleaf : b.leaf = a.leaf) (hdir : direction b = direction a) : isHead b = isHead a := by
  funext c
  rw [isHead, isHead, hleaf, hdir]

theorem WindowOk.of_fields (h : WindowOk a) (hcredits : b.credits = a.credits) (hleaf : b.leaf = a.leaf)
    (hab : b.bodiesAB = a.bodiesAB) (hba : b.bodiesBA = a.bodiesBA) : WindowOk b := by
  have hdir : direction b = direction a := by unfold direction; rw [hcredits, hab, hba]
  rwa [WindowOk, isHead_congr hleaf hdir, hcredits]

theorem windowUpdate_windowOk (env : Env) (a : Aisle) : WindowOk (windowUpdate env a) := by
  have hdir : direction (windowUpdate env a) = direction a := direction_of_windowPass rfl rfl rfl
  have hhead : isHead (windowUpdate env a) = isHead a := isHead_congr rfl hdir
  rw [WindowOk, hhead]
  exact windowPass_running (windowBlind_isHead a) (fun _ => isHead_granted) _ a.credits

theorem settle_windowOk (env : Env) (was : Bool) (a : Aisle) : WindowOk (settle env was a) :=
  (windowUpdate_windowOk env (driveAct env (historyUpdate a))).of_fields (by simp [settle_eq]) (by simp [settle_eq])
    (by simp [settle_eq]) (by simp [settle_eq])

end Window

/-! ## What settling makes true of the idle timer and LOITER (R122, R133) -/

section Idle
variable {env : Env} {was : Bool} {a b : Aisle}

theorem aisleIdle_congr (hcredits : b.credits = a.credits) (hab : b.bodiesAB = a.bodiesAB)
    (hba : b.bodiesBA = a.bodiesBA) : aisleIdle b = aisleIdle a := by
  simp only [aisleIdle, hcredits, hab, hba]

theorem idleUpdate_idle (env : Env) (was : Bool) (a : Aisle) (h : (idleUpdate env was a).idleEnd.isSome = true) :
    aisleIdle a = true := by
  unfold idleUpdate at h
  split_ifs at h with hidle
  · exact hidle
  · exact hidle
  · cases h

theorem settle_idleOk (env : Env) (was : Bool) (a : Aisle) : IdleOk (settle env was a) := by
  rw [settle_eq]
  generalize windowUpdate env (driveAct env (historyUpdate a)) = w
  refine ⟨fun h => ?_, fun h => ?_⟩
  · rw [aisleIdle_congr (a := w) (by simp) (by simp) (by simp)]
    exact idleUpdate_idle env was w (by rwa [loiterUpdate_idleEnd] at h)
  · exact anyLoitering_inAisle (Bool.and_eq_true_iff.1 h).2

end Idle

/-! ## Every step -/

/-- The drive, the hold window, the idle timer and LOITER in order. -/
def AisleTimed (a : Aisle) : Prop := DriveOk a ∧ WindowOk a ∧ IdleOk a

section Step
variable {env : Env} {a b : Aisle}

theorem aisleTimed_of_settled (hmotion : MotionOk b) (h : Settled b) : AisleTimed b := by
  obtain ⟨env, was, c, rfl⟩ := h
  exact ⟨(driveOk_iff _).2 ⟨hmotion, settle_met env was c⟩, settle_windowOk env was c, settle_idleOk env was c⟩

theorem aisleTimed_of_still (h : AisleTimed a) (hmotion : MotionOk b) (still : Still a b) : AisleTimed b := by
  obtain ⟨hdrive, hwindow, hidle, hloiter⟩ := h
  refine ⟨(driveOk_iff _).2 ⟨hmotion, ((driveOk_iff a).1 hdrive).2.of_fields still.leaf
    (demandOpen_congr still.emergency still.lockedOut (by rw [still.credits])) still.zone still.hold⟩,
    hwindow.of_fields still.credits still.leaf still.bodiesAB still.bodiesBA, fun h => ?_, fun h => ?_⟩
  · rw [aisleIdle_congr still.credits still.bodiesAB still.bodiesBA]
    obtain heq | hnone := still.idle
    · exact hidle (heq ▸ h)
    · rw [hnone] at h; cases h
  · rw [still.credits]
    obtain hwas | hany := still.loiter h
    · exact hloiter hwas
    · exact hany

theorem aisleMove_timed (h : AisleTimed a) (m : AisleMove env a b) : AisleTimed b := by
  have hmotion := aisleMove_motionOk ((driveOk_iff a).1 h.1).1 m
  obtain still | settled := move_still m
  · exact aisleTimed_of_still h hmotion still
  · exact aisleTimed_of_settled hmotion settled

theorem grantCredit_timed (env : Env) (p : Port) (n : Nat) (h : AisleTimed a) : AisleTimed (grantCredit env p n a) := by
  have hmotion := ((driveOk_iff a).1 h.1).1
  exact aisleTimed_of_settled (hmotion.settle_of_fields env _ _ rfl rfl rfl) (grant_settled env p n a)

theorem resetAisle_timed (env : Env) (keep : Bool) (a : Aisle) : AisleTimed (resetAisle env keep a) := by
  refine ⟨(driveOk_iff _).2 ⟨⟨?_, Nat.zero_le 3⟩, ?_, ?_⟩, rfl, fun _ => rfl, nofun⟩ <;> simp [resetAisle]

end Step

/-- Settles O6: an event of the aisle is still, or ends settled, which makes the conditions true. -/
theorem stepKeepsDriveAndTimers : Obligations.StepKeepsDriveAndTimers :=
  fun _ _ hok h => step_keeps_ac (Q := AisleTimed) (fun _ _ _ => aisleMove_timed)
    (fun env keep a _ => resetAisle_timed env keep a) (fun env p n _ => grantCredit_timed env p n) h hok

end Sys2Proof.Machine
end

