-- ==== Sys2Proof/Proofs/TapStates.lean ====
section
/-! PROOFS. The ports' tap states under every step (R65, R67, R79, R80, R85, R87): an operation of the Verdict Engine changes one
port, and brings it to a tap state that agrees with the wait queue, the evaluation and the append queue as they then are. -/

namespace Sys2Proof.Machine

/-! ## One port's agreement -/

/-- A port agrees with its place in the wait queue, with the evaluation and with the number of its queued commits. -/
def PortOk (queued served : Prop) (commits : Nat) (l : LanePort) : Prop :=
  (l.slot = none ↔ l.tap = .idle) ∧ (queued ↔ l.tap = .queued) ∧ (served ↔ l.tap = .evaluating)
    ∧ (l.tap = .verdictReady ∨ l.tap = .awaitingWrite ∨ l.tap = .committing → (l.slot.bind (·.verdict)).isSome = true)
    ∧ (l.tap = .awaitingWrite → holdsAccept l = true)
    ∧ (l.confirmEnd.isSome = true → holdsAccept l = true ∧ (l.tap = .verdictReady ∨ l.tap = .awaitingWrite))
    ∧ commits ≤ (if l.tap = .committing then 1 else 0)

/-- The evaluation in progress is of a port's tap (R67). -/
def served (s : State) (p : Port) : Prop := s.ve.eval.map (·.port) = some p

theorem tapOk_iff (s : State) (p : Port) :
    TapOk s p ↔ PortOk (p ∈ s.ve.queue) (served s p) (commitsQueued s p) (s.port p) := Iff.rfl

section Port
variable {queued served : Prop} {commits : Nat} {l : LanePort}

theorem PortOk.commits_zero (h : PortOk queued served commits l) (ht : l.tap ≠ .committing) : commits = 0 := by
  obtain ⟨-, -, -, -, -, -, hcommits⟩ := h
  rw [if_neg ht] at hcommits
  omega

theorem PortOk.commits_le (h : PortOk queued served commits l) : commits ≤ 1 := by
  obtain ⟨-, -, -, -, -, -, hcommits⟩ := h
  split at hcommits <;> omega

theorem PortOk.committing (h : PortOk queued served commits l) (hc : 0 < commits) : l.tap = .committing := by
  by_contra ht
  have := h.commits_zero ht
  omega

/-- The confirm timer is stopped outside the two states of an unreported ACCEPT (R85). -/
theorem PortOk.stopped (h : PortOk queued served commits l) (ht : l.tap ≠ .verdictReady) (ht' : l.tap ≠ .awaitingWrite) :
    l.confirmEnd = none := by
  obtain ⟨-, -, -, -, -, htimer, -⟩ := h
  by_contra hc
  obtain ⟨-, h | h⟩ := htimer (Option.isSome_iff_ne_none.2 hc)
  · exact ht h
  · exact ht' h

theorem PortOk.stopped_of_not_accept (h : PortOk queued served commits l) (ha : holdsAccept l = false) :
    l.confirmEnd = none := by
  obtain ⟨-, -, -, -, -, htimer, -⟩ := h
  by_contra hc
  have := (htimer (Option.isSome_iff_ne_none.2 hc)).1
  simp [ha] at this

theorem PortOk.not_served (h : PortOk queued served commits l) (ht : l.tap ≠ .evaluating) : ¬ served := fun hs =>
  ht (h.2.2.1.1 hs)

theorem PortOk.not_queued (h : PortOk queued served commits l) (ht : l.tap ≠ .queued) : ¬ queued := fun hs =>
  ht (h.2.1.1 hs)

theorem portOk_ended (hqueued : ¬ queued) (hserved : ¬ served) (hcommits : commits = 0) (l : LanePort) :
    PortOk queued served commits l.ended := by
  simp [PortOk, LanePort.ended, hqueued, hserved, hcommits]

theorem ended_of_stopped (h : l.confirmEnd = none) : { l with tap := .idle, slot := none } = l.ended := by
  rw [LanePort.ended, ← h]

theorem portOk_queued (hqueued : queued) (hserved : ¬ served) (hcommits : commits = 0) (ht : l.tap = .queued)
    (hslot : l.slot ≠ none) (htimer : l.confirmEnd = none) : PortOk queued served commits l := by
  simp [PortOk, ht, hslot, htimer, hqueued, hserved, hcommits]

theorem portOk_evaluating (hqueued : ¬ queued) (hserved : served) (hcommits : commits = 0) (ht : l.tap = .evaluating)
    (hslot : l.slot ≠ none) (htimer : l.confirmEnd = none) : PortOk queued served commits l := by
  simp [PortOk, ht, hslot, htimer, hqueued, hserved, hcommits]

theorem portOk_verdictReady (hqueued : ¬ queued) (hserved : ¬ served) (hcommits : commits = 0) (ht : l.tap = .verdictReady)
    (hverdict : (l.slot.bind (·.verdict)).isSome = true) (htimer : l.confirmEnd.isSome = true → holdsAccept l = true) :
    PortOk queued served commits l := by
  have hslot : l.slot ≠ none := by rintro h; simp [h] at hverdict
  simpa [PortOk, ht, hslot, hqueued, hserved, hcommits, hverdict] using htimer

theorem portOk_awaitingWrite (hqueued : ¬ queued) (hserved : ¬ served) (hcommits : commits = 0)
    (ht : l.tap = .awaitingWrite) (hverdict : (l.slot.bind (·.verdict)).isSome = true) (haccept : holdsAccept l = true) :
    PortOk queued served commits l := by
  have hslot : l.slot ≠ none := by rintro h; simp [h] at hverdict
  simp [PortOk, ht, hslot, hqueued, hserved, hcommits, hverdict, haccept]

theorem portOk_committing (hqueued : ¬ queued) (hserved : ¬ served) (hcommits : commits ≤ 1) (ht : l.tap = .committing)
    (hverdict : (l.slot.bind (·.verdict)).isSome = true) (htimer : l.confirmEnd = none) :
    PortOk queued served commits l := by
  have hslot : l.slot ≠ none := by rintro h; simp [h] at hverdict
  simp [PortOk, ht, hslot, hqueued, hserved, hcommits, hverdict, htimer]

end Port

/-! ## One port changes -/

section OnePort
variable {s u : State} {p : Port} {l : LanePort}

/-- The ports, the wait queue, the evaluated port and the queued commits decide. -/
theorem TapsOk.of_same (h : TapsOk s) (hport : ∀ q, u.port q = s.port q) (hqueue : u.ve.queue = s.ve.queue)
    (hserved : ∀ q, served u q ↔ served s q) (hcommits : ∀ q, commitsQueued u q = commitsQueued s q) : TapsOk u := by
  refine ⟨hqueue ▸ h.1, fun q => ?_⟩
  rw [tapOk_iff, hport, hqueue, hserved, hcommits]
  exact h.2 q

/-- With one port set, the other port has to find its place as it was. -/
theorem TapsOk.setPort (h : TapsOk s) (hport : ∀ q, u.port q = s.port q) (hnodup : u.ve.queue.Nodup)
    (hqueue : ∀ q, q ≠ p → (q ∈ u.ve.queue ↔ q ∈ s.ve.queue)) (hserved : ∀ q, q ≠ p → (served u q ↔ served s q))
    (hcommits : ∀ q, q ≠ p → commitsQueued u q = commitsQueued s q)
    (hp : PortOk (p ∈ u.ve.queue) (served u p) (commitsQueued u p) l) : TapsOk (u.setPort p l) := by
  refine ⟨by simpa using hnodup, fun q => ?_⟩
  have hframe : (q ∈ (u.setPort p l).ve.queue ↔ q ∈ u.ve.queue) ∧ (served (u.setPort p l) q ↔ served u q)
      ∧ commitsQueued (u.setPort p l) q = commitsQueued u q := by
    simp [served, commitsQueued]
  obtain ⟨hin, hsv, hcm⟩ := hframe
  rw [tapOk_iff, port_upd, hin, hsv, hcm]
  split_ifs with hq
  · subst hq; exact hp
  · rw [hqueue q hq, hserved q hq, hcommits q hq, hport q]
    exact h.2 q

/-- A port changes and nothing that the wait queue, the evaluation and the append queue say of the ports does. -/
theorem TapsOk.setPort_alone (h : TapsOk s) (hport : ∀ q, u.port q = s.port q) (hqueue : u.ve.queue = s.ve.queue)
    (hserved : ∀ q, served u q ↔ served s q) (hcommits : ∀ q, commitsQueued u q = commitsQueued s q)
    (hp : PortOk (p ∈ s.ve.queue) (served s p) (commitsQueued s p) l) : TapsOk (u.setPort p l) :=
  h.setPort hport (hqueue ▸ h.1) (fun _ _ => by rw [hqueue]) (fun q _ => hserved q) (fun q _ => hcommits q)
    (by rwa [hqueue, hserved, hcommits])

theorem TapsOk.portOk (h : TapsOk s) (p : Port) : PortOk (p ∈ s.ve.queue) (served s p) (commitsQueued s p) (s.port p) :=
  h.2 p

theorem unreported_iff (l : LanePort) :
    unreported l = true ↔ (l.tap = .verdictReady ∨ l.tap = .awaitingWrite) ∧ holdsAccept l = true := by
  simp [unreported]

theorem verdict_of_holdsAccept (h : holdsAccept l = true) : ∃ v, l.slot.bind (·.verdict) = some v ∧ v.code = .accept := by
  unfold holdsAccept at h
  cases hv : l.slot.bind (·.verdict) with
  | none => rw [hv] at h; cases h
  | some v => rw [hv] at h; exact ⟨v, rfl, by simpa using h⟩

theorem holdsAccept_of_verdict {v : Verdict} (h : l.slot.bind (·.verdict) = some v) :
    holdsAccept l = decide (v.code = .accept) := by
  unfold holdsAccept
  rw [h, Option.map_some]
  rfl

theorem verdict_of_given {v : Verdict} (h : givenVerdict l = some v) :
    (l.tap = .verdictReady ∨ l.tap = .awaitingWrite) ∧ l.slot.bind (·.verdict) = some v := by
  unfold givenVerdict at h
  split_ifs at h with ht
  exact ⟨ht, h⟩

end OnePort

/-! ## The operations -/

section Operations
variable {s : State} {p : Port}

theorem tapsOk_of_quiet {t : State} (h : TapsOk s) (hq : Quiet s t) : TapsOk t := by
  obtain ⟨l, hqueue, hcommit, -⟩ := hq.jn.1
  have hcommits (q : Port) : commitsQueued t q = commitsQueued s q := by
    rw [commitsQueued, hqueue, commits_append _ l q hcommit]; rfl
  refine ⟨hq.ve ▸ h.1, fun q => ?_⟩
  have hport := h.portOk q
  rw [tapOk_iff]
  unfold PortOk served holdsAccept at *
  rwa [hq.tap q, hq.slot q, hq.timer q, hq.ve, hcommits q]

theorem tapsOk_setTorn (h : TapsOk s) (t : List TornRecord) : TapsOk (s.setTorn t) :=
  h.of_same (by simp) rfl (fun _ => Iff.rfl) (fun _ => rfl)

theorem tapsOk_evalStep (h : TapsOk s) : TapsOk (evalStep s) := by
  obtain ⟨hport, hqueue, -, heval, hcommits⟩ := evalStep_keep s
  exact h.of_same hport hqueue (fun q => by rw [served, heval]; rfl) hcommits

/-- The port of the evaluation is in EVALUATING (R67). -/
theorem TapsOk.evaluating (h : TapsOk s) {e : Evaluation} (he : s.ve.eval = some e) :
    (s.port e.port).tap = .evaluating := (h.portOk e.port).2.2.1.1 (by simp [served, he])

theorem tapsOk_ready (h : TapsOk s) {e : Evaluation} (he : s.ve.eval = some e) (v : Verdict) :
    TapsOk (readyByCode e v (s.setEval none)) := by
  obtain ⟨hother, hqueue, heval, hcommits, hcommit, hmine⟩ := ready_port e v (s.setEval none)
  have htap := h.evaluating he
  have hport := h.portOk e.port
  have hnone (q : Port) : ¬ served (readyByCode e v (s.setEval none)) q := by simp [served, heval]
  refine ⟨by rw [hqueue]; exact h.1, fun q => ?_⟩
  rw [tapOk_iff, hqueue, setEval_queue]
  by_cases hq : q = e.port
  · subst hq
    have hnq := hport.not_queued (by simp [htap])
    have hzero : commitsQueued (s.setEval none) e.port = 0 := hport.commits_zero (by simp [htap])
    have hstop : (s.port e.port).confirmEnd = none := hport.stopped (by simp [htap]) (by simp [htap])
    rw [hmine]
    by_cases hr : v.code = .resumed
    · refine portOk_committing hnq (hnone _) ?_ ?_ rfl ?_
      · rw [hzero, if_pos hr] at hcommit; omega
      · simp [LanePort.withVerdict, hr]
      · simp [hr, hstop]
    · refine portOk_verdictReady hnq (hnone _) ?_ ?_ rfl ?_
      · rw [hzero, if_neg hr] at hcommit; omega
      · simp [LanePort.withVerdict, hr]
      · rw [holdsAccept_of_verdict rfl]
        by_cases ha : v.code = .accept <;> simp [ha, hstop]
  · rw [hother q hq, hcommits q hq, setEval_port]
    have hnserved : ¬ served s q := by simp [served, he, Ne.symm hq]
    have hq' := h.portOk q
    rw [iff_false_intro hnserved] at hq'
    rw [iff_false_intro (hnone q)]
    exact hq'

theorem releaseSlot_commits (q : Port) : commitsQueued { s with jn := releaseSlot s.jn } q = commitsQueued s q := rfl

theorem tapsOk_dropped (h : TapsOk s) {e : Evaluation} (he : s.ve.eval = some e) (ht : (s.port e.port).tap = .evaluating) :
    TapsOk (let s1 := s.setEval none
       let s2 := if e.slotMade then { s1 with jn := releaseSlot s1.jn } else s1
       s2.setPort e.port (s2.port e.port).ended) := by
  have hport := h.portOk e.port
  have hnq := hport.not_queued (by simp [ht])
  have hzero := hport.commits_zero (by simp [ht])
  have hothers (q : Port) (hq : q ≠ e.port) : ¬ served s q := by simp [served, he, Ne.symm hq]
  dsimp only
  split_ifs
  all_goals
    refine h.setPort (fun q => by cases q <;> rfl) h.1 (fun _ _ => Iff.rfl) (fun q hq => ?_) (fun _ _ => rfl)
      (portOk_ended hnq (by simp [served]) hzero _)
    simpa [served] using hothers q hq

theorem tapsOk_begin {rest : List Port} (h : TapsOk s) (he : s.ve.eval = none) (hq : s.ve.queue = p :: rest) :
    TapsOk (beginEvaluation p rest s) := by
  have hnodup := h.1
  rw [hq, List.nodup_cons] at hnodup
  have hport := h.portOk p
  have htap : (s.port p).tap = .queued := hport.2.1.1 (by simp [hq])
  have hslot : (s.port p).slot ≠ none := fun hs => by simpa [htap] using hport.1.1 hs
  unfold beginEvaluation
  refine h.setPort (fun q => rfl) hnodup.2 (fun q hne => ?_) (fun q hne => ?_) (fun _ _ => rfl)
    (portOk_evaluating hnodup.1 rfl (hport.commits_zero (by simp [htap])) rfl hslot
      (hport.stopped (by simp [htap]) (by simp [htap])))
  · simp [hq, hne]
  · simp [served, he, Ne.symm hne]

theorem tapsOk_join (h : TapsOk s) (ht : (s.port p).tap = .idle) (image : List Byte) :
    TapsOk (joinQueue p (s.setPort p ((s.port p).tapped image))) := by
  have hport := h.portOk p
  have hnq := hport.not_queued (by simp [ht])
  have hswap : joinQueue p (s.setPort p ((s.port p).tapped image)) = (joinQueue p s).setPort p ((s.port p).tapped image) := by
    cases p <;> rfl
  rw [hswap]
  refine h.setPort (fun _ => rfl) ?_ (fun q hne => ?_) (fun q _ => Iff.rfl) (fun _ _ => rfl)
    (portOk_queued (by simp [joinQueue]) (hport.not_served (by simp [ht])) (hport.commits_zero (by simp [ht])) rfl
      (by simp [LanePort.tapped]) (hport.stopped (by simp [ht]) (by simp [ht])))
  · exact List.nodup_append.2 ⟨h.1, List.nodup_singleton p, by rintro q hq _ hp rfl; simp_all⟩
  · simp [joinQueue, hne]

theorem tapsOk_withdraw (h : TapsOk s) (ht : (s.port p).tap = .queued) : TapsOk (withdrawQueued p s) := by
  have hport := h.portOk p
  unfold withdrawQueued
  refine h.setPort (fun _ => rfl) (h.1.filter _) (fun q hne => ?_) (fun q _ => Iff.rfl) (fun _ _ => rfl)
    (portOk_ended (by simp [leaveQueue]) (hport.not_served (by simp [ht])) (hport.commits_zero (by simp [ht])) _)
  simp [leaveQueue, hne]

theorem tapsOk_discard (h : TapsOk s) (ht : (s.port p).tap = .verdictReady) :
    TapsOk (s.setPort p (s.port p).ended) := by
  have hport := h.portOk p
  exact h.setPort_alone (fun _ => rfl) rfl (fun _ => Iff.rfl) (fun _ => rfl)
    (portOk_ended (hport.not_queued (by simp [ht])) (hport.not_served (by simp [ht])) (hport.commits_zero (by simp [ht])) _)

/-- An unreported ACCEPT neither waits nor is evaluated, and no commit of it is queued. -/
theorem TapsOk.unreported_apart (h : TapsOk s) (hu : unreported (s.port p) = true) :
    p ∉ s.ve.queue ∧ ¬ served s p ∧ commitsQueued s p = 0 := by
  have hport := h.portOk p
  obtain ⟨ht | ht, -⟩ := (unreported_iff _).1 hu
  all_goals
    exact ⟨hport.not_queued (by simp [ht]), hport.not_served (by simp [ht]), hport.commits_zero (by simp [ht])⟩

theorem tapsOk_abandon (h : TapsOk s) (fate : TornFate) (hu : unreported (s.port p) = true) : TapsOk (abandon p fate s) := by
  obtain ⟨hqueue, hserved, hcommits⟩ := h.unreported_apart hu
  exact h.setPort_alone (fun q => by cases q <;> rfl) rfl (fun _ => Iff.rfl) (fun _ => rfl)
    (portOk_ended hqueue hserved hcommits _)

theorem tornCreate_taps (h : TapsOk s) (r : TornRecord) : TapsOk (tornCreate r s) := by
  unfold tornCreate
  refine tapsOk_setTorn ?_ _
  split_ifs
  · split
    · exact tapsOk_of_quiet (tapsOk_setTorn h _) (postAlerts_quiet _ _)
    · exact h
  · exact h

theorem tapsOk_afterRead {v : Verdict} (h : TapsOk s) (hv : givenVerdict (s.port p) = some v) : TapsOk (afterRead p v s) := by
  obtain ⟨ht, hverdict⟩ := verdict_of_given hv
  have hport := h.portOk p
  unfold afterRead
  dsimp only
  split_ifs with hwait haccept
  · exact h
  · split
    · have hready : (s.port p).tap = .verdictReady := ht.resolve_right hwait
      refine tornCreate_taps (h.setPort_alone (fun _ => rfl) rfl (fun _ => Iff.rfl) (fun _ => rfl) ?_) _
      exact portOk_awaitingWrite (hport.not_queued (by simp [hready])) (hport.not_served (by simp [hready]))
        (hport.commits_zero (by simp [hready])) rfl (by simp [hverdict])
        ((holdsAccept_of_verdict (l := { s.port p with tap := .awaitingWrite }) hverdict).trans (by simp [haccept]))
    · exact h
  · have hready : (s.port p).tap = .verdictReady := ht.resolve_right hwait
    have hstop : (s.port p).confirmEnd = none :=
      hport.stopped_of_not_accept (by rw [holdsAccept_of_verdict hverdict]; simp [haccept])
    rw [ended_of_stopped hstop]
    exact tapsOk_discard h hready

/-- The fare append of the tap in hand is queued as a commit of its port (R86). -/
theorem requestTapFare_eq {image : List Byte} {v : Verdict} (h : (s.port p).slot = some ⟨image, some v⟩) :
    requestTapFare p s
      = { s with jn := requestFare s.tl .plain p (fareContent p { image := image, verdict := some v } v) s.jn } := by
  unfold requestTapFare
  rw [h]

theorem slot_of_verdict {l : LanePort} {v : Verdict} (h : l.slot.bind (·.verdict) = some v) :
    ∃ image, l.slot = some ⟨image, some v⟩ := by
  obtain ⟨⟨image, verdict⟩, hslot, hverdict⟩ := Option.bind_eq_some_iff.1 h
  exact ⟨image, by rw [hslot]; exact congrArg (fun x => some (TapSlot.mk image x)) hverdict⟩

theorem requestFare_commits (t : TimeLink) (flag : FareFlag) (p q : Port) (c : Content) (s : State) :
    commitsQueued { s with jn := requestFare t flag p c s.jn } q = commitsQueued s q + (if p = q then 1 else 0) := by
  simp [commitsQueued, requestFare, enqueue, List.countP_append, List.countP_cons]

theorem tapsOk_written (h : TapsOk s) (ht : (s.port p).tap = .awaitingWrite) :
    TapsOk ((requestTapFare p s).setPort p
      { ((requestTapFare p s).port p).answered .ok with tap := .committing, confirmEnd := none }) := by
  have hport := h.portOk p
  obtain ⟨-, -, -, -, haccept, -, -⟩ := hport
  obtain ⟨v, hverdict, -⟩ := verdict_of_holdsAccept (haccept ht)
  obtain ⟨image, hslot⟩ := slot_of_verdict hverdict
  have hport := h.portOk p
  rw [requestTapFare_eq hslot]
  refine h.setPort (fun _ => rfl) h.1 (fun _ _ => Iff.rfl) (fun _ _ => Iff.rfl) (fun q hne => ?_) ?_
  · have := requestFare_commits s.tl .plain p q (fareContent p ⟨image, some v⟩ v) s
    rwa [if_neg (Ne.symm hne)] at this
  · refine portOk_committing (hport.not_queued (by simp [ht])) (hport.not_served (by simp [ht])) ?_ rfl ?_ rfl
    · have := requestFare_commits s.tl .plain p p (fareContent p ⟨image, some v⟩ v) s
      rw [this, hport.commits_zero (by simp [ht]), if_pos rfl]
    · show ((s.port p).slot.bind (·.verdict)).isSome = true
      rw [hverdict]; rfl

theorem completeAppend_commits {a : Append} {rest : List Append} (hq : s.jn.queue = a :: rest) (q : Port) :
    commitsQueued s q = commitsQueued { s with jn := completeAppend a rest s.jn } q + (if a.commit = some q then 1 else 0) := by
  simp [commitsQueued, hq, completeAppend, List.countP_cons]

theorem commitPort_cases (l : LanePort) :
    commitPort l = { l with tap := .verdictReady }
        ∧ (∃ v, l.slot.bind (·.verdict) = some v ∧ v.code = .resumed)
      ∨ commitPort l = { l with tap := .idle, slot := none } := by
  unfold commitPort
  split_ifs with h
  · obtain ⟨v, hv, hc⟩ := Option.map_eq_some_iff.1 h
    exact .inl ⟨rfl, v, hv, hc⟩
  · exact .inr rfl

theorem completeCommit_eq (p : Port) (n : Nat) (s : State) : completeCommit p n s
    = ({ (seenCommit p (withAisleOnly (fun env a => grantCredit env p n a) s)) with
          ve := { s.ve with torn := tornDropPort p s.ve.torn, inFlight := s.ve.inFlight.filter (fun m => m.2 != p) } }
        : State).setPort p (commitPort (s.port p)) := by
  have hve : (seenCommit p (withAisleOnly (fun env a => grantCredit env p n a) s)).ve = s.ve := by simp
  have hport : (seenCommit p (withAisleOnly (fun env a => grantCredit env p n a) s)).port p = s.port p :=
    port_of_parts (by simp) (by simp)
  rw [← hve, ← hport]
  rfl

theorem takeCompletion_alone {a : Append} (hc : a.commit = none) (rest : List Append) (s : State) :
    takeCompletion a rest s = { s with jn := completeAppend a rest s.jn } := by
  rw [takeCompletion, hc]

theorem takeCompletion_commit {a : Append} (hc : a.commit = some p) (rest : List Append) (s : State) :
    takeCompletion a rest s = completeCommit p a.record.number { s with jn := completeAppend a rest s.jn } := by
  rw [takeCompletion, hc]

theorem tapsOk_complete {a : Append} {rest : List Append} (h : TapsOk s) (hq : s.jn.queue = a :: rest) :
    TapsOk (takeCompletion a rest s) := by
  have hcount := completeAppend_commits hq
  cases hc : a.commit with
  | none =>
    rw [takeCompletion_alone hc]
    refine h.of_same (fun q => by cases q <;> rfl) rfl (fun _ => Iff.rfl) (fun q => ?_)
    rw [hcount q, hc]
    simp
  | some p =>
    have hport := h.portOk p
    have hmine := hcount p
    rw [if_pos hc] at hmine
    have hcommitting : (s.port p).tap = .committing := hport.committing (by omega)
    have hone := hport.commits_le
    have hstop : (s.port p).confirmEnd = none := hport.stopped (by simp [hcommitting]) (by simp [hcommitting])
    have hnq := hport.not_queued (by simp [hcommitting])
    have hns := hport.not_served (by simp [hcommitting])
    rw [takeCompletion_commit hc, completeCommit_eq]
    refine h.setPort (fun q => by cases q <;> simp [State.port]) h.1 (fun _ _ => Iff.rfl) (fun _ _ => Iff.rfl)
      (fun q hne => ?_) ?_
    · rw [hcount q, hc, if_neg (by simpa using Ne.symm hne)]
      simp [commitsQueued]
    · have hzero : commitsQueued { s with jn := completeAppend a rest s.jn } p = 0 := by omega
      have hport' : ({ s with jn := completeAppend a rest s.jn } : State).port p = s.port p := by cases p <;> rfl
      rw [hport']
      obtain ⟨heq, v, hverdict, -⟩ | heq := commitPort_cases (s.port p) <;> rw [heq]
      · refine portOk_verdictReady hnq hns (by simpa [commitsQueued] using hzero) rfl (by simp [hverdict]) ?_
        simp [hstop]
      · rw [ended_of_stopped hstop]
        exact portOk_ended hnq hns (by simpa [commitsQueued] using hzero) _

theorem tapsOk_reset {n : Nat} {keep : Bool} {j : Journal} {t : TimeLink} (hj : j.queue = []) :
    TapsOk (resetBlocks n keep j t s) := by
  refine ⟨List.nodup_nil, fun q => ?_⟩
  have hport : (resetBlocks n keep j t s).port q = portAfterReset.ended := by cases q <;> rfl
  rw [tapOk_iff, hport]
  refine portOk_ended (by simp [resetBlocks, engineAfterReset]) (by simp [served, resetBlocks, engineAfterReset]) ?_ _
  simp [commitsQueued, resetBlocks, hj]

end Operations

/-- The tap states are one of the conditions that `Kept` names. -/
theorem tapsOk_kept : Kept (fun _ => True) TapsOk where
  taps _ h := h
  quiet _ _ := tapsOk_of_quiet
  drop _ _ h _ := tapsOk_setTorn h _
  tick _ h := tapsOk_setTorn h _
  stage _ := tapsOk_evalStep
  ready _ _ v h he _ := tapsOk_ready h he v
  dropped _ _ h he ht := tapsOk_dropped h he ht
  start _ _ _ := tapsOk_begin
  join _ _ image h ht := tapsOk_join h ht image
  withdraw _ _ := tapsOk_withdraw
  discard _ _ h ht _ := tapsOk_discard h ht
  leave _ _ f h := tapsOk_abandon h f
  read _ _ _ := tapsOk_afterRead
  written _ _ := tapsOk_written
  complete _ _ _ _ := tapsOk_complete
  resets _ _ _ _ _ _ := ⟨tapsOk_reset rfl, tapsOk_reset rfl⟩

theorem step_keeps_tapsOk {s t : State} (h : TapsOk s) (hstep : step s = .next t) : TapsOk t :=
  step_kept tapsOk_kept s t hstep trivial h

end Sys2Proof.Machine
end

