-- ==== Sys2Proof/Proofs/TornTable.lean ====
section
/-! PROOFS. The Torn-Write Table, the in-flight set and the evaluation in progress under every step (R70, R75, R76, R94 to R100).
The table only shrinks, except where a read ACCEPT puts its record at the newest end and a RESUMED takes its record over. -/

namespace Sys2Proof.Machine

/-! ## The conditions, part by part -/

/-- At most 8 records, one of a serial, one PENDING at a port (R94). -/
def TableOk (t : List TornRecord) : Prop :=
  t.length ≤ 8 ∧ (t.map (·.serial)).Nodup ∧ ∀ p, t.countP (·.pendingAt p) ≤ 1

/-- The records of a table against one port (R95, R96). -/
def RecordsOk (t : List TornRecord) (p : Port) (l : LanePort) : Prop :=
  (∀ r ∈ t, r.state = .pending p → (l.tap = .awaitingWrite ∨ l.tap = .committing) ∧ r.serial = portSerial l)
    ∧ (l.tap = .verdictReady → holdsAccept l = true → ∀ r ∈ t, r.serial ≠ portSerial l)

theorem tornOk_iff (s : State) : TornOk s ↔ TableOk s.ve.torn ∧ (∀ p, RecordsOk s.ve.torn p (s.port p)) ∧ FlightOk s
    ∧ ∀ e, s.ve.eval = some e → EvalOk s.ve e := by
  constructor
  · rintro ⟨hlen, hnodup, hone, hpending, hunread, hflight, heval⟩
    exact ⟨⟨hlen, hnodup, hone⟩, fun p => ⟨fun r hr => hpending r hr p, hunread p⟩, hflight, heval⟩
  · rintro ⟨⟨hlen, hnodup, hone⟩, hrecords, hflight, heval⟩
    exact ⟨hlen, hnodup, hone, fun r hr p => (hrecords p).1 r hr, fun p => (hrecords p).2, hflight, heval⟩

/-- The serial that a port holds in flight (R76). -/
def carries (l : LanePort) (n : Nat) : Prop := (unreported l = true ∨ l.tap = .committing) ∧ portSerial l = n

theorem flightOk_iff (s : State) : FlightOk s ↔ (∀ n p, (n, p) ∈ s.ve.inFlight ↔ carries (s.port p) n)
    ∧ ∀ n, ¬ ((n, Port.a) ∈ s.ve.inFlight ∧ (n, Port.b) ∈ s.ve.inFlight) := Iff.rfl

theorem pendingAt_iff (r : TornRecord) (p : Port) : r.pendingAt p = true ↔ r.state = .pending p := by
  unfold TornRecord.pendingAt
  cases r.state <;> simp

theorem unresolvedOf_isSome_iff (t : List TornRecord) (n : Nat) :
    (unresolvedOf t n).isSome = true ↔ ∃ r ∈ t, r.serial = n ∧ r.window.isSome = true := by
  simp [unresolvedOf, List.find?_isSome]

theorem unresolvedOf_some {t : List TornRecord} {n : Nat} {r : TornRecord} (h : unresolvedOf t n = some r) :
    r ∈ t ∧ r.serial = n ∧ r.window.isSome = true := by
  have hp := List.find?_some h
  simp only [Bool.and_eq_true, beq_iff_eq] at hp
  exact ⟨List.mem_of_find?_eq_some h, hp⟩

theorem window_isSome_iff (r : TornRecord) : r.window.isSome = true ↔ ∀ p, r.state ≠ .pending p := by
  unfold TornRecord.window
  cases r.state <;> simp

/-! ## A table that shrinks -/

/-- Some records leave, and the others keep their serials and become PENDING nowhere. -/
def Reduces (t t' : List TornRecord) : Prop :=
  ∃ (keep : TornRecord → Bool) (f : TornRecord → TornRecord), t' = (t.filter keep).map f
    ∧ ∀ r, (f r).serial = r.serial ∧ ∀ p, (f r).state = .pending p → r.state = .pending p

section Tables
variable {t t' : List TornRecord} {p : Port} {l l' : LanePort}

theorem reduces_filter (keep : TornRecord → Bool) (t : List TornRecord) : Reduces t (t.filter keep) :=
  ⟨keep, id, by simp, fun _ => ⟨rfl, fun _ => id⟩⟩

theorem reduces_map {f : TornRecord → TornRecord} (hserial : ∀ r, (f r).serial = r.serial)
    (hstate : ∀ r p, (f r).state = .pending p → r.state = .pending p) (t : List TornRecord) : Reduces t (t.map f) :=
  ⟨fun _ => true, f, by simp, fun r => ⟨hserial r, hstate r⟩⟩

theorem reduces_refl (t : List TornRecord) : Reduces t t := by
  simpa using reduces_filter (fun _ => true) t

theorem Reduces.mem (h : Reduces t t') {r' : TornRecord} (hr : r' ∈ t') :
    ∃ r ∈ t, r.serial = r'.serial ∧ ∀ p, r'.state = .pending p → r.state = .pending p := by
  obtain ⟨keep, f, rfl, hf⟩ := h
  obtain ⟨r, hkept, rfl⟩ := List.mem_map.1 hr
  exact ⟨r, (List.mem_filter.1 hkept).1, (hf r).1.symm, (hf r).2⟩

theorem TableOk.reduce (h : TableOk t) (hred : Reduces t t') : TableOk t' := by
  obtain ⟨hlen, hnodup, hone⟩ := h
  obtain ⟨keep, f, rfl, hf⟩ := hred
  have hserials : ((t.filter keep).map f).map (·.serial) = (t.filter keep).map (·.serial) := by
    rw [List.map_map]
    exact List.map_congr_left fun r _ => (hf r).1
  refine ⟨?_, ?_, fun p => ?_⟩
  · rw [List.length_map]
    exact (List.length_filter_le _ _).trans hlen
  · rw [hserials]
    exact hnodup.sublist (List.filter_sublist.map _)
  · rw [List.countP_map]
    calc (t.filter keep).countP ((·.pendingAt p) ∘ f) ≤ (t.filter keep).countP (·.pendingAt p) :=
          List.countP_mono_left fun r _ hr => (pendingAt_iff r p).2 ((hf r).2 p ((pendingAt_iff (f r) p).1 hr))
      _ ≤ t.countP (·.pendingAt p) := List.filter_sublist.countP_le
      _ ≤ 1 := hone p

theorem RecordsOk.reduce (h : RecordsOk t p l) (hred : Reduces t t') : RecordsOk t' p l := by
  refine ⟨fun r' hr' hp => ?_, fun ht ha r' hr' => ?_⟩
  · obtain ⟨r, hr, hserial, hstate⟩ := hred.mem hr'
    rw [← hserial]
    exact h.1 r hr (hstate p hp)
  · obtain ⟨r, hr, hserial, -⟩ := hred.mem hr'
    rw [← hserial]
    exact h.2 ht ha r hr

theorem RecordsOk.no_pending (h : RecordsOk t p l) (hwait : l.tap ≠ .awaitingWrite) (hcommit : l.tap ≠ .committing) :
    ∀ r ∈ t, r.state ≠ .pending p := fun r hr hp =>
  (h.1 r hr hp).1.elim hwait hcommit

theorem recordsOk_of_no_pending (h : ∀ r ∈ t, r.state ≠ .pending p)
    (hunread : l.tap = .verdictReady → holdsAccept l = true → ∀ r ∈ t, r.serial ≠ portSerial l) : RecordsOk t p l :=
  ⟨fun r hr hp => absurd hp (h r hr), hunread⟩

/-- Tap state and slot decide what a port carries and how the table stands against it. -/
theorem RecordsOk.of_same (h : RecordsOk t p l) (htap : l'.tap = l.tap) (hslot : l'.slot = l.slot) : RecordsOk t p l' := by
  simpa only [RecordsOk, portSerial, holdsAccept, htap, hslot] using h

theorem carries_of_same (htap : l'.tap = l.tap) (hslot : l'.slot = l.slot) (n : Nat) : carries l' n ↔ carries l n := by
  simp only [carries, unreported, portSerial, holdsAccept, htap, hslot]

/-- A port without a read or unread verdict and without a commit carries nothing. -/
theorem not_carries (hready : l.tap ≠ .verdictReady) (hwait : l.tap ≠ .awaitingWrite) (hcommit : l.tap ≠ .committing)
    (n : Nat) : ¬ carries l n := by
  rintro ⟨h | h, -⟩
  · obtain ⟨h | h, -⟩ := (unreported_iff l).1 h
    · exact hready h
    · exact hwait h
  · exact hcommit h

theorem not_carries_of_not_accept (ha : holdsAccept l = false) (hcommit : l.tap ≠ .committing) (n : Nat) :
    ¬ carries l n := by
  rintro ⟨h | h, -⟩
  · simp [((unreported_iff l).1 h).2] at ha
  · exact hcommit h

theorem not_carries_ended (l : LanePort) (n : Nat) : ¬ carries l.ended n :=
  not_carries (by simp [LanePort.ended]) (by simp [LanePort.ended]) (by simp [LanePort.ended]) n

end Tables

/-! ## The evaluation against the tables -/

section Eval
variable {v v' : VerdictEngine} {e : Evaluation}

theorem EvalOk.mono (h : EvalOk v e) (hflight : ∀ m ∈ v'.inFlight, m ∈ v.inFlight)
    (htorn : ∀ r' ∈ v'.torn, ∃ r ∈ v.torn, r.serial = r'.serial)
    (hheld : ∀ n, e.held = some n → (unresolvedOf v.torn n).isSome = true → (unresolvedOf v'.torn n).isSome = true) :
    EvalOk v' e := by
  obtain ⟨hpast, hclear, hserial, haccept, hresumed, hslot⟩ := h
  refine ⟨fun hs p hp => hpast hs p (hflight _ hp), fun hs ht r' hr' => ?_, hserial, haccept, fun w hw hc => ?_, hslot⟩
  · obtain ⟨r, hr, heq⟩ := htorn r' hr'
    rw [← heq]
    exact hclear hs ht r hr
  · obtain ⟨hstage, hh, hu⟩ := hresumed w hw hc
    exact ⟨hstage, hh, hheld _ hh hu⟩

theorem EvalOk.of_same (h : EvalOk v e) (hflight : v'.inFlight = v.inFlight) (htorn : v'.torn = v.torn) : EvalOk v' e :=
  h.mono (fun _ hm => hflight ▸ hm) (fun r hr => ⟨r, htorn ▸ hr, rfl⟩) (fun _ _ hu => htorn ▸ hu)

/-- A record that no evaluation holds may leave (R97, R105). -/
theorem unresolved_of_drop {t : List TornRecord} {m n : Nat} (hne : m ≠ n) (h : (unresolvedOf t m).isSome = true) :
    (unresolvedOf (tornDrop n t) m).isSome = true := by
  obtain ⟨r, hr, hserial, hw⟩ := (unresolvedOf_isSome_iff t m).1 h
  exact (unresolvedOf_isSome_iff _ m).2 ⟨r, List.mem_filter.2 ⟨hr, by simp [hserial, hne]⟩, hserial, hw⟩

theorem unresolved_of_dropPort {t : List TornRecord} {m : Nat} (p : Port) (h : (unresolvedOf t m).isSome = true) :
    (unresolvedOf (tornDropPort p t) m).isSome = true := by
  obtain ⟨r, hr, hserial, hw⟩ := (unresolvedOf_isSome_iff t m).1 h
  refine (unresolvedOf_isSome_iff _ m).2 ⟨r, List.mem_filter.2 ⟨hr, ?_⟩, hserial, hw⟩
  have := mt (pendingAt_iff r p).1 ((window_isSome_iff r).1 hw p)
  simpa using this

theorem unresolved_of_map {t : List TornRecord} {f : TornRecord → TornRecord} {m : Nat}
    (hserial : ∀ r, (f r).serial = r.serial) (hwindow : ∀ r, r.window.isSome = true → (f r).window.isSome = true)
    (h : (unresolvedOf t m).isSome = true) : (unresolvedOf (t.map f) m).isSome = true := by
  obtain ⟨r, hr, hs, hw⟩ := (unresolvedOf_isSome_iff t m).1 h
  exact (unresolvedOf_isSome_iff _ m).2 ⟨f r, List.mem_map_of_mem hr, (hserial r).trans hs, hwindow r hw⟩

end Eval

/-! ## The operations on records -/

theorem tornTick_serial (r : TornRecord) : (tornTick r).serial = r.serial := by
  unfold tornTick; split <;> rfl

theorem tornTick_pending (r : TornRecord) (p : Port) (h : (tornTick r).state = .pending p) : r.state = .pending p := by
  unfold tornTick at h
  split at h
  · cases h
  · exact h

theorem tornTick_window (r : TornRecord) (h : r.window.isSome = true) : (tornTick r).window.isSome = true := by
  unfold tornTick
  split
  · rfl
  · exact h

theorem reduces_tick (t : List TornRecord) : Reduces t (t.map tornTick) := reduces_map tornTick_serial tornTick_pending t

theorem reduces_unresolve (w : Nat) (p : Port) (t : List TornRecord) : Reduces t (tornUnresolve w p t) := by
  refine reduces_map (fun r => ?_) (fun r q h => ?_) t
  · split_ifs <;> rfl
  · split_ifs at h
    exact h

theorem unresolved_of_unresolve {t : List TornRecord} {m : Nat} (w : Nat) (p : Port)
    (h : (unresolvedOf t m).isSome = true) : (unresolvedOf (tornUnresolve w p t) m).isSome = true := by
  refine unresolved_of_map (fun r => ?_) (fun r hr => ?_) h
  · split_ifs <;> rfl
  · split_ifs
    · rfl
    · exact hr

theorem tornUnresolve_no_pending (w : Nat) (p : Port) (t : List TornRecord) :
    ∀ r ∈ tornUnresolve w p t, r.state ≠ .pending p := by
  intro r' hr' hp
  obtain ⟨r, -, rfl⟩ := List.mem_map.1 hr'
  split_ifs at hp with h
  exact h ((pendingAt_iff r p).2 hp)

theorem tornDropPort_no_pending (p : Port) (t : List TornRecord) : ∀ r ∈ tornDropPort p t, r.state ≠ .pending p := by
  intro r hr hp
  have := (List.mem_filter.1 hr).2
  simp [(pendingAt_iff r p).2 hp] at this

theorem reduces_afterReset (w : Nat) (t : List TornRecord) : Reduces t (tornAfterReset w t) := by
  refine reduces_map (fun r => ?_) (fun r q h => ?_) t
  · split <;> rfl
  · split at h
    · cases h
    · exact h

theorem tornAfterReset_no_pending (w : Nat) (t : List TornRecord) (p : Port) :
    ∀ r ∈ tornAfterReset w t, r.state ≠ .pending p := by
  intro r' hr' hp
  obtain ⟨r, -, rfl⟩ := List.mem_map.1 hr'
  split at hp
  · cases hp
  · rename_i hw; rw [hw] at hp; cases hp

/-! ## A stage of the evaluation -/

/-- A stage that follows the torn stage (the table before R69). -/
def pastTorn (g : Stage) : Prop := pastInFlight g ∧ g ≠ .torn

/-- How a stage can end: the evaluation goes on, is refused, has its reservations made, or goes on without its torn record. -/
inductive StageEnds (s : State) (e : Evaluation) : State → Prop
  | on (t : State) (e' : Evaluation) (hve : t.ve = { s.ve with eval := some e' }) (hjn : JournalQuiet s.jn t.jn)
      (htap : e'.port = e.port ∧ e'.image = e.image ∧ e'.slotMade = e.slotMade) (hheld : e'.held = e.held)
      (hverdict : e'.verdict = none) (hflight : pastInFlight e'.stage → pastInFlight e.stage ∨ inFlightElsewhere e s = false)
      (htorn : pastTorn e'.stage → pastTorn e.stage ∨ unresolvedOf s.ve.torn e.card.serial = none) : StageEnds s e t
  | refused (t : State) (e' : Evaluation) (w : Verdict) (hve : t.ve = { s.ve with eval := some e' })
      (hjn : JournalQuiet s.jn t.jn) (htap : e'.port = e.port ∧ e'.image = e.image ∧ e'.slotMade = e.slotMade)
      (hheld : e'.held = e.held ∨ e'.held = some e.card.serial) (hstage : e'.stage = e.stage)
      (hverdict : e'.verdict = some w) (hcode : w.code ≠ .accept ∧ w.code ≠ .resumed) : StageEnds s e t
  | reserved (t : State) (e' : Evaluation) (w : Verdict) (hve : t.ve = { s.ve with eval := some e' })
      (hjn : reserveSlot s.jn = some t.jn) (htap : e'.port = e.port ∧ e'.image = e.image) (hslot : e'.slotMade = true)
      (hstage : e'.stage = e.stage) (hverdict : e'.verdict = some w)
      (hcode : w.code = .accept ∧ e.stage = .reservations ∧ e'.held = e.held
        ∨ w.code = .resumed ∧ e.stage = .torn ∧ e'.held = some e.card.serial
          ∧ (unresolvedOf s.ve.torn e.card.serial).isSome = true) : StageEnds s e t
  | cleared (t : State) (e' : Evaluation)
      (hve : t.ve = { s.ve with eval := some e', torn := tornDrop e.card.serial s.ve.torn }) (hjn : JournalQuiet s.jn t.jn)
      (htap : e'.port = e.port ∧ e'.image = e.image ∧ e'.slotMade = e.slotMade) (hheld : e'.held = some e.card.serial)
      (hverdict : e'.verdict = none) (hstage : e.stage = .torn) : StageEnds s e t

section Stages
variable {s : State} {e : Evaluation}

theorem goOn_ends {st : Stage} (hv : e.verdict = none) (t : State) (hve : t.ve = s.ve) (hjn : JournalQuiet s.jn t.jn)
    (hflight : pastInFlight st → pastInFlight e.stage ∨ inFlightElsewhere e s = false)
    (htorn : pastTorn st → pastTorn e.stage ∨ unresolvedOf s.ve.torn e.card.serial = none) :
    StageEnds s e (goOn st e t) :=
  .on _ { e with stage := st } (by simp [goOn, State.setEval, hve]) hjn ⟨rfl, rfl, rfl⟩ rfl hv hflight htorn

theorem decided_ends (t : State) (hve : t.ve = s.ve) (hjn : JournalQuiet s.jn t.jn) (e' : Evaluation)
    (htap : e'.port = e.port ∧ e'.image = e.image ∧ e'.slotMade = e.slotMade) (hstage : e'.stage = e.stage)
    (hheld : e'.held = e.held ∨ e'.held = some e.card.serial) {w : Verdict}
    (hcode : w.code ≠ .accept ∧ w.code ≠ .resumed) : StageEnds s e (decided w e' t) :=
  .refused _ { e' with verdict := some w } w (by simp [decided, State.setEval, hve]) hjn htap hheld hstage rfl hcode

theorem refused_ends {code : VCode} {detail : Nat} (t : State) (hve : t.ve = s.ve) (hjn : JournalQuiet s.jn t.jn)
    (hcode : code ≠ .accept ∧ code ≠ .resumed) : StageEnds s e (refused code detail e t) :=
  decided_ends t hve hjn e ⟨rfl, rfl, rfl⟩ rfl (.inl rfl) hcode

/-- A stage that only refuses. -/
theorem refused_here {code : VCode} {detail : Nat} (hcode : code ≠ .accept ∧ code ≠ .resumed) :
    StageEnds s e (refused code detail e s) := refused_ends s rfl (journalQuiet_refl _) hcode

theorem reserveBoth_ends (d : Option Dir) {v : Verdict} {e1 : Evaluation} (htap : e1.port = e.port ∧ e1.image = e.image
    ∧ e1.slotMade = e.slotMade) (hstage : e1.stage = e.stage) (hheld : e1.held = e.held ∨ e1.held = some e.card.serial)
    (hcode : v.code = .accept ∧ e.stage = .reservations ∧ e1.held = e.held
        ∨ v.code = .resumed ∧ e.stage = .torn ∧ e1.held = some e.card.serial
          ∧ (unresolvedOf s.ve.torn e.card.serial).isSome = true) : StageEnds s e (reserveBoth d v e1 s) := by
  obtain ⟨hport, himage, -⟩ := id htap
  unfold reserveBoth
  split
  · exact decided_ends s rfl (journalQuiet_refl _) e1 htap hstage hheld ⟨by simp [refusal], by simp [refusal]⟩
  · dsimp only
    split
    · have hfull {t : State} (hve : t.ve = s.ve) (hjn : t.jn = s.jn) : StageEnds s e (refused .outOfService 5 e1 t) :=
        decided_ends t hve (hjn ▸ journalQuiet_refl _) e1 htap hstage hheld ⟨by simp [refusal], by simp [refusal]⟩
      cases d with
      | none => exact hfull rfl rfl
      | some d => exact hfull rfl rfl
    · rename_i j hj
      exact .reserved _ _ v rfl hj ⟨hport, himage⟩ rfl hstage rfl hcode

/-- A stage before or at the torn stage is none that follows it. -/
theorem not_pastTorn_torn : ¬ pastTorn .torn := fun h => h.2 rfl

theorem tornStage_ends (hv : e.verdict = none) (hst : e.stage = .torn) : StageEnds s e (tornStage e s) := by
  have hpast : pastInFlight e.stage := by rw [hst]; exact ⟨nofun, nofun, nofun⟩
  unfold tornStage
  split
  · rename_i hnone
    exact goOn_ends hv s rfl (journalQuiet_refl _) (fun _ => .inl hpast) (fun _ => .inr hnone)
  · rename_i r hr
    obtain ⟨-, hserial, -⟩ := unresolvedOf_some hr
    have hheld : ({ e with held := some r.serial } : Evaluation).held = some e.card.serial := congrArg some hserial
    have hdamaged (detail : Nat) : StageEnds s e (refused .damaged detail { e with held := some r.serial } s) :=
      decided_ends (e := e) s rfl (journalQuiet_refl _) { e with held := some r.serial } ⟨rfl, rfl, rfl⟩ rfl (.inr hheld)
        (w := refusal _ .damaged detail) ⟨nofun, nofun⟩
    dsimp only
    split
    · exact hdamaged 1
    · split_ifs
      · exact hdamaged 2
      · exact reserveBoth_ends r.dir ⟨rfl, rfl, rfl⟩ rfl (.inr hheld) (.inr ⟨rfl, hst, hheld, by rw [hr]; rfl⟩)
      · exact .cleared _ { e with held := some r.serial, stage := .keyCheck } (by rw [← hserial]; rfl)
          (journalQuiet_refl _) ⟨rfl, rfl, rfl⟩ hheld hv hst
      · exact .cleared _ { e with held := some r.serial, stage := .keyCheck } (by rw [← hserial]; rfl)
          (requestAlerts_quiet _ _ _) ⟨rfl, rfl, rfl⟩ hheld hv hst

theorem cloneStage_ends (hv : e.verdict = none) (hst : e.stage = .clone) : StageEnds s e (cloneStage e s) := by
  have hpast : pastTorn e.stage := by rw [hst]; exact ⟨⟨nofun, nofun, nofun⟩, nofun⟩
  unfold cloneStage
  dsimp only
  split
  · exact goOn_ends hv s rfl (journalQuiet_refl _) (fun _ => .inl hpast.1) (fun _ => .inl hpast)
  · split
    · exact goOn_ends hv _ rfl (journalQuiet_refl _) (fun _ => .inl hpast.1) (fun _ => .inl hpast)
    · exact refused_ends _ rfl (requestAlerts_quiet _ _ _) (by decide)

theorem fareStage_ends (hv : e.verdict = none) (hst : e.stage = .fare) : StageEnds s e (fareStage e s) := by
  have hpast : pastTorn e.stage := by rw [hst]; exact ⟨⟨nofun, nofun, nofun⟩, nofun⟩
  have hon (fr : FareResult) : StageEnds s e (goOn .reservations { e with fare := some fr } s) :=
    .on _ { e with fare := some fr, stage := .reservations } rfl (journalQuiet_refl _) ⟨rfl, rfl, rfl⟩ rfl hv
      (fun _ => .inl hpast.1) (fun _ => .inl hpast)
  unfold fareStage
  split_ifs
  · exact hon _
  · split
    · exact refused_here (by decide)
    · rename_i b _
      cases ho : chargingOutcome e b s with
      | refused code detail charge balance =>
        unfold fareEnd
        dsimp only
        split_ifs
        · exact decided_ends s rfl (journalQuiet_refl _) e ⟨rfl, rfl, rfl⟩ rfl (.inl rfl)
            ⟨by simp [insufficientVerdict, refusal], by simp [insufficientVerdict, refusal]⟩
        · exact refused_here (fare_codes e b s _ _ _ _ ho)
      | done => exact hon _

theorem evalStep_ends (he : s.ve.eval = some e) (hv : e.verdict = none) : StageEnds s e (evalStep s) := by
  have hquiet := journalQuiet_refl s.jn
  unfold evalStep
  rw [he]
  simp only [hv, Option.isSome_none, Bool.false_eq_true, if_false]
  cases hst : e.stage with
  | gate =>
    show StageEnds s e (gateStage e s)
    unfold gateStage
    dsimp only
    split
    · rename_i hgate
      refine decided_ends (e := e) s rfl hquiet
        { e with freeExit := isFreeExit e.port s, gateVersion := s.fu.activeVersion } ⟨rfl, rfl, rfl⟩ rfl (.inl rfl) ?_
      exact gate_codes _ _ _ _ _ hgate
    · exact .on _ { e with freeExit := _, gateVersion := _, stage := .form } rfl hquiet ⟨rfl, rfl, rfl⟩ rfl hv
        (fun h => absurd rfl h.2.1) (fun h => absurd rfl h.1.2.1)
  | form =>
    show StageEnds s e (formStage e s)
    unfold formStage
    split
    · exact refused_here (by decide)
    · exact goOn_ends hv s rfl hquiet (fun h => absurd rfl h.2.2) (fun h => absurd rfl h.1.2.2)
  | inFlight =>
    show StageEnds s e (inFlightStage e s)
    unfold inFlightStage
    split_ifs with helse
    · exact refused_here (by decide)
    · exact goOn_ends hv s rfl hquiet (fun _ => .inr (by simpa using helse)) (fun h => absurd h not_pastTorn_torn)
  | torn => exact tornStage_ends hv hst
  | keyCheck =>
    have hpast : pastTorn e.stage := by rw [hst]; exact ⟨⟨nofun, nofun, nofun⟩, nofun⟩
    show StageEnds s e (keyCheckStage e s)
    unfold keyCheckStage
    split
    · exact refused_here (by decide)
    · split_ifs
      · exact refused_here (by decide)
      · exact goOn_ends hv s rfl hquiet (fun _ => .inl hpast.1) (fun _ => .inl hpast)
  | deny =>
    have hpast : pastTorn e.stage := by rw [hst]; exact ⟨⟨nofun, nofun, nofun⟩, nofun⟩
    show StageEnds s e (denyStage e s)
    unfold denyStage
    split
    · exact refused_here (by decide)
    · exact goOn_ends hv s rfl hquiet (fun _ => .inl hpast.1) (fun _ => .inl hpast)
  | clone => exact cloneStage_ends hv hst
  | exhaustion =>
    have hpast : pastTorn e.stage := by rw [hst]; exact ⟨⟨nofun, nofun, nofun⟩, nofun⟩
    show StageEnds s e (exhaustionStage e s)
    unfold exhaustionStage
    split_ifs
    · exact refused_here (by decide)
    · exact goOn_ends hv s rfl hquiet (fun _ => .inl hpast.1) (fun _ => .inl hpast)
  | fare => exact fareStage_ends hv hst
  | reservations =>
    have hpast : pastTorn e.stage := by rw [hst]; exact ⟨⟨nofun, nofun, nofun⟩, nofun⟩
    show StageEnds s e (reservationsStage e s)
    unfold reservationsStage
    split
    · exact goOn_ends hv s rfl hquiet (fun _ => .inl hpast.1) (fun _ => .inl hpast)
    · exact reserveBoth_ends _ ⟨rfl, rfl, rfl⟩ rfl (.inl rfl) (.inl ⟨rfl, hst, rfl⟩)

end Stages

/-! ## One port changes -/

section Operations
variable {s u : State} {p : Port} {l : LanePort}

/-- A port is set, the table shrinks, and what the ports carry stays in agreement with the in-flight set. -/
theorem TornOk.setPort (h : TornOk s) (hport : ∀ q, u.port q = s.port q) (hred : Reduces s.ve.torn u.ve.torn)
    (hrec : RecordsOk u.ve.torn p l) (hmine : ∀ n, (n, p) ∈ u.ve.inFlight ↔ carries l n)
    (hothers : ∀ q, q ≠ p → ∀ n, (n, q) ∈ u.ve.inFlight ↔ (n, q) ∈ s.ve.inFlight)
    (hless : ∀ m ∈ u.ve.inFlight, m ∈ s.ve.inFlight) (heval : ∀ e, u.ve.eval = some e → EvalOk u.ve e) :
    TornOk (u.setPort p l) := by
  obtain ⟨htable, hrecords, ⟨hflight, hapart⟩, -⟩ := (tornOk_iff s).1 h
  refine (tornOk_iff _).2 ⟨by simpa using htable.reduce hred, fun q => ?_, ⟨fun n q => ?_, fun n => ?_⟩, by simpa using heval⟩
  · rw [port_upd, setPort_ve]
    split_ifs with hq
    · subst hq; exact hrec
    · rw [hport]; exact (hrecords q).reduce hred
  · rw [port_upd, setPort_ve]
    split_ifs with hq
    · subst hq; exact hmine n
    · rw [hport, hothers q hq]; exact hflight n q
  · rw [setPort_ve]
    exact fun hboth => hapart n ⟨hless _ hboth.1, hless _ hboth.2⟩

/-- A port that carried nothing is set to one that carries nothing. -/
theorem TornOk.setPort_free (h : TornOk s) (hport : ∀ q, u.port q = s.port q) (htorn : u.ve.torn = s.ve.torn)
    (hflight : u.ve.inFlight = s.ve.inFlight) (hwait : (s.port p).tap ≠ .awaitingWrite)
    (hcommit : (s.port p).tap ≠ .committing) (hwas : ∀ n, ¬ carries (s.port p) n) (hnow : ∀ n, ¬ carries l n)
    (heval : ∀ e, u.ve.eval = some e → EvalOk u.ve e) : TornOk (u.setPort p l) := by
  obtain ⟨-, hrecords, ⟨hin, -⟩, -⟩ := (tornOk_iff s).1 h
  refine h.setPort hport (htorn ▸ reduces_refl _) (recordsOk_of_no_pending ?_ fun ht ha => ?_) (fun n => ?_)
    (fun _ _ _ => by rw [hflight]) (fun _ hm => hflight ▸ hm) heval
  · rw [htorn]
    exact (hrecords p).no_pending hwait hcommit
  · exact absurd ⟨.inl ((unreported_iff l).2 ⟨.inl ht, ha⟩), rfl⟩ (hnow (portSerial l))
  · rw [hflight]
    exact iff_of_false (fun hm => hwas n ((hin n p).1 hm)) (hnow n)

theorem TornOk.evalOk (h : TornOk s) {e : Evaluation} (he : s.ve.eval = some e) : EvalOk s.ve e :=
  ((tornOk_iff s).1 h).2.2.2 e he

/-- A table that shrinks with the ports, the in-flight set and the evaluation as they are. -/
theorem TornOk.reduce (h : TornOk s) {t : State} (hport : ∀ q, t.port q = s.port q) (hred : Reduces s.ve.torn t.ve.torn)
    (hflight : t.ve.inFlight = s.ve.inFlight) (heval : ∀ e, t.ve.eval = some e → EvalOk t.ve e) : TornOk t := by
  obtain ⟨htable, hrecords, hfl, -⟩ := (tornOk_iff s).1 h
  refine (tornOk_iff t).2 ⟨htable.reduce hred, fun q => hport q ▸ (hrecords q).reduce hred, ?_, heval⟩
  simpa only [FlightOk, hport, hflight] using hfl

theorem tornOk_quiet {t : State} (h : TornOk s) (hq : Quiet s t) : TornOk t := by
  obtain ⟨htable, hrecords, ⟨hflight, hapart⟩, heval⟩ := (tornOk_iff s).1 h
  refine (tornOk_iff t).2 ⟨hq.ve ▸ htable, fun p => ?_, ⟨fun n p => ?_, ?_⟩, ?_⟩ <;> rw [hq.ve]
  · exact (hrecords p).of_same (hq.tap p) (hq.slot p)
  · exact (hflight n p).trans (carries_of_same (hq.tap p) (hq.slot p) n).symm
  · exact hapart
  · exact heval

theorem tornOk_drop (h : TornOk s) (n : Nat) (hn : heldSerial s.ve ≠ some n) :
    TornOk (s.setTorn (tornDrop n s.ve.torn)) := by
  have hred : Reduces s.ve.torn (tornDrop n s.ve.torn) := reduces_filter _ _
  refine h.reduce (by simp) hred rfl fun e he => (h.evalOk he).mono (fun _ hm => hm) (fun r hr => ?_) fun m hm hu => ?_
  · obtain ⟨r', hr', hserial, -⟩ := hred.mem hr
    exact ⟨r', hr', hserial⟩
  · refine unresolved_of_drop ?_ hu
    rintro rfl
    have he' : s.ve.eval = some e := he
    exact hn (by rw [heldSerial, he']; exact hm)

theorem tornOk_tick (h : TornOk s) : TornOk (s.setTorn (s.ve.torn.map tornTick)) := by
  have hred := reduces_tick s.ve.torn
  refine h.reduce (by simp) hred rfl fun e he => (h.evalOk he).mono (fun _ hm => hm) (fun r hr => ?_) fun m _ hu => ?_
  · obtain ⟨r', hr', hserial, -⟩ := hred.mem hr
    exact ⟨r', hr', hserial⟩
  · exact unresolved_of_map tornTick_serial tornTick_window hu

/-! ## The stages -/

theorem inFlightElsewhere_false {e : Evaluation} (h : inFlightElsewhere e s = false) :
    ∀ p, (e.card.serial, p) ∈ s.ve.inFlight → p = e.port := by
  intro p hp
  by_contra hne
  have hany : inFlightElsewhere e s = true := List.any_eq_true.2 ⟨_, hp, by simp [hne]⟩
  rw [h] at hany
  cases hany

/-- With no UNRESOLVED record of its serial, the evaluation past the in-flight stage finds none at all: one that is PENDING
would be of a serial in flight at its own port (R76, R95). -/
theorem no_record_of_unresolved {e : Evaluation} (htaps : TapsOk s) (h : TornOk s) (he : s.ve.eval = some e)
    (hpast : ∀ p, (e.card.serial, p) ∈ s.ve.inFlight → p = e.port)
    (hnone : unresolvedOf s.ve.torn e.card.serial = none) : ∀ r ∈ s.ve.torn, r.serial ≠ e.card.serial := by
  intro r hr hserial
  obtain ⟨-, hrecords, ⟨hflight, -⟩, -⟩ := (tornOk_iff s).1 h
  by_cases hw : r.window.isSome = true
  · have := (unresolvedOf_isSome_iff _ _).2 ⟨r, hr, hserial, hw⟩
    rw [hnone] at this
    cases this
  · obtain ⟨p, hp⟩ : ∃ p, r.state = .pending p := by
      by_contra hno
      exact hw ((window_isSome_iff r).2 fun p hp => hno ⟨p, hp⟩)
    obtain ⟨htap, hsame⟩ := (hrecords p).1 r hr hp
    have hcarry : carries (s.port p) e.card.serial := by
      refine ⟨htap.imp (fun hw => (unreported_iff _).2 ⟨.inr hw, ?_⟩) id, by rw [← hsame, hserial]⟩
      exact (htaps.portOk p).2.2.2.2.1 hw
    have hport := hpast p ((hflight _ _).2 hcarry)
    have hev := htaps.evaluating he
    rw [← hport] at hev
    rcases htap with ht | ht <;> rw [ht] at hev <;> cases hev

theorem evalOk_stage {e : Evaluation} {t : State} (htaps : TapsOk s) (h : TornOk s) (he : s.ve.eval = some e)
    (hv : e.verdict = none) (hends : StageEnds s e t) : ∀ e', t.ve.eval = some e' → EvalOk t.ve e' := by
  obtain ⟨hpast, hclear, hserial, -, -, hslot⟩ := h.evalOk he
  have hfree : ¬ e.slotMade = true := by rw [hslot, hv]; simp
  intro e1 he1
  cases hends with
  | on e' hve _ htap hheld hverdict hflight htorn =>
    obtain ⟨hport, himage, hmade⟩ := htap
    rw [hve] at he1 ⊢
    cases he1
    have hcard : e1.card = e.card := by rw [Evaluation.card, Evaluation.card, himage]
    have hall (hs : pastInFlight e1.stage) : ∀ p, (e.card.serial, p) ∈ s.ve.inFlight → p = e.port :=
      (hflight hs).elim hpast inFlightElsewhere_false
    refine ⟨fun hs p hp => ?_, fun hs ht r hr => ?_, fun n hn => ?_, fun w hw => ?_, fun w hw => ?_, ?_⟩
    · rw [hcard] at hp; rw [hport]; exact hall hs p hp
    · rw [hcard]
      obtain hwas | hnone := htorn ⟨hs, ht⟩
      · exact hclear hwas.1 hwas.2 r hr
      · exact no_record_of_unresolved htaps h he (hall hs) hnone r hr
    · rw [hcard]; exact hserial n (hheld ▸ hn)
    · rw [hverdict] at hw; cases hw
    · rw [hverdict] at hw; cases hw
    · rw [hmade, hverdict]; simpa using hfree
  | refused e' w hve _ htap hheld hstage hverdict hcode =>
    obtain ⟨hport, himage, hmade⟩ := htap
    rw [hve] at he1 ⊢
    cases he1
    have hcard : e1.card = e.card := by rw [Evaluation.card, Evaluation.card, himage]
    refine ⟨fun hs p hp => ?_, fun hs ht r hr => ?_, fun n hn => ?_, fun x hx hc => ?_, fun x hx hc => ?_, ?_⟩
    · rw [hcard] at hp; rw [hport]; exact hpast (hstage ▸ hs) p hp
    · rw [hcard]; exact hclear (hstage ▸ hs) (hstage ▸ ht) r hr
    · rw [hcard]
      obtain hsame | hown := hheld
      · exact hserial n (hsame ▸ hn)
      · rw [hown] at hn; exact (Option.some.inj hn).symm
    · rw [hverdict] at hx; cases hx; exact absurd hc hcode.1
    · rw [hverdict] at hx; cases hx; exact absurd hc hcode.2
    · rw [hmade, hverdict]; simpa [hcode] using hfree
  | reserved e' w hve _ htap hmade hstage hverdict hcode =>
    obtain ⟨hport, himage⟩ := htap
    rw [hve] at he1 ⊢
    cases he1
    have hcard : e1.card = e.card := by rw [Evaluation.card, Evaluation.card, himage]
    refine ⟨fun hs p hp => ?_, fun hs ht r hr => ?_, fun n hn => ?_, fun x hx hc => ?_, fun x hx hc => ?_, ?_⟩
    · rw [hcard] at hp; rw [hport]; exact hpast (hstage ▸ hs) p hp
    · rw [hcard]; exact hclear (hstage ▸ hs) (hstage ▸ ht) r hr
    · rw [hcard]
      obtain ⟨-, -, hsame⟩ | ⟨-, -, hown, -⟩ := hcode
      · exact hserial n (hsame ▸ hn)
      · rw [hown] at hn; exact (Option.some.inj hn).symm
    · rw [hverdict] at hx; cases hx
      obtain ⟨-, hst, -⟩ | ⟨hres, -⟩ := hcode
      · rw [hstage, hst]
      · rw [hres] at hc; cases hc
    · rw [hverdict] at hx; cases hx
      obtain ⟨hacc, -⟩ | ⟨-, hst, hown, hu⟩ := hcode
      · rw [hacc] at hc; cases hc
      · rw [hstage, hcard]; exact ⟨hst, hown, hu⟩
    · rw [hmade, hverdict]
      exact iff_of_true rfl ⟨w, rfl, hcode.imp And.left And.left⟩
  | cleared e' hve _ htap hheld hverdict hst =>
    obtain ⟨hport, himage, hmade⟩ := htap
    rw [hve] at he1 ⊢
    cases he1
    have hcard : e1.card = e.card := by rw [Evaluation.card, Evaluation.card, himage]
    have hall : pastInFlight e.stage := by rw [hst]; exact ⟨nofun, nofun, nofun⟩
    refine ⟨fun hs p hp => ?_, fun hs ht r hr => ?_, fun n hn => ?_, fun w hw => ?_, fun w hw => ?_, ?_⟩
    · rw [hcard] at hp; rw [hport]; exact hpast hall p hp
    · rw [hcard]; simpa using (List.mem_filter.1 hr).2
    · rw [hcard]; rw [hheld] at hn; exact (Option.some.inj hn).symm
    · rw [hverdict] at hw; cases hw
    · rw [hverdict] at hw; cases hw
    · rw [hmade, hverdict]; simpa using hfree

theorem evalStep_torn {e : Evaluation} {t : State} (hends : StageEnds s e t) : Reduces s.ve.torn t.ve.torn := by
  cases hends with
  | on e' hve => rw [hve]; exact reduces_refl _
  | refused e' w hve => rw [hve]; exact reduces_refl _
  | reserved e' w hve => rw [hve]; exact reduces_refl _
  | cleared e' hve => rw [hve]; exact reduces_filter _ _

theorem evalStep_of_done (h : s.ve.eval = none ∨ ∃ e, s.ve.eval = some e ∧ e.verdict ≠ none) : evalStep s = s := by
  unfold evalStep
  obtain he | ⟨e, he, hv⟩ := h
  · rw [he]
  · rw [he]
    exact if_pos (Option.isSome_iff_ne_none.2 hv)

theorem tornOk_evalStep (htaps : TapsOk s) (h : TornOk s) : TornOk (evalStep s) := by
  cases he : s.ve.eval with
  | none => rw [evalStep_of_done (.inl he)]; exact h
  | some e =>
    by_cases hv : e.verdict = none
    · have hends := evalStep_ends he hv
      obtain ⟨hport, -, hflight, -⟩ := evalStep_keep s
      exact h.reduce hport (evalStep_torn hends) hflight (evalOk_stage htaps h he hv hends)
    · rw [evalStep_of_done (.inr ⟨e, he, hv⟩)]; exact h

end Operations

end Sys2Proof.Machine
end

