-- ==== Sys2Proof/Proofs/TornKept.lean ====
section
/-! PROOFS. The operations of the Verdict Engine on the Torn-Write Table and the in-flight set, and with them every step (R76, R79,
R80, R84, R87, R96, R97, R101, R106). -/

namespace Sys2Proof.Machine

section Operations
variable {s : State} {p : Port}

/-! ## Operations that leave the table and the set -/

theorem evalOk_none {v : VerdictEngine} (hv : v.eval = none) : ∀ e, v.eval = some e → EvalOk v e := fun e he => by
  rw [hv] at he; cases he

theorem not_carries_of_tap {l : LanePort} {t : TapState} (ht : l.tap = t) (h : t ≠ .verdictReady ∧ t ≠ .awaitingWrite ∧ t ≠ .committing)
    (n : Nat) : ¬ carries l n := not_carries (ht ▸ h.1) (ht ▸ h.2.1) (ht ▸ h.2.2) n

theorem tornOk_dropped (h : TornOk s) {e : Evaluation} (ht : (s.port e.port).tap = .evaluating) :
    TornOk (let s1 := s.setEval none
       let s2 := if e.slotMade then { s1 with jn := releaseSlot s1.jn } else s1
       s2.setPort e.port (s2.port e.port).ended) := by
  have hwas := not_carries_of_tap ht (by decide)
  dsimp only
  split_ifs
  · exact h.setPort_free (fun q => by cases q <;> rfl) rfl rfl (by simp [ht]) (by simp [ht]) hwas (not_carries_ended _)
      (evalOk_none rfl)
  · exact h.setPort_free (fun q => by cases q <;> rfl) rfl rfl (by simp [ht]) (by simp [ht]) hwas (not_carries_ended _)
      (evalOk_none rfl)

/-- An evaluation that begins has passed no stage. -/
theorem evalOk_fresh (v : VerdictEngine) (p : Port) (image : List Byte) : EvalOk v (freshEvaluation p image) :=
  ⟨fun h => absurd rfl h.1, fun h => absurd rfl h.1, nofun, nofun, nofun, iff_of_false nofun (by rintro ⟨_, h, _⟩; cases h)⟩

theorem tornOk_begin {rest : List Port} (htaps : TapsOk s) (h : TornOk s) (hq : s.ve.queue = p :: rest) :
    TornOk (beginEvaluation p rest s) := by
  have htap : (s.port p).tap = .queued := (htaps.portOk p).2.1.1 (by simp [hq])
  unfold beginEvaluation
  refine h.setPort_free (fun _ => rfl) rfl rfl (by simp [htap]) (by simp [htap]) (not_carries_of_tap htap (by decide))
    (not_carries_of_tap (t := .evaluating) rfl (by decide)) fun e he => ?_
  cases he
  exact evalOk_fresh _ _ _

theorem joinQueue_setPort (l : LanePort) : joinQueue p (s.setPort p l) = (joinQueue p s).setPort p l := by
  cases p <;> rfl

theorem tornOk_join (h : TornOk s) (ht : (s.port p).tap = .idle) (image : List Byte) :
    TornOk (joinQueue p (s.setPort p ((s.port p).tapped image))) := by
  rw [joinQueue_setPort]
  exact h.setPort_free (fun _ => rfl) rfl rfl (by simp [ht]) (by simp [ht]) (not_carries_of_tap ht (by decide))
    (not_carries_of_tap (t := .queued) rfl (by decide)) fun e he => (h.evalOk he).of_same rfl rfl

theorem tornOk_withdraw (h : TornOk s) (ht : (s.port p).tap = .queued) : TornOk (withdrawQueued p s) :=
  h.setPort_free (fun _ => rfl) rfl rfl (by simp [ht]) (by simp [ht]) (not_carries_of_tap ht (by decide))
    (not_carries_ended _) fun e he => (h.evalOk he).of_same rfl rfl

theorem tornOk_discard (h : TornOk s) (ht : (s.port p).tap = .verdictReady) (ha : holdsAccept (s.port p) = false) :
    TornOk (s.setPort p (s.port p).ended) :=
  h.setPort_free (fun _ => rfl) rfl rfl (by simp [ht]) (by simp [ht]) (not_carries_of_not_accept ha (by simp [ht]))
    (not_carries_ended _) fun e he => (h.evalOk he).of_same rfl rfl

/-! ## Abandon and commit (R84, R87) -/

/-- A port's serial leaves the in-flight set with its record's PENDING state. -/
theorem TornOk.leave (h : TornOk s) {u : State} {l : LanePort} (hport : ∀ q, u.port q = s.port q)
    (hred : Reduces s.ve.torn u.ve.torn) (hflight : u.ve.inFlight = s.ve.inFlight.filter (fun m => m.2 != p))
    (heval : u.ve.eval = s.ve.eval) (hpending : ∀ r ∈ u.ve.torn, r.state ≠ .pending p) (hnow : ∀ n, ¬ carries l n)
    (hheld : ∀ n, (unresolvedOf s.ve.torn n).isSome = true → (unresolvedOf u.ve.torn n).isSome = true) :
    TornOk (u.setPort p l) := by
  refine h.setPort hport hred (recordsOk_of_no_pending hpending fun ht ha => ?_) (fun n => ?_) (fun q hq n => ?_)
    (fun m hm => ?_) fun e he => ?_
  · exact absurd ⟨.inl ((unreported_iff l).2 ⟨.inl ht, ha⟩), rfl⟩ (hnow (portSerial l))
  · rw [hflight]
    exact iff_of_false (by simp) (hnow n)
  · rw [hflight]
    simp [hq]
  · rw [hflight] at hm
    exact (List.mem_filter.1 hm).1
  · rw [heval] at he
    refine (h.evalOk he).mono (fun m hm => ?_) (fun r hr => ?_) (fun n _ hu => hheld n hu)
    · rw [hflight] at hm
      exact (List.mem_filter.1 hm).1
    · obtain ⟨r', hr', hserial, -⟩ := hred.mem hr
      exact ⟨r', hr', hserial⟩

theorem tornOk_abandon (h : TornOk s) (fate : TornFate) : TornOk (abandon p fate s) := by
  unfold abandon
  cases fate with
  | remove =>
    exact h.leave (fun q => by cases q <;> rfl) (reduces_filter _ _) rfl rfl (tornDropPort_no_pending p _)
      (not_carries_ended _) fun _ => unresolved_of_dropPort p
  | keep =>
    exact h.leave (fun q => by cases q <;> rfl) (reduces_unresolve _ _ _) rfl rfl (tornUnresolve_no_pending _ p _)
      (not_carries_ended _) fun _ => unresolved_of_unresolve _ p

theorem not_carries_commitPort (l : LanePort) (n : Nat) : ¬ carries (commitPort l) n := by
  obtain ⟨heq, v, hverdict, hcode⟩ | heq := commitPort_cases l <;> rw [heq]
  · refine not_carries_of_not_accept ?_ (by simp) n
    rw [holdsAccept_of_verdict (l := { l with tap := .verdictReady }) hverdict, hcode]
    rfl
  · exact not_carries_of_tap (t := .idle) rfl (by decide) n

theorem tornOk_complete (h : TornOk s) (a : Append) (rest : List Append) : TornOk (takeCompletion a rest s) := by
  have hwithout : TornOk { s with jn := completeAppend a rest s.jn } :=
    h.reduce (fun q => by cases q <;> rfl) (reduces_refl _) rfl fun e he => h.evalOk he
  cases hc : a.commit with
  | none => rw [takeCompletion_alone hc]; exact hwithout
  | some p =>
    rw [takeCompletion_commit hc, completeCommit_eq]
    exact hwithout.leave (fun q => port_of_parts (by simp) (by simp)) (reduces_filter _ _) rfl (by simp)
      (tornDropPort_no_pending p _) (not_carries_commitPort _) fun _ => unresolved_of_dropPort p

theorem tornOk_written (h : TornOk s) (ht : (s.port p).tap = .awaitingWrite) (ha : holdsAccept (s.port p) = true) :
    TornOk ((requestTapFare p s).setPort p
      { ((requestTapFare p s).port p).answered .ok with tap := .committing, confirmEnd := none }) := by
  obtain ⟨-, hrecords, ⟨hflight, -⟩, -⟩ := (tornOk_iff s).1 h
  have hport (q : Port) : (requestTapFare p s).port q = s.port q := port_of_parts (by simp) (by simp)
  have hve : (requestTapFare p s).ve = s.ve := by simp
  rw [hport]
  refine h.setPort hport (hve ▸ reduces_refl _) ⟨fun r hr hp => ?_, nofun⟩ (fun n => ?_) (fun _ _ _ => by rw [hve])
    (fun _ hm => hve ▸ hm) fun e he => ?_
  · exact ⟨.inr rfl, ((hrecords p).1 r (hve ▸ hr) hp).2⟩
  · rw [hve, hflight]
    exact and_congr (iff_of_true (.inl ((unreported_iff _).2 ⟨.inr ht, ha⟩)) (.inr rfl)) Iff.rfl
  · rw [hve] at he ⊢
    exact h.evalOk he

theorem tornOk_reset (n : Nat) (keep : Bool) (j : Journal) (t : TimeLink) (h : TornOk s) :
    TornOk (resetBlocks n keep j t s) := by
  obtain ⟨htable, -, -, -⟩ := (tornOk_iff s).1 h
  have hport (p : Port) : (resetBlocks n keep j t s).port p = portAfterReset := by cases p <;> rfl
  refine (tornOk_iff _).2 ⟨htable.reduce (reduces_afterReset s.cfg.tornWindow _), fun p => ?_, ⟨fun m p => ?_, ?_⟩, evalOk_none rfl⟩
  · rw [hport]
    exact recordsOk_of_no_pending (tornAfterReset_no_pending _ _ p) nofun
  · rw [hport]
    exact iff_of_false List.not_mem_nil (not_carries_of_tap (t := .idle) rfl (by decide) m)
  · exact fun m hm => List.not_mem_nil hm.1

/-! ## READ_VERDICT: a record joins the table (R96, R97) -/

theorem length_le_countP_add {α : Type} {f g : α → Bool} {l : List α} (h : ∀ x ∈ l, f x = true ∨ g x = true) :
    l.length ≤ l.countP f + l.countP g := by
  induction l with
  | nil => exact Nat.zero_le _
  | cons x l ih =>
    have hrest := ih fun y hy => h y (List.mem_cons_of_mem x hy)
    have hhead := h x List.mem_cons_self
    simp only [List.length_cons, List.countP_cons]
    rcases hhead with hx | hx <;> rw [if_pos hx] <;> omega

theorem countP_serial_le_one {t : List TornRecord} (h : (t.map (·.serial)).Nodup) (n : Nat) :
    t.countP (fun r => r.serial == n) ≤ 1 := by
  have := List.nodup_iff_count_le_one.1 h n
  rwa [List.count, List.countP_map] at this

/-- With no record PENDING at a port, a table of three or more has one to evict: the others are PENDING at the other port, or
held (R97). -/
theorem evictable_isSome {v : VerdictEngine} (htable : TableOk v.torn) (hp : ∀ r ∈ v.torn, r.state ≠ .pending p)
    (hlen : 3 ≤ v.torn.length) : (evictable v).isSome = true := by
  obtain ⟨-, hnodup, hone⟩ := htable
  by_contra hnone
  have hkept : ∀ r ∈ v.torn, r.window.isSome = true → heldSerial v = some r.serial := by
    simpa [evictable, List.find?_isSome] using hnone
  obtain ⟨q, hq⟩ : ∃ q : Port, ∀ x, x ≠ p → x = q := by
    cases p
    · exact ⟨.b, fun x hx => by cases x <;> simp_all⟩
    · exact ⟨.a, fun x hx => by cases x <;> simp_all⟩
  have hcover : ∀ r ∈ v.torn, r.pendingAt q = true ∨ (r.serial == (heldSerial v).getD 0) = true := by
    intro r hr
    by_cases hw : r.window.isSome = true
    · exact .inr (by simp [hkept r hr hw])
    · obtain ⟨x, hx⟩ : ∃ x, r.state = .pending x := by
        by_contra hno
        exact hw ((window_isSome_iff r).2 fun x hx => hno ⟨x, hx⟩)
      have hxq : x = q := hq x (by rintro rfl; exact hp r hr hx)
      exact .inl ((pendingAt_iff r q).2 (hxq ▸ hx))
  have hsum := length_le_countP_add hcover
  have hheld := countP_serial_le_one hnodup ((heldSerial v).getD 0)
  have := hone q
  omega

/-- Creation, with the eviction from a full table spelled out (R97). -/
theorem tornCreate_cases (r : TornRecord) (s : State) :
    (s.ve.torn.length < 8 ∧ tornCreate r s = s.setTorn (s.ve.torn ++ [r]))
      ∨ (8 ≤ s.ve.torn.length ∧ evictable s.ve = none ∧ tornCreate r s = s.setTorn (s.ve.torn ++ [r]))
      ∨ ∃ old, 8 ≤ s.ve.torn.length ∧ evictable s.ve = some old
        ∧ tornCreate r s = (postAlerts [tornAlert old .evicted] s).setTorn (tornDrop old.serial s.ve.torn ++ [r]) := by
  unfold tornCreate
  dsimp only
  split_ifs with hlen
  · cases hold : evictable s.ve with
    | none => exact .inr (.inl ⟨hlen, rfl, rfl⟩)
    | some old => exact .inr (.inr ⟨old, hlen, rfl, rfl⟩)
  · exact .inl ⟨Nat.lt_of_not_le hlen, rfl⟩

theorem evictable_some {v : VerdictEngine} {r : TornRecord} (h : evictable v = some r) :
    r ∈ v.torn ∧ r.window.isSome = true ∧ heldSerial v ≠ some r.serial := by
  have hp := List.find?_some h
  simp only [Bool.and_eq_true, bne_iff_ne] at hp
  exact ⟨List.mem_of_find?_eq_some h, hp⟩

/-- The records after creation: those that stay, and the new one at the newest end. -/
theorem tornCreate_torn (r : TornRecord) (s : State) (hroom : 8 ≤ s.ve.torn.length → (evictable s.ve).isSome = true) :
    ∃ kept, (tornCreate r s).ve.torn = kept ++ [r] ∧ Reduces s.ve.torn kept
      ∧ (s.ve.torn.length ≤ 8 → kept.length < 8)
      ∧ ∀ n, heldSerial s.ve = some n → (unresolvedOf s.ve.torn n).isSome = true → (unresolvedOf kept n).isSome = true := by
  obtain ⟨hlen, heq⟩ | ⟨hlen, hnone, -⟩ | ⟨old, hlen, hold, heq⟩ := tornCreate_cases r s
  · exact ⟨s.ve.torn, by rw [heq]; rfl, reduces_refl _, fun _ => hlen, fun _ _ => id⟩
  · rw [hnone] at hroom
    exact absurd (hroom hlen) (by simp)
  · obtain ⟨hmem, -, hfree⟩ := evictable_some hold
    refine ⟨_, by rw [heq]; rfl, reduces_filter _ _, fun hle => ?_, fun n hn hu => unresolved_of_drop ?_ hu⟩
    · have hshort := (List.length_filter_lt_length_iff_exists (p := fun r => r.serial != old.serial)).2 ⟨old, hmem, by simp⟩
      omega
    · rintro rfl
      exact hfree hn

theorem tornCreate_eval (r : TornRecord) (s : State) :
    (tornCreate r s).ve.eval = s.ve.eval ∧ (tornCreate r s).ve.inFlight = s.ve.inFlight := by
  obtain ⟨-, heq⟩ | ⟨-, -, heq⟩ | ⟨_, -, -, heq⟩ := tornCreate_cases r s <;> rw [heq] <;> exact ⟨rfl, rfl⟩

theorem TableOk.append {t : List TornRecord} (h : TableOk t) {r : TornRecord} (hlen : t.length < 8)
    (hserial : ∀ r' ∈ t, r'.serial ≠ r.serial) (hstate : r.state = .pending p) (hp : ∀ r' ∈ t, r'.state ≠ .pending p) :
    TableOk (t ++ [r]) := by
  obtain ⟨-, hnodup, hone⟩ := h
  refine ⟨by simpa using hlen, ?_, fun q => ?_⟩
  · rw [List.map_append, List.nodup_append]
    refine ⟨hnodup, by simp, ?_⟩
    rintro x hx y hy rfl
    obtain ⟨r', hr', rfl⟩ := List.mem_map.1 hx
    exact hserial r' hr' (by simpa using hy)
  · rw [List.countP_append, List.countP_singleton]
    split_ifs with hq
    · have hqp : p = q := by
        have := (pendingAt_iff r q).1 hq
        rw [hstate] at this
        exact TornState.pending.inj this
      subst hqp
      have hzero : t.countP (·.pendingAt p) = 0 :=
        List.countP_eq_zero.2 fun r' hr' hpend => hp r' hr' ((pendingAt_iff r' p).1 hpend)
      omega
    · exact hone q

theorem unresolvedOf_append {t : List TornRecord} {n : Nat} (r : TornRecord) (h : (unresolvedOf t n).isSome = true) :
    (unresolvedOf (t ++ [r]) n).isSome = true := by
  obtain ⟨x, hx, hserial, hw⟩ := (unresolvedOf_isSome_iff t n).1 h
  exact (unresolvedOf_isSome_iff _ n).2 ⟨x, List.mem_append_left _ hx, hserial, hw⟩

/-- A read ACCEPT: its port awaits the write, its record joins the table (R96). -/
theorem tornOk_readAccept (htaps : TapsOk s) (h : TornOk s) {slot : TapSlot} {v : Verdict}
    (ht : (s.port p).tap = .verdictReady) (hslot : (s.port p).slot = some slot) (ha : holdsAccept (s.port p) = true) :
    TornOk (tornCreate (pendingRecord p slot v) (s.setPort p { s.port p with tap := .awaitingWrite })) := by
  obtain ⟨htable, hrecords, ⟨hflight, hapart⟩, -⟩ := (tornOk_iff s).1 h
  have hserial : (pendingRecord p slot v).serial = portSerial (s.port p) := by simp [portSerial, hslot, pendingRecord]
  have hfree : ∀ r ∈ s.ve.torn, r.state ≠ .pending p := (hrecords p).no_pending (by simp [ht]) (by simp [ht])
  have hnew : ∀ r ∈ s.ve.torn, r.serial ≠ portSerial (s.port p) := (hrecords p).2 ht ha
  have hcarry : (portSerial (s.port p), p) ∈ s.ve.inFlight :=
    (hflight _ p).2 ⟨.inl ((unreported_iff _).2 ⟨.inl ht, ha⟩), rfl⟩
  have hcarries (n : Nat) : carries { s.port p with tap := .awaitingWrite } n ↔ carries (s.port p) n := by
    refine and_congr (iff_of_true (.inl ?_) (.inl ?_)) Iff.rfl
    · exact (unreported_iff _).2 ⟨.inr rfl, ha⟩
    · exact (unreported_iff _).2 ⟨.inl ht, ha⟩
  set u := s.setPort p { s.port p with tap := .awaitingWrite } with hu
  have hve : u.ve = s.ve := setPort_ve _ _ _
  obtain ⟨kept, htorn, hred, hshort, hheld⟩ := tornCreate_torn (pendingRecord p slot v) u
    fun hlen => evictable_isSome (hve ▸ htable) (hve ▸ hfree) (by omega)
  obtain ⟨heval, hinflight⟩ := tornCreate_eval (pendingRecord p slot v) u
  have hport (q : Port) : (tornCreate (pendingRecord p slot v) u).port q = u.port q := tornCreate_port _
  rw [hve] at hred hshort hheld heval hinflight
  refine (tornOk_iff _).2 ⟨?_, fun q => ?_, ⟨fun n q => ?_, by rwa [hinflight]⟩, fun e he => ?_⟩
  · rw [htorn]
    refine (htable.reduce hred).append (hshort htable.1) (fun r hr => ?_) rfl fun r hr hp => ?_
    · obtain ⟨r', hr', hs, -⟩ := hred.mem hr
      rw [hserial, ← hs]
      exact hnew r' hr'
    · obtain ⟨r', hr', -, hstate⟩ := hred.mem hr
      exact hfree r' hr' (hstate p hp)
  · have hold := (hrecords q).reduce hred
    rw [htorn, hport, hu, port_upd]
    refine ⟨fun r hr hp => ?_, fun htap hacc r hr => ?_⟩
    · obtain hkept | hr := List.mem_append.1 hr
      · split_ifs with hq
        · subst hq
          obtain ⟨r', hr', -, hstate⟩ := hred.mem hkept
          exact absurd (hstate q hp) (hfree r' hr')
        · exact hold.1 r hkept hp
      · obtain rfl := List.mem_singleton.1 hr
        have hqp : p = q := TornState.pending.inj hp
        subst hqp
        rw [if_pos rfl]
        exact ⟨.inl rfl, hserial⟩
    · have hq : q ≠ p := by
        rintro rfl
        rw [if_pos rfl] at htap
        cases htap
      rw [if_neg hq] at htap hacc ⊢
      obtain hr | hr := List.mem_append.1 hr
      · exact hold.2 htap hacc r hr
      · obtain rfl := List.mem_singleton.1 hr
        rw [hserial]
        intro hsame
        have hother : (portSerial (s.port p), q) ∈ s.ve.inFlight :=
          (hflight _ q).2 ⟨.inl ((unreported_iff _).2 ⟨.inl htap, hacc⟩), hsame.symm⟩
        cases p <;> cases q
        · exact hq rfl
        · exact hapart _ ⟨hcarry, hother⟩
        · exact hapart _ ⟨hother, hcarry⟩
        · exact hq rfl
  · show (n, q) ∈ _ ↔ carries _ n
    rw [hinflight, hport, hu, port_upd]
    split_ifs with hq
    · subst hq; exact (hflight n q).trans (hcarries n).symm
    · exact hflight n q
  · rw [heval] at he
    obtain ⟨hpast, hclear, hown, haccept, hresumed, hmade⟩ := h.evalOk he
    refine ⟨fun hs q hq => hpast hs q (hinflight ▸ hq), fun hs hst r hr => ?_, hown, haccept, fun w hw hc => ?_, hmade⟩
    · rw [htorn] at hr
      obtain hr | hr := List.mem_append.1 hr
      · obtain ⟨r', hr', hs', -⟩ := hred.mem hr
        rw [← hs']
        exact hclear hs hst r' hr'
      · obtain rfl := List.mem_singleton.1 hr
        rw [hserial]
        intro hsame
        have hep : p = e.port := hpast hs p (hsame ▸ hcarry)
        have := htaps.evaluating he
        rw [← hep, ht] at this
        cases this
    · obtain ⟨hst, hh, hun⟩ := hresumed w hw hc
      refine ⟨hst, hh, ?_⟩
      rw [htorn]
      exact unresolvedOf_append _ (hheld _ (by rw [heldSerial, he]; exact hh) hun)

theorem tornOk_afterRead {v : Verdict} (htaps : TapsOk s) (h : TornOk s) (hv : givenVerdict (s.port p) = some v) :
    TornOk (afterRead p v s) := by
  obtain ⟨ht, hverdict⟩ := verdict_of_given hv
  have hholds := holdsAccept_of_verdict hverdict
  unfold afterRead
  dsimp only
  split_ifs with hwait haccept
  · exact h
  · split
    · rename_i slot hslot
      exact tornOk_readAccept htaps h (ht.resolve_right hwait) hslot (by rw [hholds]; simp [haccept])
    · exact h
  · have hno : holdsAccept (s.port p) = false := by rw [hholds]; simp [haccept]
    rw [ended_of_stopped ((htaps.portOk p).stopped_of_not_accept hno)]
    exact tornOk_discard h (ht.resolve_right hwait) hno

/-! ## VERDICT_READY_EVENT (R75, R79, R101) -/

theorem withVerdict_serial (l : LanePort) (image : List Byte) (v : Verdict) (t : TapState) (c : Option Nat) :
    portSerial { l.withVerdict image v t with confirmEnd := c } = (parseImage image).serial := rfl

/-- A serial joins the in-flight set for the port of the evaluation, which carried none. -/
theorem TornOk.join (htaps : TapsOk s) (h : TornOk s) {e : Evaluation} (he : s.ve.eval = some e)
    (hpast : pastInFlight e.stage) {t : State} (hinflight : t.ve.inFlight = s.ve.inFlight ++ [(e.card.serial, e.port)])
    (heval : t.ve.eval = none) (hother : ∀ q, q ≠ e.port → t.port q = s.port q)
    (hcarries : ∀ n, carries (t.port e.port) n ↔ e.card.serial = n) (htable : TableOk t.ve.torn)
    (hrecords : ∀ q, RecordsOk t.ve.torn q (t.port q)) : TornOk t := by
  obtain ⟨-, -, ⟨hflight, hapart⟩, -⟩ := (tornOk_iff s).1 h
  have hnone (n : Nat) : (n, e.port) ∉ s.ve.inFlight := fun hm =>
    not_carries_of_tap (htaps.evaluating he) (by decide) n ((hflight n e.port).1 hm)
  have hmem (n : Nat) (q : Port) :
      (n, q) ∈ t.ve.inFlight ↔ (n, q) ∈ s.ve.inFlight ∨ n = e.card.serial ∧ q = e.port := by
    rw [hinflight]; simp
  refine (tornOk_iff t).2 ⟨htable, hrecords, ⟨fun n q => ?_, fun n => ?_⟩, evalOk_none heval⟩
  · show (n, q) ∈ _ ↔ carries _ n
    rw [hmem]
    by_cases hq : q = e.port
    · subst hq
      rw [hcarries]
      simp [hnone n, eq_comm]
    · rw [hother q hq]
      exact (by simp [hq] : _ ↔ (n, q) ∈ s.ve.inFlight).trans (hflight n q)
  · have hpastp := (h.evalOk he).1 hpast
    rw [hmem, hmem]
    rintro ⟨ha | ⟨rfl, ha⟩, hb | ⟨hb', hb⟩⟩
    · exact hapart n ⟨ha, hb⟩
    · exact absurd ((hpastp .a (hb' ▸ ha)).trans hb.symm) (by decide)
    · exact absurd ((hpastp .b hb).trans ha.symm) (by decide)
    · exact absurd (ha.trans hb.symm) (by decide)

theorem readyAccept_ok (htaps : TapsOk s) (h : TornOk s) {e : Evaluation} {v : Verdict} (he : s.ve.eval = some e)
    (hv : e.verdict = some v) (hc : v.code = .accept) : TornOk (readyAccept e v (s.setEval none)) := by
  obtain ⟨htable, hrecords, -, -⟩ := (tornOk_iff s).1 h
  obtain ⟨-, hclear, -, haccept, -, -⟩ := h.evalOk he
  have hstage := haccept v hv hc
  have hpast : pastInFlight e.stage := by rw [hstage]; exact ⟨nofun, nofun, nofun⟩
  have htap := htaps.evaluating he
  unfold readyAccept
  refine TornOk.join htaps h he hpast (by simp [joinInFlight]) (by simp [joinInFlight]) (fun q hq => ?_) (fun n => ?_)
    (by simpa [joinInFlight] using htable) fun q => ?_
  · rw [port_upd, if_neg hq]
    exact port_of_parts rfl rfl
  · rw [setPort_port_same]
    refine ⟨fun hcar => hcar.2, fun hn => ⟨.inl ((unreported_iff _).2 ⟨.inl rfl, ?_⟩), hn⟩⟩
    rw [holdsAccept_of_verdict (v := v) rfl, hc]
    rfl
  · rw [port_upd]
    split_ifs with hq
    · subst hq
      have hfree := (hrecords e.port).no_pending (by simp [htap]) (by simp [htap])
      refine recordsOk_of_no_pending (by simpa [joinInFlight] using hfree) fun _ _ => ?_
      rw [setPort_ve]
      exact hclear hpast (by simp [hstage])
    · have hsame : (joinInFlight e.card.serial e.port (s.setEval none)).port q = s.port q := port_of_parts rfl rfl
      rw [hsame]
      simpa [joinInFlight] using hrecords q

theorem tornResume_mem {n : Nat} {t : List TornRecord} {r' : TornRecord} (h : r' ∈ tornResume n p t) :
    ∃ r ∈ t, r.serial = r'.serial ∧ (r.serial = n ∧ r'.state = .pending p ∨ r.serial ≠ n ∧ r' = r) := by
  obtain ⟨r, hr, rfl⟩ := List.mem_map.1 h
  split_ifs with hn
  · exact ⟨r, hr, rfl, .inl ⟨hn, rfl⟩⟩
  · exact ⟨r, hr, rfl, .inr ⟨hn, rfl⟩⟩

theorem tornResume_serials (n : Nat) (p : Port) (t : List TornRecord) :
    (tornResume n p t).map (·.serial) = t.map (·.serial) := by
  rw [tornResume, List.map_map]
  refine List.map_congr_left fun r _ => ?_
  dsimp only [Function.comp_apply]
  split_ifs <;> rfl

theorem TableOk.resume {t : List TornRecord} (h : TableOk t) (n : Nat) (hp : ∀ r ∈ t, r.state ≠ .pending p) :
    TableOk (tornResume n p t) := by
  obtain ⟨hlen, hnodup, hone⟩ := h
  refine ⟨by simpa [tornResume] using hlen, by rwa [tornResume_serials], fun q => ?_⟩
  rw [tornResume, List.countP_map]
  by_cases hq : q = p
  · subst hq
    refine le_trans (List.countP_mono_left fun r hr hpend => ?_) (countP_serial_le_one hnodup n)
    by_contra hn
    have hne : r.serial ≠ n := by simpa using hn
    simp only [Function.comp_apply, if_neg hne] at hpend
    exact hp r hr ((pendingAt_iff r q).1 hpend)
  · refine le_trans (List.countP_mono_left fun r _ hpend => ?_) (hone q)
    simp only [Function.comp_apply] at hpend
    split_ifs at hpend with hn
    · have := (pendingAt_iff _ q).1 hpend
      exact absurd (TornState.pending.inj this).symm hq
    · exact hpend

theorem readyResumed_eq {e : Evaluation} {v : Verdict} {r : TornRecord} (hr : unresolvedOf s.ve.torn e.card.serial = some r) :
    readyResumed e v s
      = { ((joinInFlight e.card.serial e.port s).setPort e.port ((s.port e.port).withVerdict e.image v .committing)).setTorn
            (tornResume e.card.serial e.port s.ve.torn) with
          jn := requestFare s.tl .resumed e.port (resumedContent r e.port) s.jn } := by
  obtain ⟨-, hserial, -⟩ := unresolvedOf_some hr
  have hport : (joinInFlight e.card.serial e.port s).port e.port = s.port e.port := port_of_parts rfl rfl
  have htorn : ((joinInFlight e.card.serial e.port s).setPort e.port
      ((s.port e.port).withVerdict e.image v .committing)).ve.torn = s.ve.torn := by simp [joinInFlight]
  unfold readyResumed
  dsimp only
  rw [hport, htorn, hr]
  simp [hserial, joinInFlight]

theorem readyResumed_ok (htaps : TapsOk s) (h : TornOk s) {e : Evaluation} {v : Verdict} (he : s.ve.eval = some e)
    (hv : e.verdict = some v) (hc : v.code = .resumed) : TornOk (readyResumed e v (s.setEval none)) := by
  obtain ⟨htable, hrecords, -, -⟩ := (tornOk_iff s).1 h
  obtain ⟨-, -, -, -, hresumed, -⟩ := h.evalOk he
  obtain ⟨hstage, -, hun⟩ := hresumed v hv hc
  have hpast : pastInFlight e.stage := by rw [hstage]; exact ⟨nofun, nofun, nofun⟩
  have htap := htaps.evaluating he
  have hfree := (hrecords e.port).no_pending (by simp [htap]) (by simp [htap])
  obtain ⟨r, hr⟩ := Option.isSome_iff_exists.1 hun
  rw [readyResumed_eq (s := s.setEval none) hr]
  have hport (q : Port) : ({ ((joinInFlight e.card.serial e.port (s.setEval none)).setPort e.port
      (((s.setEval none).port e.port).withVerdict e.image v .committing)).setTorn
        (tornResume e.card.serial e.port (s.setEval none).ve.torn) with
      jn := requestFare (s.setEval none).tl .resumed e.port (resumedContent r e.port) (s.setEval none).jn } : State).port q
      = if q = e.port then (s.port e.port).withVerdict e.image v .committing else s.port q := by
    have hset := port_upd (joinInFlight e.card.serial e.port (s.setEval none)) e.port q
      ((s.port e.port).withVerdict e.image v .committing)
    have hjoin : (joinInFlight e.card.serial e.port (s.setEval none)).port q = s.port q := port_of_parts rfl rfl
    rw [hjoin] at hset
    rw [← hset]
    exact port_of_parts (by simp) (by simp)
  refine TornOk.join htaps h he hpast (by simp [joinInFlight]) (by simp [joinInFlight]) (fun q hq => ?_) (fun n => ?_)
    (htable.resume _ hfree) fun q => ?_
  · rw [hport, if_neg hq]
  · rw [hport, if_pos rfl]
    exact ⟨fun hcar => hcar.2, fun hn => ⟨.inr rfl, hn⟩⟩
  · rw [hport]
    refine ⟨fun r' hr' hpend => ?_, fun ht ha r' hr' => ?_⟩
    · obtain ⟨r0, hr0, hs, ⟨hn, hst⟩ | ⟨hn, rfl⟩⟩ := tornResume_mem hr'
      · have hq : e.port = q := TornState.pending.inj (hst.symm.trans hpend)
        rw [if_pos hq.symm]
        exact ⟨.inr rfl, hs.symm.trans hn⟩
      · have hq : q ≠ e.port := by rintro rfl; exact hfree _ hr0 hpend
        rw [if_neg hq]
        exact (hrecords q).1 _ hr0 hpend
    · have hq : q ≠ e.port := by
        rintro rfl
        rw [if_pos rfl] at ht
        cases ht
      rw [if_neg hq] at ht ha ⊢
      obtain ⟨r0, hr0, hs, -⟩ := tornResume_mem hr'
      rw [← hs]
      exact (hrecords q).2 ht ha r0 hr0

theorem readyByCode_accept {e : Evaluation} {v : Verdict} (hc : v.code = .accept) :
    readyByCode e v s = readyAccept e v s := by rw [readyByCode, hc]

theorem readyByCode_resumed {e : Evaluation} {v : Verdict} (hc : v.code = .resumed) :
    readyByCode e v s = readyResumed e v s := by rw [readyByCode, hc]

theorem readyByCode_refusal {e : Evaluation} {v : Verdict} (ha : v.code ≠ .accept) (hr : v.code ≠ .resumed) :
    readyByCode e v s = readyRefusal e v s := by
  unfold readyByCode
  split
  · exact absurd ‹_› ha
  · exact absurd ‹_› hr
  · rfl

theorem tornOk_ready (htaps : TapsOk s) (h : TornOk s) {e : Evaluation} {v : Verdict} (he : s.ve.eval = some e)
    (hv : e.verdict = some v) : TornOk (readyByCode e v (s.setEval none)) := by
  by_cases ha : v.code = .accept
  · rw [readyByCode_accept ha]; exact readyAccept_ok htaps h he hv ha
  by_cases hr : v.code = .resumed
  · rw [readyByCode_resumed hr]; exact readyResumed_ok htaps h he hv hr
  rw [readyByCode_refusal ha hr]
  have htap := htaps.evaluating he
  refine h.setPort_free (by simp) rfl rfl (by simp [htap]) (by simp [htap]) (not_carries_of_tap htap (by decide))
    (not_carries_of_not_accept ?_ nofun) (evalOk_none rfl)
  rw [holdsAccept_of_verdict (v := v) rfl]
  simpa using ha

end Operations

/-! ## Every step -/

/-- The tap states with the Torn-Write Table are one of the conditions that `Kept` names. -/
theorem tornOk_kept : Kept (fun _ => True) (fun s => TapsOk s ∧ TornOk s) where
  taps _ h := h.1
  quiet _ _ h hq := ⟨tapsOk_of_quiet h.1 hq, tornOk_quiet h.2 hq⟩
  drop _ n h hn := ⟨tapsOk_setTorn h.1 _, tornOk_drop h.2 n hn⟩
  tick _ h := ⟨tapsOk_setTorn h.1 _, tornOk_tick h.2⟩
  stage _ h := ⟨tapsOk_evalStep h.1, tornOk_evalStep h.1 h.2⟩
  ready _ _ v h he hv := ⟨tapsOk_ready h.1 he v, tornOk_ready h.1 h.2 he hv⟩
  dropped _ _ h he ht := ⟨tapsOk_dropped h.1 he ht, tornOk_dropped h.2 ht⟩
  start _ _ _ h he hq := ⟨tapsOk_begin h.1 he hq, tornOk_begin h.1 h.2 hq⟩
  join _ _ image h ht := ⟨tapsOk_join h.1 ht image, tornOk_join h.2 ht image⟩
  withdraw _ _ h ht := ⟨tapsOk_withdraw h.1 ht, tornOk_withdraw h.2 ht⟩
  discard _ _ h ht ha := ⟨tapsOk_discard h.1 ht, tornOk_discard h.2 ht ha⟩
  leave _ _ f h hu := ⟨tapsOk_abandon h.1 f hu, tornOk_abandon h.2 f⟩
  read _ _ _ h hv := ⟨tapsOk_afterRead h.1 hv, tornOk_afterRead h.1 h.2 hv⟩
  written _ p h ht := ⟨tapsOk_written h.1 ht, tornOk_written h.2 ht ((h.1.portOk p).2.2.2.2.1 ht)⟩
  complete _ a rest _ h hq := ⟨tapsOk_complete h.1 hq, tornOk_complete h.2 a rest⟩
  resets _ n keep t _ h := ⟨⟨tapsOk_reset rfl, tornOk_reset n keep _ t h.2⟩, ⟨tapsOk_reset rfl, tornOk_reset n keep _ t h.2⟩⟩

/-- Settles O12: every operation of the Verdict Engine keeps the conditions, and everything else is quiet. -/
theorem stepKeepsTapStates : Obligations.StepKeepsTapStates :=
  ⟨fun _ _ => step_keeps_tapsOk, fun s t htaps htorn hstep =>
    (step_kept tornOk_kept s t hstep trivial ⟨htaps, htorn⟩).2⟩

end Sys2Proof.Machine
end

