-- ==== Sys2Proof/Proofs/JournalRoom.lean ====
section
/-! PROOFS. The room of the Journal under every step (R160, R161, R163 to R165, R174): each operation of the Verdict Engine gives
the slot of a tap on to the next place that counts it, or takes, releases or consumes one. -/

namespace Sys2Proof.Machine

/-! ## The append queue (R163, R164) -/

theorem queue_length_eq (q : List Append) : q.length = q.countP (fun a => a.commit.isNone)
    + q.countP (fun a => a.commit == some Port.a) + q.countP (fun a => a.commit == some Port.b) := by
  induction q with
  | nil => rfl
  | cons a q ih =>
    simp only [List.length_cons, List.countP_cons, ih]
    obtain _ | _ | _ := a.commit <;> simp <;> omega

/-- Six unreserved appends and one commit of each port. -/
theorem queue_le_eight {s : State} (hj : JournalOk s.jn) (h : TapsOk s) : s.jn.queue.length ≤ 8 := by
  obtain ⟨-, -, -, -, hfew, -⟩ := hj
  have ha := (h.portOk .a).commits_le
  have hb := (h.portOk .b).commits_le
  have := queue_length_eq s.jn.queue
  simp only [unreservedCount] at hfew
  simp only [commitsQueued] at ha hb
  omega

/-! ## The room for a number of reserved slots -/

/-- A number of slots is reserved, and with them the Journal fits its places and its numbering. -/
def HasRoom (n : Nat) (j : Journal) : Prop :=
  j.reserved = n ∧ j.held.length + j.queue.length + j.reserved ≤ 1024 ∧ j.assigned + j.reserved ≤ 4294967295

theorem roomOk_iff (s : State) : RoomOk s ↔ HasRoom (slotsHeld s) s.jn := Iff.rfl

section Room
variable {j j' : Journal} {n : Nat}

theorem HasRoom.quiet (h : HasRoom n j) (hq : JournalQuiet j j') : HasRoom n j' := by
  obtain ⟨-, hreserved, hplaces, hnumbers⟩ := hq
  exact ⟨hreserved.trans h.1, hplaces h.2.1, hnumbers h.2.2⟩

theorem HasRoom.reserve (h : HasRoom n j) (hr : reserveSlot j = some j') : HasRoom (n + 1) j' := by
  unfold reserveSlot at hr
  split_ifs at hr with hfree
  cases hr
  simp only [freeSlots, Config.ringCap, Config.lastNumber, Config.reserveNeed] at hfree
  simp only [HasRoom] at h ⊢
  omega

theorem HasRoom.release (h : HasRoom (n + 1) j) : HasRoom n (releaseSlot j) := by
  simp only [HasRoom, releaseSlot] at h ⊢
  omega

theorem HasRoom.fare (h : HasRoom (n + 1) j) (t : TimeLink) (flag : FareFlag) (p : Port) (c : Content) :
    HasRoom n (requestFare t flag p c j) := by
  simp only [HasRoom, requestFare, enqueue, List.length_append, List.length_singleton] at h ⊢
  omega

theorem HasRoom.complete (h : HasRoom n j) {a : Append} {rest : List Append} (hq : j.queue = a :: rest) :
    HasRoom n (completeAppend a rest j) := by
  simp only [HasRoom, completeAppend, List.length_append, hq, List.length_cons, List.length_nil] at h ⊢
  omega

theorem HasRoom.powerOn (h : HasRoom n j) (hj : JournalOk j) : HasRoom 0 (powerOnJournal j) := by
  obtain ⟨-, -, -, hassigned, -⟩ := hj
  obtain ⟨-, hplaces, hnumbers⟩ := h
  exact ⟨rfl, by simp only [powerOnJournal, List.length_nil]; omega, by simp only [powerOnJournal]; omega⟩

theorem HasRoom.lineReset (h : HasRoom n j) (hj : JournalOk j) : HasRoom 0 (lineResetJournal j) := by
  obtain ⟨-, -, -, hassigned, -⟩ := hj
  obtain ⟨-, hplaces, hnumbers⟩ := h
  exact ⟨rfl, by simp only [lineResetJournal, List.length_nil]; omega, by simp only [lineResetJournal]; omega⟩

end Room

/-! ## The slots that taps hold -/

/-- The slot that the evaluation in progress has reserved. -/
def evalSlot (v : VerdictEngine) : Bool := (v.eval.map (·.slotMade)).getD false

section Slots
variable {s u : State} {p : Port} {l : LanePort}

theorem slotsHeld_eq (s : State) :
    slotsHeld s = bitNat (unreported s.portA) + bitNat (unreported s.portB) + bitNat (evalSlot s.ve) := rfl

theorem slotsHeld_congr (hport : ∀ q, unreported (u.port q) = unreported (s.port q)) (heval : evalSlot u.ve = evalSlot s.ve) :
    slotsHeld u = slotsHeld s := by
  have ha : unreported u.portA = unreported s.portA := hport .a
  have hb : unreported u.portB = unreported s.portB := hport .b
  rw [slotsHeld_eq, slotsHeld_eq, ha, hb, heval]

/-- With one port changed, its slot is counted in place of the one it held. -/
theorem slotsHeld_change (hothers : ∀ q, q ≠ p → unreported (u.port q) = unreported (s.port q)) :
    slotsHeld u + bitNat (unreported (s.port p)) + bitNat (evalSlot s.ve)
      = slotsHeld s + bitNat (unreported (u.port p)) + bitNat (evalSlot u.ve) := by
  cases p
  · have hb : unreported u.portB = unreported s.portB := hothers .b nofun
    simp only [slotsHeld_eq, State.port, hb]
    omega
  · have ha : unreported u.portA = unreported s.portA := hothers .a nofun
    simp only [slotsHeld_eq, State.port, ha]
    omega

theorem slotsHeld_setPort (hport : ∀ q, u.port q = s.port q) :
    slotsHeld (u.setPort p l) + bitNat (unreported (s.port p)) + bitNat (evalSlot s.ve)
      = slotsHeld s + bitNat (unreported l) + bitNat (evalSlot u.ve) := by
  have := slotsHeld_change (s := s) (u := u.setPort p l) (p := p) fun q hq => by rw [port_upd, if_neg hq, hport]
  rwa [setPort_port_same, setPort_ve] at this

theorem unreported_of_same {l' : LanePort} (htap : l'.tap = l.tap) (hslot : l'.slot = l.slot) :
    unreported l' = unreported l := by simp only [unreported, holdsAccept, htap, hslot]

theorem unreported_of_tap (hready : l.tap ≠ .verdictReady) (hwait : l.tap ≠ .awaitingWrite) : unreported l = false := by
  rw [Bool.eq_false_iff, ne_eq, unreported_iff]
  rintro ⟨h | h, -⟩
  · exact hready h
  · exact hwait h

theorem unreported_of_not_accept (ha : holdsAccept l = false) : unreported l = false := by simp [unreported, ha]

/-- A port that holds no slot is set to one that holds none. -/
theorem RoomOk.setPort_free (h : RoomOk s) (hport : ∀ q, u.port q = s.port q) (hjn : u.jn = s.jn)
    (heval : evalSlot u.ve = evalSlot s.ve) (hwas : unreported (s.port p) = unreported l) : RoomOk (u.setPort p l) := by
  have hcount : slotsHeld (u.setPort p l) = slotsHeld s := by
    have := slotsHeld_setPort (p := p) (l := l) hport
    rw [heval, hwas] at this
    omega
  rw [roomOk_iff, hcount, setPort_jn, hjn]
  exact h

theorem roomOk_quiet {t : State} (h : RoomOk s) (hq : Quiet s t) : RoomOk t := by
  rw [roomOk_iff, slotsHeld_congr (fun q => unreported_of_same (hq.tap q) (hq.slot q)) (by rw [hq.ve])]
  exact HasRoom.quiet h hq.jn

theorem roomOk_setTorn (h : RoomOk s) (t : List TornRecord) : RoomOk (s.setTorn t) := h

/-! ## The operations -/

theorem TornOk.evalSlot_eq (h : TornOk s) {e : Evaluation} {v : Verdict} (he : s.ve.eval = some e)
    (hv : e.verdict = some v) : evalSlot s.ve = decide (v.code = .accept ∨ v.code = .resumed) := by
  obtain ⟨-, -, -, -, -, hmade⟩ := h.evalOk he
  have : evalSlot s.ve = e.slotMade := by rw [evalSlot, he]; rfl
  rw [this, Bool.eq_iff_iff, hmade, hv]
  simp

theorem roomOk_evalStep (htorn : TornOk s) (h : RoomOk s) : RoomOk (evalStep s) := by
  cases he : s.ve.eval with
  | none => rw [evalStep_of_done (.inl he)]; exact h
  | some e =>
    by_cases hv : e.verdict = none
    · have hwas : evalSlot s.ve = e.slotMade := by rw [evalSlot, he]; rfl
      obtain ⟨-, -, -, -, -, hmade⟩ := htorn.evalOk he
      have hfree : e.slotMade = false := by simpa [hv] using hmade
      have hport := (evalStep_keep s).1
      have hsame (hs : evalSlot (evalStep s).ve = evalSlot s.ve) : slotsHeld (evalStep s) = slotsHeld s :=
        slotsHeld_congr (fun q => by rw [hport]) hs
      rw [roomOk_iff]
      have hends := evalStep_ends he hv
      generalize evalStep s = t at hends hsame hport ⊢
      cases hends with
      | on e' hve hjn htap =>
        rw [hsame (by rw [hwas, hve, ← htap.2.2]; rfl)]
        exact HasRoom.quiet h hjn
      | refused e' w hve hjn htap =>
        rw [hsame (by rw [hwas, hve, ← htap.2.2]; rfl)]
        exact HasRoom.quiet h hjn
      | cleared e' hve hjn htap =>
        rw [hsame (by rw [hwas, hve, ← htap.2.2]; rfl)]
        exact HasRoom.quiet h hjn
      | reserved e' w hve hjn _ hslot =>
        have hnow : evalSlot t.ve = true := by rw [hve]; exact hslot
        have ha : t.portA = s.portA := hport .a
        have hb : t.portB = s.portB := hport .b
        have hcount : slotsHeld t = slotsHeld s + 1 := by
          rw [slotsHeld_eq, slotsHeld_eq, ha, hb, hnow, hwas, hfree]; rfl
        rw [hcount]
        exact HasRoom.reserve h hjn
    · rw [evalStep_of_done (.inr ⟨e, he, hv⟩)]; exact h

theorem readyByCode_evalSlot (e : Evaluation) (v : Verdict) (s : State) :
    evalSlot (readyByCode e v (s.setEval none)).ve = false := by
  rw [evalSlot, (ready_port e v _).2.2.1]; rfl

/-- At the verdict-ready event the evaluation's slot goes to the port of an ACCEPT, and to the append of a RESUMED. -/
theorem slotsHeld_ready (htaps : TapsOk s) (htorn : TornOk s) {e : Evaluation} {v : Verdict} (he : s.ve.eval = some e)
    (hv : e.verdict = some v) :
    slotsHeld (readyByCode e v (s.setEval none)) + (if v.code = .resumed then 1 else 0) = slotsHeld s := by
  obtain ⟨hother, -, -, -, -, hmine⟩ := ready_port e v (s.setEval none)
  have htap := htaps.evaluating he
  have hwas : unreported (s.port e.port) = false := unreported_of_tap (by simp [htap]) (by simp [htap])
  have hcount := slotsHeld_change (s := s) (u := readyByCode e v (s.setEval none)) (p := e.port)
    fun q hq => by rw [hother q hq, setEval_port]
  rw [hwas, htorn.evalSlot_eq he hv, readyByCode_evalSlot, hmine] at hcount
  by_cases hr : v.code = .resumed
  · rw [unreported_of_tap (by simp [LanePort.withVerdict, hr]) (by simp [LanePort.withVerdict, hr])] at hcount
    simp only [hr, or_true, decide_true, bitNat, if_true, Bool.false_eq_true, if_false] at hcount ⊢
    omega
  · have hnow (c : Option Nat) : unreported { ((s.setEval none).port e.port).withVerdict e.image v .verdictReady with
        confirmEnd := c } = decide (v.code = .accept) := by
      rw [unreported, holdsAccept_of_verdict (v := v) rfl]; rfl
    rw [if_neg hr, hnow] at hcount
    simp only [hr, or_false, if_false] at hcount ⊢
    omega

theorem readyByCode_jn_of_not_resumed {e : Evaluation} {v : Verdict} (hr : v.code ≠ .resumed) :
    (readyByCode e v (s.setEval none)).jn = s.jn := by
  by_cases ha : v.code = .accept
  · rw [readyByCode_accept ha]; simp [readyAccept, joinInFlight]
  · rw [readyByCode_refusal ha hr]; simp [readyRefusal]

theorem roomOk_ready (htaps : TapsOk s) (htorn : TornOk s) (h : RoomOk s) {e : Evaluation} {v : Verdict}
    (he : s.ve.eval = some e) (hv : e.verdict = some v) : RoomOk (readyByCode e v (s.setEval none)) := by
  have hcount := slotsHeld_ready htaps htorn he hv
  rw [roomOk_iff] at h ⊢
  by_cases hr : v.code = .resumed
  · rw [if_pos hr] at hcount
    obtain ⟨-, -, -, -, hresumed, -⟩ := htorn.evalOk he
    obtain ⟨r, hfound⟩ := Option.isSome_iff_exists.1 (hresumed v hv hr).2.2
    have hjn : (readyByCode e v (s.setEval none)).jn = requestFare s.tl .resumed e.port (resumedContent r e.port) s.jn := by
      rw [readyByCode_resumed hr, readyResumed_eq (s := s.setEval none) hfound]; rfl
    rw [hjn]
    exact HasRoom.fare (hcount ▸ h) _ _ _ _
  · rw [if_neg hr, Nat.add_zero] at hcount
    rw [readyByCode_jn_of_not_resumed hr]
    exact hcount.symm ▸ h

theorem roomOk_dropped (h : RoomOk s) {e : Evaluation} (he : s.ve.eval = some e) (ht : (s.port e.port).tap = .evaluating) :
    RoomOk (let s1 := s.setEval none
       let s2 := if e.slotMade then { s1 with jn := releaseSlot s1.jn } else s1
       s2.setPort e.port (s2.port e.port).ended) := by
  have hwas : unreported (s.port e.port) = false := unreported_of_tap (by simp [ht]) (by simp [ht])
  have hslot : evalSlot s.ve = e.slotMade := by rw [evalSlot, he]; rfl
  have hended : unreported (s.port e.port).ended = false := rfl
  dsimp only
  split_ifs with hmade
  · have hcount := slotsHeld_setPort (s := s) (u := { s.setEval none with jn := releaseSlot s.jn }) (p := e.port)
      (l := (s.port e.port).ended) fun q => port_of_parts rfl rfl
    rw [hwas, hslot, hmade, hended] at hcount
    rw [roomOk_iff] at h ⊢
    rw [setPort_jn]
    have hone : slotsHeld s = slotsHeld (({ s.setEval none with jn := releaseSlot s.jn } : State).setPort e.port
        (s.port e.port).ended) + 1 := hcount.symm
    exact HasRoom.release (hone ▸ h)
  · refine RoomOk.setPort_free h (by simp) rfl ?_ ?_
    · rw [hslot]; simp [hmade, evalSlot]
    · rw [hwas]; rfl

theorem roomOk_begin {rest : List Port} (htaps : TapsOk s) (h : RoomOk s) (he : s.ve.eval = none)
    (hq : s.ve.queue = p :: rest) : RoomOk (beginEvaluation p rest s) := by
  have htap : (s.port p).tap = .queued := (htaps.portOk p).2.1.1 (by simp [hq])
  refine RoomOk.setPort_free h (fun _ => rfl) rfl (by simp [evalSlot, he]) ?_
  rw [unreported_of_tap (by simp [htap]) (by simp [htap])]
  rfl

theorem roomOk_join (h : RoomOk s) (ht : (s.port p).tap = .idle) (image : List Byte) :
    RoomOk (joinQueue p (s.setPort p ((s.port p).tapped image))) := by
  rw [joinQueue_setPort]
  refine RoomOk.setPort_free h (fun _ => rfl) rfl rfl ?_
  rw [unreported_of_tap (by simp [ht]) (by simp [ht])]
  rfl

theorem roomOk_withdraw (h : RoomOk s) (ht : (s.port p).tap = .queued) : RoomOk (withdrawQueued p s) := by
  refine RoomOk.setPort_free h (fun _ => rfl) rfl rfl ?_
  rw [unreported_of_tap (by simp [ht]) (by simp [ht])]
  rfl

theorem roomOk_discard (h : RoomOk s) (ha : holdsAccept (s.port p) = false) : RoomOk (s.setPort p (s.port p).ended) := by
  refine RoomOk.setPort_free h (fun _ => rfl) rfl rfl ?_
  rw [unreported_of_not_accept ha]
  rfl

/-- A port that holds a slot is set to one that holds none, and the Journal gives one slot up. -/
theorem RoomOk.leave {l : LanePort} (h : RoomOk s) (hport : ∀ q, u.port q = s.port q) (heval : evalSlot u.ve = evalSlot s.ve)
    (hwas : unreported (s.port p) = true) (hnow : unreported l = false)
    (hjn : ∀ n, HasRoom (n + 1) s.jn → HasRoom n u.jn) : RoomOk (u.setPort p l) := by
  have hcount := slotsHeld_setPort (p := p) (l := l) hport
  rw [hwas, hnow, heval] at hcount
  have hone : slotsHeld s = slotsHeld (u.setPort p l) + 1 := (Nat.add_right_cancel hcount).symm
  rw [roomOk_iff, setPort_jn]
  exact hjn _ (hone ▸ h)

theorem roomOk_abandon (h : RoomOk s) (fate : TornFate) (hu : unreported (s.port p) = true) : RoomOk (abandon p fate s) := by
  unfold abandon
  exact h.leave (fun q => port_of_parts rfl rfl) rfl hu rfl fun _ hroom => HasRoom.release hroom

theorem roomOk_written (h : RoomOk s) (ht : (s.port p).tap = .awaitingWrite) (ha : holdsAccept (s.port p) = true) :
    RoomOk ((requestTapFare p s).setPort p
      { ((requestTapFare p s).port p).answered .ok with tap := .committing, confirmEnd := none }) := by
  obtain ⟨v, hverdict, -⟩ := verdict_of_holdsAccept ha
  obtain ⟨image, hslot⟩ := slot_of_verdict hverdict
  rw [requestTapFare_eq hslot]
  exact h.leave (fun q => port_of_parts rfl rfl) rfl ((unreported_iff _).2 ⟨.inr ht, ha⟩) rfl
    fun _ hroom => HasRoom.fare hroom _ _ _ _

theorem roomOk_tornCreate (h : RoomOk s) (r : TornRecord) : RoomOk (tornCreate r s) := by
  obtain ⟨-, heq⟩ | ⟨-, -, heq⟩ | ⟨old, -, -, heq⟩ := tornCreate_cases r s <;> rw [heq]
  · exact h
  · exact h
  · exact roomOk_setTorn (roomOk_quiet h (postAlerts_quiet [tornAlert old .evicted] s)) _

theorem roomOk_afterRead {v : Verdict} (h : RoomOk s) (hv : givenVerdict (s.port p) = some v) : RoomOk (afterRead p v s) := by
  obtain ⟨ht, hverdict⟩ := verdict_of_given hv
  have hholds := holdsAccept_of_verdict hverdict
  unfold afterRead
  dsimp only
  split_ifs with hwait haccept
  · exact h
  · split
    · refine roomOk_tornCreate (RoomOk.setPort_free h (fun _ => rfl) rfl rfl ?_) _
      have ha : holdsAccept (s.port p) = true := by rw [hholds]; simp [haccept]
      rw [(unreported_iff _).2 ⟨ht, ha⟩]
      exact ((unreported_iff { s.port p with tap := .awaitingWrite }).2 ⟨.inr rfl, ha⟩).symm
    · exact h
  · refine RoomOk.setPort_free h (fun _ => rfl) rfl rfl ?_
    rw [unreported_of_not_accept (by rw [hholds]; simp [haccept])]
    rfl

theorem roomOk_complete (h : RoomOk s) (htaps : TapsOk s) {a : Append} {rest : List Append} (hq : s.jn.queue = a :: rest) :
    RoomOk (takeCompletion a rest s) := by
  have hwithout : RoomOk { s with jn := completeAppend a rest s.jn } := HasRoom.complete h hq
  cases hc : a.commit with
  | none => rw [takeCompletion_alone hc]; exact hwithout
  | some p =>
    have hmine := completeAppend_commits hq p
    rw [if_pos hc] at hmine
    have ht : (s.port p).tap = .committing := (htaps.portOk p).committing (by omega)
    rw [takeCompletion_commit hc, completeCommit_eq]
    refine RoomOk.setPort_free hwithout (fun q => port_of_parts (by simp) (by simp)) (by simp) rfl ?_
    have hport : ({ s with jn := completeAppend a rest s.jn } : State).port p = s.port p := port_of_parts rfl rfl
    rw [hport, unreported_of_tap (by simp [ht]) (by simp [ht])]
    obtain ⟨heq, v, hverdict, hcode⟩ | heq := commitPort_cases (s.port p) <;> rw [heq]
    · refine (unreported_of_not_accept ?_).symm
      rw [holdsAccept_of_verdict (l := { s.port p with tap := .verdictReady }) hverdict, hcode]
      rfl
    · rfl

end Slots

/-! ## Every step -/

/-- The tap states, the Torn-Write Table and the room of the Journal are together one of the conditions that `Kept` names. -/
theorem roomOk_kept : Kept JournalOk (fun s => (TapsOk s ∧ TornOk s) ∧ RoomOk s) where
  taps _ h := h.1.1
  quiet _ _ h hq := ⟨tornOk_kept.quiet _ _ h.1 hq, roomOk_quiet h.2 hq⟩
  drop _ _ h hn := ⟨tornOk_kept.drop _ _ h.1 hn, h.2⟩
  tick _ h := ⟨tornOk_kept.tick _ h.1, h.2⟩
  stage _ h := ⟨tornOk_kept.stage _ h.1, roomOk_evalStep h.1.2 h.2⟩
  ready _ _ _ h he hv := ⟨tornOk_kept.ready _ _ _ h.1 he hv, roomOk_ready h.1.1 h.1.2 h.2 he hv⟩
  dropped _ _ h he ht := ⟨tornOk_kept.dropped _ _ h.1 he ht, roomOk_dropped h.2 he ht⟩
  start _ _ _ h he hq := ⟨tornOk_kept.start _ _ _ h.1 he hq, roomOk_begin h.1.1 h.2 he hq⟩
  join _ _ image h ht := ⟨tornOk_kept.join _ _ image h.1 ht, roomOk_join h.2 ht image⟩
  withdraw _ _ h ht := ⟨tornOk_kept.withdraw _ _ h.1 ht, roomOk_withdraw h.2 ht⟩
  discard _ _ h ht ha := ⟨tornOk_kept.discard _ _ h.1 ht ha, roomOk_discard h.2 ha⟩
  leave _ _ f h hu := ⟨tornOk_kept.leave _ _ f h.1 hu, roomOk_abandon h.2 f hu⟩
  read _ _ _ h hv := ⟨tornOk_kept.read _ _ _ h.1 hv, roomOk_afterRead h.2 hv⟩
  written _ p h ht := ⟨tornOk_kept.written _ _ h.1 ht, roomOk_written h.2 ht ((h.1.1.portOk p).2.2.2.2.1 ht)⟩
  complete _ _ _ _ h hq := ⟨tornOk_kept.complete _ _ _ trivial h.1 hq, roomOk_complete h.2 h.1.1 hq⟩
  resets s n keep t hj h :=
    ⟨⟨(tornOk_kept.resets s n keep t trivial h.1).1, HasRoom.powerOn (n := slotsHeld s) h.2 hj⟩,
      ⟨(tornOk_kept.resets s n keep t trivial h.1).2, HasRoom.lineReset (n := slotsHeld s) h.2 hj⟩⟩

/-- Settles O9: the moves of the Journal keep its numbering, and the operations of the taps its room. -/
theorem stepKeepsJournal : Obligations.StepKeepsJournal :=
  ⟨fun _ _ hj hstep => step_keeps_journalOk hstep hj, fun _ => queue_le_eight, fun s t hj htaps htorn hroom hstep =>
    (step_kept roomOk_kept s t hstep hj ⟨⟨htaps, htorn⟩, hroom⟩).2⟩

end Sys2Proof.Machine
end

