-- ==== Sys2Proof/Proofs/Stepping.lean ====
section
/-! PROOFS. The step itself: the command at the front of the queue, what the part does without one, and the state after power-on
(logs 1 to 4). -/

namespace Sys2Proof.Machine

/-! ## The command at the front -/

theorem step_of_pending {s : State} {c : Instr} {rest : List Instr} (h : s.pending = c :: rest) :
    step s = exec c { s with pending := rest } := by
  unfold step
  rw [h]

theorem step_of_empty {s : State} (h : s.pending = []) : step s = tick s := by
  unfold step
  rw [h]

/-- Settles O1. -/
theorem stepRunsFrontCommand : Obligations.StepRunsFrontCommand := fun _ _ _ => step_of_pending

/-- The queue of commands is no part of any block. -/
theorem closed_pending (queue : List Instr) : Closed (fun s => s.pending = queue) where
  now _ _ h := h
  free _ _ h := h
  port s p l h := by simpa using h
  ve _ _ h := h
  sl _ _ h := h
  su _ _ h _ := h
  fu _ _ h _ := h
  ac _ _ h _ := h
  acReset _ _ _ h := h
  jn _ _ h _ := h
  tl _ _ h _ := h
  cfg _ _ h _ := h

theorem exec_pending {c : Instr} {s t : State} (h : exec c s = .next t) : t.pending = s.pending :=
  exec_closed (closed_pending s.pending) c s t h rfl (fun _ _ _ _ h => h) (fun _ _ _ _ h _ => h) (fun _ _ _ _ _ h => h)

/-- Every command has a next state: an event of a timer that does not run, or of an empty queue, changes nothing (log 6). -/
theorem exec_goes_on (c : Instr) (s : State) : ∃ t, exec c s = .next t := by
  cases c with
  | confirmTimerExpiry p => simp only [exec, execConfirmTimerExpiry]; split <;> exact ⟨_, rfl⟩
  | appendCompletion => simp only [exec, execAppendCompletion]; split <;> exact ⟨_, rfl⟩
  | filteredChange i => simp only [exec, execFilteredChange]; split <;> exact ⟨_, rfl⟩
  | settleEnd => simp only [exec, execSettleEnd]; split <;> exact ⟨_, rfl⟩
  | travelTimeoutExpiry => simp only [exec, execTravelTimeoutExpiry]; split <;> exact ⟨_, rfl⟩
  | blankWindowEnd => simp only [exec, execBlankWindowEnd]; split <;> exact ⟨_, rfl⟩
  | zoneClearTimerExpiry => simp only [exec, execZoneClearTimerExpiry]; split <;> exact ⟨_, rfl⟩
  | alarmTimerExpiry => simp only [exec, execAlarmTimerExpiry]; split <;> exact ⟨_, rfl⟩
  | loiterLimitReached => simp only [exec, execLoiterLimitReached]; split <;> exact ⟨_, rfl⟩
  | holdWindowExpiry => simp only [exec, execHoldWindowExpiry]; split <;> exact ⟨_, rfl⟩
  | idleTimerExpiry => simp only [exec, execIdleTimerExpiry]; split <;> exact ⟨_, rfl⟩
  | clockAdvance => simp only [exec, execClockAdvance]; split <;> exact ⟨_, rfl⟩
  | linkWatchExpiry => simp only [exec, execLinkWatchExpiry]; split <;> exact ⟨_, rfl⟩
  | standaloneTimerExpiry => simp only [exec, execStandaloneTimerExpiry]; split <;> exact ⟨_, rfl⟩
  | stationReplyEnd => simp only [exec, execStationReplyEnd]; split <;> exact ⟨_, rfl⟩
  | _ => exact ⟨_, rfl⟩

/-- Settles O3. -/
theorem everyCommandGoesOn : Obligations.EveryCommandGoesOn := fun c s =>
  (exec_goes_on c s).imp fun _ h => ⟨h, exec_pending h⟩

/-! ## No command waiting -/

section Due
variable {s : State} {e : Nat}

theorem dueEvent_eq_none (h : dueEvent s = none) : dueTimer s = none ∧ dueTorn s = none ∧ dueWork s = none := by
  unfold dueEvent at h
  cases ht : dueTimer s with
  | some c => rw [ht] at h; cases h
  | none =>
    cases hr : dueTorn s with
    | some c => rw [ht, hr] at h; cases h
    | none => rw [ht, hr] at h; exact ⟨rfl, rfl, h⟩

/-- No timer of the list has reached its end. -/
theorem later_of_dueTimer (h : dueTimer s = none) {c : Instr} (hmem : (some e, c) ∈ timers s) : s.now < e := by
  have hnone := List.find?_eq_none.1 (Option.map_eq_none_iff.1 h) _ hmem
  simpa [reached] using hnone

theorem held_of_dueTorn (h : dueTorn s = none) {r : TornRecord} (hr : r ∈ s.ve.torn) (hw : r.state = .unresolved 0) :
    heldSerial s.ve = some r.serial := by
  have hnone := List.find?_eq_none.1 (Option.map_eq_none_iff.1 h) r hr
  simpa [TornRecord.window, hw] using hnone

theorem nothing_of_dueWork (h : dueWork s = none) :
    s.sl.resetDue = false ∧ (s.ve.eval = none → s.sl.slot = none ∧ s.fu.heldTest = false ∧ s.ve.queue = []) := by
  unfold dueWork at h
  split_ifs at h with hreset heval hslot htest hqueue
  · exact ⟨by simpa using hreset, fun he => by simp [he] at heval⟩
  · exact ⟨by simpa using hreset, fun _ => ⟨by simpa using hslot, by simpa using htest, by simpa using hqueue⟩⟩

theorem mem_timers_confirm (p : Port) : ((s.port p).confirmEnd, Instr.confirmTimerExpiry p) ∈ timers s := by
  cases p <;> simp [timers, State.port]

theorem mem_timers_filter (i : Input) : ((s.ac.inputs.line i).filterEnd, Instr.filteredChange i) ∈ timers s := by
  cases i <;> simp [timers, Inputs.line]

theorem blankDue_of_motion {m : Motion} (hm : s.ac.motion = some m) (ht : m.blankTaken = false)
    (hb : m.blankEnd = some e) : (blankDue s.ac).map Prod.snd = some e := by
  simp [blankDue, hm, ht, hb]

/-- Every timer that runs stands in the list with its end. -/
theorem later_of_running (h : dueTimer s = none)
    (hrun : (∃ p, (s.port p).confirmEnd = some e) ∨ s.ac.settleEnd = some e
      ∨ (∃ i, (s.ac.inputs.line i).filterEnd = some e)
      ∨ (∃ m, s.ac.motion = some m ∧ e = m.start + m.timeout)
      ∨ (∃ m, s.ac.motion = some m ∧ m.blankTaken = false ∧ m.blankEnd = some e)
      ∨ s.ac.zoneClearEnd = some e ∨ s.ac.alarmEnd = some e ∨ (s.ac.loiter = false ∧ nextLoiter s.env s.ac = some e)
      ∨ windowEnd s.ac = some e ∨ s.ac.idleEnd = some e
      ∨ (∃ ph, s.tl.valid = true ∧ s.tl.phase = some ph ∧ e = ph + 1000) ∨ s.tl.watchEnd = some e
      ∨ s.tl.standaloneEnd = some e) : s.now < e := by
  have hlist (x : Option Nat) (c : Instr) (hmem : (x, c) ∈ timers s) (hx : x = some e) : s.now < e :=
    later_of_dueTimer h (hx ▸ hmem)
  obtain ⟨p, h⟩ | h | ⟨i, h⟩ | ⟨m, hm, rfl⟩ | ⟨m, hm, ht, hb⟩ | h | h | ⟨hl, h⟩ | h | h | ⟨ph, hv, hph, rfl⟩ | h | h := hrun
  · exact hlist _ _ (mem_timers_confirm p) h
  · exact hlist _ .settleEnd (by simp [timers]) h
  · exact hlist _ _ (mem_timers_filter i) h
  · exact hlist (travelEnd s.ac) .travelTimeoutExpiry (by simp [timers]) (by simp [travelEnd, hm])
  · exact hlist _ .blankWindowEnd (by simp [timers]) (blankDue_of_motion hm ht hb)
  · exact hlist _ .zoneClearTimerExpiry (by simp [timers]) h
  · exact hlist _ .alarmTimerExpiry (by simp [timers]) h
  · exact hlist (loiterEnd s) .loiterLimitReached (by simp [timers]) (by simpa [loiterEnd, hl] using h)
  · exact hlist _ .holdWindowExpiry (by simp [timers]) h
  · exact hlist _ .idleTimerExpiry (by simp [timers]) h
  · exact hlist (secondEnd s.tl) .clockAdvance (by simp [timers]) (by simp [secondEnd, hv, hph])
  · exact hlist _ .linkWatchExpiry (by simp [timers]) h
  · exact hlist _ .standaloneTimerExpiry (by simp [timers]) h

end Due

/-- Settles O2: `dueEvent` looks at each timer, at the torn records and at what waits. -/
theorem emptyQueueStep : Obligations.EmptyQueueStep := by
  intro s hempty
  rw [step_of_empty hempty]
  refine ⟨fun c hc => by simp only [tick, hc], fun hnone => ?_, fun e hnone he hv => ?_, fun e hnone he hv => ?_,
    fun hnone he => ?_⟩
  · obtain ⟨htimer, htorn, hwork⟩ := dueEvent_eq_none hnone
    obtain ⟨hreset, hwait⟩ := nothing_of_dueWork hwork
    exact ⟨hreset, hwait, fun _ hr => held_of_dueTorn htorn hr, fun _ => later_of_running htimer⟩
  · simp only [tick, hnone, he, hv, if_true]
  · simp only [tick, hnone, he, hv, Option.isSome_none, Bool.false_eq_true, if_false]
  · simp only [tick, hnone, he]

/-! ## The state after power-on -/

theorem reset_ve : State.reset.ve = { queue := [], eval := none, inFlight := [], torn := [] } := rfl

theorem reset_port (p : Port) : State.reset.port p = portAfterReset := by cases p <;> rfl

theorem reset_tornOk : TornOk State.reset := by
  refine (tornOk_iff _).2 ?_
  simp only [FlightOk, reset_ve, reset_port]
  refine ⟨⟨Nat.zero_le 8, List.nodup_nil, fun _ => Nat.zero_le 1⟩, fun p => ⟨nofun, nofun⟩, ⟨fun n _ => ?_, nofun⟩, fun _ he => by cases he⟩
  exact iff_of_false nofun (not_carries_of_tap (t := .idle) rfl (by decide) n)

theorem reset_tapsOk : TapsOk State.reset :=
  ⟨List.nodup_nil, fun p => by cases p <;> exact portOk_ended nofun nofun rfl portAfterReset⟩

theorem reset_journalOk : JournalOk State.reset.jn := ⟨by decide, rfl, rfl, rfl, by decide, rfl,
    fun _ h => absurd h List.not_mem_nil, fun _ h => absurd h List.not_mem_nil⟩

theorem reset_creditsOk : CreditsOk State.reset.ac :=
  ⟨by decide, by decide, by decide, fun d => by cases d <;> decide, nofun, nofun⟩

/-- Settles O4. -/
theorem resetMeetsEveryCondition : Obligations.ResetMeetsEveryCondition :=
  ⟨reset_creditsOk, by unfold DriveOk; decide, by unfold WindowOk; decide, by unfold IdleOk; decide,
    by unfold DenyOk; decide, by unfold SeenOk; decide, by unfold KeysOk; decide,
    ⟨List.length_replicate, List.length_replicate, by decide⟩,
    reset_journalOk, by unfold TimeOk; decide, by unfold SettingsOk; decide, reset_tapsOk, reset_tornOk,
    by unfold RoomOk; decide⟩

end Sys2Proof.Machine
end

