-- ==== Sys2Proof/Proofs/LanePorts.lean ====
section
/-! PROOFS. A lane command and the other port (R91, R187, R188), and the tap that is taken (R34, R46, R66, R67). What waits for a
free Verdict Engine leaves its wait queue, its evaluation and the ports. -/

namespace Sys2Proof.Machine

/-! ## What waits leaves the Verdict Engine but for its table -/

/-- The Torn-Write Table alone may differ. -/
def TornOnly (v w : VerdictEngine) : Prop := w = { v with torn := w.torn }

section Waiting
variable {s : State} {p : Port}

theorem TornOnly.trans {u v w : VerdictEngine} (h : TornOnly u v) (g : TornOnly v w) : TornOnly u w := by
  unfold TornOnly at *
  rw [g, h]

theorem tornOnly_of_eq {v w : VerdictEngine} (h : w = v) : TornOnly v w := by rw [h]; rfl

theorem tornSighting_tornOnly (g : Sighting) (s : State) : TornOnly s.ve (tornSighting g s).ve := by
  unfold tornSighting tornReport
  split
  · rfl
  · split_ifs
    · split <;> rfl
    · rfl
    · rfl

theorem takeSighting_tornOnly (g : Sighting) (s : State) : TornOnly s.ve (takeSighting g s).ve := by
  unfold takeSighting
  dsimp only
  split_ifs
  · rfl
  · exact tornSighting_tornOnly g _

theorem sightings_tornOnly (gs : List Sighting) (s : State) :
    TornOnly s.ve (gs.foldl (fun acc g => takeSighting g acc) s).ve := by
  induction gs generalizing s with
  | nil => rfl
  | cons g gs ih => exact (takeSighting_tornOnly g s).trans (ih _)

theorem applySighting_tornOnly (f : Frame) (s : State) : TornOnly s.ve (applySighting f s).ve := by
  unfold applySighting
  rw [broadcastEnd_ve]
  split
  · exact sightings_tornOnly _ s
  · rfl

theorem applyByCode_tornOnly (f : Frame) (s : State) : TornOnly s.ve (applyByCode f s).ve := by
  unfold applyByCode
  split_ifs
  · exact applySighting_tornOnly f s
  all_goals exact tornOnly_of_eq (by simp)

theorem applyWaiting_tornOnly (s : State) : TornOnly s.ve (applyWaiting s).ve := by
  unfold applyWaiting
  split
  · rfl
  · split_ifs
    · rfl
    · exact applyByCode_tornOnly _ _

theorem waitingWork_tornOnly (s : State) : TornOnly s.ve (waitingWork s).ve := by
  unfold waitingWork
  rw [heldActivation_ve]
  exact applyWaiting_tornOnly s

theorem waitingWork_queue (s : State) : (waitingWork s).ve.queue = s.ve.queue := by
  rw [waitingWork_tornOnly s]

theorem waitingWork_nothing (hslot : s.sl.slot = none) (htest : s.fu.heldTest = false) : waitingWork s = s := by
  have happly : applyWaiting s = s := by unfold applyWaiting; rw [hslot]
  rw [waitingWork, happly, heldActivation, htest]
  rfl

/-! ## The free engine takes the oldest port (R67) -/

theorem beginEvaluation_eq {image : List Byte} {verdict : Option Verdict} {rest : List Port}
    (hslot : (s.port p).slot = some ⟨image, verdict⟩) :
    beginEvaluation p rest s = ({ s with ve := { s.ve with queue := rest, eval := some (freshEvaluation p image) } }).setPort p
      { s.port p with tap := .evaluating } := by
  unfold beginEvaluation freshEvaluation
  rw [hslot]
  rfl

theorem engineNext_takes {image : List Byte} {verdict : Option Verdict} {rest : List Port} (he : s.ve.eval = none)
    (hq : s.ve.queue = p :: rest) (hslot : (s.port p).slot = some ⟨image, verdict⟩) :
    engineNext s = ({ waitingWork s with ve := { (waitingWork s).ve with queue := rest, eval := some (freshEvaluation p image) } }
      : State).setPort p { (waitingWork s).port p with tap := .evaluating } := by
  have hqueue : (waitingWork s).ve.queue = p :: rest := (waitingWork_queue s).trans hq
  have hport : (waitingWork s).port p = s.port p := waitingWork_port
  unfold engineNext
  rw [if_neg (by simp [he, hq])]
  dsimp only
  rw [hqueue]
  exact beginEvaluation_eq (hport ▸ hslot)

end Waiting

/-! ## TAP and EVALUATION_BEGIN (R66, R67) -/

section Tap
variable {s : State} {p : Port} {image : List Byte}

theorem exec_tap_idle (hlen : image.length = 32) (ht : (s.port p).tap = .idle) :
    exec (.tap p image) s = .next (if s.ve.eval.isNone && s.ve.queue.isEmpty
      then engineNext (joinQueue p (s.setPort p ((s.port p).tapped image)))
      else joinQueue p (s.setPort p ((s.port p).tapped image))) := by
  have hframe : laneFrame p image (takeTap p image) s = takeTap p image s := if_neg (by omega)
  show Host.Outcome.next _ = _
  rw [hframe, takeTap, if_neg (by simpa using hlen), if_neg (by simpa using ht)]

theorem exec_evaluationBegin (s : State) : exec .evaluationBegin s = .next (engineNext s) := rfl

theorem exec_applyWaitingFrame (s : State) : exec .applyWaitingFrame s = .next (applyWaiting s) := rfl

theorem exec_heldActivationTest (s : State) : exec .heldActivationTest s = .next (heldActivation s) := rfl

/-- The two commands that make what waits, one after the other. -/
theorem waitingWork_of_exec {u w : State} (hu : exec .applyWaitingFrame s = .next u)
    (hw : exec .heldActivationTest u = .next w) : w = waitingWork s := by
  cases hu
  cases hw
  rfl

theorem tapped_slot : (((joinQueue p s).setPort p ((s.port p).tapped image)).port p).slot = some ⟨image, none⟩ := by
  rw [setPort_port_same]; rfl

/-- Settles O20. -/
theorem tapIsTaken : Obligations.TapIsTaken := by
  intro p image s
  refine ⟨fun hlen ht hbusy => ?_, fun hlen ht he hq hslot htest => ?_, fun rest he hq hslot htest himage => ?_,
    fun joined u w hlen ht he hq _ hjoined hu hw => ?_, fun rest u w he hq himage hu hw => ?_⟩
  · have hbusy' : (s.ve.eval.isNone && s.ve.queue.isEmpty) = false := by
      obtain h | h := hbusy
      · simp [Option.isSome_iff_ne_none.1 h]
      · simp [h]
    rw [exec_tap_idle hlen ht, hbusy', joinQueue_setPort]
    rfl
  · rw [exec_tap_idle hlen ht, joinQueue_setPort, he, hq]
    simp only [Option.isNone_none, List.isEmpty_nil, Bool.and_self, if_true]
    rw [engineNext_takes (rest := []) (by simpa [joinQueue] using he) (by simp [joinQueue, hq]) tapped_slot,
      waitingWork_nothing (by simpa using hslot) (by simpa using htest)]
    cases p <;> simp [State.setPort, State.port, joinQueue, LanePort.tapped, hq]
  · rw [exec_evaluationBegin, engineNext_takes he hq himage, waitingWork_nothing hslot htest]
  · have hjoin : joined = (joinQueue p s).setPort p ((s.port p).tapped image) := by
      rw [hjoined, joinQueue, hq]; rfl
    rw [exec_tap_idle hlen ht, joinQueue_setPort, he, hq]
    simp only [Option.isNone_none, List.isEmpty_nil, Bool.and_self, if_true]
    rw [engineNext_takes (rest := []) (by simpa [joinQueue] using he) (by simp [joinQueue, hq]) tapped_slot, ← hjoin,
      ← waitingWork_of_exec hu hw]
  · rw [exec_evaluationBegin, engineNext_takes he hq himage, ← waitingWork_of_exec hu hw]

end Tap

/-! ## The other port -/

section OtherPort
variable {s : State} {p q : Port} {payload : List Byte} {act : State → State}

theorem laneAnswer_other (hq : q ≠ p) (r : LastResult) : (laneAnswer p r s).port q = s.port q :=
  setPort_port_other s p q _ hq

theorem discardFrame_other (hq : q ≠ p) : (discardFrame p s).port q = s.port q := setPort_port_other s p q _ hq

theorem laneFrame_other (hq : q ≠ p) (hact : (act s).port q = s.port q) : (laneFrame p payload act s).port q = s.port q := by
  obtain ⟨-, h⟩ | ⟨-, h⟩ := laneFrame_eq p payload act s <;> rw [h]
  · exact discardFrame_other hq
  · exact hact

theorem laneBare_other (hq : q ≠ p) (hact : (act s).port q = s.port q) : (laneBare p payload act s).port q = s.port q := by
  obtain ⟨-, h⟩ | ⟨-, h⟩ | ⟨-, h⟩ := laneBare_eq p payload act s <;> rw [h]
  · exact discardFrame_other hq
  · exact laneAnswer_other hq _
  · exact hact

theorem abandon_other (hq : q ≠ p) (fate : TornFate) : (abandon p fate s).port q = s.port q := by
  unfold abandon
  exact (setPort_port_other _ p q _ hq).trans (port_of_parts rfl rfl)

theorem withdrawQueued_other (hq : q ≠ p) : (withdrawQueued p s).port q = s.port q :=
  setPort_port_other (leaveQueue p s) p q _ hq

theorem discardVerdict_other (hq : q ≠ p) : (discardVerdict p s).port q = s.port q := by
  unfold discardVerdict
  split_ifs
  · exact abandon_other hq _
  · exact setPort_port_other s p q _ hq

theorem dropTap_other (hq : q ≠ p) : (dropTap p s).port q = s.port q := by
  refine (setPort_port_other _ p q _ hq).trans ?_
  split
  · split_ifs
    · exact port_of_parts (dropEvaluation_portA _ s) (dropEvaluation_portB _ s)
    · rfl
  · rfl

theorem resetTap_other (hq : q ≠ p) : (resetTap p s).port q = s.port q := by
  unfold resetTap
  split
  · rfl
  · exact withdrawQueued_other hq
  · exact dropTap_other hq
  · exact discardVerdict_other hq
  · exact abandon_other hq _
  · rfl

theorem takePortReset_other (hq : q ≠ p) : (takePortReset p s).port q = s.port q :=
  (setPort_port_other _ p q _ hq).trans (resetTap_other hq)

/-- A tap begins its own evaluation: it is alone in the wait queue then (R67). -/
theorem takeTap_other (hq : q ≠ p) : (takeTap p payload s).port q = s.port q := by
  unfold takeTap
  dsimp only
  split_ifs with hlen ht hfree
  · exact laneAnswer_other hq _
  · exact laneAnswer_other hq _
  · simp only [Bool.and_eq_true, Option.isNone_iff_eq_none, List.isEmpty_iff] at hfree
    rw [joinQueue_setPort, engineNext_takes (rest := []) (by simpa [joinQueue] using hfree.1)
      (by simpa [joinQueue] using hfree.2) tapped_slot, setPort_port_other _ p q _ hq]
    have hwork : (waitingWork ((joinQueue p s).setPort p ((s.port p).tapped payload))).port q
        = ((joinQueue p s).setPort p ((s.port p).tapped payload)).port q := waitingWork_port
    exact hwork.trans (setPort_port_other (joinQueue p s) p q _ hq)
  · exact setPort_port_other s p q _ hq

theorem afterRead_other (hq : q ≠ p) (v : Verdict) : (afterRead p v s).port q = s.port q := by
  unfold afterRead
  dsimp only
  split_ifs
  · rfl
  · split
    · rw [tornCreate_port, setPort_port_other s p q _ hq]
    · rfl
  · exact setPort_port_other s p q _ hq

theorem takeReadVerdict_other (hq : q ≠ p) : (takeReadVerdict p s).port q = s.port q := by
  unfold takeReadVerdict
  dsimp only
  split
  · exact setPort_port_other s p q _ hq
  · exact (afterRead_other hq _).trans (setPort_port_other s p q _ hq)

theorem takeWritten_other (hq : q ≠ p) : (takeWritten p s).port q = s.port q := by
  unfold takeWritten
  split_ifs
  · exact (setPort_port_other _ p q _ hq).trans (port_of_parts (requestTapFare_portA p s) (requestTapFare_portB p s))
  · exact laneAnswer_other hq _

theorem takeNotWritten_other (hq : q ≠ p) : (takeNotWritten p s).port q = s.port q := by
  unfold takeNotWritten
  split_ifs
  · exact (laneAnswer_other hq _).trans (abandon_other hq _)
  · exact laneAnswer_other hq _

theorem takeUncertain_other (hq : q ≠ p) : (takeUncertain p s).port q = s.port q := by
  unfold takeUncertain
  split_ifs
  · exact (laneAnswer_other hq _).trans (abandon_other hq _)
  · exact laneAnswer_other hq _

theorem takeCancel_other (hq : q ≠ p) : (takeCancel p s).port q = s.port q := by
  unfold takeCancel
  split
  · exact (laneAnswer_other hq _).trans (withdrawQueued_other hq)
  · exact (laneAnswer_other hq _).trans (discardVerdict_other hq)
  · exact (laneAnswer_other hq _).trans (abandon_other hq _)
  · exact laneAnswer_other hq _

theorem takeFaultClear_other (hq : q ≠ p) : (takeFaultClear p s).port q = s.port q := by
  unfold takeFaultClear
  split_ifs
  · exact laneAnswer_other hq _
  · exact (laneAnswer_other hq _).trans clearFault_port

/-- Settles O15. -/
theorem laneCommandLeavesOtherPort : Obligations.LaneCommandLeavesOtherPort := by
  intro c p q s t hc hpq h
  have hq : q ≠ p := hpq.symm
  cases c <;> cases hc <;> cases h
  case tap => exact laneFrame_other hq (takeTap_other hq)
  case readVerdict => exact laneFrame_other hq (takeReadVerdict_other hq)
  case written => exact laneBare_other hq (takeWritten_other hq)
  case notWritten => exact laneBare_other hq (takeNotWritten_other hq)
  case uncertain => exact laneBare_other hq (takeUncertain_other hq)
  case cancel => exact laneBare_other hq (takeCancel_other hq)
  case readStatus => exact laneFrame_other hq (setPort_port_other s p q _ hq)
  case readHalt => exact laneFrame_other hq (setPort_port_other s p q _ hq)
  case faultClear => exact laneBare_other hq (takeFaultClear_other hq)
  case portReset => exact laneBare_other hq (takePortReset_other hq)
  case laneUnknownCommand => exact laneFrame_other hq (laneAnswer_other hq _)
  case laneFrameDiscard => exact discardFrame_other hq

end OtherPort

end Sys2Proof.Machine
end

