-- ==== Sys2Proof/Proofs/Activation.lean ====
section
/-! PROOFS. The activation test (R45 to R47): what it makes of a state, and the held test. -/

namespace Sys2Proof.Machine

section Activation
variable {s : State} {one : Bool}

theorem activationTest_none (t : TimeLink) {f : FareUnit} (h : f.bankIn .ready = none) : activationTest t f = (f, []) := by
  rw [activationTest, h]

theorem activationTest_early {t : TimeLink} {f : FareUnit} (h : f.bankIn .ready = some one)
    (hearly : t.valid = false ∨ t.day < (f.bank one).effDay) : activationTest t f = (f, []) := by
  rw [activationTest, h]
  refine if_neg ?_
  simp only [Bool.and_eq_true, decide_eq_true_eq]
  rintro ⟨hv, hd⟩
  obtain h | h := hearly
  · rw [h] at hv; cases hv
  · omega

theorem activationTest_due {t : TimeLink} {f : FareUnit} (h : f.bankIn .ready = some one) (hv : t.valid = true)
    (hd : (f.bank one).effDay ≤ t.day) : activationTest t f
      = (({ f with bank0 := retireBank f.bank0, bank1 := retireBank f.bank1 }).setBank one { f.bank one with state := .active },
        [activationAlert (f.bank one).version f.activeVersion]) := by
  rw [activationTest, h]
  exact if_pos (by simp [hv, hd])

theorem runActivation_of_kept (h : activationTest s.tl s.fu = (s.fu, [])) : runActivation s = s := by
  rw [runActivation, h]; rfl

theorem runActivation_due (h : s.fu.bankIn .ready = some one) (hv : s.tl.valid = true)
    (hd : (s.fu.bank one).effDay ≤ s.tl.day) : runActivation s = { s with
      fu := ({ s.fu with bank0 := retireBank s.fu.bank0, bank1 := retireBank s.fu.bank1 } : FareUnit).setBank one
        { s.fu.bank one with state := .active }
      jn := requestAlert s.tl (activationAlert (s.fu.bank one).version s.fu.activeVersion) s.jn } := by
  rw [runActivation, activationTest_due h hv hd]
  rfl

/-- The activation test does to a state what the terms of the claims say of one. -/
theorem runActivation_made (s : State) : activationMade s (runActivation s) :=
  ⟨fun h => runActivation_of_kept (activationTest_none s.tl h), fun _ h =>
    ⟨fun hearly => runActivation_of_kept (activationTest_early h hearly), fun hv hd => runActivation_due h hv hd⟩⟩

theorem dueActivation_held (h : s.ve.eval.isSome = true) :
    dueActivation s = { s with fu := { s.fu with heldTest := true } } := if_pos h

theorem dueActivation_made (h : s.ve.eval = none) : dueActivation s = runActivation s :=
  if_neg (by simp [h])

theorem heldActivation_makes (htest : s.fu.heldTest = true) (he : s.ve.eval = none) :
    heldActivation s = runActivation { s with fu := { s.fu with heldTest := false } } := by
  rw [heldActivation, htest, he]
  rfl

/-- Settles O34. -/
theorem heldTestActivates : Obligations.HeldTestActivates := by
  intro s one htest he _ hready
  have hexec : exec .heldActivationTest s = .next (runActivation { s with fu := { s.fu with heldTest := false } }) :=
    congrArg Host.Outcome.next (heldActivation_makes htest he)
  have hready' : ({ s.fu with heldTest := false } : FareUnit).bankIn .ready = some one := hready
  rw [hexec]
  refine ⟨fun hdue => ?_, fun hearly => ?_⟩
  · exact congrArg Host.Outcome.next
      (runActivation_due (s := { s with fu := { s.fu with heldTest := false } }) hready' hdue.1 hdue.2)
  · exact congrArg Host.Outcome.next (runActivation_of_kept (activationTest_early hready' hearly))

end Activation

end Sys2Proof.Machine
end

