-- ==== Sys2Proof/Proofs/StationReplies.lean ====
section
/-! PROOFS. Bytes of layouts, and the reply of the station line with its status summary (R190 to R192). -/

namespace Sys2Proof.Machine

/-! ## Codes and flags in bytes -/

theorem flagByte_cons (b : Bool) (bs : List Bool) : flagByte (b :: bs) = bitNat b + 2 * flagByte bs := rfl

theorem flagByte_nil : flagByte [] = 0 := rfl

theorem beBytes_two (n : Nat) : beBytes 2 n = [byteOf (n / 256), byteOf n] := by
  simp [beBytes, byteOf]

theorem linkCode_of_index {m : LinkMode} {n : Nat} (h : [LinkMode.unsynced, .resync, .linked, .standalone][n]? = some m) :
    linkCode m = n := by
  rcases n with _ | _ | _ | _ | n <;> cases h <;> rfl

theorem bankCode_of_index {b : BankState} {n : Nat}
    (h : [BankState.empty, .loading, .ready, .active, .retired][n]? = some b) : bankCode b = n := by
  rcases n with _ | _ | _ | _ | _ | n <;> cases h <;> rfl

theorem rejectCode_of_index {r : Reject} {n : Nat} (h : [Reject.none, .check, .bands, .step][n]? = some r) :
    rejectCode r = n := by
  rcases n with _ | _ | _ | _ | n <;> cases h <;> rfl

/-! ## The reply -/

theorem summaryBytes_length (s : State) : (summaryBytes s).length = 14 := rfl

theorem byteOf_congr {m n : Nat} (h : m = n) : byteOf m = byteOf n := by rw [h]

theorem flagByte_seven (a b c d e f g : Bool) : flagByte [a, b, c, d, e, f, g, false]
    = bitNat a + 2 * bitNat b + 4 * bitNat c + 8 * bitNat d + 16 * bitNat e + 32 * bitNat f + 64 * bitNat g := by
  simp only [flagByte_cons, flagByte_nil, bitNat, Bool.false_eq_true, if_false]
  omega

theorem flagByte_six (a b c d e f : Bool) : flagByte [a, b, c, d, e, f]
    = bitNat a + 2 * bitNat b + 4 * bitNat c + 8 * bitNat d + 16 * bitNat e + 32 * bitNat f := by
  simp only [flagByte_cons, flagByte_nil]
  omega

/-- Settles O47. -/
theorem replyCarriesResultAndSummary : Obligations.ReplyCarriesResultAndSummary := by
  refine ⟨?_, rfl, fun f r data s => ⟨rfl, _, rfl, ?_⟩⟩
  · intro s link one two rejected bit bankStates hlink hone htwo hrejected
    rw [summaryBytes, linkCode_of_index hlink, bankCode_of_index hone, bankCode_of_index htwo, rejectCode_of_index hrejected,
      flagByte_seven, flagByte_six, beBytes_two, beBytes_two, beBytes_two, beBytes_two]
    rfl
  · have hlen : (byteOf (resultCode r) :: summaryBytes s ++ data).length = 15 + data.length := by
      rw [List.length_append, List.length_cons, summaryBytes_length]
    rw [sendReply, replyFrame, hlen]
    rfl

end Sys2Proof.Machine
end

