-- ==== Sys2Proof/Proofs/FaultStates.lean ====
section
/-! PROOFS. The fault states and what ends them (R150, R153, R154): every event of the aisle but RESTORE and a cleared fault keeps
LOCKED_OUT and fault-in-progress, and with them every command that reaches the aisle in no other way. -/

namespace Sys2Proof.Machine

/-- LOCKED_OUT and fault-in-progress stay where they are set. -/
def FaultsKept (a b : Aisle) : Prop :=
  (a.lockedOut = true → b.lockedOut = true) ∧ (a.faultInProgress = true → b.faultInProgress = true)

section Aisle
variable {env : Env} {a b c : Aisle} {r : AisleRun} {d : Dir}

theorem faultsKept_refl (a : Aisle) : FaultsKept a a := ⟨id, id⟩

theorem FaultsKept.trans (h : FaultsKept a b) (k : FaultsKept b c) : FaultsKept a c := ⟨k.1 ∘ h.1, k.2 ∘ h.2⟩

theorem faultsKept_of_fields (hlock : b.lockedOut = a.lockedOut) (hfault : b.faultInProgress = a.faultInProgress) :
    FaultsKept a b := ⟨fun h => hlock.trans h, fun h => hfault.trans h⟩

theorem faultsKept_of_eq (h : b = a) : FaultsKept a b := h ▸ faultsKept_refl a

theorem FaultsKept.settle (h : FaultsKept a b) (env : Env) (was : Bool) : FaultsKept a (settle env was b) :=
  h.trans (faultsKept_of_fields (by simp) (by simp))

theorem faultsKept_settle (env : Env) (was : Bool) (b : Aisle) (hlock : b.lockedOut = a.lockedOut)
    (hfault : b.faultInProgress = a.faultInProgress) : FaultsKept a (Machine.settle env was b) :=
  (faultsKept_of_fields hlock hfault).settle env was

theorem crossIn_faults (env : Env) (d : Dir) (r : AisleRun) : FaultsKept r.ac (crossIn env d r).ac := by
  have hraise : FaultsKept r.ac (raiseBodies d r.ac) := faultsKept_of_fields (by simp) (by simp)
  refine FaultsKept.settle ?_ env _
  split_ifs <;> exact hraise

theorem backOut_faults (env : Env) (d : Dir) (r : AisleRun) : FaultsKept r.ac (backOut env d r).ac := by
  have hlower : FaultsKept r.ac (lowerBodies d r.ac) := faultsKept_of_fields (by simp) (by simp)
  unfold backOut
  split
  · exact hlower
  · split_ifs <;> exact hlower

theorem depart_faults (env : Env) (d : Dir) (a : Aisle) : FaultsKept a (depart env d a) := by
  have hlower : FaultsKept a (lowerBodies d a) := faultsKept_of_fields (by simp) (by simp)
  unfold depart
  split_ifs
  · exact hlower.trans (faultsKept_of_fields (by simp) (by simp))
  · exact hlower

theorem crossOut_faults (env : Env) (d : Dir) (r : AisleRun) : FaultsKept r.ac (crossOut env d r).ac := by
  unfold crossOut
  split_ifs
  · exact (depart_faults env d r.ac).settle env _
  · exact (backOut_faults env d.other r).settle env _
  · exact faultsKept_refl _

theorem detectorEvent_faults (env : Env) (e : Port) (r : AisleRun) : FaultsKept r.ac (detectorEvent env e r).ac := by
  have hset (n : Detector) : FaultsKept r.ac (setDetector r.ac e n) := faultsKept_of_fields (by simp) (by simp)
  unfold detectorEvent
  dsimp only
  split
  · exact hset _
  · refine FaultsKept.trans ?_ (crossIn_faults env _ _)
    exact hset _
  · refine FaultsKept.trans ?_ (crossOut_faults env _ _)
    exact hset _

theorem emergencyEdge_faults (env : Env) (before : Aisle) (r : AisleRun) :
    FaultsKept r.ac (emergencyEdge env before r).ac := by
  unfold emergencyEdge
  split_ifs
  · exact faultsKept_settle env _ _ rfl rfl
  · exact faultsKept_settle env _ _ rfl rfl
  · exact faultsKept_refl _

/-- A fault sets fault-in-progress, or with it set LOCKED_OUT (R150). -/
theorem leafFault_faults (env : Env) (conflict : Bool) (r : AisleRun) : FaultsKept r.ac (leafFault env conflict r).ac := by
  unfold leafFault
  split
  · exact faultsKept_refl _
  · split_ifs
    · exact ⟨fun _ => rfl, fun h => h⟩
    · refine FaultsKept.trans (b := { r.ac with faultInProgress := true }) ⟨id, fun _ => rfl⟩ ?_
      exact faultsKept_of_fields (startMotion_lockedOut ..) (startMotion_faultInProgress ..)

theorem stopChange_faults (env : Env) (which : Target) (level : Bool) (r : AisleRun) :
    FaultsKept r.ac (stopChange env which level r).ac := by
  obtain heq | ⟨-, heq⟩ | ⟨tgt, -, heq⟩ | ⟨tgt, -, heq⟩ := stopChange_cases env which level r <;> rw [heq]
  · exact faultsKept_refl _
  · exact leafFault_faults env true r
  · exact faultsKept_of_fields (by simp [AisleRun.upd]) (by simp [AisleRun.upd])
  · exact faultsKept_of_fields (by simp [AisleRun.upd]) (by simp [AisleRun.upd])

theorem handFilteredChange_faults (env : Env) (before : Aisle) (i : Input) (level : Bool) (r : AisleRun) :
    FaultsKept r.ac (handFilteredChange env before i level r).ac := by
  have hzone : FaultsKept r.ac (zoneChange env level r.ac) := faultsKept_of_fields (by simp) (by simp)
  cases i with
  | aOuter | aInner => exact detectorEvent_faults env .a r
  | bInner | bOuter => exact detectorEvent_faults env .b r
  | l1 | l2 => exact hzone.settle env _
  | openStop => exact (stopChange_faults env .toOpen level r).settle env _
  | closedStop => exact (stopChange_faults env .toClosed level r).settle env _
  | emerg => exact emergencyEdge_faults env before r

theorem endFilter_faults (env : Env) (i : Input) (r : AisleRun) : FaultsKept r.ac (endFilter env i r).ac := by
  unfold endFilter
  dsimp only
  split_ifs
  · exact faultsKept_of_fields rfl rfl
  · refine FaultsKept.trans ?_ (handFilteredChange_faults env r.ac i _ _)
    exact faultsKept_of_fields rfl rfl

theorem firstDrive_faults (env : Env) (a : Aisle) : FaultsKept a (firstDrive env a) := by
  unfold firstDrive
  split_ifs
  · exact faultsKept_refl _
  all_goals exact faultsKept_of_fields (by simp) (by simp)

theorem settleInputs_faults (env : Env) (r : AisleRun) : FaultsKept r.ac (settleInputs env r).ac := by
  rw [settleInputs_eq env r rfl]
  have hlevels : FaultsKept r.ac (r.upd takeLevels).ac := faultsKept_of_fields rfl rfl
  have hedge := hlevels.trans (emergencyEdge_faults env r.ac (r.upd takeLevels))
  have ha := hedge.trans (detectorEvent_faults env .a _)
  have hb := ha.trans (detectorEvent_faults env .b _)
  exact (hb.trans (firstDrive_faults env _)).settle env _

theorem expireHold_faults (env : Env) (r : AisleRun) : FaultsKept r.ac (expireHold env r).ac := by
  unfold expireHold
  split
  · exact faultsKept_refl _
  · exact faultsKept_settle env _ _ rfl rfl

theorem releaseCredit_faults (env : Env) (p : Port) (a : Aisle) : FaultsKept a (releaseCredit env p a) :=
  faultsKept_settle env _ _ rfl rfl

theorem grantCredit_faults (env : Env) (p : Port) (n : Nat) (a : Aisle) : FaultsKept a (grantCredit env p n a) :=
  faultsKept_settle env _ _ rfl rfl

theorem reserveCredit_faults {n : Nat} {p : Port} (h : reserveCredit env n d p a = some b) : FaultsKept a b := by
  unfold reserveCredit at h
  split_ifs at h
  cases h
  exact faultsKept_settle env _ _ rfl rfl

theorem endBlank_faults (env : Env) (m : Motion) (a : Aisle) : FaultsKept a (endBlank env m a) := by
  refine FaultsKept.settle ?_ env _
  split_ifs <;> exact faultsKept_of_fields (by simp) (by simp)

theorem endZoneClear_faults (env : Env) (a : Aisle) : FaultsKept a (endZoneClear env a) :=
  faultsKept_settle env _ _ rfl rfl

theorem rawChange_faults (env : Env) (i : Input) (level : Bool) (a : Aisle) : FaultsKept a (rawChange env i level a) := by
  unfold rawChange
  dsimp only
  split_ifs <;> exact faultsKept_of_fields rfl rfl

end Aisle

/-! ## Commands -/

/-- The fault states of the part stay. -/
def Spared (s t : State) : Prop := FaultsKept s.ac t.ac

section Commands
variable {s t u : State} {p : Port}

theorem Spared.trans (h : Spared s t) (k : Spared t u) : Spared s u := FaultsKept.trans h k

theorem spared_of_ac (h : t.ac = s.ac) : Spared s t := faultsKept_of_eq h

theorem Spared.then_ac (h : Spared s t) (hac : u.ac = t.ac) : Spared s u := h.trans (spared_of_ac hac)

theorem withAisle_spared {f : Env → AisleRun → AisleRun} (h : ∀ env r, FaultsKept r.ac (f env r).ac) (s : State) :
    Spared s (withAisle f s) := h s.env ⟨s.ac, []⟩

theorem withAisleOnly_spared {f : Env → Aisle → Aisle} (h : ∀ env a, FaultsKept a (f env a)) (s : State) :
    Spared s (withAisleOnly f s) := h s.env s.ac

theorem applyConfigure_spared (f : Frame) (s : State) : Spared s (applyConfigure f s) := by
  have hsettings (c : Settings) : Spared s (changeSettings c s) := faultsKept_of_fields rfl rfl
  unfold applyConfigure configureReply
  split_ifs
  · exact spared_of_ac rfl
  · split
    · exact spared_of_ac rfl
    · split_ifs
      · exact spared_of_ac rfl
      all_goals exact hsettings _

theorem applyByCode_spared (f : Frame) (s : State) : Spared s (applyByCode f s) := by
  unfold applyByCode
  split_ifs
  case pos => exact spared_of_ac (by simp)
  case pos => exact spared_of_ac (by simp)
  case pos => exact spared_of_ac (by simp)
  case pos => exact spared_of_ac (by simp)
  case pos => exact spared_of_ac (by simp)
  case pos => exact spared_of_ac (by simp)
  case pos => exact applyConfigure_spared f s
  case neg => exact spared_of_ac rfl

theorem applyWaiting_spared (s : State) : Spared s (applyWaiting s) := by
  unfold applyWaiting
  split
  · exact spared_of_ac rfl
  · split_ifs
    · exact spared_of_ac rfl
    · exact Spared.trans (t := { s with sl := { s.sl with slot := none } }) (spared_of_ac rfl) (applyByCode_spared _ _)

theorem waitingWork_spared (s : State) : Spared s (waitingWork s) :=
  (applyWaiting_spared s).then_ac (by simp [waitingWork])

/-- A station frame changes the aisle by what waits and by its own effect. -/
theorem stationFrame_aisle {R : Aisle → Aisle → Prop} (hrefl : ∀ a, R a a) (htrans : ∀ a b c, R a b → R b c → R a c)
    (hwork : ∀ s, R s.ac (waitingWork s).ac) {act : State → State} (h : ∀ s, R s.ac (act s).ac) (f : Frame) (s : State) :
    R s.ac (stationFrame f act s).ac := by
  obtain heq | ⟨-, -, -, -, -, heq⟩ | ⟨-, -, -, -, -, heq⟩ | ⟨-, -, -, -, -, -, heq⟩ | ⟨-, -, -, -, -, heq⟩ :=
    stationFrame_eq f act s <;> rw [heq]
  · exact hrefl _
  · exact hrefl _
  · obtain ⟨-, heq⟩ | ⟨_, s1, s2, -, hs1, hs2, heq⟩ := afterWaiting_eq act s <;> rw [heq]
    · exact htrans _ _ _ (hwork s) (h _)
    · have hfirst : s1.ac = (waitingWork s).ac := by rw [hs1]
      have hsecond := h s1
      rw [hfirst, ← hs2] at hsecond
      exact htrans _ _ _ (hwork s) hsecond
  · exact hrefl _
  · exact h s

theorem stationFrame_spared {act : State → State} (h : ∀ s, Spared s (act s)) (f : Frame) (s : State) :
    Spared s (stationFrame f act s) :=
  stationFrame_aisle faultsKept_refl (fun _ _ _ => FaultsKept.trans) waitingWork_spared h f s

theorem laneFrame_spared {act : State → State} (h : Spared s (act s)) (p : Port) (l : List Byte) :
    Spared s (laneFrame p l act s) := by
  obtain ⟨-, heq⟩ | ⟨-, heq⟩ := laneFrame_eq p l act s <;> rw [heq]
  · exact spared_of_ac (by simp)
  · exact h

theorem laneBare_spared {act : State → State} (h : Spared s (act s)) (p : Port) (l : List Byte) :
    Spared s (laneBare p l act s) := by
  obtain ⟨-, heq⟩ | ⟨-, heq⟩ | ⟨-, heq⟩ := laneBare_eq p l act s <;> rw [heq]
  · exact spared_of_ac (by simp)
  · exact spared_of_ac (by simp)
  · exact h

theorem fixedLength_spared {act : State → State} (h : Spared s (act s)) (f : Frame) (n : Nat) :
    Spared s (fixedLength f n act s) := by
  obtain ⟨-, heq⟩ | ⟨-, heq⟩ := fixedLength_eq f n act s <;> rw [heq]
  · exact spared_of_ac rfl
  · exact h

theorem abandon_spared (p : Port) (fate : TornFate) (s : State) : Spared s (abandon p fate s) :=
  (withAisleOnly_spared (fun env a => releaseCredit_faults env p a) s).then_ac (by simp [abandon])

theorem discardVerdict_spared (p : Port) (s : State) : Spared s (discardVerdict p s) := by
  unfold discardVerdict
  split_ifs
  · exact abandon_spared p _ s
  · exact spared_of_ac (by simp)

theorem dropEvaluation_spared (e : Evaluation) (s : State) : Spared s (dropEvaluation e s) := by
  have hrelease : Spared s (withAisleOnly (fun env a => releaseCredit env e.port a) (s.setEval none)) :=
    withAisleOnly_spared (fun env a => releaseCredit_faults env e.port a) (s.setEval none)
  unfold dropEvaluation
  dsimp only
  split_ifs
  · exact hrelease.then_ac (by simp)
  · exact spared_of_ac (by simp)
  · exact hrelease.then_ac (by simp)
  · exact spared_of_ac (by simp)

theorem dropTap_spared (p : Port) (s : State) : Spared s (dropTap p s) := by
  refine Spared.then_ac (t := match s.ve.eval with
    | some e => if e.port = p then dropEvaluation e s else s
    | none => s) ?_ (setPort_ac ..)
  split
  · split_ifs
    · exact dropEvaluation_spared _ s
    · exact spared_of_ac rfl
  · exact spared_of_ac rfl

theorem resetTap_spared (p : Port) (s : State) : Spared s (resetTap p s) := by
  unfold resetTap
  split
  · exact spared_of_ac rfl
  · exact spared_of_ac (by simp)
  · exact dropTap_spared p s
  · exact discardVerdict_spared p s
  · exact abandon_spared p _ s
  · exact spared_of_ac rfl

theorem engineNext_spared (s : State) : Spared s (engineNext s) := by
  unfold engineNext
  split_ifs
  · exact spared_of_ac rfl
  · dsimp only
    split
    · exact waitingWork_spared s
    · exact (waitingWork_spared s).then_ac (by simp)

theorem takeTap_spared (p : Port) (l : List Byte) (s : State) : Spared s (takeTap p l s) := by
  unfold takeTap
  dsimp only
  split_ifs
  · exact spared_of_ac (by simp)
  · exact spared_of_ac (by simp)
  · exact Spared.trans (spared_of_ac (by simp)) (engineNext_spared _)
  · exact spared_of_ac (by simp)

theorem reserveBoth_spared (d : Option Dir) (v : Verdict) (e : Evaluation) (s : State) : Spared s (reserveBoth d v e s) := by
  unfold reserveBoth
  split
  · exact spared_of_ac rfl
  · rename_i a ha
    have hcredit : FaultsKept s.ac a := by
      cases d with
      | none => cases ha; exact faultsKept_refl _
      | some d => exact reserveCredit_faults ha
    dsimp only
    split
    · cases d with
      | none => exact hcredit
      | some d => exact FaultsKept.trans hcredit (releaseCredit_faults _ _ _)
    · exact hcredit

theorem evalStep_spared (s : State) : Spared s (evalStep s) := by
  have hsame {t : State} (h : t.ac = s.ac) : Spared s t := spared_of_ac h
  unfold evalStep
  split
  · exact hsame rfl
  · split_ifs
    · exact hsame rfl
    · split
      · unfold gateStage; dsimp only; split <;> exact hsame rfl
      · unfold formStage; split <;> exact hsame rfl
      · unfold inFlightStage; split_ifs <;> exact hsame rfl
      · unfold tornStage
        split
        · exact hsame rfl
        · dsimp only
          split
          · exact hsame rfl
          · split_ifs
            · exact hsame rfl
            · exact reserveBoth_spared _ _ _ s
            · exact hsame rfl
            · exact hsame rfl
      · unfold keyCheckStage
        split
        · exact hsame rfl
        · split_ifs <;> exact hsame rfl
      · unfold denyStage; split <;> exact hsame rfl
      · unfold cloneStage
        split
        · exact hsame rfl
        · dsimp only
          split <;> exact hsame rfl
      · unfold exhaustionStage; split_ifs <;> exact hsame rfl
      · unfold fareStage
        split_ifs
        · exact hsame rfl
        · split
          · exact hsame rfl
          · unfold fareEnd
            split
            · split_ifs <;> exact hsame rfl
            · exact hsame rfl
      · unfold reservationsStage
        split
        · exact hsame rfl
        · exact reserveBoth_spared _ _ _ s

theorem remainingStages_spared (s : State) : Spared s (remainingStages s) := by
  have hrun (n : Nat) (u : State) : Spared u (evalRun n u) := by
    induction n generalizing u with
    | zero => exact spared_of_ac rfl
    | succ n ih => exact (evalStep_spared u).trans (ih _)
  exact hrun 10 s

theorem endEvaluation_spared (s : State) : Spared s (endEvaluation s) := by
  have hstages := remainingStages_spared s
  unfold endEvaluation
  dsimp only
  split
  · exact hstages
  · split
    · exact hstages
    · exact hstages.then_ac (by simp)

theorem confirmExpired_spared (p : Port) (s : State) : Spared s (confirmExpired p s) := by
  unfold confirmExpired
  split
  · exact abandon_spared p _ s
  · exact abandon_spared p _ s
  · exact spared_of_ac (by simp)

theorem takeCompletion_spared (a : Append) (rest : List Append) (s : State) : Spared s (takeCompletion a rest s) := by
  unfold takeCompletion
  dsimp only
  split
  · exact spared_of_ac rfl
  · rename_i p _
    rw [completeCommit_eq]
    refine Spared.then_ac (t := withAisleOnly (fun env ac => grantCredit env p a.record.number ac) s)
      (withAisleOnly_spared (fun env ac => grantCredit_faults env p a.record.number ac) s) ?_
    simp [State.env]

theorem expireAtReset_ac (s : State) : (expireAtReset s).ac = s.ac := by
  have hfold (serials : List Nat) (u : State) : (serials.foldl (fun acc n => expireIfDue n acc) u).ac = u.ac := by
    induction serials generalizing u with
    | nil => rfl
    | cons n rest ih => rw [List.foldl_cons, ih, expireIfDue_ac]
  exact hfold _ s

theorem resets_spared (n : Nat) (keep : Bool) (j : Journal) (tl : TimeLink) (s : State) :
    Spared s (expireAtReset (resetBlocks n keep j tl s)) :=
  Spared.then_ac (t := resetBlocks n keep j tl s) (faultsKept_of_fields rfl rfl) (expireAtReset_ac _)

theorem applyTimePayload_spared (l : List Byte) (s : State) : Spared s (applyTimePayload l s) := by
  unfold applyTimePayload
  split_ifs
  · exact (remainingStages_spared s).then_ac (by simp)
  · exact spared_of_ac rfl

theorem setStationEmergency_faults (v : Bool) (env : Env) (r : AisleRun) :
    FaultsKept r.ac (setStationEmergency v env r).ac := by
  refine FaultsKept.trans ?_ (emergencyEdge_faults env r.ac _)
  exact faultsKept_of_fields rfl rfl

theorem applyEmergencyPayload_spared (l : List Byte) (s : State) : Spared s (applyEmergencyPayload l s) := by
  unfold applyEmergencyPayload
  split_ifs
  · exact withAisle_spared (setStationEmergency_faults false) s
  · exact withAisle_spared (setStationEmergency_faults true) s
  · exact spared_of_ac rfl

/-- A station command that leaves the aisle as it is. -/
theorem station_spared {act : State → State} (h : ∀ s, (act s).ac = s.ac) (f : Frame) (s : State) :
    Spared s (stationFrame f act s) := stationFrame_spared (fun s => spared_of_ac (h s)) f s

/-- Every command but RESTORE and FAULT_CLEAR of either party keeps the fault states. -/
theorem exec_spared {c : Instr} (h : exec c s = .next t) (hrestore : ∀ addr l, c ≠ .restore addr l)
    (hclear : ∀ p l, c ≠ .faultClear p l) (hstation : ∀ addr l, c ≠ .stationFaultClear addr l) : Spared s t := by
  cases c
  case restore addr l => exact absurd rfl (hrestore addr l)
  case faultClear p l => exact absurd rfl (hclear p l)
  case stationFaultClear addr l => exact absurd rfl (hstation addr l)
  case powerOn => cases h; exact resets_spared _ _ _ _ s
  case lineReset =>
    cases h
    split_ifs
    · exact (resets_spared _ _ _ _ s).then_ac (runActivation_ac _)
    · exact resets_spared _ _ _ _ s
  case tap => cases h; exact laneFrame_spared (takeTap_spared _ _ s) _ _
  case readVerdict => cases h; exact laneFrame_spared (spared_of_ac (by simp)) _ _
  case written => cases h; exact laneBare_spared (spared_of_ac (by simp)) _ _
  case notWritten p l =>
    cases h
    refine laneBare_spared ?_ _ _
    unfold takeNotWritten
    split_ifs
    · exact (abandon_spared p _ s).then_ac (laneAnswer_ac ..)
    · exact spared_of_ac (by simp)
  case uncertain p l =>
    cases h
    refine laneBare_spared ?_ _ _
    unfold takeUncertain
    split_ifs
    · exact (abandon_spared p _ s).then_ac (laneAnswer_ac ..)
    · exact spared_of_ac (by simp)
  case cancel p l =>
    cases h
    refine laneBare_spared ?_ _ _
    unfold takeCancel
    split
    · exact spared_of_ac (by simp)
    · exact (discardVerdict_spared p s).then_ac (laneAnswer_ac ..)
    · exact (abandon_spared p _ s).then_ac (laneAnswer_ac ..)
    · exact spared_of_ac (by simp)
  case readStatus => cases h; exact laneFrame_spared (spared_of_ac (by simp)) _ _
  case readHalt => cases h; exact laneFrame_spared (spared_of_ac (by simp)) _ _
  case portReset p l => cases h; exact laneBare_spared ((resetTap_spared p s).then_ac (by simp [takePortReset])) _ _
  case laneUnknownCommand => cases h; exact laneFrame_spared (spared_of_ac (by simp)) _ _
  case laneFrameDiscard => cases h; exact spared_of_ac (by simp)
  case evaluationBegin => cases h; exact engineNext_spared s
  case verdictReadyEvent => cases h; exact endEvaluation_spared s
  case applyWaitingFrame => cases h; exact applyWaiting_spared s
  case heldActivationTest => cases h; exact spared_of_ac (by simp)
  case confirmTimerExpiry p =>
    simp only [exec, execConfirmTimerExpiry] at h
    split at h <;> cases h
    · exact spared_of_ac rfl
    · exact Spared.trans (spared_of_ac (by simp)) (confirmExpired_spared p _)
  case appendCompletion =>
    simp only [exec, execAppendCompletion] at h
    split at h <;> cases h
    · exact spared_of_ac rfl
    · exact takeCompletion_spared _ _ s
  case rawLevelChange i level => cases h; exact withAisleOnly_spared (fun env a => rawChange_faults env i level a) s
  case filteredChange i =>
    simp only [exec, execFilteredChange] at h
    split at h <;> cases h
    · exact spared_of_ac rfl
    · exact withAisle_spared (fun env r => endFilter_faults env i r) (reach _ s)
  case settleEnd =>
    simp only [exec, execSettleEnd] at h
    split at h <;> cases h
    · exact spared_of_ac rfl
    · exact withAisle_spared settleInputs_faults (reach _ s)
  case travelTimeoutExpiry =>
    simp only [exec, execTravelTimeoutExpiry] at h
    split at h <;> cases h
    · exact spared_of_ac rfl
    · exact withAisle_spared (f := fun env r => (leafFault env false r).settled env r.ac)
        (fun env r => (leafFault_faults env false r).settle env _) (reach _ s)
  case blankWindowEnd =>
    simp only [exec, execBlankWindowEnd] at h
    split at h <;> cases h
    · exact spared_of_ac rfl
    · exact withAisleOnly_spared (fun env a => endBlank_faults env _ a) (reach _ s)
  case zoneClearTimerExpiry =>
    simp only [exec, execZoneClearTimerExpiry] at h
    split at h <;> cases h
    · exact spared_of_ac rfl
    · exact withAisleOnly_spared endZoneClear_faults (reach _ s)
  case alarmTimerExpiry =>
    simp only [exec, execAlarmTimerExpiry] at h
    split at h <;> cases h
    · exact spared_of_ac rfl
    · exact withAisleOnly_spared (fun _ _ => faultsKept_of_fields rfl rfl) (reach _ s)
  case loiterLimitReached =>
    simp only [exec, execLoiterLimitReached] at h
    split at h <;> cases h
    · exact spared_of_ac rfl
    · exact withAisleOnly_spared (fun _ _ => faultsKept_of_fields rfl rfl) (reach _ s)
  case holdWindowExpiry =>
    simp only [exec, execHoldWindowExpiry] at h
    split at h <;> cases h
    · exact spared_of_ac rfl
    · exact withAisle_spared expireHold_faults (reach _ s)
  case idleTimerExpiry =>
    simp only [exec, execIdleTimerExpiry] at h
    split at h <;> cases h
    · exact spared_of_ac rfl
    · exact withAisleOnly_spared (fun _ _ => faultsKept_of_fields rfl rfl) (reach _ s)
  case clockAdvance =>
    simp only [exec, execClockAdvance] at h
    split at h <;> cases h <;> exact spared_of_ac (by simp)
  case tornRecordExpiry =>
    cases h
    split_ifs <;> exact spared_of_ac (by simp)
  case linkWatchExpiry =>
    simp only [exec, execLinkWatchExpiry] at h
    split at h <;> cases h <;> exact spared_of_ac (by simp)
  case standaloneTimerExpiry =>
    simp only [exec, execStandaloneTimerExpiry] at h
    split at h <;> cases h <;> exact spared_of_ac (by simp)
  case stationReplyEnd =>
    simp only [exec, execStationReplyEnd] at h
    split at h <;> cases h <;> exact spared_of_ac (by simp)
  case time addr l =>
    cases h
    exact stationFrame_spared (fun s => (applyTimePayload_spared l s).then_ac (by simp)) _ s
  case emergency addr l =>
    cases h
    exact stationFrame_spared (fun s => (applyEmergencyPayload_spared l s).then_ac (by simp)) _ s
  case configure => cases h; exact stationFrame_spared (applyConfigure_spared _) _ s
  case sighting => cases h; exact station_spared (by simp) _ s
  case denyBaseBegin => cases h; exact station_spared (by simp) _ s
  case denyBaseAdd => cases h; exact station_spared (by simp) _ s
  case denyBaseEnd => cases h; exact station_spared (by simp) _ s
  case denyDelta => cases h; exact station_spared (by simp) _ s
  case tariffBegin => cases h; exact station_spared (by simp) _ s
  case tariffData => cases h; exact station_spared (by simp) _ s
  case tariffEnd => cases h; exact station_spared (by simp) _ s
  case poll => cases h; exact stationFrame_spared (fun _ => fixedLength_spared (spared_of_ac (by simp)) _ _) _ s
  case collected => cases h; exact stationFrame_spared (fun _ => fixedLength_spared (spared_of_ac (by simp)) _ _) _ s
  case keyLoad => cases h; exact station_spared (by simp) _ s
  case identify => cases h; exact stationFrame_spared (fun _ => fixedLength_spared (spared_of_ac (by simp)) _ _) _ s
  case journalClear => cases h; exact stationFrame_spared (fun _ => fixedLength_spared (spared_of_ac (by simp)) _ _) _ s
  case forceCheckFault => cases h; exact stationFrame_spared (fun _ => fixedLength_spared (spared_of_ac (by simp)) _ _) _ s
  case maintUnknownOperation =>
    cases h; exact stationFrame_spared (fun _ => fixedLength_spared (spared_of_ac (by simp)) _ _) _ s
  case reset => cases h; exact stationFrame_spared (fun _ => fixedLength_spared (spared_of_ac (by simp)) _ _) _ s
  case stationUnknownCommand =>
    cases h
    refine station_spared (fun s => ?_) _ s
    split_ifs <;> simp
  case frameOverrun => cases h; exact spared_of_ac (by simp)
  case stationFrameIgnored => cases h; exact spared_of_ac rfl
  case stationFrameAbandon => cases h; exact spared_of_ac rfl

end Commands

/-! ## FAULT_CLEAR does not end LOCKED_OUT (R153) -/

section Lockout
variable {s t : State}

/-- LOCKED_OUT stays. -/
def LockKept (a b : Aisle) : Prop := a.lockedOut = true → b.lockedOut = true

theorem faultClear_lockKept {p : Port} {l : List Byte} (h : exec (.faultClear p l) s = .next t) : LockKept s.ac t.ac := by
  cases h
  intro hlock
  obtain ⟨-, heq⟩ | ⟨-, heq⟩ | ⟨-, heq⟩ := laneBare_eq p l (takeFaultClear p) s <;> rw [heq]
  · simpa using hlock
  · simpa using hlock
  · rw [takeFaultClear_of_lockedOut hlock]
    simpa using hlock

theorem stationFaultClear_lockKept {addr : Byte} {l : List Byte} (h : exec (.stationFaultClear addr l) s = .next t) :
    LockKept s.ac t.ac := by
  cases h
  refine stationFrame_aisle (R := LockKept) (fun _ => id) (fun _ _ _ h k => k ∘ h) (fun s => (waitingWork_spared s).1)
    (fun s hlock => ?_) _ s
  obtain ⟨-, heq⟩ | ⟨-, heq⟩ := fixedLength_eq _ 0 (takeStationFaultClear _) s <;> rw [heq]
  · exact hlock
  · rw [takeStationFaultClear_of_lockedOut hlock]
    exact hlock

/-- Settles O16. -/
theorem faultStatesEndByTheirCommands : Obligations.FaultStatesEndByTheirCommands := by
  intro c s t h
  by_cases hrestore : ∃ addr l, c = .restore addr l
  · exact ⟨fun _ => hrestore, fun _ => .inl hrestore⟩
  by_cases hclear : ∃ p l, c = .faultClear p l
  · refine ⟨fun hend => ?_, fun _ => .inr (.inl hclear)⟩
    obtain ⟨p, l, rfl⟩ := hclear
    exact absurd (faultClear_lockKept h hend.1) (by simp [hend.2])
  by_cases hstation : ∃ addr l, c = .stationFaultClear addr l
  · refine ⟨fun hend => ?_, fun _ => .inr (.inr hstation)⟩
    obtain ⟨addr, l, rfl⟩ := hstation
    exact absurd (stationFaultClear_lockKept h hend.1) (by simp [hend.2])
  obtain ⟨hlock, hfault⟩ := exec_spared h (fun addr l he => hrestore ⟨addr, l, he⟩) (fun p l he => hclear ⟨p, l, he⟩)
    (fun addr l he => hstation ⟨addr, l, he⟩)
  exact ⟨fun hend => absurd (hlock hend.1) (by simp [hend.2]), fun hend => absurd (hfault hend.1) (by simp [hend.2])⟩

end Lockout

end Sys2Proof.Machine
end

