-- ==== Sys2Proof/Proofs/Payloads.lean ====
section
/-! PROOFS. The payloads of station frames cut into parts of one length, and a broadcast frame on an open line (R190 to R193). -/

namespace Sys2Proof.Machine

/-! ## Payloads in parts of one length -/

theorem chunks_length (k : Nat) : ∀ (n : Nat) (bs : List Byte), (chunks k n bs).length = n
  | 0, _ => rfl
  | n + 1, bs => congrArg (· + 1) (chunks_length k n (bs.drop k))

theorem chunks_getElem? (k : Nat) : ∀ (n i : Nat) (bs : List Byte), i < n →
    (chunks k n bs)[i]? = some ((bs.drop (k * i)).take k)
  | n + 1, 0, bs, _ => by simp [chunks]
  | n + 1, i + 1, bs, h => by
    have hrest := chunks_getElem? k n i (bs.drop k) (Nat.lt_of_succ_lt_succ h)
    rw [List.drop_drop, show k + k * i = k * (i + 1) by ring] at hrest
    exact hrest

theorem map_chunks_getElem? {α : Type} (g : List Byte → α) {k n i : Nat} (bs : List Byte) (h : i < n) :
    ((chunks k n bs).map g)[i]? = some (g ((bs.drop (k * i)).take k)) := by
  rw [List.getElem?_map, chunks_getElem? k n i bs h]; rfl

/-- A field of a part is the field of the whole that stands there. -/
theorem fieldAt_part (bs : List Byte) {start k i len : Nat} (h : i + len ≤ k) :
    fieldAt ((bs.drop start).take k) i len = fieldAt bs (start + i) len := by
  have hmin : min len (k - i) = len := by omega
  rw [fieldAt, fieldAt, List.drop_take, List.take_take, List.drop_drop, hmin]

/-! ## Broadcast commands -/

/-- A frame to all that meets no reply and nothing that waits acts at once and is not answered; one that has to wait for an
evaluation is taken where there is none (R34, R190, R191). -/
theorem broadcast_open {f : Frame} {s : State} (act : State → State) (h : lineOpen s)
    (he : s.ve.eval = none ∨ waitsForEvaluation f.code = false) (haddr : f.addr = 0) (hcode : isBroadcast f.code = true)
    (hlen : f.payload.length ≤ 96) : stationFrame f (fun s => broadcastEnd f (act s)) s = act s := by
  have haccept := acceptedFrame_of_broadcast (s := s) haddr hcode
  have hend := broadcastEnd_of_broadcast (act s) haddr
  by_cases hn : s.ve.eval = none
  · rw [stationFrame_open _ h hn haccept hlen, hend]
  · obtain ⟨htx, hslot, -⟩ := h
    have hsome := Option.isSome_iff_ne_none.2 hn
    simp [stationFrame, haccept, htx, hsome, hslot, he.resolve_left hn, Nat.not_lt.2 hlen, hend]

/-- The sightings of a payload taken one after the other (R31). -/
def mergeSightings (payload : List Byte) (s : State) : State :=
  match parseSightings payload with
  | some gs => gs.foldl (fun acc g => takeSighting g acc) s
  | none => s

/-- A load of the deny list begun where the payload is a version (R19, R193). -/
def beginLoad (payload : List Byte) (s : State) : State :=
  if payload.length = 2 then withDeny (denyBegin (beNat payload)) s else s

/-- The load of the deny list ended where the payload is empty (R21, R193). -/
def endLoad (payload : List Byte) (s : State) : State := if payload = [] then withDeny denyEnd s else s

/-- The pairs of a DENY_BASE_ADD handled where its payload holds them (R20, R193). -/
def addPairs (payload : List Byte) (s : State) : State :=
  match parsePairs payload with
  | some prs => withDeny (denyAdd prs) s
  | none => s

/-- The delta of a DENY_DELTA made where its payload holds one (R22, R193). -/
def makeDelta (payload : List Byte) (s : State) : State :=
  match parseDelta payload with
  | some dl => withDeny (denyDelta dl) s
  | none => s

theorem applySighting_eq (f : Frame) (s : State) : applySighting f s = broadcastEnd f (mergeSightings f.payload s) := rfl

theorem applyDenyBegin_eq (f : Frame) (s : State) : applyDenyBegin f s = broadcastEnd f (beginLoad f.payload s) := rfl

theorem applyDenyEnd_eq (f : Frame) (s : State) : applyDenyEnd f s = broadcastEnd f (endLoad f.payload s) := rfl

theorem applyDenyAdd_eq (f : Frame) (s : State) : applyDenyAdd f s = broadcastEnd f (addPairs f.payload s) := rfl

theorem applyDenyDelta_eq (f : Frame) (s : State) : applyDenyDelta f s = broadcastEnd f (makeDelta f.payload s) := rfl

theorem foldl_takeSighting_sl (gs : List Sighting) (s : State) :
    (gs.foldl (fun acc g => takeSighting g acc) s).sl = s.sl := by
  induction gs generalizing s with
  | nil => rfl
  | cons g gs ih => rw [List.foldl_cons, ih, takeSighting_sl]

theorem mergeSightings_sl (payload : List Byte) (s : State) : (mergeSightings payload s).sl = s.sl := by
  unfold mergeSightings
  split
  · exact foldl_takeSighting_sl _ s
  · rfl

theorem beginLoad_sl (payload : List Byte) (s : State) : (beginLoad payload s).sl = s.sl := by
  unfold beginLoad; split <;> rfl

theorem endLoad_sl (payload : List Byte) (s : State) : (endLoad payload s).sl = s.sl := by
  unfold endLoad; split <;> rfl

theorem addPairs_sl (payload : List Byte) (s : State) : (addPairs payload s).sl = s.sl := by
  unfold addPairs; split <;> rfl

theorem makeDelta_sl (payload : List Byte) (s : State) : (makeDelta payload s).sl = s.sl := by
  unfold makeDelta; split <;> rfl

/-- A broadcast command that leaves the line as it is does at this unit's address what it does at address 0, and its answer
follows (R190, R192). -/
theorem broadcast_toUnit {addr code : Byte} {payload : List Byte} {s : State} {c : Byte → Instr} (act : State → State)
    (hc : ∀ a, exec (c a) s = .next (stationFrame { addr := a, code := code, payload := payload }
      (fun t => broadcastEnd { addr := a, code := code, payload := payload } (act t)) s))
    (hcode : isBroadcast code = true) (hsl : (act s).sl = s.sl) (h : lineReady addr s) (he : s.ve.eval = none)
    (hlen : payload.length ≤ 96) :
    ∃ t, exec (c 0) s = .next t ∧ t.sl = s.sl
      ∧ exec (c addr) s = .next (sendReply { addr := addr, code := code, payload := payload } .ok [] t) := by
  refine ⟨act s, ?_, hsl, ?_⟩
  · rw [hc, broadcast_open (f := { addr := 0, code := code, payload := payload }) act h.1 (.inl he) rfl hcode hlen]
  · rw [hc, stationFrame_ready _ h he hlen]
    exact congrArg _ (if_neg h.2.2)

/-- Settles O48: at the line each of the ten is one action, then its answer. -/
theorem broadcastToUnitIsAnswered : Obligations.BroadcastToUnitIsAnswered := by
  intro addr payload s c code h he hlen hc
  have hact : ∃ act : State → State, (∀ a, exec (c a) s = .next (stationFrame { addr := a, code := code, payload := payload }
        (fun t => broadcastEnd { addr := a, code := code, payload := payload } (act t)) s))
      ∧ isBroadcast code = true ∧ (act s).sl = s.sl := by
    rcases hc with ⟨rfl, rfl⟩ | ⟨rfl, rfl⟩ | ⟨rfl, rfl⟩ | ⟨rfl, rfl⟩ | ⟨rfl, rfl⟩ | ⟨rfl, rfl⟩ | ⟨rfl, rfl⟩ | ⟨rfl, rfl⟩
      | ⟨rfl, rfl⟩ | ⟨rfl, rfl⟩
    case inl => exact ⟨applyTimePayload payload, fun _ => rfl, rfl, by simp⟩
    case inr.inl => exact ⟨mergeSightings payload, fun _ => rfl, rfl, mergeSightings_sl payload s⟩
    case inr.inr.inl => exact ⟨applyEmergencyPayload payload, fun _ => rfl, rfl, by simp⟩
    case inr.inr.inr.inl => exact ⟨beginLoad payload, fun _ => rfl, rfl, beginLoad_sl payload s⟩
    case inr.inr.inr.inr.inl => exact ⟨addPairs payload, fun _ => rfl, rfl, addPairs_sl payload s⟩
    case inr.inr.inr.inr.inr.inl => exact ⟨endLoad payload, fun _ => rfl, rfl, endLoad_sl payload s⟩
    case inr.inr.inr.inr.inr.inr.inl => exact ⟨makeDelta payload, fun _ => rfl, rfl, makeDelta_sl payload s⟩
    case inr.inr.inr.inr.inr.inr.inr.inl => exact ⟨applyTariffBegin payload, fun _ => rfl, rfl, by simp⟩
    case inr.inr.inr.inr.inr.inr.inr.inr.inl => exact ⟨applyTariffData payload, fun _ => rfl, rfl, by simp⟩
    case inr.inr.inr.inr.inr.inr.inr.inr.inr => exact ⟨applyTariffEnd payload, fun _ => rfl, rfl, by simp⟩
  obtain ⟨act, hexec, hcode, hsl⟩ := hact
  exact broadcast_toUnit act hexec hcode hsl h he hlen

end Sys2Proof.Machine
end

