-- ==== Sys2Proof/Proofs/TariffValues.lean ====
section
/-! PROOFS. The positions of a tariff bank: what stands at each, and a written value limited to its range (R36, R37, R42). -/

namespace Sys2Proof.Machine

theorem value_of_position {b : Bank} {sec pos v : Nat} (h : b.contents[sectionStart sec + pos]? = some v) :
    b.value sec pos = v := by
  rw [Bank.value, List.getD_eq_getElem?_getD, h]; rfl

/-- The five sections lie within the 314 positions (R37). -/
theorem section_within {sec : Nat} (h : sec ≤ 4) : sectionStart sec + sectionSize sec ≤ 314 := by
  interval_cases sec <;> decide

theorem limitValue_eq {sec pos lo hi : Nat} (v : Nat) (h : positionRange sec pos = (lo, hi)) (hle : lo ≤ hi) :
    limitValue sec pos v = max lo (min v hi) := by
  simp only [limitValue, h]
  split_ifs <;> omega

theorem writeValues_outside {sec j : Nat} : ∀ {pos : Nat} {values contents : List Nat},
    j < sectionStart sec + pos ∨ sectionStart sec + pos + values.length ≤ j →
    (writeValues sec pos values contents)[j]? = contents[j]?
  | _, [], _, _ => rfl
  | pos, v :: vs, contents, h => by
    rw [List.length_cons] at h
    rw [writeValues, writeValues_outside (by omega), List.getElem?_set_ne (by omega)]

theorem writeValues_inside {sec : Nat} : ∀ {pos i : Nat} {values contents : List Nat}, i < values.length →
    sectionStart sec + pos + values.length ≤ contents.length →
    (writeValues sec pos values contents)[sectionStart sec + (pos + i)]?
      = some (limitValue sec (pos + i) (values.getD i 0))
  | pos, 0, v :: vs, contents, _, hlen => by
    rw [List.length_cons] at hlen
    rw [writeValues, writeValues_outside (.inl (by omega)), Nat.add_zero, List.getElem?_set_self (by omega)]
    rfl
  | pos, i + 1, v :: vs, contents, hi, hlen => by
    rw [List.length_cons] at hi hlen
    have hrest := writeValues_inside (sec := sec) (pos := pos + 1) (i := i) (values := vs)
      (contents := contents.set (sectionStart sec + pos) (limitValue sec pos v)) (by omega)
      (by rw [List.length_set]; omega)
    rw [show pos + 1 + i = pos + (i + 1) by omega] at hrest
    exact hrest

/-- Settles O54. -/
theorem tariffValuesAreLimited : Obligations.TariffValuesAreLimited := by
  refine ⟨⟨rfl, rfl⟩, ?contents, ?writes⟩
  case contents =>
    intro b z x k cls at_ hz hx hk hcls _ hat
    have hvalue : ∀ sec pos n, sectionStart sec + pos = n → n < 314 → b.value sec pos = at_ n := fun sec pos n hn h =>
      value_of_position (hn ▸ hat n h)
    have hterm : ∀ n, n < 9 → b.value 4 n = at_ (305 + n) := fun n h => hvalue 4 n _ rfl (by omega)
    exact ⟨hvalue 0 _ _ (by simp only [sectionStart]; omega) (by omega), hvalue 1 0 256 rfl (by decide),
      hvalue 1 _ _ (by simp only [sectionStart]; omega) (by omega),
      hvalue 1 _ _ (by simp only [sectionStart]; omega) (by omega), hvalue 2 cls _ rfl (by omega),
      hvalue 2 _ _ (by simp only [sectionStart]; omega) (by omega), hvalue 3 x _ rfl (by omega), hterm 0 (by decide),
      hterm 1 (by decide), hterm 2 (by decide), hterm 3 (by decide), hterm 4 (by decide), hterm 5 (by decide),
      hterm 6 (by decide), hterm 7 (by decide), hterm 8 (by decide)⟩
  case writes =>
    intro sec pos values contents hsec hfit hlen
    refine ⟨fun i place lo hi hi' hplace hrange => ?_, fun j hj => writeValues_outside hj⟩
    have hwithin := section_within hsec
    subst hplace
    rw [writeValues_inside hi' (by omega)]
    have hposition : positionRange sec (pos + i) = (lo, hi) ∧ lo ≤ hi := by
      rcases hrange with ⟨rfl, rfl, rfl⟩ | ⟨rfl, hp, rfl, rfl⟩ | ⟨rfl, hp, rfl, rfl⟩ | ⟨rfl, hp, hq, rfl, rfl⟩ | ⟨rfl, hp, rfl, rfl⟩
        | ⟨rfl, hp, rfl, rfl⟩ | ⟨rfl, rfl, rfl⟩ | ⟨rfl, hp, rfl, rfl⟩ | ⟨rfl, hp, rfl, rfl⟩ | ⟨rfl, hp, rfl, rfl⟩
        | ⟨rfl, hp, rfl, rfl⟩
      all_goals
        exact ⟨by grind [positionRange], by omega⟩
    exact congrArg some (limitValue_eq _ hposition.1 hposition.2)

end Sys2Proof.Machine
end

