-- ==== Sys2Proof/Proofs/TariffFrames.lean ====
section
/-! PROOFS. TARIFF_BEGIN, TARIFF_DATA and TARIFF_END: a bank loaded, tested and activated (R38 to R45). -/

namespace Sys2Proof.Machine

section Frames
variable {payload : List Byte} {s : State} {one : Bool}

theorem exec_tariffBegin_open (h : lineOpen s) (hlen : payload.length ≤ 96) :
    exec (.tariffBegin 0 payload) s = .next (applyTariffBegin payload s) :=
  congrArg _ (broadcast_open (f := { addr := 0, code := 0x27, payload := payload }) (applyTariffBegin payload) h (.inr rfl)
    rfl rfl hlen)

theorem exec_tariffData_open (h : lineOpen s) (hlen : payload.length ≤ 96) :
    exec (.tariffData 0 payload) s = .next (applyTariffData payload s) :=
  congrArg _ (broadcast_open (f := { addr := 0, code := 0x28, payload := payload }) (applyTariffData payload) h (.inr rfl)
    rfl rfl hlen)

theorem exec_tariffEnd_open (h : lineOpen s) (hlen : payload.length ≤ 96) :
    exec (.tariffEnd 0 payload) s = .next (applyTariffEnd payload s) :=
  congrArg _ (broadcast_open (f := { addr := 0, code := 0x29, payload := payload }) (applyTariffEnd payload) h (.inr rfl)
    rfl rfl hlen)

/-! ## TARIFF_DATA (R42) -/

theorem tariffData_ignored {td : TariffData} {f : FareUnit} (h : 4 < td.section_ ∨ td.values = [] ∨ 40 < td.values.length
    ∨ sectionSize td.section_ < td.first + td.values.length ∨ f.bankIn .loading = none) : tariffData td f = f := by
  rw [tariffData]
  split
  · rfl
  · next hbank => exact if_pos (by simpa [hbank] using h)

theorem tariffData_written {td : TariffData} {f : FareUnit} (hbank : f.bankIn .loading = some one) (hsec : td.section_ ≤ 4)
    (hne : td.values ≠ []) (hmost : td.values.length ≤ 40) (hfit : td.first + td.values.length ≤ sectionSize td.section_) :
    tariffData td f = f.setBank one { f.bank one with
      contents := writeValues td.section_ td.first td.values (f.bank one).contents } := by
  rw [tariffData, hbank]
  exact if_neg (by simp [hne]; omega)

/-- The values of a payload whose length is that of whole values, up to 40 (R42, R193). -/
theorem parseTariffData_some (hlow : 4 ≤ payload.length) (heven : payload.length % 2 = 0) (hhigh : payload.length ≤ 82) :
    ∃ td, parseTariffData payload = some td ∧ td.section_ = fieldAt payload 0 1 ∧ td.first = fieldAt payload 1 1
      ∧ td.values.length = (payload.length - 2) / 2
      ∧ ∀ k, k < (payload.length - 2) / 2 → td.values[k]? = some (fieldAt payload (2 + 2 * k) 2) := by
  refine ⟨_, if_pos ⟨hlow, heven, hhigh⟩, rfl, rfl, by rw [List.length_map, chunks_length], fun k hk => ?_⟩
  rw [map_chunks_getElem? beNat _ hk, List.drop_drop]
  rfl

theorem applyTariffData_of_parse {td : TariffData} (h : parseTariffData payload = some td) :
    applyTariffData payload s = { s with fu := tariffData td s.fu } := by
  rw [applyTariffData, h]

/-! ## TARIFF_END (R43) -/

/-- What the bands of a bank have to be: one in use, the first from 0 on, their starts rising (R43). -/
def bandsGood (b : Bank) : Prop :=
  b.bandCount ≠ 0 ∧ b.bandStart 0 = 0 ∧ ∀ k, k + 1 < b.bandCount → b.bandStart k < b.bandStart (k + 1)

theorem bandsRise_iff (b : Bank) : bandsRise b = true ↔ ∀ k, k + 1 < b.bandCount → b.bandStart k < b.bandStart (k + 1) := by
  simp only [bandsRise, List.all_eq_true, List.mem_range, decide_eq_true_eq]
  exact forall_congr' fun k => imp_congr_left (by omega)

/-- The second test of TARIFF_END holds exactly where the bands are not good. -/
theorem bands_test_iff (b : Bank) : (b.bandCount = 0 ∨ b.bandStart 0 ≠ 0 ∨ !bandsRise b) ↔ ¬ bandsGood b := by
  rw [bandsGood, ← bandsRise_iff]
  cases bandsRise b <;> grind

theorem validateBank_check {check : Word16} {b : Bank} (h : bankCheck b ≠ check) : validateBank check b = .check := if_pos h

theorem validateBank_bands {check : Word16} {b : Bank} (h : bankCheck b = check) (hbands : ¬ bandsGood b) :
    validateBank check b = .bands := by
  rw [validateBank, if_neg (not_not.2 h), if_pos ((bands_test_iff b).2 hbands)]

theorem validateBank_step {check : Word16} {b : Bank} (h : bankCheck b = check) (hbands : bandsGood b) (hstep : b.fareStep = 0) :
    validateBank check b = .step := by
  rw [validateBank, if_neg (not_not.2 h), if_neg (fun ht => (bands_test_iff b).1 ht hbands), if_pos hstep]

theorem validateBank_none {check : Word16} {b : Bank} (h : bankCheck b = check) (hbands : bandsGood b) (hstep : b.fareStep ≠ 0) :
    validateBank check b = .none := by
  rw [validateBank, if_neg (not_not.2 h), if_neg (fun ht => (bands_test_iff b).1 ht hbands), if_neg hstep]

theorem tariffEnd_without {f : FareUnit} (check : Word16) (h : f.bankIn .loading = none) : tariffEnd check f = (f, false) := by
  rw [tariffEnd, h]

theorem tariffEnd_passed {f : FareUnit} {check : Word16} (h : f.bankIn .loading = some one)
    (hpass : validateBank check (f.bank one) = .none) :
    tariffEnd check f = (f.setBank one { f.bank one with state := .ready }, true) := by
  rw [tariffEnd, h]
  simp only [hpass]

theorem tariffEnd_failed {f : FareUnit} {check : Word16} {why : Reject} (h : f.bankIn .loading = some one)
    (hwhy : validateBank check (f.bank one) = why) (hne : why ≠ .none) :
    tariffEnd check f = ({ f.setBank one clearedBank with reject := why }, false) := by
  rw [tariffEnd, h]
  simp only
  split
  · next hn => exact absurd (hwhy.symm.trans hn) hne
  · rw [hwhy]

theorem applyTariffEnd_eq (hlen : payload.length = 2) {f : FareUnit} {ready : Bool}
    (h : tariffEnd (BitVec.ofNat 16 (fieldAt payload 0 2)) s.fu = (f, ready)) :
    applyTariffEnd payload s = if ready then dueActivation { s with fu := f } else { s with fu := f } := by
  rw [applyTariffEnd, if_pos hlen, h]

end Frames

/-! ## The banks (R38, R39) -/

theorem bankIn_eq_none (f : FareUnit) (st : BankState) : f.bankIn st = none ↔ f.bank0.state ≠ st ∧ f.bank1.state ≠ st := by
  unfold FareUnit.bankIn
  split_ifs <;> simp_all

theorem activeBank_eq_none (f : FareUnit) :
    f.activeBank = none ↔ f.bank0.state ≠ .active ∧ f.bank1.state ≠ .active := by
  rw [FareUnit.activeBank, Option.map_eq_none_iff, bankIn_eq_none]

theorem activeBank_some {f : FareUnit} {b : Bank} (h : f.activeBank = some b) :
    b.state = .active ∧ (b = f.bank0 ∨ b = f.bank1) := by
  obtain ⟨one, hone, rfl⟩ := Option.map_eq_some_iff.1 h
  refine ⟨bank_state_of_bankIn hone, ?_⟩
  cases one
  · exact .inl rfl
  · exact .inr rfl

theorem loadTarget_eq (f : FareUnit) : f.loadTarget
    = (if f.bank0.state = .active then true else if f.bank1.state = .active then false
      else if f.bank0.state = .loading then false else if f.bank1.state = .loading then true
      else if f.bank0.state = .ready then false else decide (f.bank1.state = .ready)) := by
  unfold FareUnit.loadTarget FareUnit.bankIn
  split_ifs <;> simp_all

/-- Settles O53: each clause is one outcome of a frame that an open line applies at once. -/
theorem tariffFramesLoadABank : Obligations.TariffFramesLoadABank := by
  intro payload s h hlen
  rw [exec_tariffBegin_open h hlen, exec_tariffData_open h hlen, exec_tariffEnd_open h hlen]
  refine ⟨fun hfour hver => congrArg _ (if_pos ⟨hfour, hver⟩), fun hbad => congrArg _ (if_neg (by omega)), ?written,
    parseTariffData_some, ?ignored, fun hne => congrArg _ (if_neg hne), ?without, ?failed, ?held, ?made, ?tests,
    loadTarget_eq s.fu, ?banks⟩
  case written =>
    intro td one hparse hbank hsec hne hmost hfit
    rw [applyTariffData_of_parse hparse, tariffData_written hbank hsec hne hmost hfit]
  case ignored =>
    intro hbad
    refine congrArg _ ?_
    by_cases hfit : 4 ≤ payload.length ∧ payload.length % 2 = 0 ∧ payload.length ≤ 82
    · obtain ⟨td, hparse, hsec, hfirst, hcount, -⟩ := parseTariffData_some hfit.1 hfit.2.1 hfit.2.2
      rw [applyTariffData_of_parse hparse, tariffData_ignored (by rw [hsec, hfirst, hcount]; grind)]
    · rw [applyTariffData, parseTariffData, if_neg hfit]
  case without =>
    intro htwo hnone
    rw [applyTariffEnd_eq htwo (tariffEnd_without _ hnone)]
    rfl
  case failed =>
    intro one why htwo hbank hwhy hne
    rw [applyTariffEnd_eq htwo (tariffEnd_failed hbank hwhy hne)]
    rfl
  case held =>
    intro one htwo hbank heval hpass
    rw [applyTariffEnd_eq htwo (tariffEnd_passed hbank hpass)]
    exact congrArg _ ((if_pos rfl).trans (dueActivation_held heval))
  case made =>
    intro one htwo hbank heval hpass
    rw [applyTariffEnd_eq htwo (tariffEnd_passed hbank hpass)]
    exact ⟨_, congrArg _ ((if_pos rfl).trans (dueActivation_made heval)), runActivation_made _⟩
  case tests =>
    intro check b
    exact ⟨validateBank_check, fun heq =>
      ⟨validateBank_bands heq, validateBank_step heq, validateBank_none heq⟩⟩
  case banks =>
    exact fun f b st => ⟨rfl, rfl, rfl, rfl, bankIn_eq_none f st, fun one => bank_state_of_bankIn, activeBank_eq_none f,
      activeBank_some⟩

end Sys2Proof.Machine
end

