-- ==== Sys2Proof/Proofs/DenyFrames.lean ====
section
/-! PROOFS. DENY_BASE_ADD and DENY_DELTA: their payloads, and what each does by the load state and the version (R20, R22, R23). -/

namespace Sys2Proof.Machine

section Frames
variable {payload : List Byte} {s : State}

theorem exec_denyBaseAdd_open (h : lineOpen s) (he : s.ve.eval = none) (hlen : payload.length ≤ 96) :
    exec (.denyBaseAdd 0 payload) s = .next (addPairs payload s) :=
  congrArg _ (broadcast_open (f := { addr := 0, code := 0x24, payload := payload }) (addPairs payload) h (.inl he) rfl rfl hlen)

theorem exec_denyDelta_open (h : lineOpen s) (he : s.ve.eval = none) (hlen : payload.length ≤ 96) :
    exec (.denyDelta 0 payload) s = .next (makeDelta payload s) :=
  congrArg _ (broadcast_open (f := { addr := 0, code := 0x26, payload := payload }) (makeDelta payload) h (.inl he) rfl rfl hlen)

/-- The pair that stands at a byte of a payload. -/
theorem parsePair_part (start : Nat) :
    parsePair ((payload.drop start).take 5) = (fieldAt payload start 4, fieldAt payload (start + 4) 1 % 16) := by
  rw [parsePair, fieldAt_part payload (by decide), fieldAt_part payload (by decide)]
  rfl

theorem parsePairs_some (hne : payload ≠ []) (hwhole : payload.length % 5 = 0) (hmost : payload.length ≤ 80) :
    ∃ pairs, parsePairs payload = some pairs ∧ pairs.length = payload.length / 5
      ∧ ∀ k, k < payload.length / 5 →
        pairs[k]? = some (fieldAt payload (5 * k) 4, fieldAt payload (5 * k + 4) 1 % 16) := by
  refine ⟨_, if_pos ⟨hwhole, hne, by omega⟩, by rw [List.length_map, chunks_length], fun k hk => ?_⟩
  rw [map_chunks_getElem? parsePair _ hk, parsePair_part]

theorem parsePairs_none (h : payload = [] ∨ payload.length % 5 ≠ 0 ∨ 80 < payload.length) : parsePairs payload = none :=
  if_neg fun ⟨hwhole, hne, hmost⟩ => by
    obtain h | h | h := h
    · exact hne h
    · exact h hwhole
    · omega

theorem parseDelta_some {removes adds : Nat} (hr : removes = fieldAt payload 4 1) (ha : adds = fieldAt payload 5 1)
    (hsix : 6 ≤ payload.length) (hr8 : removes ≤ 8) (ha8 : adds ≤ 8) (hfit : payload.length = 6 + 4 * removes + 5 * adds) :
    ∃ dl, parseDelta payload = some dl ∧ dl.fromV = fieldAt payload 0 2 ∧ dl.toV = fieldAt payload 2 2
      ∧ dl.removes.length = removes ∧ dl.adds.length = adds
      ∧ (∀ k, k < removes → dl.removes[k]? = some (fieldAt payload (6 + 4 * k) 4))
      ∧ (∀ k, k < adds → dl.adds[k]? = some (fieldAt payload (6 + 4 * removes + 5 * k) 4,
          fieldAt payload (6 + 4 * removes + 5 * k + 4) 1 % 16)) := by
  subst hr ha
  refine ⟨_, if_pos ⟨hsix, hr8, ha8, hfit⟩, rfl, rfl, by rw [List.length_map, chunks_length],
    by rw [List.length_map, chunks_length], fun k hk => ?_, fun k hk => ?_⟩
  · rw [map_chunks_getElem? beNat _ hk, List.drop_drop]
    rfl
  · rw [map_chunks_getElem? parsePair _ hk, List.drop_drop, parsePair_part]

theorem parseDelta_none (h : payload.length < 6 ∨ 8 < fieldAt payload 4 1 ∨ 8 < fieldAt payload 5 1
    ∨ payload.length ≠ 6 + 4 * fieldAt payload 4 1 + 5 * fieldAt payload 5 1) : parseDelta payload = none :=
  if_neg (by omega)

theorem addPairs_of_parse {pairs : List (Nat × Nat)} (h : parsePairs payload = some pairs) :
    addPairs payload s = withDeny (denyAdd pairs) s := by
  rw [addPairs, h]

theorem addPairs_of_none (h : parsePairs payload = none) : addPairs payload s = s := by
  rw [addPairs, h]

theorem makeDelta_of_parse {dl : Delta} (h : parseDelta payload = some dl) :
    makeDelta payload s = withDeny (denyDelta dl) s := by
  rw [makeDelta, h]

theorem makeDelta_of_none (h : parseDelta payload = none) : makeDelta payload s = s := by
  rw [makeDelta, h]

theorem withDeny_id {g : DenyList → DenyList} (h : g s.su.deny = s.su.deny) : withDeny g s = s := by
  rw [withDeny, h]

theorem withDeny_eq {g : DenyList → DenyList} {d : DenyList} (h : g s.su.deny = d) :
    withDeny g s = { s with su := { s.su with deny := d } } := by
  rw [withDeny, h]

end Frames

/-- Settles O52. -/
theorem denyFramesChangeTheList : Obligations.DenyFramesChangeTheList := by
  intro payload s h he hlen
  rw [exec_denyBaseAdd_open h he hlen, exec_denyDelta_open h he hlen]
  refine ⟨fun pairs hparse => ?add, fun dl hparse => ?delta, ?payloads⟩
  case add =>
    rw [addPairs_of_parse hparse]
    exact ⟨fun hload => congrArg _ (withDeny_eq (if_pos hload)),
      fun hidle => congrArg _ (withDeny_id (if_neg (by simp [hidle])))⟩
  case delta =>
    rw [makeDelta_of_parse hparse]
    refine ⟨fun hidle hfrom => congrArg _ (withDeny_eq (if_pos (by simp [hidle, hfrom]))),
      fun hbad => congrArg _ (withDeny_eq (if_neg ?_))⟩
    simpa using fun hidle hfrom => hbad.elim (by simp [hidle]) (· hfrom)
  case payloads =>
    exact ⟨parsePairs_some, fun hbad => congrArg _ (addPairs_of_none (parsePairs_none hbad)), parseDelta_some rfl rfl,
      fun hbad => congrArg _ (makeDelta_of_none (parseDelta_none hbad))⟩

end Sys2Proof.Machine
end

