-- ==== Sys2Proof/Proofs/Sightings.lean ====
section
/-! PROOFS. SIGHTING (R31 to R33, R102, R103): the sightings of a payload, the seen table and the clone finding of each, and the
torn record it settles. -/

namespace Sys2Proof.Machine

/-! ## The seen table (R27, R28) -/

section Seen
variable {e : SeenEntry} {t : List SeenEntry}

theorem seenWrite_present (h : e.serial ∈ t.map (·.serial)) :
    seenWrite e t = t.filter (fun x => x.serial != e.serial) ++ [e] := by
  obtain ⟨x, hx, hserial⟩ := List.mem_map.1 h
  rw [seenWrite]
  split
  · rfl
  · next hnone => exact absurd hserial (seenLookup_eq_none_iff.1 hnone x hx)

theorem seenLookup_absent (h : e.serial ∉ t.map (·.serial)) : seenLookup t e.serial = none :=
  seenLookup_eq_none_iff.2 fun _ hx hserial => h (List.mem_map.2 ⟨_, hx, hserial⟩)

theorem seenWrite_room (h : e.serial ∉ t.map (·.serial)) (hroom : t.length < 512) : seenWrite e t = t ++ [e] := by
  rw [seenWrite, seenLookup_absent h]
  exact if_neg (Nat.not_le.2 hroom)

theorem seenWrite_full (h : e.serial ∉ t.map (·.serial)) (hfull : 512 ≤ t.length) : seenWrite e t = t.drop 1 ++ [e] := by
  rw [seenWrite, seenLookup_absent h]
  exact if_pos hfull

end Seen

theorem stampLater_iff {stamp second stamp' second' : Nat} :
    stampLater stamp second stamp' second' = true ↔ stamp' < stamp ∨ (stamp = stamp' ∧ second' < second) := by
  simp [stampLater]

theorem skipped_iff (g : Sighting) :
    g.skipped = true ↔ g.serial = 0 ∨ g.serial = 4294967295 ∨ 1439 < g.minute ∨ 59 < g.second := by
  simp [Sighting.skipped, serialValid]
  omega

/-! ## One sighting at the seen table (R32, R33) -/

/-- A sighting merged into the screening tables, with its alert. -/
def merged (g : Sighting) (s : State) : State :=
  postAlerts (mergeSighting g s.su).2 { s with su := (mergeSighting g s.su).1 }

theorem takeSighting_eq {g : Sighting} (h : g.skipped = false) (s : State) :
    takeSighting g s = tornSighting g (merged g s) := if_neg (by simp [h])

section Merged
variable {g : Sighting} {s : State} {e : SeenEntry}

theorem merged_plain (h : (seenLookup s.su.seen g.serial).bind (sightingFinding g) = none) :
    merged g s = { s with su := { s.su with seen := sightingSeen g s.su.seen } } := by
  rw [merged, mergeSighting, h]
  rfl

theorem merged_finding {k : CloneKind} (h : seenLookup s.su.seen g.serial = some e) (hk : sightingFinding g e = some k)
    (htouch : sightingSeen g s.su.seen = seenTouch e s.su.seen) : merged g s = { s with
      su := { s.su with
        seen := seenTouch e s.su.seen
        deny := { s.su.deny with entries := (denyListLocally g.serial s.su.deny.entries).1 } }
      jn := requestAlert s.tl
        (cloneAlert .station g.serial g.seq 0 g.origin k (denyListLocally g.serial s.su.deny.entries).2) s.jn } := by
  rw [merged, mergeSighting, h, Option.bind_some, hk, htouch]
  rfl

theorem merged_unknown (h : seenLookup s.su.seen g.serial = none) :
    merged g s = { s with su := { s.su with seen := seenWrite g.entry s.su.seen } } := by
  rw [merged_plain (by rw [h]; rfl), sightingSeen, h]

theorem merged_newer (h : seenLookup s.su.seen g.serial = some e) (hseq : e.seq < g.seq) :
    merged g s = { s with su := { s.su with seen := seenWrite g.entry s.su.seen } } := by
  have hnone : sightingFinding g e = none := by
    rw [sightingFinding, if_neg (by omega), if_neg (by omega)]
  rw [merged_plain (by rw [h]; exact hnone), sightingSeen, h]
  simp only [if_pos hseq]

theorem sightingSeen_touch (h : seenLookup s.su.seen g.serial = some e)
    (ht : g.seq = e.seq ∨ g.seq < e.seq ∧ stampLater g.stamp g.second e.stamp e.second = true) :
    sightingSeen g s.su.seen = seenTouch e s.su.seen := by
  have hnewer : ¬ e.seq < g.seq := by omega
  have holder : ¬ (g.seq < e.seq ∧ stampLater g.stamp g.second e.stamp e.second = false) := by
    rintro ⟨hlt, hstamp⟩
    obtain ht | ⟨-, ht⟩ := ht
    · omega
    · rw [hstamp] at ht; cases ht
  rw [sightingSeen, h]
  simp only [hnewer, if_false]
  exact if_neg (by simpa using holder)

theorem merged_same (h : seenLookup s.su.seen g.serial = some e) (hseq : g.seq = e.seq) (hcheck : g.check = e.check) :
    merged g s = { s with su := { s.su with seen := seenTouch e s.su.seen } } := by
  have hnone : sightingFinding g e = none := by
    rw [sightingFinding, if_neg (by simp [hcheck]), if_neg (by omega)]
  rw [merged_plain (by rw [h]; exact hnone), sightingSeen_touch h (.inl hseq)]

theorem merged_older (h : seenLookup s.su.seen g.serial = some e) (hseq : g.seq < e.seq)
    (hstamp : stampLater g.stamp g.second e.stamp e.second = false) : merged g s = s := by
  have hnone : sightingFinding g e = none := by
    rw [sightingFinding, if_neg (by omega), if_neg (by simp [hstamp])]
  rw [merged_plain (by rw [h]; exact hnone), sightingSeen, h]
  simp only [if_neg (Nat.lt_asymm hseq), hseq, hstamp, decide_true, Bool.not_false, Bool.and_self, if_true]

theorem sightingFinding_of_kind {k : CloneKind} (hk : (g.seq = e.seq ∧ g.check ≠ e.check ∧ k = .divergent)
    ∨ (g.seq < e.seq ∧ stampLater g.stamp g.second e.stamp e.second = true ∧ k = .rollback)) :
    sightingFinding g e = some k := by
  obtain ⟨hseq, hcheck, rfl⟩ | ⟨hseq, hstamp, rfl⟩ := hk
  · exact if_pos ⟨hseq, hcheck⟩
  · rw [sightingFinding, if_neg (by omega), if_pos ⟨hseq, hstamp⟩]

end Merged

/-! ## One sighting at the Torn-Write Table (R102, R103) -/

theorem requestRemote_none_of_full {t : TimeLink} {c : Content} {j : Journal}
    (h : 6 ≤ j.queue.countP (fun a => a.commit.isNone) ∨ freeSlots j = 0) : requestRemote t c j = none := by
  have hfits : ¬ unreservedFits j = true := by
    simp only [unreservedFits, Bool.and_eq_true, decide_eq_true_eq]
    rintro ⟨hcount, hfree⟩
    obtain h | h := h
    · exact absurd hcount (Nat.not_lt.2 h)
    · omega
  exact if_neg hfits

section Torn
variable {g : Sighting} {t : State} {r : TornRecord}

theorem tornSighting_none (h : unresolvedOf t.ve.torn g.serial = none) : tornSighting g t = t := by
  rw [tornSighting, h]

theorem tornSighting_settles {j : Journal} (h : unresolvedOf t.ve.torn g.serial = some r)
    (hnew : r.newSeq < g.seq ∨ (g.seq = r.newSeq ∧ g.check = r.newCheck))
    (hj : requestRemote t.tl (tornContent r r.kind g.origin) t.jn = some j) :
    tornSighting g t = { t.setTorn (tornDrop r.serial t.ve.torn) with jn := j } := by
  rw [tornSighting, h]
  simp only [if_pos hnew, hj]

theorem tornSighting_refused (h : unresolvedOf t.ve.torn g.serial = some r)
    (hnew : r.newSeq < g.seq ∨ (g.seq = r.newSeq ∧ g.check = r.newCheck))
    (hj : requestRemote t.tl (tornContent r r.kind g.origin) t.jn = none) : tornSighting g t = t := by
  rw [tornSighting, h]
  simp only [if_pos hnew, hj]

theorem tornSighting_conflict (h : unresolvedOf t.ve.torn g.serial = some r) (hseq : g.seq = r.newSeq)
    (hcheck : g.check ≠ r.newCheck) :
    tornSighting g t = postAlerts [tornAlert r .conflict] (t.setTorn (tornDrop g.serial t.ve.torn)) := by
  rw [← (unresolvedOf_some h).2.1, ← tornReport, tornSighting, h]
  simp only
  rw [if_neg (by simp [hseq, hcheck]), if_pos hseq]

theorem tornSighting_older (h : unresolvedOf t.ve.torn g.serial = some r) (hseq : g.seq < r.newSeq) :
    tornSighting g t = t := by
  rw [tornSighting, h]
  simp only
  rw [if_neg (by omega), if_neg (by omega)]

theorem tornSighting_eval (g : Sighting) (t : State) : (tornSighting g t).ve.eval = t.ve.eval := by
  unfold tornSighting
  split
  · rfl
  · split_ifs
    · split <;> rfl
    · rfl
    · rfl

end Torn

/-! ## The sightings of a payload (R31) -/

section Frames
variable {payload one more : List Byte} {s : State}

theorem exec_sighting_open (h : lineOpen s) (he : s.ve.eval = none) (hlen : payload.length ≤ 96) :
    exec (.sighting 0 payload) s = .next (mergeSightings payload s) :=
  congrArg _ (broadcast_open (f := { addr := 0, code := 0x21, payload := payload }) (mergeSightings payload) h (.inl he)
    rfl rfl hlen)

theorem mergeSightings_of_none (h : payload.length % 15 ≠ 0 ∨ payload = []) : mergeSightings payload s = s := by
  have hnone : parseSightings payload = none := if_neg fun ⟨hwhole, hne⟩ => h.elim (· hwhole) hne
  rw [mergeSightings, hnone]

theorem mergeSightings_whole (hwhole : payload.length % 15 = 0) (hne : payload ≠ []) : mergeSightings payload s
    = ((chunks 15 (payload.length / 15) payload).map parseSighting).foldl (fun acc g => takeSighting g acc) s := by
  have hsome : parseSightings payload = some ((chunks 15 (payload.length / 15) payload).map parseSighting) :=
    if_pos ⟨hwhole, hne⟩
  rw [mergeSightings, hsome]

theorem mergeSightings_one (hlen : payload.length = 15) :
    mergeSightings payload s = takeSighting (parseSighting payload) s := by
  have hne : payload ≠ [] := List.ne_nil_of_length_eq_add_one hlen
  have hchunks : chunks 15 (payload.length / 15) payload = [payload] := by
    rw [hlen]
    exact congrArg (fun l => [l]) (List.take_of_length_le hlen.le)
  rw [mergeSightings_whole (by omega) hne, hchunks]
  rfl

theorem mergeSightings_append (hone : one.length = 15) (hmore : more.length % 15 = 0) (hne : more ≠ []) :
    mergeSightings (one ++ more) s = mergeSightings more (mergeSightings one s) := by
  have hcount : (one ++ more).length / 15 = more.length / 15 + 1 := by rw [List.length_append]; omega
  have hchunks : chunks 15 ((one ++ more).length / 15) (one ++ more) = one :: chunks 15 (more.length / 15) more := by
    rw [hcount, chunks, List.take_left' hone, List.drop_left' hone]
  rw [mergeSightings_whole (by rw [List.length_append]; omega) (by simp [hne]), mergeSightings_whole hmore hne,
    mergeSightings_one hone, hchunks]
  rfl

theorem takeSighting_eval (g : Sighting) (s : State) : (takeSighting g s).ve.eval = s.ve.eval := by
  unfold takeSighting
  split
  · rfl
  · exact tornSighting_eval _ _

end Frames

/-- Settles O49: a payload of one sighting is that sighting at the seen table and then at the Torn-Write Table. -/
theorem sightingIsMerged : Obligations.SightingIsMerged := by
  refine ⟨?one, ?more, ?ignored, ?table, ?layout, fun _ _ _ _ => stampLater_iff,
    fun t n => ⟨seenLookup_eq_none_iff, fun e he => mem_of_seenLookup he⟩⟩
  case one =>
    intro payload s g h he hlen hg
    subst hg
    set g := parseSighting payload with hg
    have hexec : ∀ t, lineOpen t → t.ve.eval = none → exec (.sighting 0 payload) t = .next (takeSighting g t) :=
      fun t ht hte => (exec_sighting_open ht hte (by omega)).trans (congrArg _ (mergeSightings_one hlen))
    refine ⟨fun hskip => (hexec s h he).trans (congrArg _ (if_pos hskip)), fun htorn => ?tables, fun r hskip hr => ?torn⟩
    case tables =>
      have htake : g.skipped = false → exec (.sighting 0 payload) s = .next (merged g s) := fun hskip =>
        (hexec s h he).trans (congrArg _ ((takeSighting_eq hskip s).trans (tornSighting_none htorn)))
      refine ⟨fun hskip hnone => (htake hskip).trans (congrArg _ (merged_unknown hnone)), fun e hskip hsome => ?_⟩
      rw [htake hskip]
      exact ⟨fun hseq => congrArg _ (merged_newer hsome hseq), fun hseq hcheck => congrArg _ (merged_same hsome hseq hcheck),
        fun hseq hstamp => congrArg _ (merged_older hsome hseq hstamp), fun k hk => congrArg _
          (merged_finding hsome (sightingFinding_of_kind hk)
            (sightingSeen_touch hsome (hk.imp (·.1) (fun hk => ⟨hk.1, hk.2.1⟩))))⟩
    case torn =>
      have hserial : r.serial = g.serial := (unresolvedOf_some hr).2.1
      have htake : exec (.sighting 0 payload) s = .next (tornSighting g (merged g s)) :=
        (hexec s h he).trans (congrArg _ (takeSighting_eq hskip s))
      refine ⟨merged g { s with ve := { s.ve with torn := [] } },
        (hexec { s with ve := { s.ve with torn := [] } } h he).trans (congrArg _
          ((takeSighting_eq hskip _).trans (tornSighting_none rfl))), rfl, fun hnew =>
          ⟨fun j hj => ?settles, fun hfull => ?refused⟩, fun hseq hcheck => ?conflict, fun hseq => ?older⟩
      all_goals rw [htake]
      case settles =>
        rw [tornSighting_settles (t := merged g s) hr hnew hj, hserial]
        rfl
      case refused =>
        rw [tornSighting_refused (t := merged g s) hr hnew (requestRemote_none_of_full hfull)]
        rfl
      case conflict =>
        rw [tornSighting_conflict (t := merged g s) hr hseq hcheck]
        rfl
      case older =>
        rw [tornSighting_older (t := merged g s) hr hseq]
        rfl
  case more =>
    intro one more s h he hone hmore hne hlen
    have hline : lineOpen (mergeSightings one s) := by
      rw [mergeSightings_one hone]
      simpa [lineOpen, takeSighting_eval] using h
    have heval : (mergeSightings one s).ve.eval = none := by
      rw [mergeSightings_one hone, takeSighting_eval, he]
    exact ⟨_, _, exec_sighting_open h he (by omega), exec_sighting_open hline heval (by omega),
      (exec_sighting_open h he (by rwa [List.length_append])).trans (congrArg _ (mergeSightings_append hone hmore hne))⟩
  case ignored =>
    exact fun payload s h he hlen hbad => (exec_sighting_open h he hlen).trans (congrArg _ (mergeSightings_of_none hbad))
  case table =>
    exact fun e t => ⟨rfl, seenWrite_present, seenWrite_room, seenWrite_full⟩
  case layout =>
    intro bs g _ hg
    subst hg
    exact ⟨rfl, rfl, rfl, rfl, rfl, rfl, rfl, rfl, skipped_iff _, rfl⟩

end Sys2Proof.Machine
end

