-- ==== Sys2Proof/Proofs/Configure.lean ====
section
/-! PROOFS. CONFIGURE (R122, R140, R193, R194): which items are allowed, the value each takes, and the answer. -/

namespace Sys2Proof.Machine

/-! ## Items (R194) -/

theorem itemAllowed_iff {keys : List KeyEntry} {code v : Nat} : itemAllowed keys (code, v) = true ↔ 1 ≤ code ∧ code ≤ 19
    ∧ (code = 1 → 1 ≤ v ∧ v ≤ 62) ∧ (code = 2 → v ≤ 4095) ∧ (code = 3 → v ≤ 15)
    ∧ (code = 4 → v ≤ 7 ∧ ∃ k, keys[v]? = some k ∧ k.state = .active) := by
  unfold itemAllowed
  by_cases hcode : code = 0 ∨ 19 < code
  · rw [if_pos hcode]
    exact ⟨nofun, fun ⟨_, _, _⟩ => by omega⟩
  rw [if_neg hcode]
  by_cases hfour : 4 < code
  · rw [if_pos hfour]
    exact ⟨fun _ => by omega, fun _ => rfl⟩
  rw [if_neg hfour]
  have hcases : code = 1 ∨ code = 2 ∨ code = 3 ∨ code = 4 := by omega
  obtain rfl | rfl | rfl | rfl := hcases <;> simp [itemRange]

theorem clampTo_eq {lo hi v : Nat} (h : lo ≤ hi) : clampTo (lo, hi) v = max lo (min v hi) := by
  unfold clampTo
  split_ifs <;> simp_all <;> omega

theorem clampItem_eq {code lo hi : Nat} (v : Nat) (h5 : code ≠ 5) (h6 : code ≠ 6) (h : itemRange code = (lo, hi)) :
    clampItem code v = max lo (min v hi) := by
  have hle : lo ≤ hi := by simpa [h] using itemRange_le code
  rw [clampItem, if_neg h5, if_neg h6, h, clampTo_eq hle]

/-- An item's value takes the place of its code (R194). -/
theorem itemValues_putItem {c : Settings} {code : Nat} (v : Nat) (hlow : 1 ≤ code) (hhigh : code ≤ 19) :
    itemValues (putItem c code v) = (itemValues c).set (code - 1) v := by
  interval_cases code <;> rfl

theorem anyClamped_iff {items : List (Nat × Nat)} :
    anyClamped items = true ↔ ∃ code v, (code, v) ∈ items ∧ clampItem code v ≠ v := by
  simp [anyClamped]

theorem parseItems_some {payload : List Byte} (hne : payload ≠ []) (hwhole : payload.length % 3 = 0)
    (hlen : payload.length ≤ 96) :
    ∃ items, parseItems payload = some items ∧ items.length = payload.length / 3 ∧ 1 ≤ items.length ∧ items.length ≤ 32
      ∧ ∀ k, k < items.length → items[k]? = some (fieldAt payload (3 * k) 1, fieldAt payload (3 * k + 1) 2) := by
  have hpos : 0 < payload.length := List.length_pos_iff.2 hne
  refine ⟨_, if_pos hwhole, ?_⟩
  rw [List.length_map, chunks_length]
  refine ⟨rfl, by omega, by omega, fun k hk => ?_⟩
  rw [map_chunks_getElem? _ _ hk, fieldAt_part payload (by decide), fieldAt_part payload (by decide)]
  rfl

/-! ## The command (R13, R193, R194) -/

section Command
variable {f : Frame} {s : State} {items : List (Nat × Nat)}

theorem exec_configure_ready {addr : Byte} {payload : List Byte} (h : lineReady addr s) (he : s.ve.eval = none)
    (hlen : payload.length ≤ 96) :
    exec (.configure addr payload) s = .next (applyConfigure { addr := addr, code := 0x43, payload := payload } s) :=
  congrArg _ (stationFrame_ready (applyConfigure { addr := addr, code := 0x43, payload := payload }) h he hlen)

theorem applyConfigure_read (h : f.payload = []) : applyConfigure f s = configureReply f .ok s := if_pos h

theorem applyConfigure_broken (h : f.payload.length % 3 ≠ 0) : applyConfigure f s = configureReply f .range s := by
  have hne : f.payload ≠ [] := fun hnil => h (by rw [hnil]; rfl)
  rw [applyConfigure, if_neg hne, parseItems, if_neg h]

theorem applyConfigure_items (hne : f.payload ≠ []) (h : parseItems f.payload = some items) : applyConfigure f s
    = if itemsRefused s items then configureReply f .range s
      else configureReply f (if anyClamped items then .clamped else .ok) (changeSettings (applyItems s.cfg items) s) := by
  rw [applyConfigure, if_neg hne, h]

theorem itemsRefused_of (h : items.any (fun it => !itemAllowed s.su.keys it) = true
    ∨ (applyItems s.cfg items).maxHold < (applyItems s.cfg items).minHold) : itemsRefused s items = true := by
  rw [itemsRefused]
  obtain h | h := h
  · rw [h, Bool.or_true, Bool.true_or]
  · rw [decide_eq_true h, Bool.or_true]

theorem length_of_parseItems {payload : List Byte} (h : parseItems payload = some items) :
    items.length = payload.length / 3 := by
  rw [parseItems] at h
  split at h
  · rw [← Option.some.inj h, List.length_map, chunks_length]
  · cases h

end Command

/-- Settles O58. -/
theorem configureSetsItems : Obligations.ConfigureSetsItems := by
  refine ⟨?command, fun keys code v => itemAllowed_iff, ?clamps, fun v => ⟨rfl, rfl⟩, ?places, fun c items =>
    ⟨rfl, anyClamped_iff⟩, fun payload => parseItems_some, fun c => rfl⟩
  case command =>
    intro addr payload s f h he hlen hf
    rw [exec_configure_ready h he hlen, ← hf]
    have hpayload : f.payload = payload := by rw [hf]
    clear hf
    subst hpayload
    refine ⟨fun hnil => congrArg _ (applyConfigure_read hnil), fun hbroken => congrArg _ (applyConfigure_broken hbroken),
      fun items hne hparse => ?_⟩
    rw [applyConfigure_items hne hparse]
    refine ⟨fun hbad => congrArg _ (if_pos (itemsRefused_of hbad)), fun hallowed hhold =>
      ⟨_, congrArg _ (if_neg ?_), rfl⟩⟩
    have hcount : items.length ≤ 32 := by rw [length_of_parseItems hparse]; omega
    have hok : itemsRefused s items = false := itemsRefused_eq_false.2 ⟨hcount, by simpa using hallowed, hhold⟩
    rw [hok]
    decide
  case clamps =>
    intro code lo hi v hmem
    simp only [List.mem_cons, Prod.mk.injEq, List.not_mem_nil, or_false] at hmem
    refine clampItem_eq v (by omega) (by omega) ?_
    rcases hmem with ⟨rfl, rfl, rfl⟩ | ⟨rfl, rfl, rfl⟩ | ⟨rfl, rfl, rfl⟩ | ⟨rfl, rfl, rfl⟩ | ⟨rfl, rfl, rfl⟩ | ⟨rfl, rfl, rfl⟩
      | ⟨rfl, rfl, rfl⟩ | ⟨rfl, rfl, rfl⟩ | ⟨rfl, rfl, rfl⟩ | ⟨rfl, rfl, rfl⟩ | ⟨rfl, rfl, rfl⟩ | ⟨rfl, rfl, rfl⟩ | ⟨rfl, rfl, rfl⟩
      | ⟨rfl, rfl, rfl⟩ | ⟨rfl, rfl, rfl⟩ | ⟨rfl, rfl, rfl⟩ | ⟨rfl, rfl, rfl⟩ <;> rfl
  case places =>
    exact fun c code v rest hlow hhigh => ⟨putItem c code (clampItem code v), itemValues_putItem _ hlow hhigh, rfl⟩

end Sys2Proof.Machine
end

