-- ==== Sys2Proof/Proofs/Answered.lean ====
section
/-! PROOFS. The leaf drive's answer to the demand (R143 to R146): what the drive looks at, what a motion's start makes of it, and
that an aisle which is settled has been answered. -/

namespace Sys2Proof.Machine

section Answer
variable {env : Env} {a b c t u : Aisle} {demand : Bool}

theorem zoneClear_iff : zoneClear a = true ↔ a.inputs.l1.filtered = false ∧ a.inputs.l2.filtered = false := by
  simp [zoneClear]

theorem stopsAt_open_iff :
    stopsAt a .toOpen = true ↔ a.inputs.openStop.filtered = true ∧ a.inputs.closedStop.filtered = false := by
  simp [stopsAt]

theorem stopsAt_closed_iff :
    stopsAt a .toClosed = true ↔ a.inputs.closedStop.filtered = true ∧ a.inputs.openStop.filtered = false := by
  simp [stopsAt]

/-- The stop of a motion's target is active and the other clear: the drive is at its held position at once (R146). -/
theorem startMotion_at_stop {tgt : Target} (full : Bool) (h : stopsAt a tgt = true) :
    (startMotion env tgt full a).leaf = heldLeaf tgt ∧ (startMotion env tgt full a).motion = none := by
  cases tgt <;> simp [startMotion, h, arrive, heldLeaf]

theorem startMotion_away {tgt : Target} (full : Bool) (h : stopsAt a tgt = false) :
    (startMotion env tgt full a).leaf = movingLeaf tgt
      ∧ (startMotion env tgt full a).motion = some (newMotion env tgt full a) := by
  simp [startMotion, h]

/-- Two aisles that the drive finds alike: in all that its answer to a demand reads, the obstruction hold where it is OPEN. -/
structure SameDrive (a b : Aisle) : Prop where
  leaf : b.leaf = a.leaf
  motion : b.motion = a.motion
  inputs : b.inputs = a.inputs
  hold : a.leaf = .opened → b.obstructHold = a.obstructHold
  openHist : b.openHist = a.openHist
  closeHist : b.closeHist = a.closeHist

theorem SameDrive.refl (a : Aisle) : SameDrive a a := ⟨rfl, rfl, rfl, fun _ => rfl, rfl, rfl⟩

theorem SameDrive.trans (h : SameDrive a b) (k : SameDrive b c) : SameDrive a c :=
  ⟨k.leaf.trans h.leaf, k.motion.trans h.motion, k.inputs.trans h.inputs, fun ho => (k.hold (h.leaf.trans ho)).trans (h.hold ho),
    k.openHist.trans h.openHist, k.closeHist.trans h.closeHist⟩

theorem newMotion_congr (tgt : Target) (full : Bool) (hopen : b.openHist = a.openHist) (hclose : b.closeHist = a.closeHist) :
    newMotion env tgt full b = newMotion env tgt full a := by
  cases tgt <;> simp [newMotion, travelHist, blankWindowOf, hopen, hclose]

theorem SameDrive.newMotion (h : SameDrive a b) (tgt : Target) (full : Bool) :
    newMotion env tgt full b = Machine.newMotion env tgt full a := newMotion_congr tgt full h.openHist h.closeHist

theorem SameDrive.stopsAt (h : SameDrive a b) (tgt : Target) : stopsAt b tgt = Machine.stopsAt a tgt := by
  cases tgt <;> simp [Machine.stopsAt, h.inputs]

/-- An answer to an aisle is one to every aisle that the drive finds alike. -/
theorem SameDrive.answers (h : SameDrive a b) (hans : driveAnswered env demand b t) : driveAnswered env demand a t := by
  by_cases ho : a.leaf = .opened
  · simpa only [driveAnswered, h.leaf, h.motion, h.inputs, h.hold ho, h.newMotion] using hans
  · simpa [driveAnswered, h.leaf, h.motion, h.inputs, ho, h.newMotion] using hans

theorem driveAnswered_result (h : driveAnswered env demand a t) (hleaf : u.leaf = t.leaf) (hmotion : u.motion = t.motion) :
    driveAnswered env demand a u := by
  simpa only [driveAnswered, hleaf, hmotion] using h

/-- A motion's start to open, in the terms of the drive's answer. -/
theorem startMotion_opens (full : Bool) (a : Aisle) :
    (a.inputs.openStop.filtered = true ∧ a.inputs.closedStop.filtered = false →
        (startMotion env .toOpen full a).leaf = .opened ∧ (startMotion env .toOpen full a).motion = none)
      ∧ (¬ (a.inputs.openStop.filtered = true ∧ a.inputs.closedStop.filtered = false) →
        (startMotion env .toOpen full a).leaf = .opening
          ∧ (startMotion env .toOpen full a).motion = some (newMotion env .toOpen full a)) :=
  ⟨fun h => startMotion_at_stop full (stopsAt_open_iff.2 h),
    fun h => startMotion_away full (Bool.eq_false_iff.2 fun hs => h (stopsAt_open_iff.1 hs))⟩

/-- A motion's start to closed, in the terms of the drive's answer. -/
theorem startMotion_closes (full : Bool) (a : Aisle) :
    (a.inputs.closedStop.filtered = true ∧ a.inputs.openStop.filtered = false →
        (startMotion env .toClosed full a).leaf = .closed ∧ (startMotion env .toClosed full a).motion = none)
      ∧ (¬ (a.inputs.closedStop.filtered = true ∧ a.inputs.openStop.filtered = false) →
        (startMotion env .toClosed full a).leaf = .closing
          ∧ (startMotion env .toClosed full a).motion = some (newMotion env .toClosed full a)) :=
  ⟨fun h => startMotion_at_stop full (stopsAt_closed_iff.2 h),
    fun h => startMotion_away full (Bool.eq_false_iff.2 fun hs => h (stopsAt_closed_iff.1 hs))⟩

theorem driveAct_answers (env : Env) (a : Aisle) : driveAnswered env (demandOpen a) a (driveAct env a) := by
  unfold driveAnswered driveAct
  cases hleaf : a.leaf with
  | closed =>
    cases hd : demandOpen a with
    | true => simpa using startMotion_opens (env := env) true a
    | false => simp [hleaf]
  | opening => simp [hleaf]
  | opened =>
    by_cases hfree : demandOpen a = false ∧ zoneClear a = true ∧ a.obstructHold = false
    · obtain ⟨hd, hzone, hhold⟩ := hfree
      obtain ⟨hl1, hl2⟩ := zoneClear_iff.1 hzone
      simpa [hd, hzone, hhold, hl1, hl2] using startMotion_closes (env := env) true a
    · have hstay : ¬ ((!demandOpen a && zoneClear a && !a.obstructHold) = true) := by simpa using hfree
      rw [zoneClear_iff] at hfree
      simp only [hstay]
      refine ⟨by simp, fun hd _ hf => absurd ⟨hd, ⟨hf.1, hf.2.1⟩, hf.2.2⟩ hfree, fun _ => ⟨hleaf, rfl⟩⟩
  | closing =>
    cases hd : demandOpen a with
    | true => simpa using startMotion_opens (env := env) false a
    | false => simp [hleaf]
  | released => simp [hleaf]

theorem sameDrive_historyUpdate (a : Aisle) : SameDrive a (historyUpdate a) := by constructor <;> simp

theorem demandOpen_historyUpdate (a : Aisle) : demandOpen (historyUpdate a) = demandOpen a :=
  demandOpen_congr (by simp [emergencyActive]) (by simp) (by simp)

theorem settle_answers (env : Env) (was : Bool) (a : Aisle) : driveAnswered env (demandOpen a) a (settle env was a) := by
  have hact := driveAct_answers env (historyUpdate a)
  rw [demandOpen_historyUpdate] at hact
  exact driveAnswered_result ((sameDrive_historyUpdate a).answers hact) (by simp [settle_eq]) (by simp [settle_eq])

/-- An event that settles an aisle which the drive finds as it was answers the demand of that aisle. -/
theorem SameDrive.settle (h : SameDrive a b) (hd : demandOpen b = demand) (was : Bool) :
    driveAnswered env demand a (settle env was b) := hd ▸ h.answers (settle_answers env was b)

theorem settle_demandOpen (env : Env) (was : Bool) (a : Aisle) : demandOpen (Machine.settle env was a) = demandOpen a :=
  demandOpen_congr (settle_emergencyActive env was a) (by simp [settle_eq])
    (settle_any env was a (windowBlind_isReserved.comp (!·)))

end Answer

end Sys2Proof.Machine
end

