-- ==== Sys2Proof/Proofs/Service.lean ====
section
/-! PROOFS. The service commands of the station line and the end of a reply (R154, R171, R172, R190, R193, R195). -/

namespace Sys2Proof.Machine

section Service
variable {f : Frame} {s : State} {addr : Byte} {env : Env} {a : Aisle}

/-- A command of a fixed length acts at once on a ready line where its payload has that length (R190, R193). -/
theorem stationFrame_fits {n : Nat} (act : State → State) (h : lineReady f.addr s) (hcode : waitsForEvaluation f.code = false)
    (hlen : f.payload.length ≤ 96) (hn : f.payload.length = n) : stationFrame f (fixedLength f n act) s = act s := by
  rw [stationFrame_ready_of_not_waits _ h hcode hlen, fixedLength, if_pos hn]

/-- One of another length is answered RANGE (R193). -/
theorem stationFrame_range {n : Nat} (act : State → State) (h : lineReady f.addr s) (hcode : waitsForEvaluation f.code = false)
    (hlen : f.payload.length ≤ 96) (hn : f.payload.length ≠ n) :
    stationFrame f (fixedLength f n act) s = sendReply f .range [] s := by
  rw [stationFrame_ready_of_not_waits _ h hcode hlen, fixedLength, if_neg hn]

theorem length_ne_zero_of_ne_nil {payload : List Byte} (h : payload ≠ []) : payload.length ≠ 0 :=
  fun h0 => h (List.length_eq_zero_iff.1 h0)

/-! ## RESTORE (R154) -/

/-- RESTORE's aisle before the leaves move: unlocked, its drive cleared (R154). -/
def unlocked (a : Aisle) : Aisle :=
  { a with lockedOut := false, faultInProgress := false, halt := { a.halt with valid := false },
           reversals := 0, obstructHold := false, zoneClearEnd := none }

/-- RESTORE's aisle with its leaves sent home, outside the settle interval (R154). -/
def rehomed (env : Env) (a : Aisle) : Aisle :=
  if a.settleEnd.isSome then unlocked a else startMotion env .toClosed false (unlocked a)

theorem restoreAisle_eq (env : Env) (a : Aisle) : restoreAisle env a = settle env (aisleIdle a) (rehomed env a) := rfl

theorem rehomed_cases (env : Env) (a : Aisle) :
    rehomed env a = unlocked a ∨ rehomed env a = startMotion env .toClosed false (unlocked a) := by
  unfold rehomed
  split
  · exact .inl rfl
  · exact .inr rfl

theorem rehomed_kept (env : Env) (a : Aisle) : (rehomed env a).lockedOut = false ∧ (rehomed env a).faultInProgress = false
    ∧ (rehomed env a).halt = { a.halt with valid := false } ∧ (rehomed env a).credits = a.credits
    ∧ (rehomed env a).bodiesAB = a.bodiesAB ∧ (rehomed env a).bodiesBA = a.bodiesBA ∧ (rehomed env a).inputs = a.inputs
    ∧ (rehomed env a).stationEmergency = a.stationEmergency := by
  obtain h | h := rehomed_cases env a <;> rw [h] <;> simp [unlocked]

theorem restored_kept (env : Env) (a : Aisle) : (restoreAisle env a).lockedOut = false
    ∧ (restoreAisle env a).faultInProgress = false ∧ (restoreAisle env a).halt = { a.halt with valid := false }
    ∧ entries (restoreAisle env a) = entries a ∧ (restoreAisle env a).bodiesAB = a.bodiesAB
    ∧ (restoreAisle env a).bodiesBA = a.bodiesBA ∧ (restoreAisle env a).inputs = a.inputs
    ∧ (restoreAisle env a).stationEmergency = a.stationEmergency := by
  obtain ⟨hlock, hfault, hhalt, hcredits, hab, hba, hinputs, hstation⟩ := rehomed_kept env a
  rw [restoreAisle_eq, settle_entries]
  simp [hlock, hfault, hhalt, hab, hba, hinputs, hstation, entries, hcredits]

/-- The drive that the home close leaves at its stop or on its way (R154; log 36). -/
theorem sameDrive_rehomed {home : Aisle} (h : a.settleEnd = none)
    (hhome : home = if a.inputs.closedStop.filtered = true ∧ a.inputs.openStop.filtered = false
      then { a with leaf := .closed, motion := none }
      else { a with leaf := .closing, motion := some (newMotion env .toClosed false a) }) :
    SameDrive home (rehomed env a) := by
  have hstart : rehomed env a = startMotion env .toClosed false (unlocked a) := if_neg (by simp [h])
  obtain ⟨hat, haway⟩ := startMotion_closes (env := env) false (unlocked a)
  rw [← hstart] at hat haway
  obtain ⟨-, -, -, -, -, -, hinputs, -⟩ := rehomed_kept env a
  have hopen : (rehomed env a).openHist = a.openHist := by rw [hstart]; simp [unlocked]
  have hclose : (rehomed env a).closeHist = a.closeHist := by rw [hstart]; simp [unlocked]
  by_cases hstop : a.inputs.closedStop.filtered = true ∧ a.inputs.openStop.filtered = false
  · obtain ⟨hleaf, hmotion⟩ := hat hstop
    rw [hhome, if_pos hstop]
    exact ⟨hleaf, hmotion, hinputs, nofun, hopen, hclose⟩
  · obtain ⟨hleaf, hmotion⟩ := haway hstop
    rw [hhome, if_neg hstop]
    exact ⟨hleaf, hmotion.trans (congrArg some (newMotion_congr _ _ rfl rfl)), hinputs, nofun, hopen, hclose⟩

theorem demandOpen_rehomed (env : Env) (a : Aisle) :
    demandOpen (rehomed env a) = (emergencyActive a || a.credits.any (fun c => !c.isReserved)) := by
  obtain ⟨hlock, -, -, hcredits, -, -, hinputs, hstation⟩ := rehomed_kept env a
  simp [demandOpen, emergencyActive, hlock, hcredits, hinputs, hstation]

theorem startMotion_leaf_ne_released (env : Env) (tgt : Target) (full : Bool) (a : Aisle) :
    (startMotion env tgt full a).leaf ≠ .released := by
  rw [startMotion_leaf]
  cases tgt <;> split_ifs <;> exact nofun

theorem driveAct_leaf_ne_released (h : a.leaf ≠ .released) : (driveAct env a).leaf ≠ .released := by
  unfold driveAct
  split
  · split_ifs
    · exact startMotion_leaf_ne_released env _ _ a
    · exact h
  · split_ifs
    · exact startMotion_leaf_ne_released env _ _ a
    · exact h
  · split_ifs
    · exact startMotion_leaf_ne_released env _ _ a
    · exact h
  · exact h
  · exact h

/-- A drive that is not RELEASED does not become so by being settled. -/
theorem settle_leaf_ne_released (env : Env) (was : Bool) (h : a.leaf ≠ .released) :
    (settle env was a).leaf ≠ .released := by
  have hact := driveAct_leaf_ne_released (env := env) (a := historyUpdate a) (by simpa using h)
  simpa [settle_eq] using hact

theorem restored_leaf (env : Env) (h : a.settleEnd = none) : (restoreAisle env a).leaf ≠ .released := by
  have hstart : rehomed env a = startMotion env .toClosed false (unlocked a) := if_neg (by simp [h])
  rw [restoreAisle_eq, hstart]
  exact settle_leaf_ne_released env _ (startMotion_leaf_ne_released env .toClosed false (unlocked a))

/-- In the settle interval a RELEASED drive stays as it is (R154). -/
theorem restored_settling (hsettle : a.settleEnd.isSome = true) (hleaf : a.leaf = .released) :
    (restoreAisle env a).leaf = .released ∧ (restoreAisle env a).motion = a.motion := by
  have hun : rehomed env a = unlocked a := if_pos hsettle
  rw [restoreAisle_eq, hun, ← hleaf]
  exact (settle_answers env (aisleIdle a) (unlocked a)).2.2 (.inr (.inl hleaf))

/-! ## The commands -/

theorem exec_restore_ready (h : lineReady addr s) :
    exec (.restore addr []) s = .next (takeRestore { addr := addr, code := 0x45, payload := [] } s) :=
  congrArg _ (stationFrame_bare_ready (takeRestore _) h rfl rfl)

theorem takeRestore_unlocked (h : s.ac.lockedOut = false) : takeRestore f s = sendReply f .refused [] s :=
  if_neg (by simp [h])

theorem exec_stationReplyEnd {r : Reply} (h : s.sl.tx = some r) :
    exec .stationReplyEnd s = .next (replyEnded r s) := by
  change execStationReplyEnd s = _
  rw [execStationReplyEnd, h]

theorem takeRestore_locked (h : s.ac.lockedOut = true) :
    takeRestore f s = sendReply f .ok [] { s with ac := restoreAisle s.env s.ac } := if_pos h

/-- Every command of a fixed length answers another length RANGE and does nothing more (R193). -/
theorem exec_range {c : Instr} {code : Byte} {payload : List Byte} (h : lineReady addr s) (hlen : payload.length ≤ 96)
    (hc : c = .poll addr payload ∧ code = 0x40 ∧ payload ≠ [] ∨ c = .collected addr payload ∧ code = 0x41 ∧ payload.length ≠ 4
      ∨ c = .identify addr payload ∧ code = 0x44 ∧ payload ≠ [] ∨ c = .restore addr payload ∧ code = 0x45 ∧ payload ≠ []
      ∨ c = .stationFaultClear addr payload ∧ code = 0x46 ∧ payload ≠ []
      ∨ c = .journalClear addr payload ∧ code = 0x47 ∧ payload ≠ []
      ∨ c = .maintUnknownOperation addr payload ∧ code = 0x48 ∧ payload.length ≠ 1
      ∨ c = .reset addr payload ∧ code = 0x49 ∧ payload ≠ []) :
    exec c s = .next (sendReply { addr := addr, code := code, payload := payload } .range [] s) := by
  have hrange : ∀ n act, waitsForEvaluation code = false → payload.length ≠ n →
      stationFrame { addr := addr, code := code, payload := payload }
        (fixedLength { addr := addr, code := code, payload := payload } n act) s
        = sendReply { addr := addr, code := code, payload := payload } .range [] s :=
    fun n act hcode hn => stationFrame_range act h hcode hlen hn
  rcases hc with ⟨rfl, rfl, hn⟩ | ⟨rfl, rfl, hn⟩ | ⟨rfl, rfl, hn⟩ | ⟨rfl, rfl, hn⟩ | ⟨rfl, rfl, hn⟩ | ⟨rfl, rfl, hn⟩ | ⟨rfl, rfl, hn⟩
    | ⟨rfl, rfl, hn⟩
  case inr.inl => exact congrArg _ (hrange 4 _ rfl hn)
  case inr.inr.inr.inr.inr.inr.inl => exact congrArg _ (hrange 1 _ rfl hn)
  all_goals exact congrArg _ (hrange 0 _ rfl (length_ne_zero_of_ne_nil hn))

end Service

/-- Settles O59. -/
theorem serviceCommandsAct : Obligations.ServiceCommandsAct := by
  refine ⟨fun addr s h => ⟨fun hlock => ?restored, fun hfree => ?refused, ?identify, fun hheld => ?cleared,
    fun hheld => ?kept, ?armed, ?reset, fun c code payload hlen hc => exec_range h hlen hc⟩, fun s r htx => ?ended⟩
  case restored =>
    obtain ⟨hlock', hfault, hhalt, hentries, hab, hba, hinputs, hstation⟩ := restored_kept s.env s.ac
    refine ⟨restoreAisle s.env s.ac, (exec_restore_ready h).trans (congrArg _ (takeRestore_locked hlock)), hlock', hfault,
      hhalt, hentries, hab, hba, hinputs, hstation, fun hsettle home hhome => ⟨restored_leaf s.env hsettle, ?_⟩,
      fun hsettle hleaf => restored_settling hsettle hleaf⟩
    exact (sameDrive_rehomed (env := s.env) hsettle hhome).settle (demandOpen_rehomed s.env s.ac) _
  case refused => exact (exec_restore_ready h).trans (congrArg _ (takeRestore_unlocked hfree))
  case identify =>
    exact congrArg _ (stationFrame_bare_ready (f := { addr := addr, code := 0x44, payload := [] }) _ h rfl rfl)
  case cleared =>
    exact congrArg _ ((stationFrame_bare_ready (f := { addr := addr, code := 0x47, payload := [] })
      (takeJournalClear _) h rfl rfl).trans (if_pos hheld))
  case kept =>
    exact congrArg _ ((stationFrame_bare_ready (f := { addr := addr, code := 0x47, payload := [] })
      (takeJournalClear _) h rfl rfl).trans (if_neg hheld))
  case armed =>
    exact congrArg _ ((stationFrame_fits (f := { addr := addr, code := 0x48, payload := [0x01#8] })
      (takeMaint { addr := addr, code := 0x48, payload := [0x01#8] }) h rfl (show 1 ≤ 96 by decide) rfl).trans (if_pos rfl))
  case reset =>
    exact ⟨_, _, rfl, rfl, congrArg _ (stationFrame_bare_ready (f := { addr := addr, code := 0x49, payload := [] }) _ h rfl rfl)⟩
  case ended =>
    exact exec_stationReplyEnd htx

end Sys2Proof.Machine
end

