-- ==== Sys2Proof/Proofs/Poll.lean ====
section
/-! PROOFS. POLL (R162, R163, R166, R168, R169): the failures of the delivered records, and a record byte by byte. -/

namespace Sys2Proof.Machine

/-! ## Check failures (R169) -/

section Failures
variable {j : Journal}

/-- The numbers of the delivered records whose check fails (R168). -/
def failing (j : Journal) : List Nat :=
  ((j.held.take 4).filter (fun r => recordCheck r != r.check)).map (·.number)

theorem pollFailures_eq_foldl (j : Journal) : pollFailures j = (failing j).foldl takeFailure j :=
  List.foldl_map.symm

theorem takeFailure_first {number : Nat} (h : j.capture.valid = false) : takeFailure j number = { j with
    suspect := true, capture := { valid := true, number := number, lost := false } } := by
  simp [takeFailure, h]

/-- Behind a capture every number but its own sets LOST (R169). -/
theorem takeFailure_more {number : Nat} (h : j.capture.valid = true) : takeFailure j number = { j with
    capture := { j.capture with lost := j.capture.lost || number != j.capture.number } } := by
  by_cases hn : j.capture.number = number
  · subst hn
    rw [takeFailure, if_neg (by simp [h]), if_pos rfl, bne_self_eq_false, Bool.or_false]
  · have hne : (number != j.capture.number) = true := by simpa using Ne.symm hn
    simp [takeFailure, h, hn, hne]

theorem foldl_takeFailure {l : List Nat} (h : j.capture.valid = true) : l.foldl takeFailure j = { j with
    capture := { j.capture with lost := j.capture.lost || l.any (fun m => m != j.capture.number) } } := by
  induction l generalizing j with
  | nil => simp
  | cons number l ih =>
    rw [List.foldl_cons, takeFailure_more h, ih (j := { j with capture := { j.capture with
      lost := j.capture.lost || number != j.capture.number } }) h]
    simp [Bool.or_assoc]

end Failures

/-! ## A record's bytes (R162, R163) -/

theorem beBytes_three (n : Nat) : beBytes 3 n = [byteOf (n / 65536), byteOf (n / 256), byteOf n] := by
  simp [beBytes, byteOf]

theorem beBytes_four (n : Nat) :
    beBytes 4 n = [byteOf (n / 16777216), byteOf (n / 65536), byteOf (n / 256), byteOf n] := by
  simp [beBytes, byteOf]

/-- The byte that stands k bytes up in a two's complement quantity of three. -/
theorem byteOf_emod (i : Int) {k : Int} (hk : k = 65536 ∨ k = 256 ∨ k = 1) :
    byteOf ((i % 16777216).toNat / k.toNat) = BitVec.ofInt 8 (i / k) := by
  refine BitVec.eq_of_toNat_eq ?_
  rw [byteOf, BitVec.toNat_ofNat, BitVec.toNat_ofInt]
  obtain rfl | rfl | rfl := hk <;> simp <;> omega

theorem be24_eq (i : Int) :
    be24 i = [BitVec.ofInt 8 (i / 65536), BitVec.ofInt 8 (i / 256), BitVec.ofInt 8 i] := by
  have h1 := byteOf_emod i (k := 65536) (by simp)
  have h2 := byteOf_emod i (k := 256) (by simp)
  have h3 := byteOf_emod i (k := 1) (by simp)
  rw [Int.ediv_one] at h3
  rw [be24, beBytes_three, ← h1, ← h2, ← h3]
  simp

theorem flagByte_four (a b c d : Bool) :
    flagByte [a, b, c, d] = bitNat a + 2 * bitNat b + 4 * bitNat c + 8 * bitNat d := by
  simp only [flagByte_cons, flagByte_nil]
  omega

theorem flagByte_two (a b : Bool) : flagByte [a, b] = bitNat a + 2 * bitNat b := by
  simp only [flagByte_cons, flagByte_nil]
  omega

theorem kindCode_of_mem {k : RecKind} {n : Nat} (h : (k, n) ∈ [(RecKind.entry, 1), (.exit, 2), (.exitFree, 3),
    (.cloneAlert, 16), (.unusedPassage, 17), (.tailgate, 18), (.contraflow, 19), (.leafFault, 20), (.lockout, 21),
    (.tornUnresolved, 22), (.tariffActivated, 23), (.linkMode, 24)]) : kindCode k = n := by
  cases k <;> simp_all [kindCode]

theorem sideCode_of_index {x : Side} {n : Nat} (h : [Side.none, .a, .b, .station][n]? = some x) : sideCode x = n := by
  rcases n with _ | _ | _ | _ | n <;> cases h <;> rfl

theorem exec_poll_ready {addr : Byte} {s : State} (h : lineReady addr s) :
    exec (.poll addr []) s = .next (takePoll { addr := addr, code := 0x40, payload := [] } s) :=
  congrArg _ (stationFrame_bare_ready (takePoll _) h rfl rfl)

/-- Settles O55. -/
theorem pollDeliversOldest : Obligations.PollDeliversOldest := by
  refine ⟨fun addr s h => exec_poll_ready h, ?failures, ?data, ?record, rfl, rfl, rfl⟩
  case failures =>
    intro j bad hbad
    rw [pollFailures_eq_foldl, show failing j = bad from hbad.symm]
    refine ⟨fun hnil => by rw [hnil]; rfl, fun n rest hcons hvalid => ?_, foldl_takeFailure⟩
    rw [hcons, List.foldl_cons, takeFailure_first hvalid, foldl_takeFailure rfl]
    simp
  case data =>
    intro j
    have hrecord : ∀ r : JRecord, byteOf (bitNat (!recordGood r)) :: recordBytes r
        = (if recordCheck r = r.check then byteOf 0 else byteOf 1) :: (recordBody r ++ beBytes 2 r.check.toNat) := fun r => by
      by_cases hgood : recordCheck r = r.check <;> simp [recordGood, hgood, bitNat, recordBytes, checkBytes]
    simp only [pollData, polled, List.length_take, flagByte_two, hrecord]
  case record =>
    intro r kind side bit c hkind hside
    refine ⟨?_, rfl⟩
    rw [recordBody, kindCode_of_mem hkind, sideCode_of_index hside, flagByte_four, beBytes_four, beBytes_four, beBytes_three,
      beBytes_three, beBytes_two, beBytes_two, beBytes_two, beBytes_two, be24_eq, Nat.mul_comm r.content.entryZone 16]
    rfl

end Sys2Proof.Machine
end

