-- ==== Sys2Proof/Proofs/Settled.lean ====
section
/-! PROOFS. What settling makes of an aisle, part by part: the flow history, the hold window, the idle timer and LOITER (R122,
R129 to R137), and a change of the Credit Queue at a known place. -/

namespace Sys2Proof.Machine

/-! ## An entry changed at a known place of the queue (R124) -/

section Change
variable {p : Credit → Bool} {f : Credit → Option Credit} {pre post : List Credit} {c : Credit}

theorem changeFirst_at (hpre : ∀ x ∈ pre, p x = false) (hc : p c = true) :
    changeFirst p f (pre ++ c :: post) = pre ++ ((f c).toList ++ post) := by
  induction pre with
  | nil =>
    rw [List.nil_append, changeFirst, if_pos hc]
    cases f c <;> rfl
  | cons x pre ih =>
    obtain ⟨hx, hrest⟩ := List.forall_mem_cons.1 hpre
    rw [List.cons_append, changeFirst, if_neg (by simp [hx]), ih hrest]
    rfl

theorem changeLast_at (hpost : ∀ x ∈ post, p x = false) (hc : p c = true) :
    changeLast p f (pre ++ c :: post) = pre ++ ((f c).toList ++ post) := by
  have hfirst := changeFirst_at (f := f) (pre := post.reverse) (post := pre.reverse)
    (fun x hx => hpost x (List.mem_reverse.1 hx)) hc
  rw [changeLast, List.reverse_append, List.reverse_cons, List.append_assoc, List.singleton_append, hfirst]
  cases f c <;> simp

theorem changeFirst_none {cs : List Credit} (h : ∀ x ∈ cs, p x = false) : changeFirst p f cs = cs := by
  induction cs with
  | nil => rfl
  | cons x cs ih =>
    obtain ⟨hx, hrest⟩ := List.forall_mem_cons.1 h
    rw [changeFirst, if_neg (by simp [hx]), ih hrest]

theorem changeLast_none {cs : List Credit} (h : ∀ x ∈ cs, p x = false) : changeLast p f cs = cs := by
  rw [changeLast, changeFirst_none (fun x hx => h x (List.mem_reverse.1 hx)), List.reverse_reverse]

end Change

/-! ## The hold window at a known head (R136, R137) -/

section Window
variable {head : Credit → Bool} {newEnd : Nat} {pre post : List Credit} {c : Credit}

theorem windowPass_at (hpre : ∀ x ∈ pre, head x = false) (hc : head c = true) :
    windowPass head newEnd (pre ++ c :: post) = pre.map withoutWindow ++ withWindow newEnd c :: post.map withoutWindow := by
  induction pre with
  | nil => rw [List.nil_append, windowPass, if_pos hc]; rfl
  | cons x pre ih =>
    obtain ⟨hx, hrest⟩ := List.forall_mem_cons.1 hpre
    rw [List.cons_append, windowPass, if_neg (by simp [hx]), ih hrest]
    rfl

theorem windowPass_none {cs : List Credit} (h : ∀ x ∈ cs, head x = false) :
    windowPass head newEnd cs = cs.map withoutWindow := by
  induction cs with
  | nil => rfl
  | cons x cs ih =>
    obtain ⟨hx, hrest⟩ := List.forall_mem_cons.1 h
    rw [windowPass, if_neg (by simp [hx]), ih hrest]
    rfl

theorem withWindow_granted {n at_ : Nat} {w : Option Nat} (h : c.state = .granted n at_ w) :
    withWindow newEnd c = { c with state := .granted n at_ (some (w.getD newEnd)) } := by
  obtain ⟨state, dir, serial, port⟩ := c
  simp only at h
  subst h
  cases w <;> rfl

theorem withoutWindow_granted {n at_ : Nat} {w : Option Nat} (h : c.state = .granted n at_ w) :
    withoutWindow c = { c with state := .granted n at_ none } := by
  obtain ⟨state, dir, serial, port⟩ := c
  simp only at h
  subst h
  cases w <;> rfl

theorem withoutWindow_other (h : ∀ n at_ w, c.state ≠ .granted n at_ w) : withoutWindow c = c := by
  obtain ⟨_ | ⟨n, at_, w⟩ | _, dir, serial, port⟩ := c
  · rfl
  · exact absurd rfl (h n at_ w)
  · rfl

end Window

/-! ## The states of entries (R124) -/

section States
variable {c : Credit} {d : Dir}

theorem isGranted_iff : c.isGranted = true ↔ ∃ n at_ w, c.state = .granted n at_ w := by
  obtain ⟨_ | _ | _, _, _, _⟩ := c <;> simp [Credit.isGranted]

theorem isInAisle_iff : c.isInAisle = true ↔ ∃ n at_ since, c.state = .inAisle n at_ since := by
  obtain ⟨_ | _ | _, _, _, _⟩ := c <;> simp [Credit.isInAisle]

theorem isReserved_iff : c.isReserved = true ↔ ∃ barred, c.state = .reserved barred := by
  obtain ⟨_ | _ | _, _, _, _⟩ := c <;> simp [Credit.isReserved]

/-- An entry that grants a passage: GRANTED or IN_AISLE (R129, R144). -/
theorem not_isReserved_iff : (!c.isReserved) = true
    ↔ (∃ n at_ w, c.state = .granted n at_ w) ∨ ∃ n at_ since, c.state = .inAisle n at_ since := by
  obtain ⟨_ | _ | _, _, _, _⟩ := c <;> simp [Credit.isReserved]

theorem isGrantedDir_iff : isGrantedDir d c = true ↔ c.dir = d ∧ ∃ n at_ w, c.state = .granted n at_ w := by
  rw [isGrantedDir, Bool.and_eq_true, isGranted_iff, beq_iff_eq, and_comm]

theorem isInAisleDir_state_iff : isInAisleDir d c = true ↔ c.dir = d ∧ ∃ n at_ since, c.state = .inAisle n at_ since := by
  rw [isInAisleDir, Bool.and_eq_true, isInAisle_iff, beq_iff_eq, and_comm]

theorem isReservedPort_iff {p : Port} : isReservedPort p c = true ↔ c.port = p ∧ ∃ barred, c.state = .reserved barred := by
  rw [isReservedPort, Bool.and_eq_true, isReserved_iff, beq_iff_eq, and_comm]

end States

/-! ## The current direction and the demand (R129, R144) -/

section Direction
variable {a : Aisle} {d : Dir}

theorem direction_of_entry {pre post : List Credit} {c : Credit} (h : a.credits = pre ++ c :: post)
    (hc : (!c.isReserved) = true) (hpre : ∀ x ∈ pre, ¬ (!x.isReserved) = true) : direction a = some c.dir := by
  have hfind : a.credits.find? (fun c => !c.isReserved) = some c := by
    rw [h]
    exact List.find?_eq_some_iff_append.2 ⟨hc, pre, post, rfl, fun x hx => by simpa using hpre x hx⟩
  rw [direction, hfind]

theorem direction_of_bodies (h : ∀ c ∈ a.credits, ¬ (!c.isReserved) = true) :
    direction a = if 0 < a.bodiesAB then some .ab else if 0 < a.bodiesBA then some .ba else none := by
  have hfind : a.credits.find? (fun c => !c.isReserved) = none := List.find?_eq_none.2 h
  rw [direction, hfind]

theorem emergencyActive_iff : emergencyActive a = true ↔ a.inputs.emerg.filtered = true ∨ a.stationEmergency = true := by
  simp [emergencyActive]

theorem demandOpen_iff : demandOpen a = true ↔ (emergencyActive a = true ∧ a.lockedOut = false)
    ∨ ∃ c ∈ a.credits, (∃ n at_ w, c.state = .granted n at_ w) ∨ ∃ n at_ since, c.state = .inAisle n at_ since := by
  simp only [demandOpen, Bool.or_eq_true, Bool.and_eq_true, Bool.not_eq_true', List.any_eq_true, ← not_isReserved_iff]

end Direction

/-! ## The flow history (R130, R132) -/

section History
variable {a : Aisle} {d : Dir}

theorem historyUpdate_still (h : direction a = none) : historyUpdate a = a := by
  rw [historyUpdate, h]

theorem historyUpdate_joins (h : direction a = some d) (hhist : a.histDir = none ∨ a.histDir = some d) :
    historyUpdate a = { a with histDir := some d } := by
  rw [historyUpdate, h]
  obtain hhist | hhist := hhist <;> simp [hhist]
  rw [← hhist]

theorem historyUpdate_turns (h : direction a = some d) (hhist : a.histDir = some d.other) :
    historyUpdate a = { clearHistory a with histDir := some d } := by
  have hne : d.other ≠ d := by cases d <;> decide
  rw [historyUpdate, h]
  simp [hhist, hne]

end History

/-! ## The parts of a settled aisle -/

section Settle
variable (env : Env) (was : Bool) (a : Aisle)

/-- The aisle whose drive has answered, before its windows are compared. -/
def answered (env : Env) (a : Aisle) : Aisle := driveAct env (historyUpdate a)

theorem settle_captures : (settle env was a).captures = (historyUpdate a).captures := by simp [settle_eq]
theorem settle_histDir : (settle env was a).histDir = (historyUpdate a).histDir := by simp [settle_eq]
theorem settle_lastAB : (settle env was a).lastAB = (historyUpdate a).lastAB := by simp [settle_eq]
theorem settle_lastBA : (settle env was a).lastBA = (historyUpdate a).lastBA := by simp [settle_eq]
theorem settle_leaf : (settle env was a).leaf = (answered env a).leaf := by simp [settle_eq, answered]

theorem settle_credits_eq : (settle env was a).credits
    = windowPass (isHead (answered env a)) (env.now + holdOf env (answered env a)) a.credits := by
  simp [settle_eq, windowUpdate, answered]

theorem direction_answered : direction (answered env a) = direction a := by
  simp [direction, answered]

theorem holdOf_congr {b : Aisle} (h : b.captures = a.captures) : holdOf env b = holdOf env a := by
  rw [holdOf, holdOf, flowBaseOf, flowBaseOf, h]

theorem isHead_answered (c : Credit) : isHead (answered env a) c = true
    ↔ (settle env was a).leaf = .opened ∧ c.isGranted = true ∧ direction a = some c.dir := by
  rw [isHead, direction_answered, ← settle_leaf env was]
  simp [and_assoc]

theorem settle_loiter : (settle env was a).loiter = (a.loiter && anyLoitering env a) := by
  have hany := settle_any env was a (windowBlind_loitering env.now env.cfg.loiterLimit)
  have hcredits : (settle env was a).credits
      = (idleUpdate env was (windowUpdate env (driveAct env (historyUpdate a)))).credits := by simp [settle_eq]
  rw [hcredits] at hany
  rw [settle_eq, loiterUpdate, anyLoitering, anyLoitering, hany]
  simp

theorem anyLoitering_iff : anyLoitering env a = true ↔ ∃ c ∈ a.credits, ∃ n at_ since, c.state = .inAisle n at_ since
    ∧ env.cfg.loiterLimit * 1000 < env.now - since := by
  rw [anyLoitering, List.any_eq_true]
  refine exists_congr fun c => and_congr_right fun _ => ?_
  obtain ⟨_ | _ | _, _, _, _⟩ := c <;> simp [loitering]

theorem aisleIdle_iff : aisleIdle a = true ↔ a.credits = [] ∧ a.bodiesAB = 0 ∧ a.bodiesBA = 0 := by
  simp [aisleIdle, and_assoc]

theorem settle_idleEnd : (settle env was a).idleEnd
    = if aisleIdle a then (if was then a.idleEnd else some (env.now + env.cfg.idleClear * 1000)) else none := by
  have hidle : aisleIdle (windowUpdate env (driveAct env (historyUpdate a))) = aisleIdle a := by
    have hlen := windowPass_length (isHead (driveAct env (historyUpdate a)))
      (env.now + holdOf env (driveAct env (historyUpdate a))) (driveAct env (historyUpdate a)).credits
    rw [Bool.eq_iff_iff, aisleIdle_iff, aisleIdle_iff, windowUpdate, ← List.length_eq_zero_iff, hlen]
    simp
  rw [settle_eq, loiterUpdate, idleUpdate, hidle]
  split_ifs <;> simp

end Settle

end Sys2Proof.Machine
end

