-- ==== Sys2Proof/Proofs/AisleTimers.lean ====
section
/-! PROOFS. Grant and release in the Credit Queue, the timers of the aisle, and settling clause by clause (R120 to R138). -/

namespace Sys2Proof.Machine

/-! ## Aisles that differ in the queue alone, and events of the aisle -/

theorem sameDrive_credits (a : Aisle) (cs : List Credit) : SameDrive a { a with credits := cs } :=
  ⟨rfl, rfl, rfl, fun _ => rfl, rfl, rfl⟩

theorem withAisle_outside (f : Env → AisleRun → AisleRun) (t : Nat) (s : State) : outsideAisle s (withAisle f (reach t s)) :=
  ⟨rfl, rfl, rfl, rfl, rfl, rfl, rfl, rfl, rfl, rfl⟩

theorem withAisleOnly_outside (f : Env → Aisle → Aisle) (t : Nat) (s : State) :
    outsideAisle s (withAisleOnly f (reach t s)) :=
  ⟨rfl, rfl, rfl, rfl, rfl, rfl, rfl, rfl, rfl, rfl⟩

/-- Settles O33. -/
theorem grantAndReleaseByBar : Obligations.GrantAndReleaseByBar := by
  refine ⟨fun p c => ⟨isReservedPort_iff, fun n at_ w => withoutWindow_granted, withoutWindow_other⟩, ?_⟩
  intro env a p n pre post c barred hcredits hstate hport hpre
  have hpick : isReservedPort p c = true := isReservedPort_iff.2 ⟨hport, barred, hstate⟩
  have hgrant : entries (grantCredit env p n a) = (pre ++ ((grantEntry env.now n c).toList ++ post)).map withoutWindow := by
    rw [grantCredit, settle_entries, entries, hcredits, changeFirst_at hpre hpick]
  have hrelease : entries (releaseCredit env p a) = (pre ++ post).map withoutWindow := by
    rw [releaseCredit, settle_entries, entries, hcredits, changeFirst_at hpre hpick]
    rfl
  refine ⟨fun hbarred => ?_, fun hbarred => ?_, hrelease, fun t ht => ?_⟩
  · rw [hgrant, grantEntry, hstate, hbarred]
    rfl
  · rw [hgrant, grantEntry, hstate, hbarred]
    rfl
  · have hsettled : ∃ was cs, t = settle env was { a with credits := cs } := by
      obtain rfl | rfl := ht
      · exact ⟨_, _, rfl⟩
      · exact ⟨_, _, rfl⟩
    obtain ⟨was, cs, rfl⟩ := hsettled
    have hanswer := (sameDrive_credits a cs).settle (env := env) (settle_demandOpen env was _).symm was
    simpa using hanswer

/-! ## The expiry of the hold window (R138) -/

section Hold
variable {s : State} {e n at_ : Nat} {pre post : List Credit} {c : Credit}

theorem holdEndOf_granted {w : Option Nat} (h : c.state = .granted n at_ w) : holdEndOf c = w := by
  rw [holdEndOf, h]

theorem exec_holdWindowExpiry (hcredits : s.ac.credits = pre ++ c :: post) (hstate : c.state = .granted n at_ (some e))
    (hpre : ∀ x ∈ pre, holdEndOf x = none) : exec .holdWindowExpiry s = .next (withAisle expireHold (reach e s)) := by
  have hend : windowEnd s.ac = some e := by
    rw [windowEnd, hcredits, List.findSome?_append, List.findSome?_eq_none_iff.2 hpre, List.findSome?_cons,
      holdEndOf_granted hstate]
    rfl
  change execHoldWindowExpiry s = _
  rw [execHoldWindowExpiry, hend]

theorem expireHold_at {env : Env} {r : AisleRun} (hcredits : r.ac.credits = pre ++ c :: post)
    (hstate : c.state = .granted n at_ (some e)) (hpre : ∀ x ∈ pre, holdEndOf x = none) :
    expireHold env r = { ac := settle env (aisleIdle r.ac) { r.ac with credits := pre ++ post },
                         alerts := r.alerts ++ [unusedAlert env .holdExpired c.dir c.serial n at_] } := by
  have hc : (holdEndOf c).isSome = true := by rw [holdEndOf_granted hstate]; rfl
  have hpre' : ∀ x ∈ pre, (holdEndOf x).isSome = false := fun x hx => by rw [hpre x hx]; rfl
  have hfind : r.ac.credits.find? (fun c => (holdEndOf c).isSome) = some c := by
    rw [hcredits]
    exact List.find?_eq_some_iff_append.2 ⟨hc, pre, post, rfl, fun x hx => by simp [hpre' x hx]⟩
  rw [expireHold, hfind]
  simp only [grantedAlert, hstate, AisleRun.settled, AisleRun.upd, hcredits, changeFirst_at hpre' hc]
  rfl

end Hold

/-! ## Settling, clause by clause -/

section Settling
variable {env : Env} {was : Bool} {a : Aisle}

/-- The hold window of an OPEN aisle runs for the oldest GRANTED entry of the direction (R135 to R137). -/
theorem settle_window_at {pre post : List Credit} {c : Credit} {n at_ : Nat} {w : Option Nat}
    (hopen : (settle env was a).leaf = .opened) (hcredits : a.credits = pre ++ c :: post)
    (hstate : c.state = .granted n at_ w) (hdir : direction a = some c.dir)
    (hpre : ∀ x ∈ pre, isGrantedDir c.dir x = false) : (settle env was a).credits = pre.map withoutWindow
      ++ { c with state := .granted n at_ (some (w.getD (env.now + holdOf env (settle env was a)))) }
        :: post.map withoutWindow := by
  have hhead : isHead (answered env a) c = true :=
    (isHead_answered env was a c).2 ⟨hopen, isGranted_iff.2 ⟨n, at_, w, hstate⟩, hdir⟩
  have hothers : ∀ x ∈ pre, isHead (answered env a) x = false := fun x hx => by
    refine Bool.eq_false_iff.2 fun hx' => ?_
    obtain ⟨-, hgranted, hxdir⟩ := (isHead_answered env was a x).1 hx'
    have hsame : x.dir = c.dir := Option.some.inj (hxdir.symm.trans hdir)
    exact Bool.eq_false_iff.1 (hpre x hx) (by simp [isGrantedDir, hgranted, hsame])
  have hhold : holdOf env (answered env a) = holdOf env (settle env was a) :=
    holdOf_congr env (settle env was a) (by simp [answered, settle_captures])
  rw [settle_credits_eq, hcredits, windowPass_at hothers hhead, withWindow_granted hstate, hhold]

/-- Elsewhere no hold window runs (R137). -/
theorem settle_window_none (h : (settle env was a).leaf ≠ .opened
    ∨ ∀ d, direction a = some d → a.credits.any (isGrantedDir d) = false) :
    (settle env was a).credits = a.credits.map withoutWindow := by
  rw [settle_credits_eq, windowPass_none]
  refine fun x hx => Bool.eq_false_iff.2 fun hx' => ?_
  obtain ⟨hopen, hgranted, hdir⟩ := (isHead_answered env was a x).1 hx'
  obtain h | h := h
  · exact h hopen
  · exact Bool.eq_false_iff.1 (h x.dir hdir) (List.any_eq_true.2 ⟨x, hx, by simp [isGrantedDir, hgranted]⟩)

/-- The earliest time an IN_AISLE entry is past the limit (R122; log 18). -/
theorem nextLoiter_some {e : Nat} (h : nextLoiter env a = some e) :
    (∃ c ∈ a.credits, ∃ n at_ since, c.state = .inAisle n at_ since ∧ e = since + env.cfg.loiterLimit * 1000 + 1)
      ∧ ∀ c ∈ a.credits, ∀ n at_ since, c.state = .inAisle n at_ since → e ≤ since + env.cfg.loiterLimit * 1000 + 1 := by
  obtain ⟨hmem, hleast⟩ := List.min?_eq_some_iff.1 h
  refine ⟨?_, fun c hc n at_ since hstate => hleast _ (List.mem_filterMap.2 ⟨c, hc, by rw [loiterTime, hstate]⟩)⟩
  obtain ⟨c, hc, htime⟩ := List.mem_filterMap.1 hmem
  obtain ⟨state, dir, serial, port⟩ := c
  cases state with
  | reserved | granted => cases htime
  | inAisle n at_ since => exact ⟨_, hc, n, at_, since, rfl, (Option.some.inj htime).symm⟩

end Settling

section Expiries
variable {s : State} {e : Nat}

theorem exec_alarmTimerExpiry (h : s.ac.alarmEnd = some e) : exec .alarmTimerExpiry s
    = .next (withAisleOnly (fun _ a => { a with alarmEnd := none, violation := none }) (reach e s)) := by
  change execAlarmTimerExpiry s = _
  rw [execAlarmTimerExpiry, h]

theorem exec_loiterLimitReached (h : nextLoiter s.env s.ac = some e) :
    exec .loiterLimitReached s = .next (withAisleOnly (fun _ a => { a with loiter := true }) (reach e s)) := by
  change execLoiterLimitReached s = _
  rw [execLoiterLimitReached, h]

theorem exec_idleTimerExpiry (h : s.ac.idleEnd = some e) : exec .idleTimerExpiry s
    = .next (withAisleOnly (fun _ a => clearHistory { a with idleEnd := none }) (reach e s)) := by
  change execIdleTimerExpiry s = _
  rw [execIdleTimerExpiry, h]

end Expiries

/-- Settles O44. -/
theorem aisleTimersAct : Obligations.AisleTimersAct := by
  refine ⟨fun s e => ⟨exec_alarmTimerExpiry, exec_loiterLimitReached, exec_idleTimerExpiry, ?hold⟩, ?settled, ?settling,
    fun a => ⟨demandOpen_iff, ?first, fun env e => nextLoiter_some, ?bodies⟩⟩
  case hold =>
    intro pre post c n at_ hcredits hstate hpre content
    refine ⟨_, exec_holdWindowExpiry hcredits hstate hpre, rfl, withAisle_outside _ _ s, ?_⟩
    rw [withAisle, expireHold_at (r := { ac := (reach e s).ac, alerts := [] }) hcredits hstate hpre]
    refine ⟨settle_entries _ _ _, ?_, ?_, rfl⟩
    · simp [reach]
    · simp [reach]
  case settled =>
    intro s e pre post c n at_ hcredits hstate hpre
    refine ⟨_, exec_holdWindowExpiry hcredits hstate hpre, ?_⟩
    rw [withAisle, expireHold_at (r := { ac := (reach e s).ac, alerts := [] }) hcredits hstate hpre]
    rfl
  case settling =>
    intro env was a t ht base hold within
    subst ht
    rw [settle_captures, settle_histDir, settle_lastAB, settle_lastBA, settle_idleEnd, settle_loiter, Bool.and_eq_true,
      anyLoitering_iff]
    refine ⟨fun h => ?_, fun d h hhist => ?_, fun d h hhist => ?_, fun pre post c n at_ w hopen hcredits hstate hdir hpre => ?_,
      settle_window_none, fun hc hab hba => ?_, fun hbusy => ?_, Iff.rfl, settle_answers env was a⟩
    · rw [historyUpdate_still h]
      exact ⟨rfl, rfl, rfl, rfl⟩
    · rw [historyUpdate_joins h hhist]
      exact ⟨rfl, rfl, rfl, rfl⟩
    · rw [historyUpdate_turns h hhist]
      exact ⟨rfl, rfl, rfl, rfl⟩
    · rw [settle_window_at hopen hcredits hstate hdir hpre]
      rfl
    · rw [if_pos ((aisleIdle_iff a).2 ⟨hc, hab, hba⟩)]
    · refine if_neg fun hidle => ?_
      obtain ⟨hc, hab, hba⟩ := (aisleIdle_iff a).1 hidle
      rcases hbusy with hbusy | hbusy | hbusy
      · exact hbusy hc
      · omega
      · omega
  case first =>
    intro pre post c hcredits hc hpre
    exact direction_of_entry hcredits (not_isReserved_iff.2 hc) (fun x hx h => hpre x hx (not_isReserved_iff.1 h))
  case bodies =>
    exact fun h => direction_of_bodies fun c hc hopen => h c hc (not_isReserved_iff.1 hopen)

end Sys2Proof.Machine
end

