-- ==== Sys2Proof/Proofs/Crossings.lean ====
section
/-! PROOFS. What a CROSS_IN and a CROSS_OUT make of the aisle and which alerts they request (R113 to R120, R131). -/

namespace Sys2Proof.Machine

section Bodies
variable {a : Aisle} {d : Dir}

theorem Dir.other_ne (d : Dir) : d.other ≠ d := by cases d <;> decide

theorem settle_bodies (env : Env) (was : Bool) (a : Aisle) (d : Dir) : bodies (settle env was a) d = bodies a d := by
  cases d <;> simp [bodies]

theorem bodies_raise_same (d : Dir) (a : Aisle) : bodies (raiseBodies d a) d = min 7 (bodies a d + 1) := by
  cases d <;> rfl

theorem bodies_raise_other (d : Dir) (a : Aisle) : bodies (raiseBodies d a) d.other = bodies a d.other := by
  cases d <;> rfl

theorem bodies_lower_same (d : Dir) (a : Aisle) : bodies (lowerBodies d a) d = bodies a d - 1 := by
  cases d <;> rfl

theorem bodies_lower_other (d : Dir) (a : Aisle) : bodies (lowerBodies d a) d.other = bodies a d.other := by
  cases d <;> rfl

theorem sameDrive_raiseBodies (d : Dir) (a : Aisle) : SameDrive a (raiseBodies d a) := by constructor <;> simp

theorem sameDrive_lowerBodies (d : Dir) (a : Aisle) : SameDrive a (lowerBodies d a) := by constructor <;> simp

theorem sameDrive_headway (env : Env) (d : Dir) (a : Aisle) : SameDrive a (headway env d a) := by constructor <;> simp

end Bodies

/-! ## CROSS_IN (R114, R117) -/

section CrossIn
variable {env : Env} {d : Dir} {r : AisleRun}

/-- The aisle a CROSS_IN leaves, before it is settled. -/
def entered (env : Env) (d : Dir) (a : Aisle) : Aisle :=
  if a.credits.any (isGrantedDir d) then
    { raiseBodies d a with credits := changeFirst (isGrantedDir d) (claimCredit env.now) a.credits }
  else if emergencyActive a then raiseBodies d a
  else startAlarm env (violationOf d (direction a)) (raiseBodies d a)

theorem crossIn_ac (env : Env) (d : Dir) (r : AisleRun) :
    (crossIn env d r).ac = settle env (aisleIdle r.ac) (entered env d r.ac) := by
  simp only [crossIn, entered, AisleRun.settled, AisleRun.upd, AisleRun.post]
  split_ifs <;> simp

theorem crossIn_alerts (env : Env) (d : Dir) (r : AisleRun) : (crossIn env d r).alerts
    = if r.ac.credits.any (isGrantedDir d) then r.alerts else if emergencyActive r.ac then r.alerts
      else r.alerts ++ [violationAlert d (direction r.ac) (violationOf d (direction r.ac)) (raiseBodies d r.ac)] := by
  simp only [crossIn, AisleRun.settled, AisleRun.upd, AisleRun.post]
  split_ifs <;> rfl

theorem entered_cases (env : Env) (d : Dir) (a : Aisle) :
    (∃ cs, entered env d a = { raiseBodies d a with credits := cs }
        ∧ cs.any (fun c => !c.isReserved) = a.credits.any (fun c => !c.isReserved))
      ∨ ∃ v, entered env d a = startAlarm env v (raiseBodies d a) := by
  unfold entered
  split_ifs
  · refine .inl ⟨_, rfl, ?_⟩
    obtain ⟨-, heq⟩ | ⟨pre, c, post, hcredits, hc, -, heq⟩ := changeFirst_eq (isGrantedDir d) (claimCredit env.now) a.credits
    · rw [heq]
    · obtain ⟨-, n, at_, w, hstate⟩ := isGrantedDir_iff.1 hc
      rw [heq, hcredits]
      simp [claimCredit, hstate, Credit.isReserved]
  · exact .inl ⟨(raiseBodies d a).credits, rfl, by simp⟩
  · exact .inr ⟨_, rfl⟩

theorem entered_kept (env : Env) (d : Dir) (a : Aisle) : SameDrive a (entered env d a)
    ∧ demandOpen (entered env d a) = demandOpen a ∧ bodies (entered env d a) d = min 7 (bodies a d + 1)
    ∧ bodies (entered env d a) d.other = bodies a d.other := by
  obtain ⟨cs, heq, hany⟩ | ⟨v, heq⟩ := entered_cases env d a <;> rw [heq]
  · exact ⟨(sameDrive_raiseBodies d a).trans (sameDrive_credits _ cs),
      demandOpen_congr (by simp [emergencyActive]) (by simp) hany,
      (congrFun (bodies_congr rfl rfl) d).trans (bodies_raise_same d a),
      (congrFun (bodies_congr rfl rfl) d.other).trans (bodies_raise_other d a)⟩
  · exact ⟨(sameDrive_raiseBodies d a).trans ⟨rfl, rfl, rfl, fun _ => rfl, rfl, rfl⟩,
      demandOpen_congr (by simp [startAlarm, emergencyActive]) (by simp [startAlarm]) (by simp [startAlarm]),
      (congrFun (bodies_congr rfl rfl) d).trans (bodies_raise_same d a),
      (congrFun (bodies_congr rfl rfl) d.other).trans (bodies_raise_other d a)⟩

theorem entered_claims {pre post : List Credit} {c : Credit} {n at_ : Nat} {w : Option Nat} {a : Aisle}
    (hcredits : a.credits = pre ++ c :: post) (hstate : c.state = .granted n at_ w) (hdir : c.dir = d)
    (hpre : ∀ x ∈ pre, isGrantedDir d x = false) : entered env d a
      = { raiseBodies d a with credits := pre ++ { c with state := .inAisle n at_ env.now } :: post } := by
  have hc : isGrantedDir d c = true := isGrantedDir_iff.2 ⟨hdir, n, at_, w, hstate⟩
  have hany : a.credits.any (isGrantedDir d) = true := by simp [hcredits, hc]
  rw [entered, if_pos hany, hcredits, changeFirst_at hpre hc, claimCredit, hstate]
  rfl

/-- Settles O38. -/
theorem crossingInClaims : Obligations.CrossingInClaims := by
  refine ⟨⟨rfl, rfl, rfl, rfl, fun a d c => ⟨rfl, rfl, isGrantedDir_iff⟩⟩, ?_⟩
  intro env d r content
  obtain ⟨hsame, hdemand, hbodies, hother⟩ := entered_kept env d r.ac
  rw [crossIn_ac, crossIn_alerts, settle_bodies, settle_bodies]
  refine ⟨hbodies, hsame.settle hdemand _, hother, fun pre post c n at_ w hcredits hstate hdir hpre => ?_, fun hnone => ?_⟩
  · have hany : r.ac.credits.any (isGrantedDir d) = true := by
      simp [hcredits, isGrantedDir_iff.2 ⟨hdir, n, at_, w, hstate⟩]
    rw [settle_entries, entered_claims hcredits hstate hdir hpre, if_pos hany]
    exact ⟨rfl, rfl, by simp, by simp⟩
  · have hne : ¬ r.ac.credits.any (isGrantedDir d) = true := by simp [hnone]
    rw [settle_entries, entered, if_neg hne, if_neg hne]
    refine ⟨by split_ifs <;> simp [entries, startAlarm], fun hem => ?_, fun hem => ?_⟩
    · rw [if_pos hem, if_pos hem]
      exact ⟨rfl, by simp, by simp⟩
    · have hoff : ¬ emergencyActive r.ac = true := by simp [hem]
      have hdetail : bodies (raiseBodies d r.ac) d = min 7 (bodies r.ac d + 1) := bodies_raise_same d r.ac
      rw [if_neg hoff, if_neg hoff]
      refine ⟨by simp [startAlarm], fun hagainst => ?_, fun hwith => ?_⟩
      · rw [violationOf, if_pos hagainst, violationAlert, hdetail]
        exact ⟨by simp [startAlarm], rfl⟩
      · rw [violationOf, if_neg hwith, violationAlert, hdetail]
        exact ⟨by simp [startAlarm], rfl⟩

end CrossIn

/-! ## CROSS_OUT (R115, R116, R131) -/

section CrossOut
variable {env : Env} {d : Dir} {r : AisleRun} {a : Aisle} {pre post : List Credit} {c : Credit}

theorem depart_none (h : a.credits.any (isInAisleDir d) = false) : depart env d a = lowerBodies d a :=
  if_neg (by simp [h])

theorem depart_at (hcredits : a.credits = pre ++ c :: post) (hc : isInAisleDir d c = true)
    (hpre : ∀ x ∈ pre, isInAisleDir d x = false) :
    depart env d a = headway env d { lowerBodies d a with credits := pre ++ post } := by
  have hany : a.credits.any (isInAisleDir d) = true := by simp [hcredits, hc]
  refine (if_pos hany).trans ?_
  rw [lowerBodies_credits, hcredits, changeFirst_at hpre hc]
  rfl

theorem depart_kept (env : Env) (d : Dir) (a : Aisle) : SameDrive a (depart env d a)
    ∧ bodies (depart env d a) d = bodies a d - 1 ∧ bodies (depart env d a) d.other = bodies a d.other := by
  have hhead : ∀ b : Aisle, bodies (headway env d b) = bodies b := fun b => bodies_congr (by simp) (by simp)
  unfold depart
  split_ifs
  · rw [hhead]
    exact ⟨((sameDrive_lowerBodies d a).trans (sameDrive_credits _ _)).trans (sameDrive_headway env d _),
      (congrFun (bodies_congr rfl rfl) d).trans (bodies_lower_same d a),
      (congrFun (bodies_congr rfl rfl) d.other).trans (bodies_lower_other d a)⟩
  · exact ⟨sameDrive_lowerBodies d a, bodies_lower_same d a, bodies_lower_other d a⟩

theorem newestInAisle_at {cs : List Credit} (hcredits : cs = pre ++ c :: post) (hc : isInAisleDir d c = true)
    (hpost : ∀ x ∈ post, isInAisleDir d x = false) : newestInAisle d cs = some c := by
  rw [newestInAisle, hcredits, List.reverse_append, List.reverse_cons, List.append_assoc, List.singleton_append]
  exact List.find?_eq_some_iff_append.2 ⟨hc, _, _, rfl, fun x hx => by simp [hpost x (List.mem_reverse.1 hx)]⟩

theorem backOut_none (h : r.ac.credits.any (isInAisleDir d) = false) :
    backOut env d r = { r with ac := lowerBodies d r.ac } := by
  have hnone : newestInAisle d r.ac.credits = none :=
    List.find?_eq_none.2 fun x hx => by
      simpa using (List.any_eq_false.1 h) x (List.mem_reverse.1 hx)
  rw [backOut, hnone]
  rfl

section At
variable {n at_ since : Nat} (hcredits : r.ac.credits = pre ++ c :: post) (hstate : c.state = .inAisle n at_ since)
  (hdir : c.dir = d) (hpost : ∀ x ∈ post, isInAisleDir d x = false)
include hcredits hstate hdir hpost

theorem backOut_returns (hlock : r.ac.lockedOut = false) : backOut env d r = { r with
    ac := { lowerBodies d r.ac with credits := pre ++ { c with state := .granted n at_ none } :: post } } := by
  have hc : isInAisleDir d c = true := isInAisleDir_state_iff.2 ⟨hdir, n, at_, since, hstate⟩
  rw [backOut, newestInAisle_at hcredits hc hpost]
  simp only [hlock, AisleRun.upd, lowerBodies_credits, hcredits, changeLast_at hpost hc, returnCredit, hstate]
  rfl

theorem backOut_removes (hlock : r.ac.lockedOut = true) : backOut env d r =
    { ac := { lowerBodies d r.ac with credits := pre ++ post },
      alerts := r.alerts ++ [unusedAlert env .lockout c.dir c.serial n at_] } := by
  have hc : isInAisleDir d c = true := isInAisleDir_state_iff.2 ⟨hdir, n, at_, since, hstate⟩
  rw [backOut, newestInAisle_at hcredits hc hpost]
  simp only [hlock, AisleRun.upd, lowerBodies_credits, hcredits, changeLast_at hpost hc, backOutAlert, hstate]
  rfl

end At

theorem backOut_kept (env : Env) (d : Dir) (r : AisleRun) : SameDrive r.ac (backOut env d r).ac
    ∧ bodies (backOut env d r).ac d = bodies r.ac d - 1 ∧ bodies (backOut env d r).ac d.other = bodies r.ac d.other := by
  have hform : ∃ cs, (backOut env d r).ac = { lowerBodies d r.ac with credits := cs } := by
    unfold backOut
    split
    · exact ⟨(lowerBodies d r.ac).credits, rfl⟩
    · split_ifs
      · exact ⟨_, rfl⟩
      · exact ⟨_, rfl⟩
  obtain ⟨cs, heq⟩ := hform
  rw [heq]
  exact ⟨(sameDrive_lowerBodies d r.ac).trans (sameDrive_credits _ cs),
    (congrFun (bodies_congr rfl rfl) d).trans (bodies_lower_same d r.ac),
    (congrFun (bodies_congr rfl rfl) d.other).trans (bodies_lower_other d r.ac)⟩

theorem crossOut_departs (env : Env) (h : 0 < bodies r.ac d) :
    crossOut env d r = { r with ac := settle env (aisleIdle r.ac) (depart env d r.ac) } := if_pos h

theorem crossOut_backs (env : Env) (h : bodies r.ac d = 0) (hother : 0 < bodies r.ac d.other) :
    crossOut env d r = { (backOut env d.other r) with ac := settle env (aisleIdle r.ac) (backOut env d.other r).ac } := by
  rw [crossOut, if_neg (by omega), if_pos hother]
  rfl

theorem crossOut_ignored (env : Env) (h : bodies r.ac d = 0) (hother : bodies r.ac d.other = 0) : crossOut env d r = r := by
  rw [crossOut, if_neg (by omega), if_neg (by omega)]

/-- A departure or a back-out is answered by the drive (R145). -/
theorem crossOut_answers (env : Env) (h : 0 < bodies r.ac d ∨ 0 < bodies r.ac d.other) :
    driveAnswered env (demandOpen (crossOut env d r).ac) r.ac (crossOut env d r).ac := by
  by_cases hd : 0 < bodies r.ac d
  · rw [crossOut_departs env hd]
    exact (depart_kept env d r.ac).1.settle (settle_demandOpen env _ _).symm _
  · rw [crossOut_backs env (by omega) (h.resolve_left hd)]
    exact (backOut_kept env d.other r).1.settle (settle_demandOpen env _ _).symm _

theorem Dir.other_other (d : Dir) : d.other.other = d := by cases d <;> rfl

/-- The last completion time of a direction, as the statements write it. -/
theorem lastDone_eq (a : Aisle) (d : Dir) : (if d = .ab then a.lastAB else a.lastBA) = lastDone a d := by
  cases d <;> rfl

theorem headway_skips (h : lastDone a d = none ∨ a.histDir = some d.other) :
    headway env d a = setLastDone a d env.now := by
  unfold headway
  split
  · rfl
  · next hsome => rw [if_pos (h.resolve_left (by simp [hsome]))]

theorem headway_captures {t : Nat} (h : lastDone a d = some t) (hne : a.histDir ≠ some d.other) :
    headway env d a = setLastDone { a with
      captures := keepNewest env.cfg.avgDepth (a.captures ++ [capInterval t env.now]), histDir := some d } d env.now := by
  simp only [headway, h, if_neg hne]

theorem headway_cases (env : Env) (d : Dir) (a : Aisle) : ∃ captures histDir,
    headway env d a = setLastDone { a with captures := captures, histDir := histDir } d env.now := by
  by_cases h : lastDone a d = none ∨ a.histDir = some d.other
  · exact ⟨_, _, headway_skips h⟩
  · obtain ⟨hsome, hne⟩ := not_or.1 h
    obtain ⟨t, ht⟩ := Option.ne_none_iff_exists'.1 hsome
    exact ⟨_, _, headway_captures ht hne⟩

theorem lastDone_headway (env : Env) (d : Dir) (a : Aisle) : lastDone (headway env d a) d = some env.now := by
  obtain ⟨captures, histDir, heq⟩ := headway_cases env d a
  rw [heq]
  cases d <;> rfl

theorem lastDone_headway_other (env : Env) (d : Dir) (a : Aisle) :
    lastDone (headway env d a) d.other = lastDone a d.other := by
  obtain ⟨captures, histDir, heq⟩ := headway_cases env d a
  rw [heq]
  cases d <;> rfl

@[simp] theorem setLastDone_captures (a : Aisle) (d : Dir) (t : Nat) : (setLastDone a d t).captures = a.captures := by
  cases d <;> rfl

@[simp] theorem setLastDone_histDir (a : Aisle) (d : Dir) (t : Nat) : (setLastDone a d t).histDir = a.histDir := by
  cases d <;> rfl

/-- Settles O39. -/
theorem crossingOutDepartsOrReturns : Obligations.CrossingOutDepartsOrReturns := by
  refine ⟨fun d c => isInAisleDir_state_iff, fun env d r => ⟨crossOut_answers env, fun h => ?departs, fun h hother => ?backs,
    crossOut_ignored env⟩, ?completes, ?headway⟩
  case departs =>
    obtain ⟨-, hbodies, hbodies'⟩ := depart_kept env d r.ac
    rw [crossOut_departs env h, settle_bodies, settle_bodies, settle_entries]
    refine ⟨hbodies, hbodies', rfl, fun hnone => ?_, fun pre post c hcredits hc hpre => ?_⟩
    · rw [depart_none hnone, entries, lowerBodies_credits]
      rfl
    · rw [depart_at hcredits hc hpre, entries, headway_credits]
  case backs =>
    obtain ⟨-, hbodies, hbodies'⟩ := backOut_kept env d.other r
    rw [Dir.other_other] at hbodies'
    rw [crossOut_backs env h hother, settle_bodies, settle_bodies, settle_entries]
    refine ⟨hbodies'.trans h, hbodies, fun hnone => ?_, fun pre post c n at_ since hcredits hstate hdir hpost =>
      ⟨fun hlock => ?_, fun hlock => ?_⟩⟩
    · rw [backOut_none hnone]
      exact ⟨by simp [entries], rfl⟩
    · rw [backOut_returns hcredits hstate hdir hpost hlock]
      exact ⟨rfl, rfl⟩
    · rw [backOut_removes hcredits hstate hdir hpost hlock]
      exact ⟨rfl, rfl⟩
  case completes =>
    intro env d r pre post c h hcredits hc hpre
    refine ⟨{ lowerBodies d r.ac with credits := pre ++ post }, rfl,
      (congrFun (bodies_congr rfl rfl) d).trans (bodies_lower_same d r.ac),
      (congrFun (bodies_congr rfl rfl) d.other).trans (bodies_lower_other d r.ac), by simp, by simp, by simp, by simp, ?_⟩
    rw [crossOut_departs env h, depart_at hcredits hc hpre]
  case headway =>
    intro env d a last
    have hlast : ∀ b e, last b e = lastDone b e := lastDone_eq
    simp only [hlast]
    refine ⟨lastDone_headway env d a, lastDone_headway_other env d a, by simp, fun h => ?_, fun t h hne => ?_⟩
    · rw [headway_skips h]
      exact ⟨by simp, by simp⟩
    · rw [headway_captures h hne]
      exact ⟨by simp [keepNewest, capInterval]; rfl, by simp⟩

end CrossOut

end Sys2Proof.Machine
end

