-- ==== Sys2Proof/Proofs/Inputs.lean ====
section
/-! PROOFS. The input filter and the changes it gives (R107, R108, R110 to R112). -/

namespace Sys2Proof.Machine

/-! ## The lines of the inputs -/

theorem line_put (x : Inputs) (i : Input) (l : Line) : (x.put i l).line i = l := by cases i <;> rfl

theorem line_put_other (x : Inputs) {i k : Input} (l : Line) (h : k ≠ i) : (x.put i l).line k = x.line k := by
  cases i <;> cases k <;> simp_all [Inputs.put, Inputs.line]

theorem line_each (x : Inputs) (i : Input) (f : Line → Line) : (x.each f).line i = f (x.line i) := by cases i <;> rfl

/-! ## The events of the aisle leave the inputs -/

section Kept
variable (env : Env) {a before : Aisle} {r : AisleRun}

theorem crossIn_inputs (d : Dir) (r : AisleRun) : (crossIn env d r).ac.inputs = r.ac.inputs := by
  rw [crossIn_ac, settle_inputs]
  exact (entered_kept env d r.ac).1.inputs

theorem crossOut_inputs (d : Dir) (r : AisleRun) : (crossOut env d r).ac.inputs = r.ac.inputs := by
  by_cases hd : bodies r.ac d = 0
  · by_cases hother : bodies r.ac d.other = 0
    · rw [crossOut_ignored env hd hother]
    · rw [crossOut_backs env hd (by omega)]
      exact (settle_inputs ..).trans (backOut_kept env d.other r).1.inputs
  · rw [crossOut_departs env (by omega)]
    exact (settle_inputs ..).trans (depart_kept env d r.ac).1.inputs

theorem detectorEvent_inputs (e : Port) (r : AisleRun) : (detectorEvent env e r).ac.inputs = r.ac.inputs := by
  unfold detectorEvent
  dsimp only
  split
  · simp [AisleRun.upd]
  · rw [crossIn_inputs]; simp [AisleRun.upd]
  · rw [crossOut_inputs]; simp [AisleRun.upd]

theorem emergencyEdge_inputs (before : Aisle) (r : AisleRun) : (emergencyEdge env before r).ac.inputs = r.ac.inputs := by
  unfold emergencyEdge emergencyBegin emergencyEnd
  split_ifs <;> simp [AisleRun.settled, AisleRun.upd, withdrawGranted]

theorem lockout_inputs (code : HaltCode) (r : AisleRun) : (lockout env code r).ac.inputs = r.ac.inputs := by
  simp [lockout, withdrawGranted, AisleRun.upd, AisleRun.post]

theorem leafFault_inputs (conflict : Bool) (r : AisleRun) : (leafFault env conflict r).ac.inputs = r.ac.inputs := by
  unfold leafFault
  split
  · rfl
  · split_ifs
    · exact lockout_inputs env _ r
    · simp [AisleRun.upd, AisleRun.post]

theorem stopChange_inputs (which : Target) (level : Bool) (r : AisleRun) :
    (stopChange env which level r).ac.inputs = r.ac.inputs := by
  obtain heq | ⟨-, heq⟩ | ⟨tgt, -, heq⟩ | ⟨tgt, -, heq⟩ := stopChange_cases env which level r <;> rw [heq]
  · exact leafFault_inputs env true r
  · simp [AisleRun.upd]
  · simp [AisleRun.upd]

theorem handFilteredChange_inputs (before : Aisle) (i : Input) (level : Bool) (r : AisleRun) :
    (handFilteredChange env before i level r).ac.inputs = r.ac.inputs := by
  cases i with
  | aOuter | aInner => exact detectorEvent_inputs env .a r
  | bInner | bOuter => exact detectorEvent_inputs env .b r
  | l1 | l2 => simp [handFilteredChange, AisleRun.settled, AisleRun.upd]
  | openStop | closedStop =>
    simp only [handFilteredChange, AisleRun.settled, AisleRun.upd, settle_inputs]
    exact stopChange_inputs env _ level r
  | emerg => exact emergencyEdge_inputs env before r

end Kept

/-! ## A change of a line (R108) -/

section Change
variable {env : Env} {i : Input} {r : AisleRun} {s : State} {level : Bool} {e : Nat}

/-- The aisle whose line has taken its raw level (R108). -/
def taken (i : Input) (a : Aisle) : Aisle :=
  { a with
    inputs := a.inputs.put i { raw := (a.inputs.line i).raw, filtered := (a.inputs.line i).raw, filterEnd := none } }

theorem endFilter_same (h : (r.ac.inputs.line i).raw = (r.ac.inputs.line i).filtered) :
    endFilter env i r = { r with ac := taken i r.ac } := if_pos h

theorem endFilter_change (h : (r.ac.inputs.line i).raw ≠ (r.ac.inputs.line i).filtered) :
    endFilter env i r = handFilteredChange env r.ac i (r.ac.inputs.line i).raw { r with ac := taken i r.ac } := if_neg h

theorem endFilter_inputs (env : Env) (i : Input) (r : AisleRun) :
    (endFilter env i r).ac.inputs = (taken i r.ac).inputs := by
  by_cases h : (r.ac.inputs.line i).raw = (r.ac.inputs.line i).filtered
  · rw [endFilter_same h]
  · rw [endFilter_change h, handFilteredChange_inputs]

theorem exec_filteredChange (h : (s.ac.inputs.line i).filterEnd = some e) :
    exec (.filteredChange i) s = .next (withAisle (fun env r => endFilter env i r) (reach e s)) := by
  change execFilteredChange i s = _
  rw [execFilteredChange, h]

theorem rawChange_same {a : Aisle} (h : (a.inputs.line i).raw = level) : rawChange env i level a = a := if_pos h

/-- The line after a change of its raw level: its interval is cancelled, started or replaced (R108, R110). -/
def relevelled (env : Env) (a : Aisle) (level : Bool) (l : Line) : Line :=
  { raw := level
    filtered := l.filtered
    filterEnd := if a.settleEnd.isSome then l.filterEnd else if level = l.filtered then none
      else some (env.now + env.cfg.filterTime) }

theorem rawChange_other {a : Aisle} (h : (a.inputs.line i).raw ≠ level) : rawChange env i level a
    = { a with inputs := a.inputs.put i (relevelled env a level (a.inputs.line i)) } := if_neg h

/-- Settles O36. -/
theorem inputsAreFiltered : Obligations.InputsAreFiltered := by
  refine ⟨?_, fun i s e h => ?_, fun x i l f =>
    ⟨line_put x i l, fun k hk => line_put_other x l hk, line_each x i f, rfl⟩⟩
  · intro i level s lineAfter
    exact ⟨fun h => congrArg Host.Outcome.next (congrArg (fun a => { s with ac := a }) (rawChange_same (env := s.env) h)),
      fun h => congrArg Host.Outcome.next (congrArg (fun a => { s with ac := a }) (rawChange_other (env := s.env) h))⟩
  · refine ⟨_, exec_filteredChange h, rfl, withAisle_outside _ e s, endFilter_inputs _ i { ac := s.ac, alerts := [] },
      fun hsame => ?_⟩
    rw [withAisle, endFilter_same (r := { ac := (reach e s).ac, alerts := [] }) hsame]
    rfl

end Change

/-! ## Detectors (R111, R112) -/

section Detector
variable {env : Env} {i : Input} {p : Port} {r : AisleRun}

theorem endFilter_beam (hi : (i = .aOuter ∨ i = .aInner) ∧ p = .a ∨ (i = .bInner ∨ i = .bOuter) ∧ p = .b)
    (h : (r.ac.inputs.line i).raw ≠ (r.ac.inputs.line i).filtered) :
    endFilter env i r = detectorEvent env p { r with ac := taken i r.ac } := by
  rw [endFilter_change h]
  rcases hi with ⟨rfl | rfl, rfl⟩ | ⟨rfl | rfl, rfl⟩ <;> rfl

/-- The crossing that an end's detector reports (R111, R112). -/
def reported (env : Env) (p : Port) (crossing : Option Crossing) (r : AisleRun) : AisleRun :=
  match crossing with
  | none => r
  | some .crossIn => crossIn env (entryDir p) r
  | some .crossOut => crossOut env (entryDir p).other r

theorem detectorEvent_eq (env : Env) (p : Port) (r : AisleRun) : detectorEvent env p r
    = reported env p ((detectorOf r.ac p).next (endLevels r.ac p).1 (endLevels r.ac p).2).2
      { r with ac := setDetector r.ac p ((detectorOf r.ac p).next (endLevels r.ac p).1 (endLevels r.ac p).2).1 } := rfl

/-- Settles O37. -/
theorem detectorFollowsItsTable : Obligations.DetectorFollowsItsTable := by
  refine ⟨fun d => by cases d <;> decide, fun d => by cases d <;> decide, fun d => by cases d <;> decide,
    fun d => by cases d <;> decide, ?_⟩
  intro i p s e hi hend hchange env inputs next a entering r
  rw [exec_filteredChange hend, withAisle,
    endFilter_beam (r := { ac := (reach e s).ac, alerts := [] }) hi hchange, detectorEvent_eq]
  cases p with
  | a =>
    have hr : r = reported env .a next.2 { ac := a, alerts := [] } := rfl
    rw [hr]
    rfl
  | b =>
    have hr : r = reported env .b next.2 { ac := a, alerts := [] } := rfl
    rw [hr]
    rfl

end Detector

end Sys2Proof.Machine
end

