-- ==== Sys2Proof/Proofs/Emergency.lean ====
section
/-! PROOFS. The emergency state: how it begins and ends, and what it does to the credits and the leaf drive (R139, R155 to R157). -/

namespace Sys2Proof.Machine

/-! ## The state after an event of the aisle -/

section Events
variable {s : State} {e : Nat} {i : Input} {r : AisleRun}

/-- The time and settings an event reads that is due at a time (log 2). -/
def dueEnv (e : Nat) (s : State) : Env := { now := max s.now e, cfg := s.cfg, tl := s.tl }

/-- The state with an event's aisle and its alerts requested, at the event's time. -/
def State.ran (s : State) (e : Nat) (r : AisleRun) : State :=
  { s with now := max s.now e, ac := r.ac, jn := requestAlerts s.tl r.alerts s.jn }

theorem ran_outside (s : State) (e : Nat) (r : AisleRun) : outsideAisle s (s.ran e r) :=
  ⟨rfl, rfl, rfl, rfl, rfl, rfl, rfl, rfl, rfl, rfl⟩

theorem withAisle_reach {f : Env → AisleRun → AisleRun} (h : f (dueEnv e s) { ac := s.ac, alerts := [] } = r) :
    withAisle f (reach e s) = s.ran e r := h ▸ rfl

theorem exec_filteredChange_ran (hend : (s.ac.inputs.line i).filterEnd = some e)
    (h : endFilter (dueEnv e s) i { ac := s.ac, alerts := [] } = r) :
    exec (.filteredChange i) s = .next (s.ran e r) :=
  (exec_filteredChange hend).trans (congrArg _ (withAisle_reach (f := fun env r => endFilter env i r) h))

end Events

/-! ## Withdrawal and barring of entries (R128, R139) -/

section Withdrawal
variable {env : Env} {cause : Cause} {c : Credit}

theorem grantedAlert_granted {n at_ : Nat} {w : Option Nat} (h : c.state = .granted n at_ w) :
    grantedAlert env cause c = some (unusedAlert env cause c.dir c.serial n at_) := by
  rw [grantedAlert, h]

theorem grantedAlert_other (h : ∀ n at_ w, c.state ≠ .granted n at_ w) : grantedAlert env cause c = none := by
  obtain ⟨_ | ⟨n, at_, w⟩ | _, dir, serial, port⟩ := c
  · rfl
  · exact absurd rfl (h n at_ w)
  · rfl

/-- Barring the RESERVED entries changes no withdrawal's alert (R128). -/
theorem grantedAlert_barCredit (env : Env) (cause : Cause) (c : Credit) :
    grantedAlert env cause (barCredit c) = grantedAlert env cause c := by
  obtain ⟨_ | _ | _, _, _, _⟩ := c <;> rfl

theorem filterMap_grantedAlert_bar (env : Env) (cause : Cause) (cs : List Credit) :
    (cs.map barCredit).filterMap (grantedAlert env cause) = cs.filterMap (grantedAlert env cause) := by
  rw [List.filterMap_map]
  exact congrArg (fun g => cs.filterMap g) (funext (grantedAlert_barCredit env cause))

/-- A RESERVED entry, barred. -/
def barred (c : Credit) : Credit := { c with state := .reserved true }

/-- Of a queue barred and withdrawn the RESERVED entries stay, each barred (R156). -/
theorem filter_withdrawn (cs : List Credit) :
    ((cs.map barCredit).filter (fun c => !c.isGranted)).filter (fun c => !c.isInAisle)
      = (cs.filter (fun c => c.isReserved)).map barred := by
  induction cs with
  | nil => rfl
  | cons c cs ih =>
    obtain ⟨state, dir, serial, port⟩ := c
    cases state <;>
      simpa [barCredit, Credit.isGranted, Credit.isInAisle, Credit.isReserved, barred] using ih

end Withdrawal

/-! ## A queue of RESERVED entries, and an aisle without a history, settled -/

section Settle
variable {env : Env} {was : Bool} {a : Aisle}

theorem withoutWindow_reserved {c : Credit} (h : c.isReserved = true) : withoutWindow c = c := by
  obtain ⟨barred, hstate⟩ := isReserved_iff.1 h
  exact withoutWindow_other fun n at_ w => by rw [hstate]; exact nofun

theorem settle_credits_reserved (h : ∀ c ∈ a.credits, c.isReserved = true) : (settle env was a).credits = a.credits := by
  have hnone : ∀ d, direction a = some d → a.credits.any (isGrantedDir d) = false := fun d _ =>
    List.any_eq_false.2 fun c hc hgranted => by
      obtain ⟨-, n, at_, w, hstate⟩ := isGrantedDir_iff.1 hgranted
      obtain ⟨barred, hres⟩ := isReserved_iff.1 (h c hc)
      rw [hres] at hstate
      cases hstate
  rw [settle_window_none (.inr hnone)]
  exact (List.map_congr_left fun c hc => withoutWindow_reserved (h c hc)).trans (List.map_id _)

theorem settle_history_none (h : a.histDir = none) : (settle env was a).captures = a.captures
    ∧ (settle env was a).lastAB = a.lastAB ∧ (settle env was a).lastBA = a.lastBA := by
  rw [settle_captures, settle_lastAB, settle_lastBA]
  cases hd : direction a with
  | none => rw [historyUpdate_still hd]; exact ⟨rfl, rfl, rfl⟩
  | some d => rw [historyUpdate_joins hd (.inl h)]; exact ⟨rfl, rfl, rfl⟩

end Settle

/-! ## The edges of the state (R156, R157) -/

section Edge
variable {env : Env} {before : Aisle} {r : AisleRun}

/-- The aisle an emergency leaves its RESERVED entries, barred (R156). -/
def evacuated (a : Aisle) : Aisle := { a with credits := (a.credits.filter (fun c => c.isReserved)).map barred }

/-- The aisle an emergency ends with: no bodies, no history (R157). -/
def emptied (a : Aisle) : Aisle := clearHistory { a with bodiesAB := 0, bodiesBA := 0 }

theorem emergencyBegin_eq (env : Env) (before : Aisle) (r : AisleRun) : emergencyBegin env before r
    = { ac := settle env (aisleIdle before) (evacuated r.ac)
        alerts := r.alerts ++ r.ac.credits.filterMap (grantedAlert env .emergency) } := by
  simp only [emergencyBegin, AisleRun.settled, AisleRun.upd, withdrawGranted, filter_withdrawn, filterMap_grantedAlert_bar]
  rfl

theorem emergencyEnd_eq (env : Env) (before : Aisle) (r : AisleRun) :
    emergencyEnd env before r = { r with ac := settle env (aisleIdle before) (emptied r.ac) } := rfl

theorem emergencyEdge_begins (h : emergencyActive before = false) (hnow : emergencyActive r.ac = true) :
    emergencyEdge env before r = emergencyBegin env before r := if_pos (by simp [h, hnow])

theorem emergencyEdge_ends (h : emergencyActive before = true) (hnow : emergencyActive r.ac = false) :
    emergencyEdge env before r = emergencyEnd env before r := by
  rw [emergencyEdge, if_neg (by simp [h]), if_pos (by simp [h, hnow])]

theorem emergencyEdge_stays (h : emergencyActive r.ac = emergencyActive before) : emergencyEdge env before r = r := by
  rw [emergencyEdge, if_neg (by simp [h]), if_neg (by simp [h])]

theorem reserved_evacuated (a : Aisle) : ∀ c ∈ (evacuated a).credits, c.isReserved = true := by
  intro c hc
  obtain ⟨x, -, rfl⟩ := List.mem_map.1 hc
  rfl

/-- The demand in an emergency: OPEN outside LOCKED_OUT (R144). -/
theorem demandOpen_evacuated {a : Aisle} (h : emergencyActive a = true) : demandOpen (evacuated a) = !a.lockedOut := by
  have hany : (evacuated a).credits.any (fun c => !c.isReserved) = false :=
    List.any_eq_false.2 fun c hc => by simp [reserved_evacuated a c hc]
  have hactive : emergencyActive (evacuated a) = true := h
  rw [demandOpen, hany, hactive]
  simp [evacuated]

theorem demandOpen_emptied {a : Aisle} (h : emergencyActive a = false) :
    demandOpen (emptied a) = a.credits.any (fun c => !c.isReserved) := by
  have hactive : emergencyActive (emptied a) = false := h
  rw [demandOpen, hactive]
  rfl

/-- What the beginning of an emergency makes of an aisle (R156). -/
theorem evacuated_settled (env : Env) (was : Bool) {a : Aisle} (h : emergencyActive a = true) :
    (settle env was (evacuated a)).credits
        = (a.credits.filter (fun c => c.isReserved)).map (fun c => { c with state := .reserved true })
      ∧ (settle env was (evacuated a)).bodiesAB = a.bodiesAB ∧ (settle env was (evacuated a)).bodiesBA = a.bodiesBA
      ∧ driveAnswered env (!a.lockedOut) a (settle env was (evacuated a)) :=
  ⟨settle_credits_reserved (reserved_evacuated a), settle_bodiesAB .., settle_bodiesBA ..,
    (sameDrive_credits a _).settle (demandOpen_evacuated h) was⟩

/-- What its end makes of one (R157). -/
theorem emptied_settled (env : Env) (was : Bool) {a : Aisle} (h : emergencyActive a = false) :
    (settle env was (emptied a)).bodiesAB = 0 ∧ (settle env was (emptied a)).bodiesBA = 0
      ∧ (settle env was (emptied a)).captures = [] ∧ (settle env was (emptied a)).lastAB = none
      ∧ (settle env was (emptied a)).lastBA = none ∧ entries (settle env was (emptied a)) = entries a
      ∧ driveAnswered env (a.credits.any (fun c => !c.isReserved)) a (settle env was (emptied a)) := by
  obtain ⟨hcaptures, hab, hba⟩ := settle_history_none (env := env) (was := was) (a := emptied a) rfl
  have hsame : SameDrive a (emptied a) := ⟨rfl, rfl, rfl, fun _ => rfl, rfl, rfl⟩
  exact ⟨settle_bodiesAB .., settle_bodiesBA .., hcaptures, hab, hba, settle_entries env was _,
    hsame.settle (demandOpen_emptied h) was⟩

end Edge

/-! ## The EMERGENCY frame and the EMERG input (R155) -/

section Frame
variable {s : State} {payload : List Byte}

theorem exec_emergency_open (h : lineOpen s) (hlen : payload.length ≤ 96) :
    exec (.emergency 0 payload) s = .next (applyEmergencyPayload payload s) :=
  congrArg _ (broadcast_open (f := { addr := 0, code := 0x22, payload := payload }) (applyEmergencyPayload payload) h
    (.inr rfl) rfl rfl hlen)

/-- Another payload than SET and CLEAR does nothing, one too long for a frame included (R155, R190). -/
theorem exec_emergency_ignored (h : lineOpen s) (h0 : payload ≠ [0x00#8]) (h1 : payload ≠ [0x01#8]) :
    exec (.emergency 0 payload) s = .next s := by
  by_cases hlen : payload.length ≤ 96
  · rw [exec_emergency_open h hlen, applyEmergencyPayload, if_neg h0, if_neg h1]
  · refine congrArg Host.Outcome.next ?_
    have hlong : 96 < payload.length := by omega
    simp [stationFrame, h.1, hlong]

/-- The aisle with its station emergency flag at a value (R155). -/
def flagged (v : Bool) (a : Aisle) : Aisle := { a with stationEmergency := v }

theorem exec_emergency_set (h : lineOpen s) : exec (.emergency 0 [0x01#8]) s
    = .next (withAisle (fun env r => emergencyEdge env r.ac { r with ac := flagged true r.ac }) s) :=
  exec_emergency_open h (show 1 ≤ 96 by decide)

theorem exec_emergency_clear (h : lineOpen s) : exec (.emergency 0 [0x00#8]) s
    = .next (withAisle (fun env r => emergencyEdge env r.ac { r with ac := flagged false r.ac }) s) :=
  exec_emergency_open h (show 1 ≤ 96 by decide)

theorem exec_emergency_ends (h : lineOpen s) (hflag : s.ac.stationEmergency = true) (hin : s.ac.inputs.emerg.filtered = false) :
    exec (.emergency 0 [0x00#8]) s = .next { s with
      ac := settle s.env (aisleIdle s.ac) (emptied (flagged false s.ac)) } := by
  rw [exec_emergency_clear h, withAisle,
    emergencyEdge_ends (by simp [emergencyActive, hflag]) (by simp [emergencyActive, flagged, hin])]
  rfl

theorem endFilter_emerg {env : Env} {a : Aisle} (h : a.inputs.emerg.raw ≠ a.inputs.emerg.filtered) :
    endFilter env .emerg { ac := a, alerts := [] } = emergencyEdge env a { ac := taken .emerg a, alerts := [] } :=
  endFilter_change (i := .emerg) (r := { ac := a, alerts := [] }) h

/-- Settles O40. -/
theorem emergencyFrameActs : Obligations.EmergencyFrameActs := by
  refine ⟨fun s h => ⟨fun hoff => ?set, fun hon => ?setAgain, fun hflag hin => ?clear, fun hkeep => ?clearKept,
    fun payload => exec_emergency_ignored h⟩, ?input, ?history, fun a => emergencyActive_iff, ?alert⟩
  case set =>
    have hnow : emergencyActive (flagged true s.ac) = true := by simp [emergencyActive, flagged]
    obtain ⟨hcredits, hab, hba, hanswer⟩ := evacuated_settled s.env (aisleIdle s.ac) hnow
    refine ⟨_, exec_emergency_set h, rfl, ⟨rfl, rfl, rfl, rfl, rfl, rfl, rfl, rfl, rfl, rfl⟩, ?_⟩
    rw [withAisle, emergencyEdge_begins (r := { ac := flagged true s.ac, alerts := [] }) hoff hnow, emergencyBegin_eq]
    exact ⟨settle_stationEmergency .., settle_inputs .., hcredits, hab, hba, rfl, hanswer⟩
  case setAgain =>
    rw [exec_emergency_set h, withAisle, emergencyEdge_stays (by simp [emergencyActive, flagged] at hon ⊢; exact hon)]
    rfl
  case clear =>
    have hnow : emergencyActive (flagged false s.ac) = false := by simp [emergencyActive, flagged, hin]
    obtain ⟨hab, hba, -, -, -, hentries, hanswer⟩ := emptied_settled s.env (aisleIdle s.ac) hnow
    exact ⟨_, exec_emergency_ends h hflag hin, rfl, ⟨rfl, rfl, rfl, rfl, rfl, rfl, rfl, rfl, rfl, rfl⟩,
      settle_stationEmergency .., hab, hba, rfl, hentries, hanswer⟩
  case clearKept =>
    rw [exec_emergency_clear h, withAisle, emergencyEdge_stays (by
      obtain hflag | hin := hkeep
      · simp [emergencyActive, flagged, hflag]
      · simp [emergencyActive, flagged, hin])]
    rfl
  case input =>
    intro s e hend inputs
    refine ⟨fun hoff hraw => ?_, fun hflag hin hraw => ?_, fun hflag => ?_⟩
    · obtain ⟨hin, hflag⟩ : s.ac.inputs.emerg.filtered = false ∧ s.ac.stationEmergency = false := by
        simpa [emergencyActive] using hoff
      have hnow : emergencyActive (taken .emerg s.ac) = true := by simp [emergencyActive, taken, Inputs.put, Inputs.line, hraw]
      have hchange : s.ac.inputs.emerg.raw ≠ s.ac.inputs.emerg.filtered := by rw [hraw, hin]; decide
      obtain ⟨hcredits, hab, hba, hanswer⟩ := evacuated_settled (dueEnv e s) (aisleIdle s.ac) hnow
      have hrun := (endFilter_emerg (env := dueEnv e s) hchange).trans
        ((emergencyEdge_begins hoff hnow).trans (emergencyBegin_eq _ _ _))
      exact ⟨_, exec_filteredChange_ran (i := .emerg) hend hrun, rfl, ran_outside s e _,
        (settle_stationEmergency ..).trans hflag, settle_inputs .., hcredits, hab, hba, rfl, hanswer⟩
    · have hon : emergencyActive s.ac = true := by simp [emergencyActive, hin]
      have hnow : emergencyActive (taken .emerg s.ac) = false := by
        simp [emergencyActive, taken, Inputs.put, Inputs.line, hraw, hflag]
      have hchange : s.ac.inputs.emerg.raw ≠ s.ac.inputs.emerg.filtered := by rw [hraw, hin]; decide
      obtain ⟨hab, hba, hcaptures, hlastAB, hlastBA, hentries, hanswer⟩ :=
        emptied_settled (dueEnv e s) (aisleIdle s.ac) hnow
      have hrun := (endFilter_emerg (env := dueEnv e s) hchange).trans
        ((emergencyEdge_ends hon hnow).trans (emergencyEnd_eq _ _ _))
      exact ⟨_, exec_filteredChange_ran (i := .emerg) hend hrun, rfl, ran_outside s e _,
        (settle_stationEmergency ..).trans hflag, settle_inputs .., hab, hba, hcaptures, hlastAB, hlastBA, rfl, hentries,
        hanswer⟩
    · have hrun : endFilter (dueEnv e s) .emerg { ac := s.ac, alerts := [] } = { ac := taken .emerg s.ac, alerts := [] } := by
        by_cases hchange : s.ac.inputs.emerg.raw = s.ac.inputs.emerg.filtered
        · exact endFilter_same (r := { ac := s.ac, alerts := [] }) hchange
        · rw [endFilter_emerg hchange, emergencyEdge_stays (by simp [emergencyActive, taken, hflag])]
      exact exec_filteredChange_ran (i := .emerg) hend hrun
  case history =>
    intro s t h hflag hin ht
    have hnow : emergencyActive (flagged false s.ac) = false := by simp [emergencyActive, flagged, hin]
    obtain ⟨-, -, hcaptures, hab, hba, -, -⟩ := emptied_settled s.env (aisleIdle s.ac) hnow
    rw [exec_emergency_ends h hflag hin, Host.Outcome.next.injEq] at ht
    subst ht
    exact ⟨hcaptures, hab, hba⟩
  case alert =>
    intro env c cause why hwhy
    refine ⟨fun n at_ w hstate => ?_, grantedAlert_other⟩
    have hcode : causeCode why = cause + 1 := by
      rcases cause with _ | _ | _ | cause <;> cases hwhy <;> rfl
    have hside : startSide c.dir = if c.dir = .ab then Side.a else .b := by cases c.dir <;> rfl
    rw [grantedAlert_granted hstate, unusedAlert, hcode, hside]
    rfl

end Frame

end Sys2Proof.Machine
end

