-- ==== Sys2Proof/Proofs/DriveTimers.lean ====
section
/-! PROOFS. The blank window, the zone-clear timer, the zone beams and the end stops at the leaf drive (R142 to R149). -/

namespace Sys2Proof.Machine

/-! ## A drive that has nothing to answer -/

section Rest
variable {env : Env} {was : Bool} {a b : Aisle}

theorem driveAct_rests (h : DemandMet a) : driveAct env a = a := by
  obtain ⟨hclosed, hopened⟩ := h
  unfold driveAct
  cases hleaf : a.leaf with
  | closed => simp [hclosed (.inl hleaf)]
  | closing => simp [hclosed (.inr hleaf)]
  | opened =>
    rcases hopened hleaf with h | h | h
    · simp [h]
    · simp [h]
    · simp [h]
  | opening | released => rfl

/-- Settling leaves a drive that meets the demand as it is (R145). -/
theorem settle_rests (env : Env) (was : Bool) (h : DemandMet a) : (settle env was a).leaf = a.leaf
    ∧ (settle env was a).motion = a.motion ∧ (settle env was a).reversals = a.reversals := by
  have hmet : DemandMet (historyUpdate a) :=
    h.of_fields (by simp) (demandOpen_historyUpdate a) (by simp [zoneClear]) (by simp)
  simp [settle_eq, driveAct_rests hmet]

theorem demandMet_of_driveOk (h : DriveOk a) : DemandMet a := ((driveOk_iff a).1 h).2

theorem demandMet_opening (h : a.leaf = .opening) : DemandMet a := by simp [DemandMet, h]

theorem demandMet_released (h : a.leaf = .released) : DemandMet a := by simp [DemandMet, h]

theorem demandMet_opened (h : a.leaf = .opened) (hbusy : demandOpen a = true ∨ zoneClear a = false ∨ a.obstructHold = true) :
    DemandMet a := ⟨by simp [h], fun _ => hbusy⟩

theorem demandMet_closed (h : a.leaf = .closed ∨ a.leaf = .closing) (hd : demandOpen a = false) : DemandMet a :=
  ⟨fun _ => hd, fun ho => by simp [ho] at h⟩

/-- An aisle in which the demand, as the drive reads it, is the same. -/
theorem demandOpen_of_fields (hcredits : b.credits = a.credits) (hinputs : b.inputs.emerg = a.inputs.emerg)
    (hstation : b.stationEmergency = a.stationEmergency) (hlock : b.lockedOut = a.lockedOut) :
    demandOpen b = demandOpen a :=
  demandOpen_congr (by simp [emergencyActive, hinputs, hstation]) hlock (by rw [hcredits])

/-- An OPEN drive without demand, its zone clear and no hold set, closes (R145). -/
theorem settle_closes (env : Env) (was : Bool) (hleaf : a.leaf = .opened) (hd : demandOpen a = false)
    (hzone : zoneClear a = true) (hhold : a.obstructHold = false) :
    (stopsAt a .toClosed = true → (settle env was a).leaf = .closed ∧ (settle env was a).motion = none)
      ∧ (stopsAt a .toClosed = false → (settle env was a).leaf = .closing
        ∧ (settle env was a).motion = some (newMotion env .toClosed true a)) := by
  obtain ⟨-, hclose, -⟩ := settle_answers env was a
  obtain ⟨hl1, hl2⟩ := zoneClear_iff.1 hzone
  obtain ⟨hat, haway⟩ := hclose hd hleaf ⟨hl1, hl2, hhold⟩
  exact ⟨fun h => hat (stopsAt_closed_iff.1 h),
    fun h => haway fun hs => Bool.eq_false_iff.1 h (stopsAt_closed_iff.2 hs)⟩

theorem newMotion_closed_congr (full : Bool) (h : b.closeHist = a.closeHist) :
    newMotion env .toClosed full b = newMotion env .toClosed full a := by
  simp [newMotion, travelHist, blankWindowOf, h]

theorem driveAct_reversals_zero (h : a.reversals = 0) : (driveAct env a).reversals = 0 := by
  have hstart : ∀ tgt full, (startMotion env tgt full a).reversals = 0 := fun tgt full =>
    Nat.le_zero.1 (h ▸ startMotion_reversals_le env tgt full a)
  unfold driveAct
  split <;> grind

theorem settle_reversals_zero (env : Env) (was : Bool) (h : a.reversals = 0) : (settle env was a).reversals = 0 := by
  have hact := driveAct_reversals_zero (env := env) (a := historyUpdate a) (by simpa using h)
  simpa [settle_eq] using hact

end Rest

/-! ## A reversed close (R148, R149) -/

section Obstruct
variable {env : Env} {was : Bool} {a b : Aisle}

/-- The drive has been reversed to open: under way, or at its stop at once (R146, R148). -/
def Reversed (env : Env) (a t : Aisle) : Prop :=
  (stopsAt a .toOpen = true → t.leaf = .opened ∧ t.motion = none)
    ∧ (stopsAt a .toOpen = false → t.leaf = .opening ∧ t.motion = some (newMotion env .toOpen false a))

theorem setHold_obstructHold (env : Env) (a : Aisle) : (setHold env a).obstructHold = true := by
  unfold setHold
  by_cases h : a.obstructHold = true
  · rw [if_pos h, h]
  · rw [if_neg h]

theorem obstruct_cases (env : Env) (a : Aisle) :
    obstruct env a = startMotion env .toOpen false { a with reversals := min 3 (a.reversals + 1) }
      ∨ obstruct env a = setHold env (startMotion env .toOpen false { a with reversals := min 3 (a.reversals + 1) }) := by
  unfold obstruct
  dsimp only
  split_ifs
  · exact .inr rfl
  · exact .inl rfl

theorem obstruct_reversed (env : Env) (a : Aisle) : Reversed env a (obstruct env a) := by
  have hstart : Reversed env a (startMotion env .toOpen false { a with reversals := min 3 (a.reversals + 1) }) :=
    ⟨fun h => startMotion_at_stop false h, fun h => startMotion_away false h⟩
  obtain heq | heq := obstruct_cases env a <;> rw [heq]
  · exact hstart
  · simpa [Reversed] using hstart

theorem startMotion_open_reversals (env : Env) (full : Bool) (a : Aisle) :
    (startMotion env .toOpen full a).reversals = a.reversals := by
  unfold startMotion
  dsimp only
  split_ifs <;> rfl

theorem obstruct_reversals (env : Env) (a : Aisle) : (obstruct env a).reversals = min 3 (a.reversals + 1) := by
  obtain heq | heq := obstruct_cases env a <;> rw [heq]
  · exact startMotion_open_reversals env false _
  · exact (setHold_reversals ..).trans (startMotion_open_reversals env false _)

theorem obstruct_hold (env : Env) (h : 2 ≤ a.reversals) : (obstruct env a).obstructHold = true := by
  have hthree : 3 ≤ a.reversals + 1 := by omega
  simp only [obstruct, if_pos hthree, setHold_obstructHold]

theorem obstruct_met (hzone : zoneClear a = false) : DemandMet (obstruct env a) := by
  obtain ⟨hat, haway⟩ := obstruct_reversed env a
  cases hstop : stopsAt a .toOpen with
  | true => exact demandMet_opened (hat hstop).1 (.inr (.inl (by simpa [zoneClear] using hzone)))
  | false => exact demandMet_opening (haway hstop).1

/-- A close reversed by an occupied zone stays reversed when the aisle is settled (R145, R148, R149). -/
theorem obstruct_settled (env : Env) (was : Bool) (hzone : zoneClear a = false) :
    Reversed env a (settle env was (obstruct env a)) ∧ (settle env was (obstruct env a)).reversals = min 3 (a.reversals + 1)
      ∧ (2 ≤ a.reversals → (settle env was (obstruct env a)).obstructHold = true) := by
  obtain ⟨hleaf, hmotion, hreversals⟩ := settle_rests env was (obstruct_met (env := env) hzone)
  refine ⟨?_, hreversals.trans (obstruct_reversals env a), fun h => (settle_obstructHold ..).trans (obstruct_hold env h)⟩
  rw [Reversed, hleaf, hmotion]
  exact obstruct_reversed env a

end Obstruct

/-! ## The zone at the drive (R148, R149) -/

section Zone
variable {env : Env} {a : Aisle} {s : State} {e : Nat} {i : Input}

theorem zoneTimed_fields (env : Env) (occupied : Bool) (a : Aisle) :
    ∃ timer, zoneTimed env occupied a = { a with zoneClearEnd := timer } := by
  unfold zoneTimed
  by_cases h : a.obstructHold = true
  · exact ⟨_, if_pos h⟩
  · exact ⟨a.zoneClearEnd, if_neg h⟩

theorem zoneTimed_timer (env : Env) (occupied : Bool) (a : Aisle) : (zoneTimed env occupied a).zoneClearEnd
    = if a.obstructHold then (if occupied then none else if zoneClear a then some (env.now + 1000) else a.zoneClearEnd)
      else a.zoneClearEnd := by
  unfold zoneTimed
  split_ifs <;> rfl

theorem zoneWatched_iff : zoneWatched env a = true
    ↔ a.leaf = .closing ∧ ∃ m b, a.motion = some m ∧ m.blankEnd = some b ∧ b ≤ env.now := by
  rw [zoneWatched, Bool.and_eq_true, beq_iff_eq]
  refine and_congr_right fun _ => ?_
  cases a.motion with
  | none => simp
  | some m => cases hb : m.blankEnd <;> simp [hb]

theorem zoneWatched_timed (env : Env) (occupied : Bool) (a : Aisle) :
    zoneWatched env (zoneTimed env occupied a) = zoneWatched env a := by
  obtain ⟨timer, heq⟩ := zoneTimed_fields env occupied a
  rw [heq]
  rfl

theorem zoneChange_obstructs (h : zoneWatched env a = true) : zoneChange env true a = obstruct env (zoneTimed env true a) := by
  rw [zoneChange_eq, if_pos (by rw [zoneWatched_timed, h]; rfl)]

theorem zoneChange_times {occupied : Bool} (h : occupied = false ∨ zoneWatched env a = false) :
    zoneChange env occupied a = zoneTimed env occupied a := by
  rw [zoneChange_eq, zoneWatched_timed]
  exact if_neg (by obtain h | h := h <;> simp [h])

/-- A change of the zone that reverses nothing leaves a drive that meets the demand as it is (R145, R149). -/
theorem zoneTimed_settled (env : Env) (was occupied : Bool) (h : DemandMet a) :
    (settle env was (zoneTimed env occupied a)).leaf = a.leaf ∧ (settle env was (zoneTimed env occupied a)).motion = a.motion
      ∧ (settle env was (zoneTimed env occupied a)).reversals = a.reversals
      ∧ (settle env was (zoneTimed env occupied a)).obstructHold = a.obstructHold := by
  obtain ⟨timer, heq⟩ := zoneTimed_fields env occupied a
  rw [heq]
  obtain ⟨hleaf, hmotion, hreversals⟩ := settle_rests env was (a := { a with zoneClearEnd := timer }) h
  exact ⟨hleaf, hmotion, hreversals, settle_obstructHold ..⟩

theorem endFilter_zone (hi : i = .l1 ∨ i = .l2) (h : (a.inputs.line i).raw ≠ (a.inputs.line i).filtered) :
    endFilter env i { ac := a, alerts := [] }
      = { ac := settle env (aisleIdle a) (zoneChange env (a.inputs.line i).raw (taken i a)), alerts := [] } := by
  rw [endFilter_change (r := { ac := a, alerts := [] }) h]
  obtain rfl | rfl := hi <;> rfl

theorem zoneClear_taken (hi : i = .l1 ∨ i = .l2) : zoneClear (taken i a)
    = (!(a.inputs.line i).raw && !(if i = .l1 then a.inputs.l2.filtered else a.inputs.l1.filtered)) := by
  obtain rfl | rfl := hi
  · rfl
  · exact Bool.and_comm _ _

theorem demandOpen_taken (hi : i ≠ .emerg) : demandOpen (taken i a) = demandOpen a :=
  demandOpen_of_fields rfl (line_put_other a.inputs _ hi.symm) rfl rfl

end Zone

/-! ## The end stops at the drive (R143, R147) -/

section Stops
variable {env : Env} {which : Target} {level : Bool} {a : Aisle} {i : Input}

/-- The end stop an input is. -/
def stopTarget (i : Input) : Target := if i = .openStop then .toOpen else .toClosed

theorem endFilter_stop (hi : i = .openStop ∨ i = .closedStop) (h : (a.inputs.line i).raw ≠ (a.inputs.line i).filtered) :
    endFilter env i { ac := a, alerts := [] }
      = (stopChange env (stopTarget i) (a.inputs.line i).raw { ac := taken i a, alerts := [] }).settled env a := by
  rw [endFilter_change (r := { ac := a, alerts := [] }) h]
  obtain rfl | rfl := hi <;> rfl

theorem stops_taken (hi : i = .openStop ∨ i = .closedStop) :
    ((taken i a).inputs.openStop.filtered, (taken i a).inputs.closedStop.filtered)
      = if i = .openStop then (a.inputs.openStop.raw, a.inputs.closedStop.filtered)
        else (a.inputs.openStop.filtered, a.inputs.closedStop.raw) := by
  obtain rfl | rfl := hi <;> rfl

/-- Without a conflict a change of an end stop requests no alert and leaves the entries (R143). -/
theorem stopChange_calm (h : ¬ (a.inputs.openStop.filtered = true ∧ a.inputs.closedStop.filtered = true ∧ a.leaf ≠ .released)) :
    ∃ b, stopChange env which level { ac := a, alerts := [] } = { ac := b, alerts := [] } ∧ b.credits = a.credits := by
  have hboth : a.leaf ≠ .released → ¬ (a.inputs.openStop.filtered && a.inputs.closedStop.filtered) = true := fun hl hb => by
    obtain ⟨ho, hc⟩ := Bool.and_eq_true_iff.1 hb
    exact h ⟨ho, hc, hl⟩
  cases hleaf : a.leaf with
  | released => exact ⟨a, by simp only [stopChange, hleaf], rfl⟩
  | opening =>
    simp only [stopChange, hleaf, if_neg (hboth (by simp [hleaf]))]
    split_ifs
    · exact ⟨_, rfl, by simp⟩
    · exact ⟨a, rfl, rfl⟩
  | closing =>
    simp only [stopChange, hleaf, if_neg (hboth (by simp [hleaf]))]
    split_ifs
    · exact ⟨_, rfl, by simp⟩
    · exact ⟨a, rfl, rfl⟩
  | opened =>
    simp only [stopChange, hleaf, if_neg (hboth (by simp [hleaf]))]
    split_ifs
    · exact ⟨_, rfl, by simp⟩
    · exact ⟨a, rfl, rfl⟩
  | closed =>
    simp only [stopChange, hleaf, if_neg (hboth (by simp [hleaf]))]
    split_ifs
    · exact ⟨_, rfl, by simp⟩
    · exact ⟨a, rfl, rfl⟩

theorem stopChange_completes {tgt : Target} (hleaf : a.leaf = movingLeaf tgt) (hstop : stopsAt a tgt = true) :
    stopChange env which level { ac := a, alerts := [] } = { ac := completeMotion env tgt a, alerts := [] } := by
  cases tgt with
  | toOpen =>
    obtain ⟨ho, hc⟩ := stopsAt_open_iff.1 hstop
    simp [stopChange, show a.leaf = .opening from hleaf, hstop, hc, AisleRun.upd]
  | toClosed =>
    obtain ⟨hc, ho⟩ := stopsAt_closed_iff.1 hstop
    simp [stopChange, show a.leaf = .closing from hleaf, hstop, ho, AisleRun.upd]

theorem stopChange_lost {tgt : Target} {level : Bool} (hlevel : level = false) (hleaf : a.leaf = heldLeaf tgt)
    (hone : ¬ (a.inputs.openStop.filtered = true ∧ a.inputs.closedStop.filtered = true)) :
    stopChange env tgt level { ac := a, alerts := [] } = { ac := startMotion env tgt false a, alerts := [] } := by
  subst hlevel
  have hboth : ¬ (a.inputs.openStop.filtered && a.inputs.closedStop.filtered) = true := by simpa using hone
  cases tgt with
  | toOpen => simp only [stopChange, show a.leaf = .opened from hleaf, if_neg hboth]; rfl
  | toClosed => simp only [stopChange, show a.leaf = .closed from hleaf, if_neg hboth]; rfl

theorem stopChange_released (hleaf : a.leaf = .released) :
    stopChange env which level { ac := a, alerts := [] } = { ac := a, alerts := [] } := by
  simp only [stopChange, hleaf]

/-- A history with the time of a full motion captured among the newest 4 (R147). -/
def captured (env : Env) (m : Motion) (hist : List Nat) : List Nat :=
  if m.full then (hist ++ [min (env.now - m.start) 65535]).drop (hist.length + 1 - 4) else hist

theorem completeMotion_open {m : Motion} (h : a.motion = some m) :
    (completeMotion env .toOpen a).leaf = .opened ∧ (completeMotion env .toOpen a).motion = none
      ∧ (completeMotion env .toOpen a).openHist = captured env m a.openHist
      ∧ (completeMotion env .toOpen a).closeHist = a.closeHist := by
  refine ⟨rfl, rfl, ?_, ?_⟩
  · cases hf : m.full <;> simp [completeMotion, captureTravel, h, hf, arrive, captured, keepNewest, capInterval, Config.capture16]
  · cases hf : m.full <;> simp [completeMotion, captureTravel, h, hf, arrive]

theorem completeMotion_closed {m : Motion} (h : a.motion = some m) :
    (completeMotion env .toClosed a).leaf = .closed ∧ (completeMotion env .toClosed a).motion = none
      ∧ (completeMotion env .toClosed a).closeHist = captured env m a.closeHist
      ∧ (completeMotion env .toClosed a).openHist = a.openHist ∧ (completeMotion env .toClosed a).reversals = 0 := by
  refine ⟨rfl, rfl, ?_, ?_, rfl⟩
  · cases hf : m.full <;> simp [completeMotion, captureTravel, h, hf, arrive, captured, keepNewest, capInterval, Config.capture16]
  · cases hf : m.full <;> simp [completeMotion, captureTravel, h, hf, arrive]

theorem demandOpen_completeMotion (tgt : Target) : demandOpen (completeMotion env tgt a) = demandOpen a :=
  demandOpen_of_fields (by simp) (by simp) (by simp) (by simp)

/-- A close or an open that completes is captured, and the demand acts on it (R143, R145, R147). -/
theorem completed_open_settled (was : Bool) {m : Motion} (h : a.motion = some m) (hstop : stopsAt a .toOpen = true) :
    (settle env was (completeMotion env .toOpen a)).openHist = captured env m a.openHist
      ∧ (settle env was (completeMotion env .toOpen a)).closeHist = a.closeHist
      ∧ (demandOpen a = true ∨ zoneClear a = false ∨ a.obstructHold = true →
          (settle env was (completeMotion env .toOpen a)).leaf = .opened
            ∧ (settle env was (completeMotion env .toOpen a)).motion = none)
      ∧ (demandOpen a = false → zoneClear a = true → a.obstructHold = false →
          (settle env was (completeMotion env .toOpen a)).leaf = .closing
            ∧ (settle env was (completeMotion env .toOpen a)).motion = some (newMotion env .toClosed true a)) := by
  obtain ⟨hleaf, hmotion, hopen, hclose⟩ := completeMotion_open (env := env) h
  have hd := demandOpen_completeMotion (env := env) (a := a) .toOpen
  have hzone : zoneClear (completeMotion env .toOpen a) = zoneClear a := by simp [zoneClear]
  have hhold : (completeMotion env .toOpen a).obstructHold = a.obstructHold := by simp
  refine ⟨(settle_openHist ..).trans hopen, (settle_closeHist ..).trans hclose, fun hbusy => ?_, fun hd' hz hh => ?_⟩
  · rw [← hd, ← hzone, ← hhold] at hbusy
    obtain ⟨hleaf', hmotion', -⟩ := settle_rests env was (demandMet_opened hleaf hbusy)
    exact ⟨hleaf'.trans hleaf, hmotion'.trans hmotion⟩
  · have haway : stopsAt (completeMotion env .toOpen a) .toClosed = false := by
      simp [stopsAt, (stopsAt_open_iff.1 hstop).2]
    obtain ⟨hleaf', hmotion'⟩ :=
      (settle_closes env was hleaf (hd.trans hd') (hzone.trans hz) (hhold.trans hh)).2 haway
    exact ⟨hleaf', hmotion'.trans (congrArg some (newMotion_closed_congr true hclose))⟩

theorem completed_closed_settled (was : Bool) {m : Motion} (h : a.motion = some m) (hd : demandOpen a = false) :
    (settle env was (completeMotion env .toClosed a)).closeHist = captured env m a.closeHist
      ∧ (settle env was (completeMotion env .toClosed a)).openHist = a.openHist
      ∧ (settle env was (completeMotion env .toClosed a)).leaf = .closed
      ∧ (settle env was (completeMotion env .toClosed a)).motion = none
      ∧ (settle env was (completeMotion env .toClosed a)).reversals = 0 := by
  obtain ⟨hleaf, hmotion, hclose, hopen, hreversals⟩ := completeMotion_closed (env := env) h
  have hmet := demandMet_closed (.inl hleaf) ((demandOpen_completeMotion (env := env) .toClosed).trans hd)
  obtain ⟨hleaf', hmotion', hreversals'⟩ := settle_rests env was hmet
  exact ⟨(settle_closeHist ..).trans hclose, (settle_openHist ..).trans hopen, hleaf'.trans hleaf, hmotion'.trans hmotion,
    hreversals'.trans hreversals⟩

/-- A motion that starts away from its stop goes on, one to closed where nothing demands OPEN (R145, R146). -/
theorem startMotion_settled (was full : Bool) {tgt : Target} (hstop : stopsAt a tgt = false)
    (hd : tgt = .toClosed → demandOpen a = false) : (settle env was (startMotion env tgt full a)).leaf = movingLeaf tgt
      ∧ (settle env was (startMotion env tgt full a)).motion = some (newMotion env tgt full a) := by
  obtain ⟨hleaf, hmotion⟩ := startMotion_away (env := env) full hstop
  have hmet : DemandMet (startMotion env tgt full a) := by
    cases tgt with
    | toOpen => exact demandMet_opening hleaf
    | toClosed => exact demandMet_closed (.inr hleaf) ((demandOpen_startMotion _ _).trans (hd rfl))
  obtain ⟨hleaf', hmotion', -⟩ := settle_rests env was hmet
  exact ⟨hleaf'.trans hleaf, hmotion'.trans hmotion⟩

end Stops

/-- A drive that met the demand meets it after a change of an input, where the zone still holds it OPEN (R145). -/
theorem taken_met {a : Aisle} {i : Input} (hi : i ≠ .emerg) (hok : DriveOk a)
    (hzone : a.leaf = .opened → demandOpen a = true ∨ zoneClear (taken i a) = false ∨ a.obstructHold = true) :
    DemandMet (taken i a) := by
  have hdemand : demandOpen (taken i a) = demandOpen a := demandOpen_taken hi
  refine ⟨fun hclosed => hdemand.trans ((demandMet_of_driveOk hok).1 hclosed), fun hopened => ?_⟩
  rw [hdemand]
  exact hzone hopened

/-! ## The events -/

section Exec
variable {s : State} {e : Nat} {m : Motion}

theorem exec_blankWindowEnd (hm : s.ac.motion = some m) (he : m.blankEnd = some e) (ht : m.blankTaken = false) :
    exec .blankWindowEnd s = .next { s with now := max s.now e, ac := endBlank (dueEnv e s) m s.ac } := by
  have hdue : blankDue s.ac = some (m, e) := by simp [blankDue, hm, he, ht]
  change execBlankWindowEnd s = _
  rw [execBlankWindowEnd, hdue]
  rfl

theorem exec_zoneClearTimerExpiry (h : s.ac.zoneClearEnd = some e) :
    exec .zoneClearTimerExpiry s = .next { s with now := max s.now e, ac := endZoneClear (dueEnv e s) s.ac } := by
  change execZoneClearTimerExpiry s = _
  rw [execZoneClearTimerExpiry, h]
  rfl

theorem outsideAisle_ac (s : State) (now : Nat) (a : Aisle) : outsideAisle s { s with now := now, ac := a } :=
  ⟨rfl, rfl, rfl, rfl, rfl, rfl, rfl, rfl, rfl, rfl⟩

/-- The end of the blank window under a clear zone: the close goes on (R148). -/
theorem endBlank_clear {env : Env} {a : Aisle} (hzone : zoneClear a = true) (hok : DriveOk a) :
    (endBlank env m a).leaf = a.leaf ∧ (endBlank env m a).motion = some { m with blankTaken := true }
      ∧ (endBlank env m a).reversals = a.reversals := by
  have hgo : ¬ (a.leaf = .closing && !zoneClear a) = true := by simp [hzone]
  have hmet : DemandMet a := demandMet_of_driveOk hok
  simp only [endBlank, if_neg hgo]
  exact settle_rests env _ (a := { a with motion := some { m with blankTaken := true } }) hmet

/-- Its end under an occupied one: the close is reversed (R148). -/
theorem endBlank_occupied {env : Env} {a : Aisle} (hleaf : a.leaf = .closing) (hzone : zoneClear a = false) :
    Reversed env a (endBlank env m a) ∧ (endBlank env m a).reversals = min 3 (a.reversals + 1)
      ∧ (2 ≤ a.reversals → (endBlank env m a).obstructHold = true) := by
  have hgo : (a.leaf = .closing && !zoneClear a) = true := by simp [hzone, hleaf]
  simp only [endBlank, if_pos hgo]
  exact obstruct_settled env _ (a := { a with motion := some { m with blankTaken := true } }) hzone

end Exec

/-- Settles O43. -/
theorem driveTimersAct : Obligations.DriveTimersAct := by
  unfold Obligations.DriveTimersAct
  intro reversed
  refine ⟨⟨fun s m e hm he ht hleaf hok => ⟨fun hzone => ?goes, fun hzone => ?back⟩, fun s e he => ?clear⟩, ?zone, ?stop,
    fun a => ⟨zoneClear_iff, stopsAt_open_iff, stopsAt_closed_iff⟩⟩
  case goes =>
    obtain ⟨hl, hmotion, hreversals⟩ := endBlank_clear (env := dueEnv e s) (m := m) hzone hok
    exact ⟨_, exec_blankWindowEnd hm he ht, rfl, rfl, outsideAisle_ac s _ _, hl.trans hleaf, hmotion, hreversals⟩
  case back =>
    obtain ⟨hback, hreversals, hhold⟩ := endBlank_occupied (env := dueEnv e s) (m := m) hleaf hzone
    exact ⟨_, exec_blankWindowEnd hm he ht, rfl, rfl, outsideAisle_ac s _ _, hback, hreversals, hhold⟩
  case clear =>
    have hsame : SameDrive { s.ac with obstructHold := false }
        { s.ac with obstructHold := false, reversals := 0, zoneClearEnd := none } := ⟨rfl, rfl, rfl, fun _ => rfl, rfl, rfl⟩
    exact ⟨_, exec_zoneClearTimerExpiry he, rfl, rfl, outsideAisle_ac s _ _, settle_obstructHold ..,
      settle_reversals_zero _ _ rfl, settle_zoneClearEnd .., settle_entries _ _ _,
      hsame.settle (env := dueEnv e s) rfl _⟩
  case zone =>
    intro s i e hi hend hchange hok other watched stays
    have hne : i ≠ .emerg := by rintro rfl; simp at hi
    have hclear : zoneClear (taken i s.ac) = (!(s.ac.inputs.line i).raw && !other) := zoneClear_taken hi
    have hwatched : zoneWatched (dueEnv e s) (taken i s.ac) = true ↔ watched := zoneWatched_iff
    have hstays : ∀ occupied, zoneChange (dueEnv e s) occupied (taken i s.ac) = zoneTimed (dueEnv e s) occupied (taken i s.ac) →
        DemandMet (taken i s.ac) →
        stays (settle (dueEnv e s) (aisleIdle s.ac) (zoneChange (dueEnv e s) occupied (taken i s.ac))) :=
      fun occupied heq hmet => heq ▸ zoneTimed_settled (dueEnv e s) (aisleIdle s.ac) occupied hmet
    refine ⟨_, exec_filteredChange_ran hend (endFilter_zone hi hchange), rfl, rfl, ran_outside s e _, ?_, fun hraw =>
      ⟨fun hw => ?_, fun hw => ?_⟩, fun hraw =>
      ⟨fun hhold => ?_, fun hhold hleaf hdemand hother => ?_, fun hhold hbusy => ?_⟩⟩
    · refine (settle_entries _ _ _).trans ?_
      simp [entries, taken]
    · have hzone : zoneClear (taken i s.ac) = false := by rw [hclear, hraw]; rfl
      simp only [State.ran, hraw, zoneChange_obstructs (hwatched.2 hw)]
      obtain ⟨timer, heq⟩ := zoneTimed_fields (dueEnv e s) true (taken i s.ac)
      rw [heq]
      have hback := obstruct_settled (dueEnv e s) (aisleIdle s.ac) (a := { taken i s.ac with zoneClearEnd := timer }) hzone
      obtain rfl | rfl := hi <;> exact hback
    · have hzone : zoneClear (taken i s.ac) = false := by rw [hclear, hraw]; rfl
      have htimes := zoneChange_times (occupied := true) (.inr (Bool.eq_false_iff.2 fun h => hw (hwatched.1 h)))
      simp only [State.ran, hraw]
      refine ⟨hstays true htimes (taken_met hne hok fun _ => .inr (.inl hzone)), ?_⟩
      rw [htimes, settle_zoneClearEnd, zoneTimed_timer]
      rfl
    · have htimes := zoneChange_times (env := dueEnv e s) (a := taken i s.ac) (occupied := false) (.inl rfl)
      simp only [State.ran, hraw]
      refine ⟨hstays false htimes (taken_met hne hok fun _ => .inr (.inr hhold)), ?_⟩
      rw [htimes, settle_zoneClearEnd, zoneTimed_timer, if_pos (show (taken i s.ac).obstructHold = true from hhold), hclear,
        hraw]
      cases other <;> rfl
    · have htimes := zoneChange_times (env := dueEnv e s) (a := taken i s.ac) (occupied := false) (.inl rfl)
      simp only [State.ran, hraw, htimes]
      obtain ⟨timer, heq⟩ := zoneTimed_fields (dueEnv e s) false (taken i s.ac)
      rw [heq]
      obtain ⟨hat, haway⟩ := settle_closes (dueEnv e s) (aisleIdle s.ac) (a := { taken i s.ac with zoneClearEnd := timer })
        hleaf ((demandOpen_taken hne).trans hdemand) (hclear.trans (by rw [hraw, hother]; rfl)) hhold
      have hstop : stopsAt { taken i s.ac with zoneClearEnd := timer } .toClosed = stopsAt s.ac .toClosed := by
        obtain rfl | rfl := hi <;> rfl
      rw [hstop] at hat haway
      cases hs : stopsAt s.ac .toClosed with
      | true => exact .inr ⟨(hat hs).1, rfl⟩
      | false => exact .inl (haway hs)
    · have htimes := zoneChange_times (env := dueEnv e s) (a := taken i s.ac) (occupied := false) (.inl rfl)
      simp only [State.ran, hraw]
      refine hstays false htimes (taken_met hne hok fun hopened => ?_)
      rcases hbusy with hbusy | hbusy | hbusy
      · exact absurd hopened hbusy
      · exact .inl hbusy
      · exact .inr (.inl (by rw [hclear, hbusy, Bool.not_true, Bool.and_false]))
  case stop =>
    intro s i e hi hend hchange hok env stops newest hcalm
    have hne : i ≠ .emerg := by rintro rfl; simp at hi
    have hmet := demandMet_of_driveOk hok
    have hdemand : demandOpen (taken i s.ac) = demandOpen s.ac := demandOpen_taken hne
    have hstops : ((taken i s.ac).inputs.openStop.filtered, (taken i s.ac).inputs.closedStop.filtered) = stops :=
      stops_taken hi
    obtain ⟨hopen, hclosed⟩ := Prod.ext_iff.1 hstops
    have hone : ¬ ((taken i s.ac).inputs.openStop.filtered = true ∧ (taken i s.ac).inputs.closedStop.filtered = true
        ∧ (taken i s.ac).leaf ≠ .released) := fun ⟨ho, hc, hl⟩ =>
      hcalm ⟨Prod.ext (hopen.symm.trans ho) (hclosed.symm.trans hc), hl⟩
    have hrun : ∀ b, stopChange env (stopTarget i) (s.ac.inputs.line i).raw { ac := taken i s.ac, alerts := [] }
        = { ac := b, alerts := [] } → endFilter (dueEnv e s) i { ac := s.ac, alerts := [] }
          = { ac := settle env (aisleIdle s.ac) b, alerts := [] } := fun b hb =>
      (endFilter_stop hi hchange).trans (congrArg (fun r => r.settled env s.ac) hb)
    obtain ⟨b, hb, hcredits⟩ :=
      stopChange_calm (env := env) (which := stopTarget i) (level := (s.ac.inputs.line i).raw) hone
    have hbecomes : ∀ c, stopChange env (stopTarget i) (s.ac.inputs.line i).raw { ac := taken i s.ac, alerts := [] }
        = { ac := c, alerts := [] } → c = b := fun c hc => congrArg AisleRun.ac (hc.symm.trans hb)
    refine ⟨s.ran e { ac := settle env (aisleIdle s.ac) b, alerts := [] }, exec_filteredChange_ran hend (hrun b hb), rfl, rfl,
      ran_outside s e _, (settle_entries _ _ _).trans ?_, fun m hm hleaf hs => ?opened, fun m hm hleaf hs => ?closed,
      fun hleaf hio hs => ?lostOpen, fun hleaf hic hs => ?lostClosed, fun hleaf => ?released⟩
    · rw [entries, hcredits]
      rfl
    case opened =>
      rw [hs] at hopen hclosed
      have hstop : stopsAt (taken i s.ac) .toOpen = true := stopsAt_open_iff.2 ⟨hopen, hclosed⟩
      have hzone : zoneClear (taken i s.ac) = zoneClear s.ac := by obtain rfl | rfl := hi <;> rfl
      have hdone := completed_open_settled (env := env) (aisleIdle s.ac) (a := taken i s.ac) hm hstop
      rw [hdemand, hzone, hbecomes _ (stopChange_completes (tgt := .toOpen) hleaf hstop)] at hdone
      exact hdone
    case closed =>
      rw [hs] at hopen hclosed
      have hstop : stopsAt (taken i s.ac) .toClosed = true := stopsAt_closed_iff.2 ⟨hclosed, hopen⟩
      have hdone := completed_closed_settled (env := env) (aisleIdle s.ac) (a := taken i s.ac) hm
        (hdemand.trans (hmet.1 (.inr hleaf)))
      rw [hbecomes _ (stopChange_completes (tgt := .toClosed) hleaf hstop)] at hdone
      exact hdone
    case lostOpen =>
      subst hio
      have hraw : s.ac.inputs.openStop.raw = false := hs
      have hnow : (taken .openStop s.ac).inputs.openStop.filtered = false := hraw
      have hstop : stopsAt (taken .openStop s.ac) .toOpen = false := by simp [stopsAt, hnow]
      have hlost := stopChange_lost (env := env) (tgt := .toOpen) (a := taken .openStop s.ac) hraw hleaf
        (fun h => by rw [hnow] at h; cases h.1)
      have hgoes := startMotion_settled (env := env) (aisleIdle s.ac) false (tgt := .toOpen) hstop nofun
      rw [hbecomes _ hlost] at hgoes
      exact hgoes
    case lostClosed =>
      subst hic
      have hraw : s.ac.inputs.closedStop.raw = false := hs
      have hnow : (taken .closedStop s.ac).inputs.closedStop.filtered = false := hraw
      have hstop : stopsAt (taken .closedStop s.ac) .toClosed = false := by simp [stopsAt, hnow]
      have hlost := stopChange_lost (env := env) (tgt := .toClosed) (a := taken .closedStop s.ac) hraw hleaf
        (fun h => by rw [hnow] at h; cases h.2)
      have hgoes := startMotion_settled (env := env) (aisleIdle s.ac) false (tgt := .toClosed) hstop
        (fun _ => hdemand.trans (hmet.1 (.inl hleaf)))
      rw [hbecomes _ hlost] at hgoes
      exact hgoes
    case released =>
      obtain rfl := hbecomes _ (stopChange_released hleaf)
      obtain ⟨hrests, hmotion, -⟩ :=
        settle_rests env (aisleIdle s.ac) (a := taken i s.ac) (demandMet_released hleaf)
      exact ⟨hrests.trans hleaf, hmotion⟩

end Sys2Proof.Machine
end

