-- ==== Sys2Proof/Proofs/Faults.lean ====
section
/-! PROOFS. Leaf faults: the first re-drives, a second locks the aisle out with its halt record (R150 to R152). -/

namespace Sys2Proof.Machine

/-! ## The first fault -/

section First
variable {env : Env} {conflict : Bool} {a : Aisle} {tgt : Target}

theorem leafTarget_movingLeaf (tgt : Target) : leafTarget (movingLeaf tgt) = some tgt := by cases tgt <;> rfl

/-- The aisle after a first fault: the drive starts again to its target (R150). -/
def redriven (env : Env) (tgt : Target) (a : Aisle) : Aisle := startMotion env tgt false { a with faultInProgress := true }

theorem leafFault_first (htgt : leafTarget a.leaf = some tgt) (hfault : a.faultInProgress = false) :
    leafFault env conflict { ac := a, alerts := [] }
      = { ac := redriven env tgt a, alerts := [leafFaultAlert env conflict tgt a] } := by
  have hno : ¬ (AisleRun.mk a []).ac.faultInProgress = true := by simp [hfault]
  simp only [leafFault, htgt]
  exact if_neg hno

/-- A drive with target closed meets the demand only where nothing demands OPEN (R145). -/
theorem not_demandOpen_of_target (hok : DriveOk a) (htgt : leafTarget a.leaf = some .toClosed) : demandOpen a = false := by
  obtain ⟨hclosed, -⟩ := demandMet_of_driveOk hok
  refine hclosed ?_
  cases hleaf : a.leaf <;> simp_all [leafTarget]

/-- The drive after a first fault, away from its target's stop (R146, R150). -/
theorem redriven_settled (env : Env) (was : Bool) (hstop : stopsAt a tgt = false)
    (hd : tgt = .toClosed → demandOpen a = false) :
    (settle env was (redriven env tgt a)).faultInProgress = true
      ∧ (settle env was (redriven env tgt a)).lockedOut = a.lockedOut
      ∧ (settle env was (redriven env tgt a)).leaf = movingLeaf tgt
      ∧ (settle env was (redriven env tgt a)).motion = some (newMotion env tgt false a)
      ∧ entries (settle env was (redriven env tgt a)) = entries a := by
  obtain ⟨hleaf, hmotion⟩ := startMotion_settled (env := env) was false (a := { a with faultInProgress := true }) hstop hd
  refine ⟨by simp [redriven], by simp [redriven], hleaf, hmotion, ?_⟩
  rw [settle_entries, entries, redriven, startMotion_credits]
  rfl

end First

/-! ## Lockout -/

section Lockout
variable {env : Env} {conflict : Bool} {code : HaltCode} {a : Aisle} {tgt : Target}

/-- The aisle in LOCKED_OUT: the halt record taken, the drive released, RESERVED entries barred, GRANTED ones gone (R151). -/
def haltedAisle (env : Env) (code : HaltCode) (a : Aisle) : Aisle :=
  { releaseDrive { a with halt := captureHalt env code a, lockedOut := true } with
    credits := (a.credits.filter (fun c => !c.isGranted)).map barCredit }

theorem filter_map_barCredit (cs : List Credit) : (cs.map barCredit).filter (fun c => !c.isGranted)
    = (cs.filter (fun c => !c.isGranted)).map barCredit := by
  have hcomp : (fun c : Credit => !c.isGranted) ∘ barCredit = fun c => !c.isGranted :=
    funext fun c => by obtain ⟨_ | _ | _, _, _, _⟩ := c <;> rfl
  rw [List.filter_map, hcomp]

theorem leafFault_second (htgt : leafTarget a.leaf = some tgt) (hfault : a.faultInProgress = true) :
    leafFault env conflict { ac := a, alerts := [] }
      = { ac := haltedAisle env (faultHaltCode conflict) a
          alerts := { kind := .lockout, side := .none, detail := haltCodeNum (some (faultHaltCode conflict)) }
            :: a.credits.filterMap (grantedAlert env .lockout) } := by
  have hyes : (AisleRun.mk a []).ac.faultInProgress = true := hfault
  have hcredits := filter_map_barCredit a.credits
  have halerts := filterMap_grantedAlert_bar env .lockout a.credits
  simp only [leafFault, htgt]
  refine (if_pos hyes).trans ?_
  simp only [lockout, withdrawGranted, AisleRun.upd, AisleRun.post, releaseDrive, haltedAisle, hcredits, halerts]
  rfl

theorem granted_barCredit_of_kept {c : Credit} (h : c ∈ (a.credits.filter (fun c => !c.isGranted)).map barCredit) :
    c.isGranted = false := by
  obtain ⟨x, hx, rfl⟩ := List.mem_map.1 h
  have hno := (List.mem_filter.1 hx).2
  obtain ⟨_ | _ | _, _, _, _⟩ := x <;> simp_all [Credit.isGranted, barCredit]

theorem haltedAisle_settled (env : Env) (was : Bool) (code : HaltCode) (a : Aisle) :
    (settle env was (haltedAisle env code a)).lockedOut = true ∧ (settle env was (haltedAisle env code a)).leaf = .released
      ∧ (settle env was (haltedAisle env code a)).motion = none ∧ (settle env was (haltedAisle env code a)).reversals = 0
      ∧ (settle env was (haltedAisle env code a)).obstructHold = false
      ∧ (settle env was (haltedAisle env code a)).zoneClearEnd = none
      ∧ (settle env was (haltedAisle env code a)).faultInProgress = a.faultInProgress
      ∧ (settle env was (haltedAisle env code a)).halt = captureHalt env code a
      ∧ (settle env was (haltedAisle env code a)).credits = (a.credits.filter (fun c => !c.isGranted)).map barCredit
      ∧ (settle env was (haltedAisle env code a)).bodiesAB = a.bodiesAB
      ∧ (settle env was (haltedAisle env code a)).bodiesBA = a.bodiesBA
      ∧ (settle env was (haltedAisle env code a)).inputs = a.inputs := by
  obtain ⟨hleaf, hmotion, hreversals⟩ :=
    settle_rests env was (demandMet_released (a := haltedAisle env code a) rfl)
  refine ⟨settle_lockedOut .., hleaf, hmotion, hreversals, settle_obstructHold .., settle_zoneClearEnd ..,
    settle_faultInProgress .., settle_halt .., ?_, settle_bodiesAB .., settle_bodiesBA .., settle_inputs ..⟩
  have hopened : (settle env was (haltedAisle env code a)).leaf ≠ .opened := by rw [hleaf]; exact nofun
  rw [settle_window_none (.inl hopened)]
  refine (List.map_congr_left fun c hc => withoutWindow_other fun n at_ w hstate => ?_).trans (List.map_id _)
  have hgranted := granted_barCredit_of_kept hc
  rw [Credit.isGranted, hstate] at hgranted
  cases hgranted

theorem secondInMinute_eq (t : TimeLink) : secondInMinute t = t.second % 60 := by
  rw [secondInMinute]
  omega

end Lockout

theorem exec_travelTimeoutExpiry {s : State} {m : Motion} {r : AisleRun} (hm : s.ac.motion = some m)
    (h : leafFault (dueEnv (m.start + m.timeout) s) false { ac := s.ac, alerts := [] } = r) :
    exec .travelTimeoutExpiry s
      = .next (s.ran (m.start + m.timeout) (r.settled (dueEnv (m.start + m.timeout) s) s.ac)) := by
  change execTravelTimeoutExpiry s = _
  rw [execTravelTimeoutExpiry, hm]
  exact congrArg _ (withAisle_reach (f := fun env r => (leafFault env false r).settled env r.ac) (by rw [h]))

/-- A change of an end stop that leaves both active, the drive not released, is a leaf fault (R143, R150). -/
theorem stopChange_conflict {env : Env} {which tgt : Target} {level : Bool} {a : Aisle}
    (ho : a.inputs.openStop.filtered = true) (hc : a.inputs.closedStop.filtered = true) (htgt : leafTarget a.leaf = some tgt) :
    stopChange env which level { ac := a, alerts := [] } = leafFault env true { ac := a, alerts := [] } := by
  cases hleaf : a.leaf <;> simp_all [stopChange, leafTarget]

/-- Both end stops are active once the second one's change is taken. -/
theorem taken_conflict {a : Aisle} {i : Input} (hraw : (a.inputs.line i).raw = true)
    (h : i = .openStop ∧ a.inputs.closedStop.filtered = true ∨ i = .closedStop ∧ a.inputs.openStop.filtered = true) :
    (taken i a).inputs.openStop.filtered = true ∧ (taken i a).inputs.closedStop.filtered = true := by
  obtain ⟨rfl, hother⟩ | ⟨rfl, hother⟩ := h
  · exact ⟨hraw, hother⟩
  · exact ⟨hother, hraw⟩

theorem stopsAt_conflict {a : Aisle} (ho : a.inputs.openStop.filtered = true) (hc : a.inputs.closedStop.filtered = true)
    (tgt : Target) : stopsAt a tgt = false := by
  cases tgt <;> simp [stopsAt, ho, hc]

/-- Settles O42. -/
theorem travelTimeoutFaults : Obligations.TravelTimeoutFaults := by
  unfold Obligations.TravelTimeoutFaults
  intro halted barred
  have hbarred : barCredit = barred := funext fun c => by obtain ⟨_ | _ | _, _, _, _⟩ := c <;> rfl
  refine ⟨fun s m tgt hm hleaf => ?timeout, ?conflict, ?record, by decide⟩
  case timeout =>
    have htgt : leafTarget s.ac.leaf = some tgt := hleaf ▸ leafTarget_movingLeaf tgt
    refine ⟨fun hfault hstop hok => ?_, fun hfault => ?_⟩
    · obtain ⟨hf, hl, hle, hmo, hen⟩ := redriven_settled (dueEnv (m.start + m.timeout) s) (aisleIdle s.ac) hstop
        fun h => not_demandOpen_of_target hok (h ▸ htgt)
      refine ⟨_, exec_travelTimeoutExpiry hm (leafFault_first htgt hfault), rfl, ran_outside s _ _, hf, hl, hle.trans hleaf.symm,
        congrArg (Option.map _) hmo, hen, ?_⟩
      simp only [leafFaultAlert, hm]
      rfl
    · obtain ⟨hl, hle, hmo, hrev, hho, hz, hf, hhalt, hcr, hab, hba, hin⟩ :=
        haltedAisle_settled (dueEnv (m.start + m.timeout) s) (aisleIdle s.ac) .doubleFault s.ac
      refine ⟨_, exec_travelTimeoutExpiry hm (leafFault_second htgt hfault), rfl, ran_outside s _ _, hl, hle, hmo, hrev, hho, hz,
        hf.trans hfault, hhalt.trans ?_, hcr.trans (hbarred ▸ rfl), hab, hba, hin, rfl⟩
      simp only [captureHalt, htgt, secondInMinute_eq]
      rfl
  case conflict =>
    intro s i e tgt hboth hend hraw hfiltered htgt env
    have hi : i = .openStop ∨ i = .closedStop := hboth.imp And.left And.left
    have hne : i ≠ .emerg := by rintro rfl; simp at hi
    have hchange : (s.ac.inputs.line i).raw ≠ (s.ac.inputs.line i).filtered := by rw [hraw, hfiltered]; decide
    obtain ⟨ho, hc⟩ := taken_conflict hraw hboth
    have hrun : ∀ r, leafFault env true { ac := taken i s.ac, alerts := [] } = r →
        exec (.filteredChange i) s = .next (s.ran e (r.settled env s.ac)) := fun r hr =>
      exec_filteredChange_ran hend ((endFilter_stop hi hchange).trans
        (congrArg (fun r => r.settled env s.ac) ((stopChange_conflict ho hc htgt).trans hr)))
    refine ⟨fun hfault hok => ?_, fun hfault => ?_⟩
    · obtain ⟨hf, hl, hle, hmo, hen⟩ := redriven_settled env (aisleIdle s.ac) (a := taken i s.ac)
        (stopsAt_conflict ho hc tgt)
        fun h => (demandOpen_taken hne).trans (not_demandOpen_of_target hok (h ▸ htgt))
      refine ⟨_, hrun _ (leafFault_first htgt hfault), rfl, ran_outside s e _, hf, hl, hle, hmo, hen, ?_⟩
      cases hm : s.ac.motion <;> simp only [leafFaultAlert, taken, hm] <;> rfl
    · obtain ⟨hl, hle, hmo, hrev, hho, hz, hf, hhalt, hcr, hab, hba, hin⟩ :=
        haltedAisle_settled env (aisleIdle s.ac) .stopConflict (taken i s.ac)
      refine ⟨_, hrun _ (leafFault_second htgt hfault), rfl, ran_outside s e _, hl, hle, hmo, hrev, hho, hz,
        hf.trans hfault, hhalt.trans ?_, hcr.trans (hbarred ▸ rfl), hab, hba, hin.trans ?_, rfl⟩
      · have hkept : captureHalt env .stopConflict (taken i s.ac)
            = { captureHalt env .stopConflict s.ac with openStop := true, closedStop := true } := by
          simp only [captureHalt, ho, hc]
          obtain rfl | rfl := hi <;> rfl
        rw [hkept]
        simp only [captureHalt, htgt, secondInMinute_eq]
        rfl
      · rw [← hraw]
        rfl
  case record =>
    intro env tgt full a base hbase
    have hof : travelBaseOf env.cfg = base := funext fun hist => (hbase hist).symm
    cases tgt <;> simp [newMotion, travelTimeoutOf, travelHist, blankWindowOf, hof] <;> omega

end Sys2Proof.Machine
end

