-- ==== Sys2Proof/Proofs/SettleEnd.lean ====
section
/-! PROOFS. The end of the settle interval: the levels, the detectors' events and the first drive state (R110, R143, R159). -/

namespace Sys2Proof.Machine

/-! ## What the crossings and the emergency edges leave of an aisle -/

section Calm
variable {env : Env} {a b c : Aisle} {r : AisleRun} {d : Dir}

/-- What an event that moves credits and bodies leaves: the inputs, the detectors, the lockout, the travel histories, the
station emergency, and a drive that is RELEASED. -/
structure Calm (a b : Aisle) : Prop where
  inputs : b.inputs = a.inputs
  settleEnd : b.settleEnd = a.settleEnd
  lockedOut : b.lockedOut = a.lockedOut
  stationEmergency : b.stationEmergency = a.stationEmergency
  detA : b.detA = a.detA
  detB : b.detB = a.detB
  openHist : b.openHist = a.openHist
  closeHist : b.closeHist = a.closeHist
  released : a.leaf = .released → b.leaf = .released

theorem Calm.refl (a : Aisle) : Calm a a := ⟨rfl, rfl, rfl, rfl, rfl, rfl, rfl, rfl, id⟩

theorem Calm.trans (h : Calm a b) (k : Calm b c) : Calm a c :=
  ⟨k.inputs.trans h.inputs, k.settleEnd.trans h.settleEnd, k.lockedOut.trans h.lockedOut,
    k.stationEmergency.trans h.stationEmergency, k.detA.trans h.detA, k.detB.trans h.detB, k.openHist.trans h.openHist,
    k.closeHist.trans h.closeHist, fun hr => k.released (h.released hr)⟩

theorem calm_settle (env : Env) (was : Bool) (a : Aisle) : Calm a (settle env was a) :=
  ⟨by simp, by simp, by simp, by simp, by simp, by simp, by simp, by simp,
    fun h => (settle_rests env was (demandMet_released h)).1.trans h⟩

theorem Calm.settled (h : Calm a b) (env : Env) (was : Bool) : Calm a (settle env was b) := h.trans (calm_settle env was b)

theorem calm_credits (a : Aisle) (cs : List Credit) : Calm a { a with credits := cs } :=
  ⟨rfl, rfl, rfl, rfl, rfl, rfl, rfl, rfl, id⟩

theorem calm_startAlarm (env : Env) (v : Violation) (a : Aisle) : Calm a (startAlarm env v a) :=
  ⟨rfl, rfl, rfl, rfl, rfl, rfl, rfl, rfl, id⟩

theorem calm_emptied (a : Aisle) : Calm a (emptied a) := ⟨rfl, rfl, rfl, rfl, rfl, rfl, rfl, rfl, id⟩

theorem calm_raiseBodies (d : Dir) (a : Aisle) : Calm a (raiseBodies d a) := by constructor <;> simp

theorem calm_lowerBodies (d : Dir) (a : Aisle) : Calm a (lowerBodies d a) := by constructor <;> simp

theorem calm_entered (env : Env) (d : Dir) (a : Aisle) : Calm a (entered env d a) := by
  refine (calm_raiseBodies d a).trans ?_
  obtain ⟨cs, heq, -⟩ | ⟨v, heq⟩ := entered_cases env d a <;> rw [heq]
  · exact calm_credits _ cs
  · exact calm_startAlarm env v _

theorem calm_headway (env : Env) (d : Dir) (a : Aisle) : Calm a (headway env d a) := by constructor <;> simp

theorem calm_depart (env : Env) (d : Dir) (a : Aisle) : Calm a (depart env d a) := by
  unfold depart
  split_ifs
  · exact ((calm_lowerBodies d a).trans (calm_credits _ _)).trans (calm_headway env d _)
  · exact calm_lowerBodies d a

theorem calm_backOut (env : Env) (d : Dir) (r : AisleRun) : Calm r.ac (backOut env d r).ac := by
  have hlower := calm_lowerBodies d r.ac
  unfold backOut
  split
  · exact hlower
  · split_ifs
    · exact hlower.trans (calm_credits _ _)
    · exact hlower.trans (calm_credits _ _)

theorem calm_crossIn (env : Env) (d : Dir) (r : AisleRun) : Calm r.ac (crossIn env d r).ac := by
  rw [crossIn_ac]
  exact (calm_entered env d r.ac).settled env _

theorem calm_crossOut (env : Env) (d : Dir) (r : AisleRun) : Calm r.ac (crossOut env d r).ac := by
  by_cases hd : bodies r.ac d = 0
  · by_cases hother : bodies r.ac d.other = 0
    · rw [crossOut_ignored env hd hother]
      exact Calm.refl _
    · rw [crossOut_backs env hd (by omega)]
      exact (calm_backOut env d.other r).settled env _
  · rw [crossOut_departs env (by omega)]
    exact (calm_depart env d r.ac).settled env _

theorem calm_reported (env : Env) (p : Port) (x : Option Crossing) (r : AisleRun) : Calm r.ac (reported env p x r).ac := by
  cases x with
  | none => exact Calm.refl _
  | some x =>
    cases x with
    | crossIn => exact calm_crossIn env _ r
    | crossOut => exact calm_crossOut env _ r

theorem calm_emergencyEdge (env : Env) (before : Aisle) (r : AisleRun) : Calm r.ac (emergencyEdge env before r).ac := by
  unfold emergencyEdge
  split_ifs
  · rw [emergencyBegin_eq]
    exact (calm_credits r.ac _).settled env _
  · rw [emergencyEnd_eq]
    exact (calm_emptied r.ac).settled env _
  · exact Calm.refl _

/-- An event at a detector sets that detector and leaves the rest (R111). -/
theorem calm_detectorEvent (env : Env) (p : Port) (r : AisleRun) : Calm
    (setDetector r.ac p ((detectorOf r.ac p).next (endLevels r.ac p).1 (endLevels r.ac p).2).1) (detectorEvent env p r).ac := by
  rw [detectorEvent_eq]
  exact calm_reported env p _ (AisleRun.mk _ _)

end Calm

/-! ## The levels and the detectors at the end of the settle interval (R110, R111) -/

section Levels
variable {env : Env} {a : Aisle}

/-- The aisle with its levels taken and both detectors moved on by them, which keeps what a crossing keeps. -/
def sensed (a : Aisle) : Aisle :=
  { takeLevels a with
    detA := (a.detA.next a.inputs.aOuter.raw a.inputs.aInner.raw).1
    detB := (a.detB.next a.inputs.bOuter.raw a.inputs.bInner.raw).1 }

theorem Calm.setDetA {b : Aisle} (h : Calm a b) (d : Detector) : Calm { a with detA := d } { b with detA := d } :=
  ⟨h.inputs, h.settleEnd, h.lockedOut, h.stationEmergency, rfl, h.detB, h.openHist, h.closeHist, h.released⟩

theorem Calm.setDetB {b : Aisle} (h : Calm a b) (d : Detector) : Calm { a with detB := d } { b with detB := d } :=
  ⟨h.inputs, h.settleEnd, h.lockedOut, h.stationEmergency, h.detA, rfl, h.openHist, h.closeHist, h.released⟩

/-- The aisle between the detectors' events and the drive's first state. -/
def beforeDrive (env : Env) (a : Aisle) : Aisle :=
  (detectorEvent env .b (detectorEvent env .a (emergencyEdge env a { ac := takeLevels a, alerts := [] }))).ac

theorem calm_sensed (env : Env) (a : Aisle) : Calm (sensed a) (beforeDrive env a) := by
  have hedge : Calm (takeLevels a) (emergencyEdge env a { ac := takeLevels a, alerts := [] }).ac :=
    calm_emergencyEdge env a { ac := takeLevels a, alerts := [] }
  have hdetA := calm_detectorEvent env .a (emergencyEdge env a { ac := takeLevels a, alerts := [] })
  have hdetB := calm_detectorEvent env .b (detectorEvent env .a (emergencyEdge env a { ac := takeLevels a, alerts := [] }))
  have hA := (hedge.setDetA _).trans hdetA
  have hB := (hA.setDetB _).trans hdetB
  simp only [detectorOf, endLevels, hedge.inputs, hedge.detA, hA.inputs, hA.detB] at hB
  exact hB

end Levels

/-! ## The drive's first state (R143) -/

section Drive
variable {env : Env} {was : Bool} {a : Aisle}

/-- A drive at its stop, or on its way there by a motion that is not full, in the terms of R143. -/
def Driven (env : Env) (tgt : Target) (full : Bool) (a t : Aisle) : Prop :=
  (stopsAt a tgt = true → t.leaf = heldLeaf tgt ∧ t.motion = none)
    ∧ (stopsAt a tgt = false → t.leaf = movingLeaf tgt ∧ t.motion = some (newMotion env tgt full a))

theorem startMotion_driven (env : Env) (tgt : Target) (full : Bool) (a : Aisle) :
    Driven env tgt full a (startMotion env tgt full a) := by
  refine ⟨fun h => ?_, fun h => startMotion_away full h⟩
  obtain ⟨hleaf, hmotion⟩ := startMotion_at_stop (env := env) full h
  exact ⟨by cases tgt <;> exact hleaf, hmotion⟩

theorem driven_of_opens {full : Bool} {t : Aisle}
    (h : (a.inputs.openStop.filtered = true ∧ a.inputs.closedStop.filtered = false → t.leaf = .opened ∧ t.motion = none)
      ∧ (¬ (a.inputs.openStop.filtered = true ∧ a.inputs.closedStop.filtered = false) →
        t.leaf = .opening ∧ t.motion = some (newMotion env .toOpen full a))) : Driven env .toOpen full a t := by
  obtain ⟨hat, haway⟩ := h
  exact ⟨fun hs => hat (stopsAt_open_iff.1 hs), fun hs => haway fun ho => Bool.eq_false_iff.1 hs (stopsAt_open_iff.2 ho)⟩

theorem driven_congr {tgt : Target} {full : Bool} {b t : Aisle} (h : Driven env tgt full b t)
    (hstops : stopsAt b tgt = stopsAt a tgt) (hmotion : newMotion env tgt full b = newMotion env tgt full a) :
    Driven env tgt full a t := by
  rwa [Driven, hstops, hmotion] at h

theorem driven_rests {tgt : Target} {full : Bool} {b : Aisle} (h : Driven env tgt full a b) (hmet : DemandMet b) :
    Driven env tgt full a (settle env was b) := by
  obtain ⟨hleaf, hmotion, -⟩ := settle_rests env was hmet
  rwa [Driven, hleaf, hmotion]

theorem firstDrive_locked (h : a.lockedOut = true) : firstDrive env a = a := if_pos h

/-- The emergency state opens the leaves (R143, R144). -/
theorem firstDrive_emergency (was : Bool) (hlock : a.lockedOut = false) (hem : emergencyActive a = true) :
    Driven env .toOpen false a (settle env was (firstDrive env a)) := by
  have hstart : firstDrive env a = startMotion env .toOpen false a := by
    rw [firstDrive, if_neg (by simp [hlock]), if_pos hem]
  have hd : demandOpen (startMotion env .toOpen false a) = true := by
    rw [demandOpen_startMotion]
    exact demandOpen_iff.2 (.inl ⟨hem, hlock⟩)
  have hdriven := startMotion_driven env .toOpen false a
  rw [hstart]
  refine driven_rests hdriven ?_
  cases hstop : stopsAt a .toOpen with
  | true => exact demandMet_opened (hdriven.1 hstop).1 (.inl hd)
  | false => exact demandMet_opening (hdriven.2 hstop).1

theorem firstDrive_rehome (hlock : a.lockedOut = false) (hem : emergencyActive a = false) :
    firstDrive env a = startMotion env .toClosed false a := by
  rw [firstDrive, if_neg (by simp [hlock]), if_neg (by simp [hem])]

/-- The re-home that nothing demands OPEN of goes on (R143, R145). -/
theorem rehome_closes (was : Bool) (hd : demandOpen a = false) :
    Driven env .toClosed false a (settle env was (startMotion env .toClosed false a)) := by
  have hdriven := startMotion_driven env .toClosed false a
  refine driven_rests hdriven (demandMet_closed ?_ ((demandOpen_startMotion _ _).trans hd))
  cases hstop : stopsAt a .toClosed with
  | true => exact .inl (hdriven.1 hstop).1
  | false => exact .inr (hdriven.2 hstop).1

/-- The one that a demand meets is CLOSED already and opens, or is reversed (R143, R145; log 36). -/
theorem rehome_opens (was : Bool) (hd : demandOpen a = true) :
    (stopsAt a .toClosed = true → Driven env .toOpen true a (settle env was (startMotion env .toClosed false a)))
      ∧ (stopsAt a .toClosed = false → Driven env .toOpen false a (settle env was (startMotion env .toClosed false a))) := by
  obtain ⟨hat, haway⟩ := startMotion_driven env .toClosed false a
  have hopen : ∀ full, newMotion env .toOpen full (startMotion env .toClosed false a) = newMotion env .toOpen full a :=
    fun full => newMotion_congr .toOpen full (by simp) (by simp)
  have hstops : stopsAt (startMotion env .toClosed false a) .toOpen = stopsAt a .toOpen := by simp [stopsAt]
  obtain ⟨hanswer, -, -⟩ := settle_answers env was (startMotion env .toClosed false a)
  obtain ⟨hclosed, hclosing⟩ := hanswer ((demandOpen_startMotion _ _).trans hd)
  refine ⟨fun hs => ?_, fun hs => ?_⟩
  · exact driven_congr (driven_of_opens (hclosed (hat hs).1)) hstops (hopen _)
  · exact driven_congr (driven_of_opens (hclosing (haway hs).1)) hstops (hopen _)

end Drive

/-! ## The event -/

section Exec
variable {s : State} {e : Nat}

theorem exec_settleEnd (h : s.ac.settleEnd = some e) : ∃ alerts, exec .settleEnd s = .next (s.ran e
    { ac := settle (dueEnv e s) (aisleIdle (beforeDrive (dueEnv e s) s.ac))
        (firstDrive (dueEnv e s) (beforeDrive (dueEnv e s) s.ac))
      alerts := alerts }) := by
  change ∃ alerts, execSettleEnd s = _
  rw [execSettleEnd, h]
  exact ⟨_, congrArg _ (withAisle_reach (settleInputs_eq (dueEnv e s) _ rfl))⟩

theorem settle_firstDrive_fields (env : Env) (was : Bool) (a : Aisle) :
    (settle env was (firstDrive env a)).settleEnd = a.settleEnd ∧ (settle env was (firstDrive env a)).inputs = a.inputs
      ∧ (settle env was (firstDrive env a)).lockedOut = a.lockedOut ∧ (settle env was (firstDrive env a)).detA = a.detA
      ∧ (settle env was (firstDrive env a)).detB = a.detB := by
  have hfirst : (firstDrive env a).settleEnd = a.settleEnd ∧ (firstDrive env a).inputs = a.inputs
      ∧ (firstDrive env a).lockedOut = a.lockedOut ∧ (firstDrive env a).detA = a.detA
      ∧ (firstDrive env a).detB = a.detB := by
    unfold firstDrive
    split_ifs <;> simp
  simpa using hfirst

theorem firstDrive_leaf_ne_released (env : Env) {a : Aisle} (h : a.lockedOut = false) :
    (firstDrive env a).leaf ≠ .released := by
  rw [firstDrive, if_neg (by simp [h])]
  split_ifs
  · exact startMotion_leaf_ne_released env _ _ a
  · exact startMotion_leaf_ne_released env _ _ a

/-- Settles O41. -/
theorem settleEndTakesLevels : Obligations.SettleEndTakesLevels := by
  intro s e he
  obtain ⟨alerts, hexec⟩ := exec_settleEnd he
  refine ⟨_, hexec, rfl, ran_outside s e _, ?_⟩
  have hcalm := calm_sensed (dueEnv e s) s.ac
  generalize hb : beforeDrive (dueEnv e s) s.ac = b at hcalm ⊢
  obtain ⟨hend, hin, hlock, hdetA, hdetB⟩ := settle_firstDrive_fields (dueEnv e s) (aisleIdle b) b
  have hidle : ∀ d : Detector, d = .idle → (d.next true true).1 = .ambig := by rintro _ rfl; rfl
  refine ⟨hend.trans hcalm.settleEnd, hin.trans hcalm.inputs, hlock.trans hcalm.lockedOut, fun hfree => ?_,
    hdetA.trans hcalm.detA, hdetB.trans hcalm.detB, fun hd ho hi => (hdetA.trans hcalm.detA).trans ?_,
    fun hd ho hi => (hdetB.trans hcalm.detB).trans ?_, fun hlocked hrel => ?_, fun hfree => ?_⟩
  · exact settle_leaf_ne_released _ _ (firstDrive_leaf_ne_released _ (hcalm.lockedOut.trans hfree))
  · rw [← hidle _ hd, sensed, ho, hi]
  · rw [← hidle _ hd, sensed, ho, hi]
  · have hleaf : b.leaf = .released := hcalm.released hrel
    simp only [State.ran, firstDrive_locked (hcalm.lockedOut.trans hlocked)]
    exact (settle_rests _ _ (demandMet_released hleaf)).1.trans hleaf
  · intro env atOpen atClosed drive opens
    have hfree' : b.lockedOut = false := hcalm.lockedOut.trans hfree
    have hactive : emergencyActive b = true ↔ s.ac.inputs.emerg.raw = true ∨ s.ac.stationEmergency = true := by
      rw [emergencyActive_iff, hcalm.inputs, hcalm.stationEmergency]
      rfl
    have hopenAt : stopsAt b .toOpen = true ↔ atOpen := by
      rw [stopsAt_open_iff, hcalm.inputs]
      rfl
    have hclosedAt : stopsAt b .toClosed = true ↔ atClosed := by
      rw [stopsAt_closed_iff, hcalm.inputs]
      rfl
    have hmotion : ∀ tgt full, newMotion env tgt full b = newMotion env tgt full s.ac := fun tgt full =>
      newMotion_congr tgt full hcalm.openHist hcalm.closeHist
    have hopens : ∀ full, Driven env .toOpen full b (settle env (aisleIdle b) (firstDrive env b)) →
        (atOpen → drive .opened none) ∧ (¬ atOpen → drive .opening (some (newMotion env .toOpen full s.ac))) :=
      fun full hdriven => ⟨fun h => hdriven.1 (hopenAt.2 h),
        fun h => hmotion .toOpen full ▸ hdriven.2 (Bool.eq_false_iff.2 fun hs => h (hopenAt.1 hs))⟩
    have haway : ¬ atClosed → stopsAt b .toClosed = false := fun h => Bool.eq_false_iff.2 fun hs => h (hclosedAt.1 hs)
    refine ⟨fun hem => hopens false (firstDrive_emergency _ hfree' (hactive.2 hem)), fun hem hst => ?_⟩
    have hcalmly : emergencyActive b = false := Bool.eq_false_iff.2 fun h => by
      have hnow := hactive.1 h
      simp [hem, hst] at hnow
    have hstart : firstDrive env b = startMotion env .toClosed false b := firstDrive_rehome hfree' hcalmly
    have hdemand : demandOpen (settle env (aisleIdle b) (firstDrive env b)) = demandOpen b :=
      (settle_demandOpen ..).trans (hstart ▸ demandOpen_startMotion _ _)
    refine ⟨fun hd => ?_, fun hd => ?_⟩
    · obtain ⟨hat, hgo⟩ := hstart ▸ rehome_closes (env := env) (aisleIdle b) (hdemand.symm.trans hd)
      exact ⟨fun h => hat (hclosedAt.2 h), fun h => hmotion .toClosed false ▸ hgo (haway h)⟩
    · obtain ⟨hat, hgo⟩ := hstart ▸ rehome_opens (env := env) (aisleIdle b) (hdemand.symm.trans hd)
      refine ⟨fun h => (hopens true (hat (hclosedAt.2 h))).2 fun ho => ?_, fun h => hopens false (hgo (haway h))⟩
      exact Bool.false_ne_true (h.2.symm.trans ho.1)

end Exec

end Sys2Proof.Machine
end

