-- ==== Sys2Proof/Proofs/Stages.lean ====
section
/-! PROOFS. The stages of an evaluation one after the other: each decides or hands on to a later one, so ten at most reach the
verdict (R68; log 4). The service gate (R69). -/

namespace Sys2Proof.Machine

section Advance
variable {s t : State} {e e1 : Evaluation} {v : Verdict} {st : Stage}

/-- The stages an evaluation without its verdict still has to make, itself included: one at the reservations without a fare
result goes back to the fare stage. -/
def stagesLeft (e : Evaluation) : Nat :=
  match e.stage with
  | .gate => 10
  | .form => 9
  | .inFlight => 8
  | .torn => 7
  | .keyCheck => 6
  | .deny => 5
  | .clone => 4
  | .exhaustion => 3
  | .fare => 2
  | .reservations => if e.fare.isSome then 1 else 3

theorem stagesLeft_pos (e : Evaluation) : 0 < stagesLeft e := by
  unfold stagesLeft
  split <;> (try split) <;> decide

theorem stagesLeft_le (e : Evaluation) : stagesLeft e ≤ 10 := by
  unfold stagesLeft
  split <;> (try split) <;> decide

/-- The same tap: what no stage behind the gate changes. -/
structure SameTap (e e' : Evaluation) : Prop where
  port : e'.port = e.port
  image : e'.image = e.image
  kind : e.stage ≠ .gate → e'.freeExit = e.freeExit ∧ e'.gateVersion = e.gateVersion

/-- A stage keeps the tap, and without a verdict has come nearer to it. -/
def Advance (e : Evaluation) (t : State) : Prop :=
  ∃ e', t.ve.eval = some e' ∧ SameTap e e' ∧ (e'.verdict = none → stagesLeft e' < stagesLeft e)

theorem decided_advance (h : SameTap e { e1 with verdict := some v }) (t : State) : Advance e (decided v e1 t) :=
  ⟨_, rfl, h, nofun⟩

theorem refused_advance (h : SameTap e e1) (code : VCode) (detail : Nat) (t : State) : Advance e (refused code detail e1 t) :=
  decided_advance ⟨h.port, h.image, h.kind⟩ t

theorem goOn_advance (h : SameTap e e1) (hless : stagesLeft { e1 with stage := st } < stagesLeft e) (t : State) :
    Advance e (goOn st e1 t) :=
  ⟨_, rfl, ⟨h.port, h.image, h.kind⟩, fun _ => hless⟩

theorem reserveBoth_advance (h : SameTap e e1) (dir : Option Dir) (v : Verdict) (t : State) :
    Advance e (reserveBoth dir v e1 t) := by
  obtain ⟨w, -, -, heq⟩ | heq := reserveBoth_eval dir v e1 t
  · exact ⟨_, heq, ⟨h.port, h.image, h.kind⟩, nofun⟩
  · exact ⟨_, heq, ⟨h.port, h.image, h.kind⟩, nofun⟩

theorem sameTap_refl (e : Evaluation) : SameTap e e := ⟨rfl, rfl, fun _ => ⟨rfl, rfl⟩⟩

theorem fareEnd_advance (hst : e.stage = .fare) (b : Bank) (s : State) (o : FareOutcome) :
    Advance e (fareEnd e b s o) := by
  cases o with
  | refused code detail charge balance =>
    simp only [fareEnd]
    split_ifs
    · refine decided_advance (e1 := e) ?_ s
      exact ⟨rfl, rfl, fun _ => ⟨rfl, rfl⟩⟩
    · exact refused_advance (sameTap_refl e) _ _ s
  | done kind charge balance ez xz img =>
    refine goOn_advance ?_ ?_ s
    · exact ⟨rfl, rfl, fun _ => ⟨rfl, rfl⟩⟩
    · simp [stagesLeft, hst]

theorem tornStage_advance (hst : e.stage = .torn) (s : State) : Advance e (tornStage e s) := by
  have hnext : ∀ (held : Option Nat) (t : State), Advance e (goOn .keyCheck { e with held := held } t) := fun held t => by
    refine goOn_advance ?_ ?_ t
    · exact ⟨rfl, rfl, fun _ => ⟨rfl, rfl⟩⟩
    · simp [stagesLeft, hst]
  have hhold : ∀ r : TornRecord, SameTap e { e with held := some r.serial } := fun r => ⟨rfl, rfl, fun _ => ⟨rfl, rfl⟩⟩
  unfold tornStage
  split
  · exact hnext e.held s
  · next r _ =>
    dsimp only
    split
    · exact refused_advance (hhold r) _ _ s
    · split_ifs
      · exact refused_advance (hhold r) _ _ s
      · exact reserveBoth_advance (hhold r) _ _ s
      · exact hnext _ _
      · exact hnext _ _

theorem cloneStage_advance (hst : e.stage = .clone) (s : State) : Advance e (cloneStage e s) := by
  have hnext : ∀ t, Advance e (goOn .exhaustion e t) := goOn_advance (sameTap_refl e) (by simp [stagesLeft, hst])
  unfold cloneStage
  split
  · exact hnext s
  · dsimp only
    split
    · exact hnext _
    · exact refused_advance (sameTap_refl e) _ _ _

theorem fareStage_advance (hst : e.stage = .fare) (s : State) : Advance e (fareStage e s) := by
  unfold fareStage
  split_ifs
  · refine goOn_advance ?_ ?_ s
    · exact ⟨rfl, rfl, fun _ => ⟨rfl, rfl⟩⟩
    · simp [stagesLeft, hst]
  · split
    · exact refused_advance (sameTap_refl e) _ _ s
    · exact fareEnd_advance hst _ s _

theorem reservationsStage_advance (hst : e.stage = .reservations) (s : State) : Advance e (reservationsStage e s) := by
  unfold reservationsStage
  split
  · next hfare => exact goOn_advance (sameTap_refl e) (by simp [stagesLeft, hst, hfare]) s
  · exact reserveBoth_advance (sameTap_refl e) _ _ s

theorem gateStage_advance (hst : e.stage = .gate) (s : State) : Advance e (gateStage e s) := by
  have htap : SameTap e { e with freeExit := isFreeExit e.port s, gateVersion := s.fu.activeVersion } :=
    ⟨rfl, rfl, fun h => absurd hst h⟩
  unfold gateStage
  dsimp only
  split
  · exact refused_advance htap _ _ s
  · exact goOn_advance htap (by simp [stagesLeft, hst]) s

/-- Each stage decides or hands on (R68 to R75). -/
theorem evalStep_advance (he : s.ve.eval = some e) (hv : e.verdict = none) : Advance e (evalStep s) := by
  have hnone : ¬ e.verdict.isSome = true := by simp [hv]
  have hrefused : ∀ code detail, Advance e (refused code detail e s) := fun code detail =>
    refused_advance (sameTap_refl e) code detail s
  simp only [evalStep, he, if_neg hnone]
  cases hst : e.stage with
  | gate => exact gateStage_advance hst s
  | torn => exact tornStage_advance hst s
  | clone => exact cloneStage_advance hst s
  | fare => exact fareStage_advance hst s
  | reservations => exact reservationsStage_advance hst s
  | form =>
    simp only [formStage]
    split
    · exact hrefused _ _
    · exact goOn_advance (sameTap_refl e) (by simp [stagesLeft, hst]) s
  | inFlight =>
    simp only [inFlightStage]
    split_ifs
    · exact hrefused _ _
    · exact goOn_advance (sameTap_refl e) (by simp [stagesLeft, hst]) s
  | keyCheck =>
    simp only [keyCheckStage]
    split
    · exact hrefused _ _
    · split_ifs
      · exact hrefused _ _
      · exact goOn_advance (sameTap_refl e) (by simp [stagesLeft, hst]) s
  | deny =>
    simp only [denyStage]
    split
    · exact hrefused _ _
    · exact goOn_advance (sameTap_refl e) (by simp [stagesLeft, hst]) s
  | exhaustion =>
    simp only [exhaustionStage]
    split_ifs
    · exact hrefused _ _
    · exact goOn_advance (sameTap_refl e) (by simp [stagesLeft, hst]) s

/-- The stages that remain, one after the other until the verdict stands (R68; log 4). -/
theorem evalStep_iterate_decides (he : s.ve.eval = some e) (hv : e.verdict = none) : ∃ n, 1 ≤ n ∧ n ≤ stagesLeft e
    ∧ (∀ k, k < n → ∃ x, (evalStep^[k] s).ve.eval = some x ∧ x.verdict = none ∧ x.port = e.port ∧ x.image = e.image)
    ∧ ∃ e' w, (evalStep^[n] s).ve.eval = some e' ∧ e'.verdict = some w ∧ e'.port = e.port ∧ e'.image = e.image := by
  induction hleft : stagesLeft e using Nat.strong_induction_on generalizing s e with
  | _ left ih =>
    obtain ⟨e1, he1, hsame, hless⟩ := evalStep_advance he hv
    have hpos := stagesLeft_pos e
    cases hv1 : e1.verdict with
    | some w =>
      refine ⟨1, le_refl 1, by omega, fun k hk => ?_, e1, w, he1, hv1, hsame.port, hsame.image⟩
      obtain rfl : k = 0 := by omega
      exact ⟨e, he, hv, rfl, rfl⟩
    | none =>
      obtain ⟨n, -, hn, hbefore, e', w, he', hw, hport, himage⟩ := ih _ (hleft ▸ hless hv1) he1 hv1 rfl
      have hle := hless hv1
      refine ⟨n + 1, by omega, by omega, fun k hk => ?_, e', w, he', hw, hport.trans hsame.port, himage.trans hsame.image⟩
      cases k with
      | zero => exact ⟨e, he, hv, rfl, rfl⟩
      | succ k =>
        obtain ⟨x, hx, hxv, hxp, hxi⟩ := hbefore k (by omega)
        exact ⟨x, hx, hxv, hxp.trans hsame.port, hxi.trans hsame.image⟩

/-- An evaluation that reaches its verdict after n stages, ten at most, has it after all the stages that remain. -/
theorem remainingStages_of_iterate {n : Nat} {e' : Evaluation} {w : Verdict} (hn : n ≤ 10)
    (he : (evalStep^[n] s).ve.eval = some e') (hw : e'.verdict = some w) : remainingStages s = evalStep^[n] s := by
  have hfix : evalStep (evalStep^[n] s) = evalStep^[n] s := evalStep_decided _ e' he (by simp [hw])
  rw [remainingStages, evalRun_eq_iterate, ← Nat.sub_add_cancel hn, Function.iterate_add_apply]
  exact Function.iterate_fixed hfix _

/-- After the stages that remain the evaluation of the same tap has its verdict. -/
theorem remainingStages_decides (he : s.ve.eval = some e) : ∃ e' w, (remainingStages s).ve.eval = some e'
    ∧ e'.verdict = some w ∧ e'.port = e.port ∧ e'.image = e.image := by
  cases hv : e.verdict with
  | some w => exact ⟨e, w, (remainingStages_decided s e he (by simp [hv])).symm ▸ he, hv, rfl, rfl⟩
  | none =>
    obtain ⟨n, -, hn, -, e', w, he', hw, hport, himage⟩ := evalStep_iterate_decides he hv
    rw [remainingStages_of_iterate (hn.trans (stagesLeft_le e)) he' hw]
    exact ⟨e', w, he', hw, hport, himage⟩

end Advance

/-! ## The service gate (R69) -/

section Gate
variable {s : State} {e : Evaluation}

/-- The evaluation behind the gate, its kind and version fixed. -/
def gated (s : State) (e : Evaluation) : Evaluation :=
  { e with freeExit := isFreeExit e.port s, gateVersion := s.fu.activeVersion }

/-- What the gate makes of an evaluation: refused by the first test that holds, or on its way to the format stage. -/
def judged (s : State) (e : Evaluation) : Evaluation :=
  match gateRefusal e.port (isFreeExit e.port s) s with
  | some (code, detail) => { gated s e with verdict := some (refusal (gated s e) code detail) }
  | none => { gated s e with stage := .form }

theorem gateStage_eq (s : State) (e : Evaluation) : gateStage e s = s.setEval (some (judged s e)) := by
  unfold gateStage judged
  cases gateRefusal e.port (isFreeExit e.port s) s <;> rfl

theorem evalStep_gate (he : s.ve.eval = some e) (hv : e.verdict = none) (hst : e.stage = .gate) :
    evalStep s = { s with ve := { s.ve with eval := some (judged s e) } } := by
  have hnone : ¬ e.verdict.isSome = true := by simp [hv]
  simp only [evalStep, he, if_neg hnone, hst]
  exact gateStage_eq s e

theorem judged_refused {code : VCode} {detail : Nat} (h : gateRefusal e.port (isFreeExit e.port s) s = some (code, detail)) :
    (judged s e).verdict = some (refusal (gated s e) code detail) := by
  rw [judged, h]

theorem judged_passed (hv : e.verdict = none) (h : gateRefusal e.port (isFreeExit e.port s) s = none) :
    (judged s e).verdict = none ∧ (judged s e).stage = .form := by
  rw [judged, h]
  exact ⟨hv, rfl⟩

theorem judged_kept (s : State) (e : Evaluation) : (judged s e).port = e.port ∧ (judged s e).image = e.image
    ∧ (judged s e).freeExit = isFreeExit e.port s ∧ (judged s e).gateVersion = s.fu.activeVersion := by
  unfold judged
  split <;> exact ⟨rfl, rfl, rfl, rfl⟩

/-- Settles O30. -/
theorem gateTestsInOrder : Obligations.GateTestsInOrder := by
  refine ⟨fun s e e' he hst he' => ?_, fun s e he hv hst => ?_⟩
  · cases hv : e.verdict with
    | some v =>
      rw [evalStep_decided s e he (by simp [hv]), he] at he'
      cases he'
      exact ⟨rfl, rfl, rfl, rfl⟩
    | none =>
      obtain ⟨x, hx, hsame, -⟩ := evalStep_advance he hv
      rw [hx] at he'
      cases he'
      obtain ⟨hfree, hversion⟩ := hsame.kind hst
      exact ⟨hfree, hversion, hsame.port, hsame.image⟩
  · obtain ⟨hport, himage, hfree, hversion⟩ := judged_kept s e
    refine ⟨judged s e, evalStep_gate he hv hst, hport, himage, hfree, hversion, ?_⟩
    intro refuses
    have hrefuses : ∀ code detail, gateRefusal e.port (isFreeExit e.port s) s = some (code, detail) → refuses code detail :=
      fun code detail h => ⟨_, judged_refused h, rfl, rfl, rfl, rfl, rfl, rfl, rfl⟩
    rw [hfree]
    refine ⟨fun hem hp => hrefuses _ _ (by simp [gateRefusal, hem, hp]), fun hin => ?_⟩
    have hin' : ¬ (emergencyActive s.ac && e.port == .a) = true := by simpa using hin
    rw [gateRefusal, if_neg hin'] at hrefuses
    have hpasses := judged_passed (s := s) hv
    rw [gateRefusal, if_neg hin'] at hpasses
    refine ⟨fun hl => hrefuses _ _ (if_pos hl), fun hl => ⟨fun hk => hrefuses _ _ (by simp [hl, hk]), fun hk =>
      ⟨fun hs hf => hrefuses _ _ (by simp [hl, hk, hs, hf]), fun hs => ?_⟩⟩⟩
    have hopen : ¬ (s.jn.suspect && !isFreeExit e.port s) = true := by
      obtain h | h := hs <;> simp [h]
    refine ⟨fun hb hf => hrefuses _ _ ?_, fun hb => ?_⟩
    · rw [if_neg (by simp [hl]), if_neg (by simp [hk]), if_neg hopen, if_pos (by simp [hb, hf])]
    · have hbank : ¬ (s.fu.activeBank.isNone && !isFreeExit e.port s) = true := by
        obtain h | h := hb
        · simp [Option.isSome_iff_ne_none.1 h]
        · simp [h]
      simp only [hl, hk, if_neg hopen, if_neg hbank] at hrefuses hpasses
      refine ⟨fun hv => hrefuses _ _ (by simp [hv]), fun hv => ⟨fun hstop hp => hrefuses _ _ (by simp [hv, hstop, hp]),
        fun hgo => hpasses ?_⟩⟩
      obtain h | h := hgo <;> simp [hv, h]

end Gate

end Sys2Proof.Machine
end

