-- ==== Sys2Proof/Proofs/ClockAndLink.lean ====
section
/-! PROOFS. The clock's advance, the link's timers and the TIME frame (R105, R176 to R182). -/

namespace Sys2Proof.Machine

/-! ## The expiry of a torn record (R104, R105) -/

section Expiry
variable {s : State} {n : Nat} {r : TornRecord}

theorem window_zero_iff (r : TornRecord) : r.window = some 0 ↔ r.state = .unresolved 0 := by
  unfold TornRecord.window
  cases r.state <;> simp

theorem tornReport_eq (r : TornRecord) (why : TornWhy) (s : State) : tornReport r why s = { s with
    ve := { s.ve with torn := s.ve.torn.filter (fun x => x.serial != r.serial) }
    jn := requestAlert s.tl (tornAlert r why) s.jn } := rfl

theorem expireIfDue_due (h : unresolvedOf s.ve.torn n = some r) (hr : r.state = .unresolved 0) :
    expireIfDue n s = tornReport r .expired s := by
  rw [expireIfDue, h]
  exact if_pos ((window_zero_iff r).2 hr)

theorem expireIfDue_waits (h : ∀ r, unresolvedOf s.ve.torn n = some r → r.state ≠ .unresolved 0) : expireIfDue n s = s := by
  unfold expireIfDue
  split
  · next r hr => exact if_neg fun hw => h r hr ((window_zero_iff r).1 hw)
  · rfl

end Expiry

/-! ## CLOCK_ADVANCE (R176) -/

section Advance
variable {s : State} {ph e : Nat}

theorem exec_clockAdvance (hv : s.tl.valid = true) (hph : s.tl.phase = some ph) :
    exec .clockAdvance s = .next (takeAdvance ph (reach (ph + 1000) s)) := by
  change execClockAdvance s = _
  rw [execClockAdvance, hv, hph]

theorem advanceClock_eq (ph : Nat) (t : TimeLink) : advanceClock ph t = if t.second = 86399
    then { t with second := 0, day := min 65535 (t.day + 1), phase := some (ph + 1000) }
    else { t with second := t.second + 1, phase := some (ph + 1000) } :=
  if_congr (by omega) rfl rfl

theorem rollsOver_iff (t : TimeLink) : rollsOver t = true ↔ t.second = 86399 := by
  rw [rollsOver, beq_iff_eq]
  omega

/-- The state at an advance with the clock and the torn windows moved on, before the activation test. -/
def ticked (ph : Nat) (s : State) : State :=
  { s with tl := advanceClock ph s.tl, ve := { s.ve with torn := s.ve.torn.map tornTick } }

theorem takeAdvance_rolls (h : s.tl.second = 86399) : takeAdvance ph s = dueActivation (ticked ph s) :=
  if_pos ((rollsOver_iff s.tl).2 h)

theorem takeAdvance_stays (h : s.tl.second ≠ 86399) : takeAdvance ph s = ticked ph s :=
  if_neg fun hr => h ((rollsOver_iff s.tl).1 hr)

/-- An advance keeps the ports, the tables and the aisle; its clock and its torn windows are those of the tick. -/
theorem takeAdvance_kept (ph : Nat) (s : State) : (takeAdvance ph s).now = s.now
    ∧ (takeAdvance ph s).tl = advanceClock ph s.tl ∧ (takeAdvance ph s).ve = { s.ve with torn := s.ve.torn.map tornTick }
    ∧ (takeAdvance ph s).portA = s.portA ∧ (takeAdvance ph s).portB = s.portB ∧ (takeAdvance ph s).su = s.su
    ∧ (takeAdvance ph s).ac = s.ac ∧ (takeAdvance ph s).sl = s.sl ∧ (takeAdvance ph s).cfg = s.cfg := by
  by_cases h : s.tl.second = 86399
  · rw [takeAdvance_rolls h]
    simp [ticked]
  · rw [takeAdvance_stays h]
    exact ⟨rfl, rfl, rfl, rfl, rfl, rfl, rfl, rfl, rfl⟩

/-! ## The link's timers (R179, R181) -/

theorem exec_linkWatchExpiry (h : s.tl.watchEnd = some e) (hmode : s.tl.mode = .resync ∨ s.tl.mode = .linked) :
    exec .linkWatchExpiry s = .next (postAlerts [linkAlert s.tl.mode .standalone true]
      { s with now := max s.now e, tl := enterStandalone (max s.now e) s.cfg s.tl }) := by
  change execLinkWatchExpiry s = _
  rw [execLinkWatchExpiry, h]
  exact congrArg Host.Outcome.next (if_pos hmode)

theorem exec_standaloneTimerExpiry (h : s.tl.standaloneEnd = some e) : exec .standaloneTimerExpiry s
    = .next { s with now := max s.now e, tl := { s.tl with standaloneEnd := none, entryStop := true } } := by
  change execStandaloneTimerExpiry s = _
  rw [execStandaloneTimerExpiry, h]
  rfl

/-- Settles O45. -/
theorem clockAndLinkTimersAct : Obligations.ClockAndLinkTimersAct := by
  refine ⟨fun s ph hv hph => ?_, fun s r hr hstate hheld => ?_, fun s e => ⟨fun h hmode => exec_linkWatchExpiry h hmode,
    fun h => exec_standaloneTimerExpiry h⟩⟩
  · obtain ⟨hnow, htl, hve, ha, hb, hsu, hac, hsl, hcfg⟩ := takeAdvance_kept ph (reach (ph + 1000) s)
    refine ⟨_, exec_clockAdvance hv hph, hnow, htl.trans (advanceClock_eq ph s.tl), hve, fun hs => ?_, fun hs he => ?_,
      fun hs he => ?_, ha, hb, hsu, hac, hsl, hcfg⟩
    · rw [takeAdvance_stays (s := reach (ph + 1000) s) hs]
      exact ⟨rfl, rfl⟩
    · rw [takeAdvance_rolls (s := reach (ph + 1000) s) hs, dueActivation_held (s := ticked ph (reach (ph + 1000) s)) he]
      exact ⟨rfl, rfl⟩
    · rw [hnow, htl, hve, takeAdvance_rolls (s := reach (ph + 1000) s) hs,
        dueActivation_made (s := ticked ph (reach (ph + 1000) s)) he]
      exact runActivation_made _
  · change Host.Outcome.next (if heldSerial s.ve = some r.serial then s else expireIfDue r.serial s) = _
    rw [if_neg hheld, expireIfDue_due hr hstate]
    rfl

end Advance

/-! ## The TIME frame (R177, R178) -/

section Time
variable {s t : State} {e : Evaluation} {v : Verdict} {payload : List Byte} {day second : Nat}

/-- At its end an evaluation's port takes the verdict (R79). -/
theorem endEvaluation_slot (he : (remainingStages s).ve.eval = some e) (hv : e.verdict = some v) :
    ((endEvaluation s).port e.port).slot = some { image := e.image, verdict := some v } := by
  obtain ⟨-, -, -, -, -, hport⟩ := ready_port e v ((remainingStages s).setEval none)
  simp only [endEvaluation, he, hv, Kept.endHold_port, hport]
  rfl

/-- The clock and the link a TIME frame makes (R177, R178). -/
def timeLinked (day second : Nat) (s : State) : TimeLink :=
  linkAfterFrame s.now s.cfg (if s.tl.mode != .standalone then setClock s.now day second s.tl else s.tl)

/-- The state with a TIME frame's clock and link mode, before the activation test. -/
def timed (day second : Nat) (s : State) : State :=
  postAlerts (if (timeLinked day second s).mode = s.tl.mode then []
    else [linkAlert s.tl.mode (timeLinked day second s).mode false]) { s with tl := timeLinked day second s }

theorem takeTime_standalone (h : s.tl.mode = .standalone) : takeTime day second s = timed day second s := by
  simp [takeTime, timed, timeLinked, h]

theorem takeTime_tests (h : s.tl.mode ≠ .standalone) : takeTime day second s = dueActivation (timed day second s) := by
  simp [takeTime, timed, timeLinked, h]

theorem takeTime_tl (day second : Nat) (s : State) : (takeTime day second s).tl = (timed day second s).tl := by
  by_cases h : s.tl.mode = .standalone
  · rw [takeTime_standalone h]
  · rw [takeTime_tests h, dueActivation_tl]

theorem timed_eq (day second : Nat) (s : State) : timed day second s = { s with
    tl := (timed day second s).tl
    jn := if (timed day second s).tl.mode = s.tl.mode then s.jn else requestAlert (timed day second s).tl
      (linkAlert s.tl.mode (timed day second s).tl.mode false) s.jn } := by
  have htl : (timed day second s).tl = timeLinked day second s := rfl
  rw [htl]
  unfold timed
  split_ifs <;> rfl

theorem exec_time_open (h : lineOpen s) (hlen : payload.length ≤ 96) :
    exec (.time 0 payload) s = .next (applyTimePayload payload s) :=
  congrArg _ (broadcast_open (f := { addr := 0, code := 0x20, payload := payload }) (applyTimePayload payload) h
    (.inr rfl) rfl rfl hlen)

/-- What a TIME frame makes of the clock (R178). -/
theorem timed_clock (day second : Nat) (s : State) :
    (s.tl.mode ≠ .standalone → (timed day second s).tl.valid = true ∧ (timed day second s).tl.day = day
        ∧ (timed day second s).tl.second = second ∧ (timed day second s).tl.phase = some s.now)
      ∧ (s.tl.mode = .standalone → (timed day second s).tl.valid = s.tl.valid ∧ (timed day second s).tl.day = s.tl.day
        ∧ (timed day second s).tl.second = s.tl.second ∧ (timed day second s).tl.phase = s.tl.phase) := by
  have hlink : ∀ t : TimeLink, (linkAfterFrame s.now s.cfg t).valid = t.valid ∧ (linkAfterFrame s.now s.cfg t).day = t.day
      ∧ (linkAfterFrame s.now s.cfg t).second = t.second ∧ (linkAfterFrame s.now s.cfg t).phase = t.phase := fun t => by
    unfold linkAfterFrame
    dsimp only
    split
    · exact ⟨rfl, rfl, rfl, rfl⟩
    · split_ifs <;> exact ⟨rfl, rfl, rfl, rfl⟩
    · exact ⟨rfl, rfl, rfl, rfl⟩
    · exact ⟨rfl, rfl, rfl, rfl⟩
  refine ⟨fun h => ?_, fun h => ?_⟩
  · have hset : (s.tl.mode != .standalone) = true := by simpa using h
    simp only [timed, timeLinked, hset]
    exact hlink _
  · have hset : ¬ (s.tl.mode != .standalone) = true := by simp [h]
    simp only [timed, timeLinked, if_neg hset]
    exact hlink _

/-- What it makes of the link mode, its count and its timers (R177, R181). -/
theorem timed_link (day second : Nat) (s : State) :
    (timed day second s).tl.watchEnd = some (s.now + s.cfg.linkWatch * 1000)
      ∧ (s.tl.mode = .unsynced ∨ s.tl.mode = .standalone →
        (timed day second s).tl.mode = .resync ∧ (timed day second s).tl.resync = some 1)
      ∧ (s.tl.mode = .resync → s.tl.resync = some 1 →
        (timed day second s).tl.mode = .resync ∧ (timed day second s).tl.resync = some 2)
      ∧ (s.tl.mode = .resync → s.tl.resync = some 2 → (timed day second s).tl.mode = .linked
        ∧ (timed day second s).tl.resync = none ∧ (timed day second s).tl.standaloneEnd = none
        ∧ (timed day second s).tl.entryStop = false)
      ∧ (s.tl.mode = .linked → (timed day second s).tl.mode = .linked ∧ (timed day second s).tl.resync = s.tl.resync)
      ∧ (¬ (s.tl.mode = .resync ∧ s.tl.resync = some 2) → (timed day second s).tl.standaloneEnd = s.tl.standaloneEnd
        ∧ (timed day second s).tl.entryStop = s.tl.entryStop) := by
  cases hm : s.tl.mode with
  | unsynced => simp [timed, timeLinked, linkAfterFrame, setClock, hm]
  | linked => simp [timed, timeLinked, linkAfterFrame, setClock, hm]
  | standalone => simp [timed, timeLinked, linkAfterFrame, hm]
  | resync =>
    by_cases hr : s.tl.resync = some 2
    · simp [timed, timeLinked, linkAfterFrame, setClock, hm, hr]
    · simp [timed, timeLinked, linkAfterFrame, setClock, hm, hr]

/-- The verdict of an evaluation during which a TIME frame is taken (R68; log 4): it is reached before the frame's effects. -/
theorem verdict_unaltered (he : s.ve.eval = some e) (ht : t.ve = (remainingStages s).ve) :
    ∃ e' v w x, t.ve.eval = some e' ∧ e'.verdict = some v ∧ e'.port = e.port ∧ e'.image = e.image
      ∧ (e.verdict.isSome = true → remainingStages s = s)
      ∧ exec .verdictReadyEvent s = .next w ∧ (w.port e.port).slot = some { image := e.image, verdict := some v }
      ∧ exec .verdictReadyEvent t = .next x ∧ (x.port e.port).slot = some { image := e.image, verdict := some v } := by
  obtain ⟨e', v, he', hv, hport, himage⟩ := remainingStages_decides he
  have hte : t.ve.eval = some e' := ht ▸ he'
  have hdone : remainingStages t = t := remainingStages_decided t e' hte (by simp [hv])
  refine ⟨e', v, _, _, hte, hv, hport, himage, remainingStages_decided s e he, rfl, ?_, rfl, ?_⟩
  · rw [← hport, ← himage]
    exact endEvaluation_slot he' hv
  · rw [← hport, ← himage]
    exact endEvaluation_slot (hdone.symm ▸ hte) hv

/-- Settles O46. -/
theorem timeFrameSetsClockAndMode : Obligations.TimeFrameSetsClockAndMode := by
  intro payload s h
  refine ⟨fun m hm hlen hsec => ?_, fun hfits hbad => ?_⟩
  · obtain rfl : m = remainingStages s := hm.trans (evalRun_eq_iterate 10 s).symm
    have hexec : exec (.time 0 payload) s
        = .next (takeTime (fieldAt payload 0 2) (fieldAt payload 2 3) (remainingStages s)) :=
      (exec_time_open h (by omega)).trans (congrArg _ (if_pos ⟨hlen, hsec⟩))
    have htl := takeTime_tl (fieldAt payload 0 2) (fieldAt payload 2 3) (remainingStages s)
    have hu := timed_eq (fieldAt payload 0 2) (fieldAt payload 2 3) (remainingStages s)
    have hclock := timed_clock (fieldAt payload 0 2) (fieldAt payload 2 3) (remainingStages s)
    have hlink := timed_link (fieldAt payload 0 2) (fieldAt payload 2 3) (remainingStages s)
    have hve : (takeTime (fieldAt payload 0 2) (fieldAt payload 2 3) (remainingStages s)).ve = (remainingStages s).ve := by
      simp
    simp only [remainingStages_tl, remainingStages_now, remainingStages_cfg] at hclock hlink
    rw [← htl] at hclock hlink
    obtain ⟨hset, hkeep⟩ := hclock
    obtain ⟨hwatch, hstart, htwo, hlinked, hstays, hother⟩ := hlink
    have heval : ∀ e, s.ve.eval = some e → (remainingStages s).ve.eval.isSome = true := fun e he => by
      obtain ⟨e', v, he', -⟩ := remainingStages_decides he
      rw [he']; rfl
    refine ⟨_, timed (fieldAt payload 0 2) (fieldAt payload 2 3) (remainingStages s), hexec, remainingStages_none s,
      fun e he => verdict_unaltered he hve, ?_, fun hst => takeTime_standalone (by simpa using hst), fun hst he => ?_,
      fun hst he => ?_, hwatch, hset, hkeep, hstart, htwo, hlinked, hstays, hother, by simp, by simp, by simp, hve,
      by simp, by simp, by simp, by simp⟩
    · simp only [remainingStages_tl] at hu
      rw [htl]
      exact hu
    · have hnone : (timed (fieldAt payload 0 2) (fieldAt payload 2 3) (remainingStages s)).ve.eval = none := by
        rw [hu, remainingStages_none s he]
        exact he
      rw [takeTime_tests (by simpa using hst), dueActivation_made hnone]
      exact runActivation_made _
    · obtain ⟨e, he'⟩ := Option.isSome_iff_exists.1 he
      have hsome : (timed (fieldAt payload 0 2) (fieldAt payload 2 3) (remainingStages s)).ve.eval.isSome = true := by
        rw [hu]
        exact heval e he'
      rw [takeTime_tests (by simpa using hst), dueActivation_held hsome, hu]
      simp only [remainingStages_fu]
  · rw [exec_time_open h hfits]
    exact congrArg _ (if_neg fun hgood => by omega)

end Time

end Sys2Proof.Machine
end

