-- ==== Sys2Proof/Proofs/TapEnds.lean ====
section
/-! PROOFS. How an evaluation and a tap's transaction end: the verdict, the abandonments, CANCEL and PORT_RESET
(R75, R79, R82 to R85, R91, R101, R105). -/

namespace Sys2Proof.Machine

/-! ## The end of a torn record's hold (R105) -/

section Hold
variable {s : State} {held : Option Nat} {n : Nat} {r : TornRecord}

theorem endHold_keeps (h : ∀ n r, held = some n → unresolvedOf s.ve.torn n = some r → r.state ≠ .unresolved 0) :
    endHold held s = s := by
  cases held with
  | none => rfl
  | some n => exact expireIfDue_waits fun r hr => h n r rfl hr

theorem endHold_expires (hheld : held = some n) (hr : unresolvedOf s.ve.torn n = some r) (hstate : r.state = .unresolved 0) :
    endHold held s = tornReport r .expired s := by
  rw [hheld]
  exact expireIfDue_due hr hstate

/-- The records of a serial that a RESUMED has made PENDING are no longer UNRESOLVED (R101). -/
theorem unresolvedOf_resumed (n : Nat) (p : Port) (t : List TornRecord) : unresolvedOf (tornResume n p t) n = none := by
  refine List.find?_eq_none.2 fun x hx hfound => ?_
  obtain ⟨hserial, hwindow⟩ : x.serial = n ∧ x.window.isSome = true := by simpa using hfound
  obtain ⟨y, -, hy, ⟨-, hpending⟩ | ⟨hne, rfl⟩⟩ := tornResume_mem hx
  · exact (window_isSome_iff x).1 hwindow p hpending
  · exact hne hserial

end Hold

/-! ## The verdict-ready event (R79) -/

section Ready
variable {s : State} {e : Evaluation} {v : Verdict} {r : TornRecord}

theorem endEvaluation_decided (he : s.ve.eval = some e) (hv : e.verdict = some v) :
    endEvaluation s = endHold e.held (readyByCode e v (s.setEval none)) := by
  have hdone := remainingStages_decided s e he (by simp [hv])
  simp only [endEvaluation, hdone, he, hv]

theorem readyRefusal_eq (e : Evaluation) (v : Verdict) (s : State) : readyRefusal e v (s.setEval none)
    = ({ s with ve := { s.ve with eval := none } } : State).setPort e.port
      { s.port e.port with tap := .verdictReady, slot := some { image := e.image, verdict := some v } } := by
  rw [readyRefusal, setEval_port]
  rfl

theorem readyAccept_eq (e : Evaluation) (v : Verdict) (s : State) : readyAccept e v (s.setEval none)
    = ({ s with ve := { s.ve with eval := none, inFlight := s.ve.inFlight ++ [((parseImage e.image).serial, e.port)] } }
      : State).setPort e.port { s.port e.port with
        tap := .verdictReady
        slot := some { image := e.image, verdict := some v }
        confirmEnd := some (s.now + s.cfg.confirmLimit) } := by
  have hport : (joinInFlight e.card.serial e.port (s.setEval none)).port e.port = s.port e.port := port_of_parts rfl rfl
  simp only [readyAccept, hport]
  rfl

theorem readyResumed_started (hr : unresolvedOf s.ve.torn e.card.serial = some r) : readyResumed e v (s.setEval none)
    = ({ s with
        ve := { s.ve with
          eval := none
          inFlight := s.ve.inFlight ++ [(e.card.serial, e.port)]
          torn := tornResume e.card.serial e.port s.ve.torn }
        jn := requestFare s.tl .resumed e.port (resumedContent r e.port) s.jn } : State).setPort e.port
      { s.port e.port with tap := .committing, slot := some { image := e.image, verdict := some v } } := by
  rw [readyResumed_eq (s := s.setEval none) hr, setEval_port]
  obtain ⟨port, _, _, _, _, _, _, _, _, _⟩ := e
  cases port <;> rfl

/-- Settles O22. -/
theorem verdictReadyByCode : Obligations.VerdictReadyByCode := by
  refine ⟨fun s e he hv => ?stages, fun s e v he hv => ?_⟩
  case stages =>
    obtain ⟨n, hpos, hn, hbefore, e', w, he', hw, hport, himage⟩ := evalStep_iterate_decides he hv
    have hten := hn.trans (stagesLeft_le e)
    refine ⟨n, e', w, hpos, hten, hbefore, he', hw, hport, himage, ?_⟩
    have hall := remainingStages_of_iterate hten he' hw
    have hdone := remainingStages_decided _ e' he' (by simp [hw])
    change Host.Outcome.next (endEvaluation s) = .next (endEvaluation (evalStep^[n] s))
    rw [endEvaluation, endEvaluation, hall, hdone]
  intro keeps
  have hexec : exec .verdictReadyEvent s = .next (endHold e.held (readyByCode e v (s.setEval none))) :=
    congrArg _ (endEvaluation_decided he hv)
  rw [hexec]
  refine ⟨fun hkeeps ha hr => ?refusal, fun hkeeps ha => ?accept, fun n r hheld hr hstate ha hre => ?expires,
    fun r hre hheld hr => ?resumed⟩
  case refusal =>
    rw [readyByCode_refusal ha hr, readyRefusal_eq]
    exact congrArg _ (endHold_keeps (by simpa using hkeeps))
  case accept =>
    rw [readyByCode_accept ha, readyAccept_eq]
    exact congrArg _ (endHold_keeps (by simpa using hkeeps))
  case expires =>
    obtain ⟨-, hserial, -⟩ := unresolvedOf_some hr
    rw [readyByCode_refusal ha hre, readyRefusal_eq, ← Kept.endHold_setPort,
      endHold_expires (s := { s with ve := { s.ve with eval := none } }) hheld hr hstate, tornReport_eq, hserial, tornAlert,
      tornContent, hserial]
    rfl
  case resumed =>
    obtain ⟨-, hserial, -⟩ := unresolvedOf_some hr
    have hkept : ∀ t : State, t.ve.torn = tornResume e.card.serial e.port s.ve.torn → endHold e.held t = t := fun t ht =>
      endHold_keeps fun n x hn hx => by
        obtain rfl : e.card.serial = n := Option.some.inj (hheld.symm.trans hn)
        rw [ht, unresolvedOf_resumed] at hx
        cases hx
    rw [readyByCode_resumed hre, readyResumed_started hr, hkept _ (by simp)]
    refine ⟨_, rfl, setPort_port_same .., ?_, ?_, ?_, ?_, ?_, by simp, by simp, by simp, by simp, by simp, by simp, by simp⟩
    · simp
    · simp
    · simp [Evaluation.card]
    · simp only [setPort_ve, hserial]
      rfl
    · simp [resumedContent, tornContent]

end Ready

/-! ## A transaction abandoned, and the ends of a tap without one (R82 to R85, R91) -/

section Ends
variable {s : State} {p : Port}

theorem abandon_eq (p : Port) (fate : TornFate) (s : State) : abandon p fate s = abandoned p (fate = .remove) s := by
  cases p <;> cases fate <;> rfl

theorem exec_cancel_nil (p : Port) (s : State) : exec (.cancel p []) s = .next (takeCancel p s) :=
  congrArg Host.Outcome.next (laneBare_nil (takeCancel p))

theorem exec_portReset_nil (p : Port) (s : State) : exec (.portReset p []) s = .next (takePortReset p s) :=
  congrArg Host.Outcome.next (laneBare_nil (takePortReset p))

theorem exec_notWritten_nil (h : (s.port p).tap = .awaitingWrite) :
    exec (.notWritten p []) s = .next (laneAnswer p .ok (abandon p .remove s)) :=
  congrArg Host.Outcome.next ((laneBare_nil (takeNotWritten p)).trans (if_pos h))

theorem exec_uncertain_nil (h : (s.port p).tap = .awaitingWrite) :
    exec (.uncertain p []) s = .next (laneAnswer p .ok (abandon p .keep s)) :=
  congrArg Host.Outcome.next ((laneBare_nil (takeUncertain p)).trans (if_pos h))

theorem exec_confirmTimerExpiry {e : Nat} (h : (s.port p).confirmEnd = some e) :
    exec (.confirmTimerExpiry p) s = .next (confirmExpired p (reach e s)) := by
  change execConfirmTimerExpiry p s = _
  rw [execConfirmTimerExpiry, h]

/-- PORT_RESET after the tap's own end (R91, R189). -/
theorem takePortReset_of {t : State} {l : LanePort} (h : resetTap p s = t.setPort p l) : takePortReset p s
    = t.setPort p { l with last := .ok, shiftOut := [], snapshot := none, frameError := false } := by
  rw [takePortReset, h]
  simp only [setPort_setPort, setPort_port_same]
  rfl

theorem laneAnswer_setPort (p : Port) (l : LanePort) (s : State) :
    laneAnswer p .ok (s.setPort p l) = s.setPort p { l with last := .ok, shiftOut := [] } := by
  rw [laneAnswer, setPort_setPort, setPort_port_same]
  rfl

theorem discardVerdict_accept (h : holdsAccept (s.port p) = true) : discardVerdict p s = abandon p .remove s := if_pos h

theorem discardVerdict_other_code (h : holdsAccept (s.port p) = false) :
    discardVerdict p s = s.setPort p (s.port p).ended := if_neg (by simp [h])

theorem withdrawQueued_eq (p : Port) (s : State) : withdrawQueued p s
    = ({ s with ve := { s.ve with queue := s.ve.queue.filter (fun q => q != p) } } : State).setPort p (s.port p).ended := by
  cases p <;> rfl

theorem holdsAccept_iff (l : LanePort) :
    holdsAccept l = true ↔ ∃ x v, l.slot = some x ∧ x.verdict = some v ∧ v.code = .accept := by
  rw [holdsAccept, beq_iff_eq]
  cases l.slot with
  | none => simp
  | some x => simp

/-- Settles O25. -/
theorem abandonsByTheirCommands : Obligations.AbandonsByTheirCommands := by
  refine ⟨holdsAccept_iff, fun p s => ⟨fun ht => ?awaiting, fun ht hacc => ?ready, fun ht => ?queued, fun ht hno => ?other⟩⟩
  case awaiting =>
    have hremove := abandon_eq p .remove s
    have hkeep := abandon_eq p .keep s
    refine ⟨?_, ?_, ?_, ?_, fun e he => ?_⟩
    · rw [exec_notWritten_nil ht, hremove]
      rfl
    · rw [exec_cancel_nil, takeCancel, ht, hremove]
      rfl
    · rw [exec_uncertain_nil ht, hkeep]
      rfl
    · rw [exec_portReset_nil, takePortReset, resetTap, ht, hkeep]
      rfl
    · rw [exec_confirmTimerExpiry he, confirmExpired, reach_port, ht]
      exact congrArg _ (abandon_eq p .keep _)
  case ready =>
    have hremove := abandon_eq p .remove s
    refine ⟨?_, ?_, fun e he => ?_⟩
    · rw [exec_cancel_nil, takeCancel, ht, discardVerdict_accept hacc, hremove]
      rfl
    · rw [exec_portReset_nil, takePortReset, resetTap, ht, discardVerdict_accept hacc, hremove]
      rfl
    · rw [exec_confirmTimerExpiry he, confirmExpired, reach_port, ht]
      exact congrArg _ (abandon_eq p .remove _)
  case queued =>
    rw [exec_cancel_nil, takeCancel, ht, withdrawQueued_eq]
    exact congrArg _ (laneAnswer_setPort ..)
  case other =>
    rw [exec_cancel_nil, takeCancel, ht, discardVerdict_other_code hno]
    exact congrArg _ (laneAnswer_setPort ..)

/-- The evaluation's end without a verdict: its reservations are released, and the hold of its torn record ends (R74, R105). -/
theorem dropEvaluation_eq (e : Evaluation) (s : State) : dropEvaluation e s = endHold e.held { s with
    ve := { s.ve with eval := none }
    ac := if e.creditMade then releaseCredit s.env e.port s.ac else s.ac
    jn := if e.slotMade then { s.jn with reserved := s.jn.reserved - 1 } else s.jn } := by
  obtain ⟨_, _, _, _, _, _, _, creditMade, slotMade, _⟩ := e
  cases creditMade <;> cases slotMade <;> rfl

theorem dropTap_eq {e : Evaluation} (he : s.ve.eval = some e) (hp : e.port = p) :
    dropTap p s = (dropEvaluation e s).setPort p (s.port p).ended := by
  have hport : (dropEvaluation e s).port p = s.port p :=
    port_of_parts (dropEvaluation_portA e s) (dropEvaluation_portB e s)
  simp only [dropTap, he, if_pos hp, hport]

/-- Settles O26. -/
theorem portResetByTapState : Obligations.PortResetByTapState := by
  refine fun p s => ⟨fun ht => ?idle, fun ht => ?queued, fun e ht he hp => ?evaluating, fun ht hno => ?ready⟩
  case idle =>
    have hreset : resetTap p s = s.setPort p (s.port p) := by
      obtain ht | ht := ht <;> rw [resetTap, ht, setPort_self]
    exact (exec_portReset_nil p s).trans (congrArg _ (takePortReset_of hreset))
  case queued =>
    have hreset : resetTap p s = withdrawQueued p s := by rw [resetTap, ht]
    exact (exec_portReset_nil p s).trans (congrArg _ (takePortReset_of (hreset.trans (withdrawQueued_eq p s))))
  case ready =>
    have hreset : resetTap p s = discardVerdict p s := by rw [resetTap, ht]
    exact (exec_portReset_nil p s).trans
      (congrArg _ (takePortReset_of (hreset.trans (discardVerdict_other_code hno))))
  case evaluating =>
    intro released ended
    have hreset : resetTap p s = (dropEvaluation e s).setPort p (s.port p).ended := by
      rw [resetTap, ht]
      exact dropTap_eq he hp
    have hexec : exec (.portReset p []) s = .next ((dropEvaluation e s).setPort p ended) :=
      (exec_portReset_nil p s).trans (congrArg _ (takePortReset_of hreset))
    rw [hexec, dropEvaluation_eq, hp]
    refine ⟨fun hkeeps => ?_, fun n r hheld hr hstate => ?_⟩
    · exact congrArg (fun t : State => Host.Outcome.next (t.setPort p ended)) (endHold_keeps hkeeps)
    · obtain ⟨-, hserial, -⟩ := unresolvedOf_some hr
      have hends : ∀ t : State, t.ve.torn = s.ve.torn → endHold e.held t = tornReport r .expired t := fun t ht =>
        endHold_expires hheld (ht ▸ hr) hstate
      refine congrArg (fun t : State => Host.Outcome.next (t.setPort p ended)) ((hends _ (by rfl)).trans ?_)
      rw [tornReport_eq, hserial, tornAlert, tornContent, hserial]
      rfl

end Ends

end Sys2Proof.Machine
end

