-- ==== Sys2Proof/Proofs/Commits.lean ====
section
/-! PROOFS. The verdict that is read, the card write that is reported and the commit that completes (R78 to R81, R86, R87, R94
to R97, R161 to R165). -/

namespace Sys2Proof.Machine

/-! ## Requests to the Journal (R161 to R165) -/

section Requests
variable {s : State} {p : Port}

/-- Where an unreserved append fits (R164). -/
theorem unreservedFits_iff (j : Journal) : unreservedFits j = true
    ↔ j.queue.countP (fun a => a.commit.isNone) < 6 ∧ 1 ≤ freeSlots j := by
  rw [unreservedFits, Bool.and_eq_true, decide_eq_true_eq, decide_eq_true_eq]
  rfl

/-- The record an append takes has the check of its bytes, inverted where the check fault was armed (R163, R172). -/
theorem newRecord_check (t : TimeLink) (flag : FareFlag) (c : Content) (j : Journal) : (newRecord t flag c j).check
    = if (newRecord t flag c j).forced then ~~~(crc 0xFFFF#16 (recordBody (newRecord t flag c j)))
      else crc 0xFFFF#16 (recordBody (newRecord t flag c j)) := rfl

theorem newRecord_standalone (t : TimeLink) (flag : FareFlag) (c : Content) (j : Journal) :
    (newRecord t flag c j).standalone = true ↔ t.mode ≠ .linked := by simp [newRecord]

theorem newRecord_resumed (t : TimeLink) (flag : FareFlag) (c : Content) (j : Journal) :
    (newRecord t flag c j).resumed = true ↔ flag = .resumed := by simp [newRecord]

theorem newRecord_remote (t : TimeLink) (flag : FareFlag) (c : Content) (j : Journal) :
    (newRecord t flag c j).remote = true ↔ flag = .remote := by simp [newRecord]

theorem newRecord_valid {t : TimeLink} (flag : FareFlag) (c : Content) (j : Journal) (h : t.valid = true) :
    (newRecord t flag c j).day = t.day ∧ (newRecord t flag c j).second = t.second := by simp [newRecord, h]

theorem newRecord_invalid {t : TimeLink} (flag : FareFlag) (c : Content) (j : Journal) (h : t.valid = false) :
    (newRecord t flag c j).day = 0 ∧ (newRecord t flag c j).second = 0 := by simp [newRecord, h]

theorem takeWritten_requests {image new : List Byte} {v : Verdict} {k : RecKind} (ht : (s.port p).tap = .awaitingWrite)
    (hslot : (s.port p).slot = some { image := image, verdict := some v }) (hnew : v.image = some new)
    (hkind : v.kind = some k) : takeWritten p s
      = ({ s with
          jn := requestFare s.tl .plain p { kind := k, side := portSide p, serial := (parseImage image).serial,
                                            seqAfter := (parseImage new).seq, charge := v.charge, balance := v.balance,
                                            version := v.version, entryZone := v.entryZone, exitZone := v.exitZone,
                                            detail := 0 } s.jn } : State).setPort p
        { s.port p with tap := .committing, confirmEnd := none, last := .ok, shiftOut := [] } := by
  rw [takeWritten, if_pos ht, requestTapFare_eq hslot, fareContent, hnew, hkind]
  cases p <;> rfl

/-- Settles O24. -/
theorem writtenRequestsTheFare : Obligations.WrittenRequestsTheFare := by
  refine ⟨fun p image new v k s ht hslot hnew hkind =>
    congrArg Host.Outcome.next ((laneBare_nil (takeWritten p)).trans (takeWritten_requests ht hslot hnew hkind)),
    fun t c j => ?_⟩
  intro room fits admitted
  have hroom : freeSlots j = room := rfl
  have hfits : unreservedFits j = true ↔ fits := unreservedFits_iff j
  have henqueue : ∀ flag commit reserved, admitted flag commit reserved
      { enqueue t flag commit c j with reserved := reserved } := fun flag commit reserved =>
    ⟨newRecord t flag c j, rfl, rfl, newRecord_standalone t flag c j, newRecord_resumed t flag c j,
      newRecord_remote t flag c j, rfl, newRecord_valid flag c j, newRecord_invalid flag c j, newRecord_check t flag c j, rfl⟩
  refine ⟨fun h => ?_, fun h => if_neg (mt hfits.1 h), fun cs => ⟨rfl, rfl⟩, fun h => ⟨_, if_pos (hfits.2 h), ?_⟩,
    fun h => if_neg (mt hfits.1 h), fun flag p => henqueue flag (some p) _, hroom, fun h => if_pos h,
    fun h => if_neg (Nat.not_le.2 h)⟩
  · rw [requestAlert, if_pos (hfits.2 h)]
    exact henqueue .plain none j.reserved
  · exact henqueue .remote none j.reserved

end Requests

/-! ## The completion of an append and of its tap's commit (R87, R163) -/

section Completion
variable {s : State} {p : Port} {a : Append} {rest : List Append}

theorem pendingOf_none_iff (t : List TornRecord) (p : Port) : pendingOf t p = none ↔ ∀ r ∈ t, r.state ≠ .pending p := by
  rw [pendingOf, List.find?_eq_none]
  exact forall₂_congr fun r _ => not_congr (pendingAt_iff r p)

theorem pendingOf_some {t : List TornRecord} {r : TornRecord} (h : pendingOf t p = some r) : r ∈ t ∧ r.state = .pending p := by
  have hpending := List.find?_some (p := fun x : TornRecord => x.pendingAt p) h
  exact ⟨List.mem_of_find?_eq_some h, (pendingAt_iff r p).1 hpending⟩

theorem completeAppend_eq (a : Append) (rest : List Append) (j : Journal) : completeAppend a rest j
    = { j with held := j.held ++ [a.record], durable := a.record.number, queue := rest,
               queueMark := j.queueMark && !rest.isEmpty } := by
  cases rest <;> simp [completeAppend]

theorem exec_appendCompletion (h : s.jn.queue = a :: rest) :
    exec .appendCompletion s = .next (takeCompletion a rest s) := by
  change execAppendCompletion s = _
  rw [execAppendCompletion, h]

/-- The seen table's entry of a commit (R27, R30). -/
def commitEntry (t : TimeLink) (serial seq : Nat) (check : Word16) : SeenEntry :=
  { serial := serial, seq := seq, check := check, stamp := t.day * 1440 + t.second / 60, second := t.second % 60 }

theorem seenCommit_eq {serial seq : Nat} {check : Word16} (h : committed p s = some (serial, seq, check)) : seenCommit p s
    = { s with su := { s.su with seen := seenWrite (commitEntry s.tl serial seq check) s.su.seen } } := by
  simp only [seenCommit, h, secondInMinute_eq]
  rfl

/-- A commit completes with what it writes to the seen table and its credit granted (R30, R87, R127). -/
theorem takeCompletion_eq {serial seq : Nat} {check : Word16} (hc : a.commit = some p)
    (h : committed p s = some (serial, seq, check)) : takeCompletion a rest s
      = ({ s with
          jn := { s.jn with held := s.jn.held ++ [a.record], durable := a.record.number, queue := rest,
                            queueMark := s.jn.queueMark && !rest.isEmpty }
          ac := grantCredit s.env p a.record.number s.ac
          su := { s.su with seen := seenWrite (commitEntry s.tl serial seq check) s.su.seen }
          ve := { s.ve with
            inFlight := s.ve.inFlight.filter (fun m => m.2 != p)
            torn := s.ve.torn.filter (fun r => !r.pendingAt p) } } : State).setPort p (commitPort (s.port p)) := by
  rw [takeCompletion_commit hc, completeCommit_eq, completeAppend_eq]
  have hcommitted : ∀ t : State, t.port p = s.port p → t.ve = s.ve → committed p t = some (serial, seq, check) :=
    fun t hport hve => by rw [← h]; simp only [committed, hport, hve]
  rw [seenCommit_eq (serial := serial) (seq := seq) (check := check)]
  · rfl
  · exact hcommitted _ (port_of_parts rfl rfl) rfl

theorem commitPort_accept {image : List Byte} {v : Verdict} {l : LanePort}
    (hslot : l.slot = some { image := image, verdict := some v }) (hcode : v.code ≠ .resumed) :
    commitPort l = { l with tap := .idle, slot := none } := by
  rw [commitPort, hslot]
  exact if_neg fun h => hcode (Option.some.inj h)

theorem commitPort_resumed {image : List Byte} {v : Verdict} {l : LanePort}
    (hslot : l.slot = some { image := image, verdict := some v }) (hcode : v.code = .resumed) :
    commitPort l = { l with tap := .verdictReady } := by
  rw [commitPort, hslot]
  exact if_pos (congrArg some hcode)

theorem committed_new {image new : List Byte} {v : Verdict}
    (hslot : (s.port p).slot = some { image := image, verdict := some v }) (hnew : v.image = some new) :
    committed p s = some ((parseImage image).serial, (parseImage new).seq, (parseImage new).check) := by
  simp only [committed, hslot, Option.bind_some, hnew]

theorem committed_torn {image : List Byte} {v : Verdict} {r : TornRecord}
    (hslot : (s.port p).slot = some { image := image, verdict := some v }) (hnew : v.image = none)
    (hr : pendingOf s.ve.torn p = some r) : committed p s = some (r.serial, r.newSeq, r.newCheck) := by
  simp only [committed, hslot, Option.bind_some, hnew, hr, Option.map_some]

/-- Settles O32. -/
theorem completionCommits : Obligations.CompletionCommits := by
  refine ⟨fun t p => ⟨pendingOf_none_iff t p, fun r => pendingOf_some, fun r => pendingAt_iff r p⟩, fun s a rest hq =>
    ⟨fun hc => ?alone, fun p image new v hc hslot hcode hnew => ?accept, fun p image v r hc hslot hcode hnew hr => ?resumed⟩⟩
  case alone =>
    rw [exec_appendCompletion hq, takeCompletion_alone hc, completeAppend_eq]
  case accept =>
    have hport := commitPort_accept hslot (by rw [hcode]; decide)
    refine ⟨_, (exec_appendCompletion hq).trans (congrArg _ (takeCompletion_eq hc (committed_new hslot hnew))), ?_⟩
    exact ⟨by simp, (setPort_port_same ..).trans hport, fun q hq => setPort_port_other _ p q _ hq, by simp, by simp,
      by simp [commitEntry], by simp, by simp, by simp, by simp, by simp, by simp⟩
  case resumed =>
    have hport := commitPort_resumed hslot hcode
    refine ⟨_, (exec_appendCompletion hq).trans (congrArg _ (takeCompletion_eq hc (committed_torn hslot hnew hr))), ?_⟩
    exact ⟨by simp, (setPort_port_same ..).trans hport, fun q hq => setPort_port_other _ p q _ hq, by simp, by simp,
      by simp [commitEntry], by simp, by simp, by simp, by simp, by simp, by simp⟩

end Completion

end Sys2Proof.Machine
end

