-- ==== Sys2Proof/Proofs/Reading.lean ====
section
/-! PROOFS. READ_VERDICT: the bytes of the verdict record, what the reading does to the tap, and the PENDING torn record of an
ACCEPT that is read (R78, R80, R94 to R97, R104). -/

namespace Sys2Proof.Machine

section Codes
variable {v : Verdict}

theorem verdictCode_of_index {c : VCode} {n : Nat} (h : [VCode.accept, .resumed, .emergency, .outOfService, .offline, .badFormat,
    .cardInUse, .damaged, .unknownKey, .badCheck, .denied, .clone, .exhausted, .passback, .passExpired, .insufficient,
    .aisleFull][n]? = some c) : verdictCode c = n + 1 := by
  have hcodes := congrArg (Option.map verdictCode) h
  rw [← List.getElem?_map] at hcodes
  have hn : n < 17 := (List.getElem?_eq_some_iff.1 h).1
  have hrange : (List.range' 1 17)[n]? = some (verdictCode c) := hcodes
  rw [List.getElem?_range' hn] at hrange
  have heq := Option.some.inj hrange
  omega

theorem dirCode_of_index {d : Option Dir} {n : Nat} (h : [none, some Dir.ab, some Dir.ba][n]? = some d) : dirCode d = n := by
  rcases n with _ | _ | _ | n <;> cases h <;> rfl

end Codes

section Reading
variable {s : State} {p : Port} {payload image : List Byte} {v : Verdict}

theorem exec_readVerdict (h : payload.length ≤ 40) : exec (.readVerdict p payload) s = .next (takeReadVerdict p s) :=
  congrArg Host.Outcome.next (if_neg (by omega))

/-- The port with a reply that gives its verdict record (R80). -/
def givingPort (p : Port) (v : Verdict) (s : State) : LanePort :=
  { s.port p with shiftOut := laneReply (readHead (s.port p) ++ verdictBytes v) }

theorem takeReadVerdict_given (h : givenVerdict (s.port p) = some v) :
    takeReadVerdict p s = afterRead p v (s.setPort p (givingPort p v s)) := by
  simp only [takeReadVerdict, h]
  rfl

theorem givenVerdict_of (ht : (s.port p).tap = .verdictReady ∨ (s.port p).tap = .awaitingWrite)
    (hslot : (s.port p).slot = some { image := image, verdict := some v }) : givenVerdict (s.port p) = some v := by
  rw [givenVerdict, if_pos ht, hslot]
  rfl

/-- An ACCEPT that is read awaits its write, with its torn record created (R80, R94). -/
theorem takeReadVerdict_accept (ht : (s.port p).tap = .verdictReady)
    (hslot : (s.port p).slot = some { image := image, verdict := some v }) (hcode : v.code = .accept) : takeReadVerdict p s
      = tornCreate (pendingRecord p { image := image, verdict := some v } v)
        (s.setPort p { givingPort p v s with tap := .awaitingWrite }) := by
  have htap : (givingPort p v s).tap ≠ .awaitingWrite := by simp [givingPort, ht]
  have hslot' : (givingPort p v s).slot = some { image := image, verdict := some v } := hslot
  rw [takeReadVerdict_given (givenVerdict_of (.inl ht) hslot), afterRead]
  simp only [setPort_port_same, setPort_setPort, if_neg htap, if_pos hcode, hslot']

theorem takeReadVerdict_discards (ht : (s.port p).tap = .verdictReady)
    (hslot : (s.port p).slot = some { image := image, verdict := some v }) (hcode : v.code ≠ .accept) : takeReadVerdict p s
      = s.setPort p { givingPort p v s with tap := .idle, slot := none } := by
  have htap : (givingPort p v s).tap ≠ .awaitingWrite := by simp [givingPort, ht]
  rw [takeReadVerdict_given (givenVerdict_of (.inl ht) hslot), afterRead]
  simp only [setPort_port_same, setPort_setPort, if_neg htap, if_neg hcode]

theorem takeReadVerdict_again (ht : (s.port p).tap = .awaitingWrite)
    (hslot : (s.port p).slot = some { image := image, verdict := some v }) :
    takeReadVerdict p s = s.setPort p (givingPort p v s) := by
  have htap : ((s.setPort p (givingPort p v s)).port p).tap = .awaitingWrite := by simp [givingPort, ht]
  rw [takeReadVerdict_given (givenVerdict_of (.inr ht) hslot), afterRead]
  exact if_pos htap

theorem takeReadVerdict_none (hready : (s.port p).tap ≠ .verdictReady) (hawait : (s.port p).tap ≠ .awaitingWrite) :
    takeReadVerdict p s = ({ s with free := s.free + 11 } : State).setPort p
      { s.port p with shiftOut := laneReply (readHead (s.port p) ++ noVerdictBytes s.free) } := by
  have hnone : givenVerdict (s.port p) = none := if_neg (not_or.2 ⟨hready, hawait⟩)
  simp only [takeReadVerdict, hnone]
  cases p <;> rfl

/-- The records before an evictable one are PENDING or held (R97). -/
theorem evictable_at {ve : VerdictEngine} {pre post : List TornRecord} {old : TornRecord} {w : Nat}
    (htorn : ve.torn = pre ++ old :: post) (hold : old.state = .unresolved w) (hheld : heldSerial ve ≠ some old.serial)
    (hpre : ∀ x ∈ pre, (∃ q, x.state = .pending q) ∨ heldSerial ve = some x.serial) : evictable ve = some old := by
  refine List.find?_eq_some_iff_append.2 ⟨by simp [TornRecord.window, hold, hheld], pre, post, htorn, fun x hx => ?_⟩
  obtain ⟨q, hq⟩ | hx := hpre x hx
  · simp [TornRecord.window, hq]
  · simp [hx]

theorem tornCreate_room {r : TornRecord} (h : s.ve.torn.length < 8) : tornCreate r s = s.setTorn (s.ve.torn ++ [r]) := by
  obtain ⟨-, heq⟩ | ⟨hfull, -⟩ | ⟨old, hfull, -⟩ := tornCreate_cases r s
  · exact heq
  · omega
  · omega

theorem tornCreate_evicts {r old : TornRecord} (h : 8 ≤ s.ve.torn.length) (hold : evictable s.ve = some old) :
    tornCreate r s = { s with
      ve := { s.ve with torn := s.ve.torn.filter (fun x => x.serial != old.serial) ++ [r] }
      jn := requestAlert s.tl (tornAlert old .evicted) s.jn } := by
  obtain ⟨hroom, -⟩ | ⟨-, hnone, -⟩ | ⟨old', -, hold', heq⟩ := tornCreate_cases r s
  · omega
  · rw [hold] at hnone
    cases hnone
  · rw [hold] at hold'
    cases hold'
    rw [heq]
    rfl

theorem heldSerial_iff (ve : VerdictEngine) (n : Nat) : heldSerial ve = some n ↔ ∃ e, ve.eval = some e ∧ e.held = some n := by
  rw [heldSerial, Option.bind_eq_some_iff]

/-- Settles O23. -/
theorem readVerdictByCode : Obligations.ReadVerdictByCode := by
  refine ⟨fun v code dir hcode hdir => ?bytes, rfl, heldSerial_iff, fun p payload image v s hlen => ?_⟩
  case bytes =>
    intro fixed
    have hfixed : ∀ new, verdictBytes v = fixed ++ new ↔ v.image.getD [] = new := fun new => by
      simp [verdictBytes, verdictCode_of_index hcode, dirCode_of_index hdir, beBytes_two, beBytes_three, be24_eq, fixed]
    exact ⟨fun h => by simpa using (hfixed []).2 (by rw [h]; rfl), fun new h => (hfixed new).2 (by rw [h]; rfl)⟩
  intro created awaiting
  have hcreated : created (pendingRecord p { image := image, verdict := some v } v) := by
    refine ⟨rfl, rfl, rfl, rfl, rfl, rfl, fun new h => ?_, fun k h => ?_, rfl, rfl, rfl, rfl, rfl⟩
    · simp [pendingRecord, h]
    · simp [pendingRecord, h]
  have hhead : ∀ t, (s.port p).tap = t →
      readHead (s.port p) = [byteOf (lastCode (s.port p).last), byteOf (tapCode t)] := fun t ht => by rw [readHead, ht]
  have hawaiting : (s.port p).tap = .verdictReady → { givingPort p v s with tap := .awaitingWrite } = awaiting := fun ht => by
    rw [givingPort, hhead _ ht]
    rfl
  rw [exec_readVerdict hlen]
  refine ⟨fun ht hslot hcode => ?other, fun ht hslot hcode hroom => ?room,
    fun pre post old w ht hslot hcode hfull htorn hold hheld hpre => ?evicts, fun ht hslot => ?again,
    fun hready hawait => ?none⟩
  case other =>
    rw [takeReadVerdict_discards ht hslot hcode, givingPort, hhead _ ht]
    rfl
  case room =>
    refine ⟨_, hcreated, ?_⟩
    rw [takeReadVerdict_accept ht hslot hcode, hawaiting ht, tornCreate_room (by simpa using hroom)]
    cases p <;> rfl
  case evicts =>
    intro alert
    refine ⟨_, hcreated, ?_⟩
    have hevict := evictable_at htorn hold hheld hpre
    rw [takeReadVerdict_accept ht hslot hcode, hawaiting ht,
      tornCreate_evicts (old := old) (by simpa using hfull) (by simpa using hevict)]
    cases p <;> rfl
  case again =>
    rw [takeReadVerdict_again ht hslot, givingPort, hhead _ ht]
    rfl
  case none =>
    refine ⟨(List.range 11).map (fun i => Config.freeByte (s.free + i)), _, by simp, rfl, ?_⟩
    rw [takeReadVerdict_none hready hawait]
    rfl

end Reading

end Sys2Proof.Machine
end

