-- ==== Sys2Proof/Proofs/Judging.lean ====
section
/-! PROOFS. The stages of an evaluation from the format to the reservations: what each refuses and hands on (R3, R6, R18, R70,
R71, R73, R74, R99, R100). -/

namespace Sys2Proof.Machine

/-! ## A credit reserved and released again (R73, R74) -/

section Credit
variable {env : Env} {a b : Aisle} {n : Nat} {d : Dir} {p : Port}

/-- The entry a tap's reservation adds (R126). -/
def reservedEntry (n : Nat) (d : Dir) (p : Port) (a : Aisle) : Credit :=
  Credit.mk (.reserved (emergencyActive a || a.lockedOut)) d n p

theorem isReservedPort_withoutWindow (p : Port) (c : Credit) : isReservedPort p (withoutWindow c) = isReservedPort p c := by
  obtain ⟨_ | ⟨_, _, _ | _⟩ | _, _, _, _⟩ := c <;> rfl

theorem reserveCredit_full (h : 4 ≤ a.credits.length) : reserveCredit env n d p a = none :=
  if_neg (Nat.not_lt.2 h)

theorem reserveCredit_room (h : a.credits.length < 4) : ∃ b, reserveCredit env n d p a = some b
    ∧ entries b = entries a ++ [reservedEntry n d p a] ∧ b.bodiesAB = a.bodiesAB ∧ b.bodiesBA = a.bodiesBA := by
  refine ⟨_, if_pos h, ?_, settle_bodiesAB .., settle_bodiesBA ..⟩
  rw [settle_entries, entries, List.map_append]
  rfl

/-- Releasing the one RESERVED entry of a port at the queue's end leaves the entries before it (R74). -/
theorem releaseCredit_entries {pre : List Credit} {c : Credit} (h : entries b = pre ++ [c])
    (hc : isReservedPort p c = true) (hpre : ∀ x ∈ pre, isReservedPort p x = false) :
    entries (releaseCredit env p b) = pre := by
  obtain ⟨l, last, hcredits, hl, hlast⟩ := List.map_eq_append_iff.1 h
  obtain ⟨c', rfl, hc'⟩ := List.map_eq_singleton_iff.1 hlast
  have hfirst : ∀ x ∈ l, isReservedPort p x = false := fun x hx => by
    rw [← isReservedPort_withoutWindow]
    exact hpre _ (hl ▸ List.mem_map_of_mem hx)
  have hreserved : isReservedPort p c' = true := by rw [← isReservedPort_withoutWindow, hc', hc]
  rw [releaseCredit, settle_entries, hcredits, changeFirst_at hfirst hreserved, entries]
  simpa using hl

theorem releaseCredit_bodies (env : Env) (p : Port) (a : Aisle) :
    (releaseCredit env p a).bodiesAB = a.bodiesAB ∧ (releaseCredit env p a).bodiesBA = a.bodiesBA :=
  ⟨settle_bodiesAB .., settle_bodiesBA ..⟩

end Credit

/-! ## The reservations (R73, R74, R100) -/

section Reservations
variable {s : State} {e : Evaluation} {d : Dir} {v : Verdict}

theorem reserveSlot_none (j : Journal) (h : freeSlots j < 33) : reserveSlot j = none := if_neg (Nat.not_le.2 h)

theorem reserveSlot_some (j : Journal) (h : 33 ≤ freeSlots j) : reserveSlot j = some { j with reserved := j.reserved + 1 } :=
  if_pos h

theorem reserveBoth_full (v : Verdict) (h : 4 ≤ s.ac.credits.length) :
    reserveBoth (some d) v e s = refused .aisleFull 0 e s := by
  simp only [reserveBoth, creditFor, reserveCredit_full h]

theorem reserveBoth_free_refused (v : Verdict) (h : freeSlots s.jn < 33) :
    reserveBoth none v e s = refused .outOfService 5 e s := by
  simp only [reserveBoth, creditFor, reserveSlot_none s.jn h]
  rfl

theorem reserveBoth_free_made (v : Verdict) (h : 33 ≤ freeSlots s.jn) : reserveBoth none v e s = { s with
    jn := { s.jn with reserved := s.jn.reserved + 1 }
    ve := { s.ve with eval := some { e with verdict := some v, creditMade := false, slotMade := true } } } := by
  simp only [reserveBoth, creditFor, reserveSlot_some s.jn h]
  rfl

theorem reserveBoth_released (v : Verdict) (hroom : s.ac.credits.length < 4) (hslots : freeSlots s.jn < 33)
    (hnone : ∀ c ∈ s.ac.credits, isReservedPort e.port c = false) :
    ∃ a, reserveBoth (some d) v e s = refused .outOfService 5 e { s with ac := a } ∧ entries a = entries s.ac
      ∧ a.bodiesAB = s.ac.bodiesAB ∧ a.bodiesBA = s.ac.bodiesBA := by
  obtain ⟨b, hb, hentries, hab, hba⟩ := reserveCredit_room (env := s.env) (n := e.card.serial) (d := d) (p := e.port) hroom
  obtain ⟨hab', hba'⟩ := releaseCredit_bodies s.env e.port b
  have hpre : ∀ x ∈ entries s.ac, isReservedPort e.port x = false := fun x hx => by
    obtain ⟨c, hc, rfl⟩ := List.mem_map.1 hx
    rw [isReservedPort_withoutWindow]
    exact hnone c hc
  refine ⟨releaseCredit s.env e.port b, ?_,
    releaseCredit_entries hentries (isReservedPort_iff.2 ⟨rfl, _, rfl⟩) hpre, hab'.trans hab, hba'.trans hba⟩
  simp only [reserveBoth, creditFor, hb, reserveSlot_none s.jn hslots]
  rfl

theorem reserveBoth_made (v : Verdict) (hroom : s.ac.credits.length < 4) (hslots : 33 ≤ freeSlots s.jn) :
    ∃ a, reserveBoth (some d) v e s = { s with
        ac := a
        jn := { s.jn with reserved := s.jn.reserved + 1 }
        ve := { s.ve with eval := some { e with verdict := some v, creditMade := true, slotMade := true } } }
      ∧ entries a = entries s.ac
        ++ [Credit.mk (.reserved (emergencyActive s.ac || s.ac.lockedOut)) d e.card.serial e.port] := by
  obtain ⟨b, hb, hentries, -, -⟩ := reserveCredit_room (env := s.env) (n := e.card.serial) (d := d) (p := e.port) hroom
  refine ⟨b, ?_, hentries⟩
  simp only [reserveBoth, creditFor, hb, reserveSlot_some s.jn hslots]
  rfl

end Reservations

/-! ## What the stages read -/

section Reads

theorem formDetail_eq (c : CardImage) : formDetail c
    = if c.serial = 0 ∨ c.serial = 4294967295 then some 1
      else if c.format ≠ 1 then some 2
      else if c.spareBit = true ∨ c.unusedFlags ≠ 0 ∨ c.spareByte ≠ 0 then some 3
      else if (c.journeyIn = true ∧ 1439 < c.entryMinute) ∨ (c.exitRecorded = true ∧ 1439 < c.exitMinute) then some 4
      else if c.pass = true ∧ c.zoneHigh < c.zoneLow then some 5
      else none := by
  unfold formDetail
  refine if_congr ?_ rfl (if_congr Iff.rfl rfl (if_congr ?_ rfl (if_congr ?_ rfl (if_congr ?_ rfl rfl))))
  · simp [serialValid]
  · simp [or_assoc]
  · simp
  · simp

theorem usableKey_some_iff (su : Screening) (index : Nat) (key : Word16) : usableKey su index = some key
    ↔ ∃ k, su.keys[index]? = some k ∧ k.state ≠ .absent ∧ k.word = key := by
  unfold usableKey
  cases su.keys[index]? with
  | none => simp
  | some k => by_cases hk : k.state = .absent <;> simp [hk]

theorem usableKey_none_iff {su : Screening} {index : Nat} (h : index < su.keys.length) : usableKey su index = none
    ↔ ∃ k, su.keys[index]? = some k ∧ k.state = .absent := by
  unfold usableKey
  rw [List.getElem?_eq_getElem h]
  by_cases hk : su.keys[index].state = .absent <;> simp [hk]

theorem cloneAlert_eq {kind outcome : Nat} {k : CloneKind} {l : Listing} (side : Side) (serial seq station : Nat)
    (balance : Int) (hk : [CloneKind.rollback, .divergent][kind]? = some k)
    (hl : [Listing.listed, .alreadyListed, .notListed][outcome]? = some l) :
    cloneCode k = kind + 1 ∧ cloneAlert side serial seq balance station k l
      = { kind := .cloneAlert, side := side, serial := serial, seqAfter := seq, charge := 0, balance := balance,
          version := station, entryZone := 0, exitZone := 0, detail := (kind + 1) * 256 + (outcome + 1) } := by
  have hkind : cloneCode k = kind + 1 := by rcases kind with _ | _ | kind <;> cases hk <;> rfl
  have houtcome : listingCode l = outcome + 1 := by rcases outcome with _ | _ | _ | outcome <;> cases hl <;> rfl
  exact ⟨hkind, by rw [cloneAlert, hkind, houtcome]⟩

theorem unresolvedOf_none_iff (t : List TornRecord) (n : Nat) :
    unresolvedOf t n = none ↔ ∀ r ∈ t, r.serial = n → ∃ p, r.state = .pending p := by
  rw [unresolvedOf, List.find?_eq_none]
  refine forall₂_congr fun r _ => ?_
  cases hr : r.state <;> simp [TornRecord.window, hr]

theorem unresolvedOf_state {t : List TornRecord} {n : Nat} {r : TornRecord} (h : unresolvedOf t n = some r) :
    ∃ w, r.state = .unresolved w := by
  obtain ⟨-, -, hwindow⟩ := unresolvedOf_some h
  cases hr : r.state with
  | unresolved w => exact ⟨w, rfl⟩
  | pending p => exact absurd hr ((window_isSome_iff r).1 hwindow p)

theorem inFlightElsewhere_iff (e : Evaluation) (s : State) : inFlightElsewhere e s = true
    ↔ ∃ p, (e.card.serial, p) ∈ s.ve.inFlight ∧ p ≠ e.port := by
  simp only [inFlightElsewhere, List.any_eq_true, Bool.and_eq_true, beq_iff_eq, bne_iff_ne]
  constructor
  · rintro ⟨⟨n, p⟩, hm, rfl, hp⟩
    exact ⟨p, hm, hp⟩
  · rintro ⟨p, hm, hp⟩
    exact ⟨_, hm, rfl, hp⟩

theorem cloneFinding_none {x : SeenEntry} {seq : Nat} {check : Word16}
    (h : x.seq < seq ∨ (seq = x.seq ∧ check = x.check)) : cloneFinding x seq check = none := by
  unfold cloneFinding
  obtain h | ⟨rfl, rfl⟩ := h
  · rw [if_neg (by omega), if_neg (by omega)]
  · simp

theorem cloneFinding_some {x : SeenEntry} {seq : Nat} {check : Word16} {k : CloneKind}
    (h : (seq < x.seq ∧ k = .rollback) ∨ (seq = x.seq ∧ check ≠ x.check ∧ k = .divergent)) :
    cloneFinding x seq check = some k := by
  unfold cloneFinding
  obtain ⟨h, rfl⟩ | ⟨rfl, h, rfl⟩ := h
  · rw [if_pos h]
  · simp [h]

end Reads

/-! ## The stages in order -/

section Order
variable {s : State} {e : Evaluation}

/-- The function of a stage (R69 to R75, R99). -/
def Stage.run (e : Evaluation) (s : State) : Stage → State
  | .gate => gateStage e s
  | .form => formStage e s
  | .inFlight => inFlightStage e s
  | .torn => tornStage e s
  | .keyCheck => keyCheckStage e s
  | .deny => denyStage e s
  | .clone => cloneStage e s
  | .exhaustion => exhaustionStage e s
  | .fare => fareStage e s
  | .reservations => reservationsStage e s

theorem evalStep_stage {st : Stage} (he : s.ve.eval = some e) (hv : e.verdict = none) (hst : e.stage = st) :
    evalStep s = Stage.run e s st := by
  have hundecided : ¬ e.verdict.isSome = true := by simp [hv]
  cases st <;> simp only [evalStep, he, if_neg hundecided, hst, Stage.run]

/-- Settles O31. -/
theorem stagesJudgeInOrder : Obligations.StagesJudgeInOrder := by
  refine ⟨formDetail_eq, fun su index => ⟨usableKey_some_iff su index, usableKey_none_iff⟩,
    fun side serial seq station balance k l kind outcome => cloneAlert_eq side serial seq station balance,
    fun t n => ⟨unresolvedOf_none_iff t n, fun r hr => ?_⟩, by decide, fun s e he hv => ?_⟩
  · obtain ⟨hmem, hserial, -⟩ := unresolvedOf_some hr
    exact ⟨hmem, hserial, unresolvedOf_state hr⟩
  intro card refusedIn refusedBy goesOn reserves
  have hrefused : ∀ (e1 : Evaluation) (code : VCode) (detail : Nat) (t : State), e1.image = e.image →
      evalStep s = refused code detail e1 t → refusedIn e1 code detail t := fun e1 code detail t himage h =>
    ⟨refusal e1 code detail, rfl, rfl, rfl, congrArg (fun i => (parseImage i).balance) himage, rfl, rfl, rfl, h⟩
  have hstage : ∀ st, e.stage = st → evalStep s = Stage.run e s st := fun st => evalStep_stage he hv
  have hreserves : ∀ (e1 : Evaluation) (dir : Option Dir) (v : Verdict) (accepted : Verdict → Prop), accepted v →
      e1.image = e.image → evalStep s = reserveBoth dir v e1 s → reserves e1 dir accepted := by
    intro e1 dir v accepted hacc himage hstep
    have hserial : e1.card.serial = card.serial := congrArg (fun i => (parseImage i).serial) himage
    refine ⟨fun hd hfull => ?_, fun hd hslots => ?_, fun hd hroom hslots hnone => ?_, fun hd hslots => ?_,
      fun d hd hroom hslots => ?_⟩
    · obtain ⟨d, rfl⟩ := Option.isSome_iff_exists.1 hd
      exact hrefused e1 _ _ s himage (hstep.trans (reserveBoth_full v hfull))
    · subst hd
      exact hrefused e1 _ _ s himage (hstep.trans (reserveBoth_free_refused v hslots))
    · obtain ⟨d, rfl⟩ := Option.isSome_iff_exists.1 hd
      obtain ⟨a, heq, hentries, hab, hba⟩ := reserveBoth_released (d := d) v hroom hslots hnone
      exact ⟨a, hrefused e1 _ _ _ himage (hstep.trans heq), hentries, hab, hba⟩
    · subst hd
      exact ⟨v, hacc, hstep.trans (reserveBoth_free_made v hslots)⟩
    · subst hd
      obtain ⟨a, heq, hentries⟩ := reserveBoth_made (e := e1) (d := d) v hroom hslots
      exact ⟨a, v, hacc, hstep.trans heq, hserial ▸ hentries⟩
  refine ⟨fun hst => ?form, fun hst => ?inFlight, fun hst hnone => ?tornNone, ?torn, fun hst => ?keyCheck,
    fun hst => ?deny, fun hst => ?clone, fun hst => ?exhaustion, fun f hst hfare => ?reservations⟩
  case form =>
    have hrun : evalStep s = formStage e s := hstage .form hst
    refine ⟨fun d hd => hrefused e _ _ s rfl (hrun.trans ?_), fun hnone => hrun.trans ?_⟩
    · simp only [formStage, Evaluation.card, show formDetail (parseImage e.image) = some d from hd]
    · simp only [formStage, Evaluation.card, show formDetail (parseImage e.image) = none from hnone]
      rfl
  case inFlight =>
    have hrun : evalStep s = inFlightStage e s := hstage .inFlight hst
    refine ⟨fun hother => hrefused e _ _ s rfl (hrun.trans (if_pos ((inFlightElsewhere_iff e s).2 hother))),
      fun hown => hrun.trans (if_neg fun hother => ?_)⟩
    obtain ⟨p, hm, hp⟩ := (inFlightElsewhere_iff e s).1 hother
    exact hp (hown p hm)
  case tornNone =>
    have hrun : evalStep s = tornStage e s := hstage .torn hst
    refine hrun.trans ?_
    simp only [tornStage, show unresolvedOf s.ve.torn e.card.serial = none from hnone]
    rfl
  case torn =>
    intro r hst hr holding dropped goesOnHolding
    have hrun : evalStep s = tornStage e s := hstage .torn hst
    obtain ⟨-, hserial, -⟩ := unresolvedOf_some hr
    have hr' : unresolvedOf s.ve.torn e.card.serial = some r := hr
    simp only [tornStage, hr', hserial] at hrun
    refine ⟨fun hnone => hrefused holding _ _ s rfl (hrun.trans ?_), fun key hkey => ?_⟩
    · simp only [show usableKey s.su e.card.keyIndex = none from hnone]
      rfl
    simp only [show usableKey s.su e.card.keyIndex = some key from hkey] at hrun
    refine ⟨fun hbad => hrefused holding _ _ s rfl (hrun.trans (if_pos hbad)), fun hgood => ?_⟩
    replace hrun := hrun.trans (if_neg fun h => h hgood)
    refine ⟨fun hnew => hreserves holding r.dir (resumedVerdict r) _ ⟨rfl, rfl, rfl, rfl, rfl, rfl, rfl⟩ rfl
      (hrun.trans (if_pos hnew)), fun hnew => ?_⟩
    replace hrun := hrun.trans (if_neg hnew)
    refine ⟨fun hold => hrun.trans (if_pos hold), fun hold => (hrun.trans (if_neg hold)).trans ?_⟩
    rw [tornReport_eq, hserial, tornAlert, tornContent, hserial]
    rfl
  case keyCheck =>
    have hrun : evalStep s = keyCheckStage e s := hstage .keyCheck hst
    refine ⟨fun hnone => hrefused e _ _ s rfl (hrun.trans ?_), fun key hkey => ⟨fun hbad =>
      hrefused e _ _ s rfl (hrun.trans ?_), fun hgood => hrun.trans ?_⟩⟩
    · simp only [keyCheckStage, show usableKey s.su e.card.keyIndex = none from hnone]
      rfl
    · simp only [keyCheckStage, show usableKey s.su e.card.keyIndex = some key from hkey]
      exact if_pos hbad
    · simp only [keyCheckStage, show usableKey s.su e.card.keyIndex = some key from hkey]
      exact if_neg fun h => h hgood
  case deny =>
    have hrun : evalStep s = denyStage e s := hstage .deny hst
    refine ⟨fun d hd => hrefused e _ _ s rfl (hrun.trans ?_), fun hnone => hrun.trans ?_⟩
    · simp only [denyStage, show denyLookup s.su.deny.entries e.card.serial = some d from hd]
    · simp only [denyStage, show denyLookup s.su.deny.entries e.card.serial = none from hnone]
      rfl
  case clone =>
    have hrun : evalStep s = cloneStage e s := hstage .clone hst
    refine ⟨fun hnone => hrun.trans ?_, fun x hx => ?_⟩
    · simp only [cloneStage, show seenLookup s.su.seen e.card.serial = none from hnone]
      rfl
    · intro touched
      have hx' : seenLookup s.su.seen e.card.serial = some x := hx
      refine ⟨fun hfine => hrun.trans ?_, fun k hk => ?_⟩
      · simp only [cloneStage, hx', show cloneFinding x e.card.seq e.card.check = none from cloneFinding_none hfine]
        rfl
      · intro listed alert
        refine hrefused e _ _ _ rfl (hrun.trans ?_)
        simp only [cloneStage, hx', show cloneFinding x e.card.seq e.card.check = some k from cloneFinding_some hk]
        rfl
  case exhaustion =>
    have hrun : evalStep s = exhaustionStage e s := hstage .exhaustion hst
    exact ⟨fun hmax => hrefused e _ _ s rfl (hrun.trans (if_pos hmax)), fun hless => hrun.trans (if_neg hless)⟩
  case reservations =>
    have hrun : evalStep s = reservationsStage e s := hstage .reservations hst
    refine hreserves e _ (acceptVerdict e f) _ ⟨rfl, rfl, rfl, rfl, rfl, rfl, rfl⟩ rfl (hrun.trans ?_)
    simp only [reservationsStage, hfare]

end Order

end Sys2Proof.Machine
end

