-- ==== Sys2Proof/Proofs/Waiting.lean ====
section
/-! PROOFS. Table frames and CONFIGURE that wait for the end of an evaluation, and the frame behind them (R34, R35, R46, R67,
R190, R191). -/

namespace Sys2Proof.Machine

/-! ## No table frame reads or changes the mark of a held test -/

section Held
variable {s : State} {f : Frame}

/-- The state with the mark of a held activation test at a value. -/
def withHeld (b : Bool) (s : State) : State := { s with fu := { s.fu with heldTest := b } }

theorem sendReply_withHeld (f : Frame) (r : Result) (data : List Byte) (b : Bool) (s : State) :
    sendReply f r data (withHeld b s) = withHeld b (sendReply f r data s) := rfl

theorem broadcastEnd_withHeld (f : Frame) (b : Bool) (s : State) :
    broadcastEnd f (withHeld b s) = withHeld b (broadcastEnd f s) := by
  unfold broadcastEnd
  split_ifs
  · rfl
  · exact sendReply_withHeld f .ok [] b s

theorem tornSighting_withHeld (g : Sighting) (b : Bool) (s : State) :
    tornSighting g (withHeld b s) = withHeld b (tornSighting g s) := by
  have hve : (withHeld b s).ve = s.ve := rfl
  unfold tornSighting
  rw [hve]
  cases unresolvedOf s.ve.torn g.serial with
  | none => rfl
  | some r =>
    dsimp only
    split_ifs
    · have hjn : requestRemote (withHeld b s).tl (tornContent r r.kind g.origin) (withHeld b s).jn
          = requestRemote s.tl (tornContent r r.kind g.origin) s.jn := rfl
      rw [hjn]
      cases requestRemote s.tl (tornContent r r.kind g.origin) s.jn <;> rfl
    · rfl
    · rfl

theorem takeSighting_withHeld (g : Sighting) (b : Bool) (s : State) :
    takeSighting g (withHeld b s) = withHeld b (takeSighting g s) := by
  unfold takeSighting
  split_ifs
  · rfl
  · exact tornSighting_withHeld g b (postAlerts (mergeSighting g s.su).2 { s with su := (mergeSighting g s.su).1 })

theorem sightings_withHeld (gs : List Sighting) (b : Bool) (s : State) :
    gs.foldl (fun acc g => takeSighting g acc) (withHeld b s)
      = withHeld b (gs.foldl (fun acc g => takeSighting g acc) s) := by
  induction gs generalizing s with
  | nil => rfl
  | cons g gs ih => rw [List.foldl_cons, List.foldl_cons, takeSighting_withHeld, ih]

theorem withDeny_withHeld (g : DenyList → DenyList) (b : Bool) (s : State) :
    withDeny g (withHeld b s) = withHeld b (withDeny g s) := rfl

theorem applyKeyLoad_withHeld (f : Frame) (b : Bool) (s : State) :
    applyKeyLoad f (withHeld b s) = withHeld b (applyKeyLoad f s) := by
  have hsu : (withHeld b s).su = s.su := rfl
  have hcfg : (withHeld b s).cfg = s.cfg := rfl
  unfold applyKeyLoad
  rw [hsu, hcfg]
  split_ifs
  · rfl
  · rfl
  · dsimp only
    split <;> rfl

theorem applyConfigure_withHeld (f : Frame) (b : Bool) (s : State) :
    applyConfigure f (withHeld b s) = withHeld b (applyConfigure f s) := by
  unfold applyConfigure
  split_ifs
  · rfl
  · cases parseItems f.payload with
    | none => rfl
    | some items =>
      have hrefused : itemsRefused (withHeld b s) items = itemsRefused s items := rfl
      dsimp only
      rw [hrefused]
      split_ifs <;> rfl

theorem applySighting_withHeld (f : Frame) (b : Bool) (s : State) :
    applySighting f (withHeld b s) = withHeld b (applySighting f s) := by
  unfold applySighting
  rw [← broadcastEnd_withHeld]
  cases parseSightings f.payload with
  | none => rfl
  | some gs => exact congrArg (broadcastEnd f) (sightings_withHeld gs b s)

theorem applyDenyBegin_withHeld (f : Frame) (b : Bool) (s : State) :
    applyDenyBegin f (withHeld b s) = withHeld b (applyDenyBegin f s) := by
  unfold applyDenyBegin
  rw [← broadcastEnd_withHeld]
  split_ifs <;> rfl

theorem applyDenyAdd_withHeld (f : Frame) (b : Bool) (s : State) :
    applyDenyAdd f (withHeld b s) = withHeld b (applyDenyAdd f s) := by
  unfold applyDenyAdd
  rw [← broadcastEnd_withHeld]
  cases parsePairs f.payload <;> rfl

theorem applyDenyEnd_withHeld (f : Frame) (b : Bool) (s : State) :
    applyDenyEnd f (withHeld b s) = withHeld b (applyDenyEnd f s) := by
  unfold applyDenyEnd
  rw [← broadcastEnd_withHeld]
  split_ifs <;> rfl

theorem applyDenyDelta_withHeld (f : Frame) (b : Bool) (s : State) :
    applyDenyDelta f (withHeld b s) = withHeld b (applyDenyDelta f s) := by
  unfold applyDenyDelta
  rw [← broadcastEnd_withHeld]
  cases parseDelta f.payload <;> rfl

theorem applyByCode_withHeld (f : Frame) (b : Bool) (s : State) :
    applyByCode f (withHeld b s) = withHeld b (applyByCode f s) := by
  unfold applyByCode
  split_ifs
  · exact applySighting_withHeld f b s
  · exact applyDenyBegin_withHeld f b s
  · exact applyDenyAdd_withHeld f b s
  · exact applyDenyEnd_withHeld f b s
  · exact applyDenyDelta_withHeld f b s
  · exact applyKeyLoad_withHeld f b s
  · exact applyConfigure_withHeld f b s
  · rfl

end Held

/-! ## The receive slot after what waited -/

section Slot
variable {s : State}

theorem broadcastEnd_slot (f : Frame) (s : State) : (broadcastEnd f s).sl.slot = s.sl.slot := by
  unfold broadcastEnd
  split_ifs
  · rfl
  · exact sendReply_slot s f .ok []

/-- A table frame that is applied leaves the receive slot as it is. -/
theorem applyByCode_slot (f : Frame) (s : State) : (applyByCode f s).sl.slot = s.sl.slot := by
  unfold applyByCode
  split_ifs
  · refine (broadcastEnd_slot f _).trans ?_
    cases parseSightings f.payload with
    | none => rfl
    | some gs => exact congrArg StationLine.slot (takeSightings_sl gs s)
  · refine (broadcastEnd_slot f _).trans ?_
    split_ifs <;> rfl
  · refine (broadcastEnd_slot f _).trans ?_
    cases parsePairs f.payload <;> rfl
  · refine (broadcastEnd_slot f _).trans ?_
    split_ifs <;> rfl
  · refine (broadcastEnd_slot f _).trans ?_
    cases parseDelta f.payload <;> rfl
  · unfold applyKeyLoad
    split_ifs
    · rfl
    · rfl
    · dsimp only
      split <;> rfl
  · unfold applyConfigure
    split_ifs
    · rfl
    · cases parseItems f.payload with
      | none => rfl
      | some items =>
        dsimp only
        split_ifs <;> rfl
  · rfl

theorem applyWaiting_applies {f : Frame} (hslot : s.sl.slot = some f) (he : s.ve.eval = none) :
    applyWaiting s = applyByCode f { s with sl := { s.sl with slot := none } } := by
  rw [applyWaiting, hslot]
  exact if_neg (by simp [he])

theorem waitingWork_eval (s : State) : (waitingWork s).ve.eval = s.ve.eval := by rw [waitingWork_tornOnly s]

theorem runActivation_heldTest (s : State) : (runActivation s).fu.heldTest = s.fu.heldTest := by
  unfold runActivation activationTest
  cases s.fu.bankIn .ready with
  | none => rfl
  | some one =>
    dsimp only
    split_ifs
    · cases one <;> rfl
    · rfl

/-- With no evaluation in progress nothing waits any more once what waits has been made (R34, R46). -/
theorem waitingWork_done (he : s.ve.eval = none) : workWaits (waitingWork s) = false := by
  have heval : (applyWaiting s).ve.eval = none := by rw [applyWaiting_tornOnly s]; exact he
  have hslot : (applyWaiting s).sl.slot = none := by
    cases hs : s.sl.slot with
    | none =>
      have hstays : applyWaiting s = s := by rw [applyWaiting, hs]
      rw [hstays, hs]
    | some f =>
      rw [applyWaiting_applies hs he, applyByCode_slot]
  refine workWaits_eq_false.2 ⟨by rw [waitingWork, heldActivation_sl, hslot], ?_⟩
  cases htest : (applyWaiting s).fu.heldTest with
  | true =>
    rw [waitingWork, heldActivation_makes htest heval, runActivation_heldTest]
  | false =>
    rw [waitingWork, heldActivation, if_neg (by rw [htest]; exact nofun), htest]

end Slot

/-! ## The frames (R34, R35, R190, R191) -/

section Frames
variable {s : State} {f : Frame} {act : State → State}

theorem stationFrame_waits (htx : s.sl.tx = none) (haccept : acceptedFrame f s = true) (hlen : f.payload.length ≤ 96)
    (hslot : s.sl.slot = none) (he : s.ve.eval.isSome = true) (hcode : waitsForEvaluation f.code = true) :
    stationFrame f act s = { s with sl := { s.sl with slot := some f } } := by
  simp [stationFrame, htx, haccept, Nat.not_lt.2 hlen, he, hslot, hcode]

theorem stationFrame_free (htx : s.sl.tx = none) (haccept : acceptedFrame f s = true) (hlen : f.payload.length ≤ 96)
    (he : s.ve.eval = none) (hwork : workWaits s = false) : stationFrame f act s = act s := by
  simp [stationFrame, htx, haccept, Nat.not_lt.2 hlen, he, hwork]

theorem stationFrame_behind (htx : s.sl.tx = none) (haccept : acceptedFrame f s = true) (hlen : f.payload.length ≤ 96)
    (he : s.ve.eval = none) (hwork : workWaits s = true) : stationFrame f act s = afterWaiting act s := by
  simp [stationFrame, htx, haccept, Nat.not_lt.2 hlen, he, hwork]

/-- A command that is a frame at the station line, with an effect of its own (R190). -/
def IsFrame (f : Frame) (c : Instr) : Prop := ∃ act, ∀ s, exec c s = .next (stationFrame f act s)

theorem isFrame_ite {p : Prop} [Decidable p] {c d : Instr} (hc : p → IsFrame f c) (hd : IsFrame f d) :
    IsFrame f (if p then c else d) := by
  by_cases h : p
  · rw [if_pos h]; exact hc h
  · rw [if_neg h]; exact hd

/-- Every station command is one (R192). -/
theorem isFrame_stationCommand (addr code : Byte) (payload : List Byte) :
    IsFrame { addr := addr, code := code, payload := payload } (stationCommand addr code payload) := by
  unfold stationCommand
  repeat refine isFrame_ite (by rintro rfl; exact ⟨_, fun _ => rfl⟩) ?_
  refine isFrame_ite ?maint ?_
  case maint =>
    rintro rfl
    exact isFrame_ite (by rintro rfl; exact ⟨_, fun _ => rfl⟩) ⟨_, fun _ => rfl⟩
  repeat refine isFrame_ite (by rintro rfl; exact ⟨_, fun _ => rfl⟩) ?_
  exact ⟨_, fun _ => rfl⟩

theorem acceptedFrame_iff (f : Frame) (s : State) : acceptedFrame f s = true
    ↔ (f.addr ≠ 0 ∧ f.addr.toNat = s.cfg.unitAddress) ∨ (f.addr = 0 ∧ 32 ≤ f.code.toNat ∧ f.code.toNat ≤ 41) := by
  have hzero : f.addr.toNat ≠ 0 ↔ f.addr ≠ 0 := not_congr ⟨fun h => BitVec.eq_of_toNat_eq h, fun h => by rw [h]; rfl⟩
  rw [acceptedFrame, toUnit, Bool.or_eq_true, Bool.and_eq_true, Bool.and_eq_true, beq_iff_eq, bne_iff_ne, hzero, beq_iff_eq,
    isBroadcast, decide_eq_true_eq, and_comm]

/-- The frames that wait for an evaluation, by their commands (R34). -/
theorem exec_tableFrame {addr code : Byte} {payload : List Byte} {c : Instr}
    (hc : c = .sighting addr payload ∧ code = 0x21 ∨ c = .denyBaseBegin addr payload ∧ code = 0x23
      ∨ c = .denyBaseAdd addr payload ∧ code = 0x24 ∨ c = .denyBaseEnd addr payload ∧ code = 0x25
      ∨ c = .denyDelta addr payload ∧ code = 0x26 ∨ c = .keyLoad addr payload ∧ code = 0x42
      ∨ c = .configure addr payload ∧ code = 0x43) :
    waitsForEvaluation code = true ∧ ∀ s, exec c s = .next (stationFrame { addr := addr, code := code, payload := payload }
      (applyByCode { addr := addr, code := code, payload := payload }) s) := by
  rcases hc with ⟨rfl, rfl⟩ | ⟨rfl, rfl⟩ | ⟨rfl, rfl⟩ | ⟨rfl, rfl⟩ | ⟨rfl, rfl⟩ | ⟨rfl, rfl⟩ | ⟨rfl, rfl⟩ <;>
    exact ⟨rfl, fun _ => rfl⟩

/-- Settles O35. -/
theorem tableFramesWait : Obligations.TableFramesWait := by
  refine ⟨fun addr payload s c code hlen htx hc haccept => ?table, ?behind, acceptedFrame_iff⟩
  case table =>
    obtain ⟨hwaits, hexec⟩ := exec_tableFrame hc
    refine ⟨fun hslot he => (hexec s).trans (congrArg _ (stationFrame_waits htx haccept hlen hslot he hwaits)),
      fun hslot he => ⟨_, rfl, applyWaiting_fu s, ?_⟩⟩
    rw [hexec, stationFrame_free (by exact htx) (by exact haccept) hlen (by exact he) (workWaits_eq_false.2 ⟨rfl, rfl⟩),
      applyWaiting_applies hslot he]
    exact congrArg Host.Outcome.next (applyByCode_withHeld _ false { s with sl := { s.sl with slot := none } })
  case behind =>
    intro addr code payload s u w hlen htx hwork he hu hw haccept haccept'
    obtain ⟨act, hexec⟩ := isFrame_stationCommand addr code payload
    obtain rfl := waitingWork_of_exec hu hw
    have hwaits : workWaits s = true := by simpa [workWaits] using hwork
    have heval : (waitingWork s).ve.eval = none := (waitingWork_eval s).trans he
    have hdone := waitingWork_done he
    have hbehind := stationFrame_behind (act := act) htx haccept hlen he hwaits
    refine ⟨fun hnone => ?_, fun first hfirst => ?_⟩
    · rw [hexec, hexec, hbehind, stationFrame_free hnone haccept' hlen heval hdone]
      exact congrArg _ (by simp only [afterWaiting, hnone])
    · refine ⟨act { waitingWork s with sl := { (waitingWork s).sl with tx := none } }, ?_, ?_⟩
      · rw [hexec, stationFrame_free (by rfl) (by exact haccept') hlen (by exact heval) (by exact hdone)]
      · rw [hexec, hbehind]
        exact congrArg _ (by simp only [afterWaiting, hfirst])

end Frames

end Sys2Proof.Machine
end

