-- ==== Sys2Proof/Proofs/TurnedAway.lean ====
section
/-! PROOFS. Frames that are turned away, lost, discarded, ignored or abandoned (R66, R185, R186, R190 to R192, R195). -/

namespace Sys2Proof.Machine

/-! ## Lane commands -/

section Lane
variable {s : State} {p : Port} {payload : List Byte}

theorem exec_tap (h : payload.length ≤ 40) : exec (.tap p payload) s = .next (takeTap p payload s) :=
  congrArg Host.Outcome.next (if_neg (by omega))

theorem laneBare_refused (act : State → State) (hlen : payload.length ≤ 40) (hne : payload ≠ []) :
    laneBare p payload act s = laneAnswer p .refused s := by
  obtain ⟨hlong, -⟩ | ⟨-, h⟩ | ⟨hnil, -⟩ := laneBare_eq p payload act s
  · omega
  · exact h
  · exact absurd hnil hne

end Lane

/-! ## The bytes of a frame (R185, R190) -/

section Bytes
variable {limit : Nat} {len : Byte} {payload rest bytes : List Byte} {check : Word16}

theorem checkBytes_length (w : Word16) : (checkBytes w).length = 2 := rfl

theorem ofNat_beNat_checkBytes (w : Word16) : BitVec.ofNat 16 (beNat (checkBytes w)) = w := by
  apply BitVec.eq_of_toNat_eq
  have := w.isLt
  simp [checkBytes, beBytes, beNat]
  omega

theorem takeBody_none (h : limit < len.toNat ∨ rest.length < len.toNat + 2) : takeBody limit len rest = none := if_pos h

/-- A frame's payload and its check, whatever follows them. -/
theorem takeBody_sent (check : Word16) (rest : List Byte) (hlen : len.toNat = payload.length) (hfits : payload.length ≤ limit) :
    takeBody limit len (payload ++ checkBytes check ++ rest) = some (payload, check) := by
  have hnot : ¬ (limit < len.toNat ∨ (payload ++ checkBytes check ++ rest).length < len.toNat + 2) := by
    simp [checkBytes_length, hlen]
    omega
  rw [takeBody, if_neg hnot, hlen, List.append_assoc, List.take_left, List.drop_left,
    List.take_left' (checkBytes_length check), ofNat_beNat_checkBytes]

theorem takenFrame_short (h : bytes.length < 2) : takenFrame bytes = none := by
  rcases bytes with _ | ⟨a, _ | ⟨b, bs⟩⟩
  · rfl
  · rfl
  · simp at h

theorem decodeStation_marked (bytes : List Byte) : decodeStation (0xA5#8 :: bytes) = some (decodeStationFrame (0xA5#8 :: bytes)) := by
  simp [decodeStation]

theorem decodeStation_unmarked (h : ∀ b ∈ bytes, b ≠ 0xA5#8) : decodeStation bytes = none := by
  have hnone : bytes.dropWhile (fun b => b != 0xA5) = [] := List.dropWhile_eq_nil_iff.2 fun b hb => by simpa using h b hb
  exact if_pos hnone

theorem decodeStationFrame_short (h : bytes.length < 3) : decodeStationFrame (0xA5#8 :: bytes) = .stationFrameAbandon := by
  rcases bytes with _ | ⟨a, _ | ⟨b, _ | ⟨c, bs⟩⟩⟩
  · rfl
  · rfl
  · rfl
  · simp at h
    omega

end Bytes

/-! ## Station frames (R190 to R192) -/

section Station
variable {s : State} {f : Frame} {c : Instr}

theorem exec_frame_busy (hc : IsFrame f c) (h : s.sl.tx.isSome = true) : exec c s = .next s := by
  obtain ⟨act, hexec⟩ := hc
  rw [hexec, stationFrame, if_pos h]

theorem exec_frame_unaccepted (hc : IsFrame f c) (h : acceptedFrame f s = false) : exec c s = .next s := by
  obtain ⟨act, hexec⟩ := hc
  rw [hexec, stationFrame]
  split_ifs <;> simp_all

theorem exec_frame_overrun (hc : IsFrame f c) (htx : s.sl.tx = none) (haccept : acceptedFrame f s = true)
    (hlen : f.payload.length ≤ 96) (hslot : s.sl.slot.isSome = true) (he : s.ve.eval.isSome = true) :
    exec c s = .next { s with sl := { s.sl with overrun := true } } := by
  obtain ⟨act, hexec⟩ := hc
  rw [hexec]
  simp [stationFrame, htx, haccept, Nat.not_lt.2 hlen, hslot, he]

theorem takeOverrun_meets (htx : s.sl.tx = none) (haccept : acceptedFrame f s = true) (hlen : f.payload.length ≤ 96)
    (hslot : s.sl.slot.isSome = true) : takeOverrun f s = { s with sl := { s.sl with overrun := true } } := by
  simp [takeOverrun, htx, haccept, hlen, hslot]

/-- An undefined code is no code that waits for an evaluation. -/
theorem not_waits_of_undefined {code : Byte} (h : stationCodeDefined code = false) : waitsForEvaluation code = false := by
  refine Bool.eq_false_iff.2 fun hw => Bool.eq_false_iff.1 h ?_
  simp only [waitsForEvaluation, Bool.or_eq_true, beq_iff_eq] at hw
  rcases hw with (((((rfl | rfl) | rfl) | rfl) | rfl) | rfl) | rfl <;> rfl

/-- Settles O29. -/
theorem framesTurnedAway : Obligations.FramesTurnedAway := by
  refine ⟨fun p payload s hlen => ⟨fun h32 => ?short, fun h32 hbusy => ?busy, fun code => ?unknown, fun hne c hc => ?bare⟩,
    fun p s => rfl, ?lane, fun addr code payload check s => rfl, fun s => rfl, ?decode,
    fun addr code payload s hlen => ?station⟩
  case short =>
    rw [exec_tap hlen, takeTap, if_pos h32]
    rfl
  case busy =>
    rw [exec_tap hlen, takeTap, if_neg (by simpa using h32), if_pos hbusy]
    rfl
  case unknown => exact congrArg Host.Outcome.next (if_neg (by omega))
  case bare =>
    rcases hc with rfl | rfl | rfl | rfl | rfl | rfl <;> exact congrArg Host.Outcome.next (laneBare_refused _ hlen hne)
  case lane =>
    intro p code len bytes payload rest check
    refine ⟨fun h => ?_, fun h => ?_, fun hlen hcheck => ?_⟩
    · rw [decodeSelection, takenFrame_short h]
    · simp only [decodeSelection, takenFrame, takeBody_none h]
    · by_cases hfits : payload.length ≤ 40
      · simp only [decodeSelection, takenFrame, List.cons_append, takeBody_sent check rest hlen hfits, if_neg hcheck]
      · simp only [decodeSelection, takenFrame, List.cons_append, takeBody_none (limit := 40) (len := len) (.inl (by omega))]
  case decode =>
    intro addr code len bytes payload rest check
    refine ⟨decodeStation_unmarked, fun h => ?_, fun h => ?_, fun hlen hfits hcheck => ?_⟩
    · rw [decodeStation_marked, decodeStationFrame_short h]
    · rw [decodeStation_marked]
      simp only [decodeStationFrame, takeBody_none h]
    · simp only [List.cons_append, decodeStation_marked, decodeStationFrame, takeBody_sent check rest hlen hfits,
        if_neg hcheck]
  case station =>
    have hframe := isFrame_stationCommand addr code payload
    have hunit : addr.toNat = s.cfg.unitAddress → addr ≠ 0 →
        acceptedFrame { addr := addr, code := code, payload := payload } s = true := fun h hne =>
      (acceptedFrame_iff _ s).2 (.inl ⟨hne, h⟩)
    have hall : 32 ≤ code.toNat → code.toNat ≤ 41 →
        acceptedFrame { addr := 0, code := code, payload := payload } s = true := fun hlow hhigh =>
      (acceptedFrame_iff _ s).2 (.inr ⟨rfl, hlow, hhigh⟩)
    refine ⟨fun htx hslot he haddr hne => exec_frame_overrun hframe htx (hunit haddr hne) hlen hslot he,
      fun htx hslot haddr hne => congrArg _ (takeOverrun_meets htx (hunit haddr hne) hlen hslot), exec_frame_busy hframe,
      fun hne haddr => exec_frame_unaccepted hframe (Bool.eq_false_iff.2 fun h => ?_), fun hcode =>
        exec_frame_unaccepted (isFrame_stationCommand 0 code payload) (Bool.eq_false_iff.2 fun h => ?_),
      fun htx hslot hlow hhigh => ⟨fun he => exec_frame_overrun (isFrame_stationCommand 0 code payload) htx
        (hall hlow hhigh) hlen hslot he, congrArg _ (takeOverrun_meets htx (hall hlow hhigh) hlen hslot)⟩,
      fun hready hcode => ?_, fun hready hone hop => ?_⟩
    · obtain ⟨-, heq⟩ | ⟨hzero, -⟩ := (acceptedFrame_iff _ s).1 h
      · exact haddr heq
      · exact hne hzero
    · obtain ⟨hne, -⟩ | ⟨-, hlow, hhigh⟩ := (acceptedFrame_iff _ s).1 h
      · exact hne rfl
      · have hlow' : 32 ≤ code.toNat := hlow
        have hhigh' : code.toNat ≤ 41 := hhigh
        omega
    · refine congrArg Host.Outcome.next ((stationFrame_ready_of_not_waits _ hready (not_waits_of_undefined hcode) hlen).trans ?_)
      exact if_neg hready.2.2
    · refine congrArg Host.Outcome.next ((stationFrame_ready_of_not_waits _ hready rfl hlen).trans ?_)
      exact (if_pos hone).trans (if_neg hop)

end Station

end Sys2Proof.Machine
end

