-- ==== Sys2Proof/Proofs/Status.lean ====
section
/-! PROOFS. READ_STATUS, READ_HALT and the outputs (R142, R152, R186 to R190). -/

namespace Sys2Proof.Machine

section Codes

theorem leafCode_of_index {l : Leaf} {n : Nat} (h : [Leaf.closed, .opening, .opened, .closing, .released][n]? = some l) :
    leafCode l = n := by
  rcases n with _ | _ | _ | _ | _ | n <;> cases h <;> rfl

theorem violationCode_of_index {v : Option Violation} {n : Nat}
    (h : [none, some Violation.tailgate, some Violation.contraflow][n]? = some v) : violationCode v = n := by
  rcases n with _ | _ | _ | n <;> cases h <;> rfl

theorem tapCode_of_index {t : TapState} {n : Nat}
    (h : [TapState.idle, .queued, .evaluating, .verdictReady, .awaitingWrite, .committing][n]? = some t) : tapCode t = n := by
  rcases n with _ | _ | _ | _ | _ | _ | n <;> cases h <;> rfl

theorem targetCode_of_index {t : Option Target} {n : Nat}
    (h : [none, some Target.toOpen, some Target.toClosed][n]? = some t) : targetCode t = n := by
  rcases n with _ | _ | _ | n <;> cases h <;> rfl

theorem haltCodeNum_of_index {c : Option HaltCode} {n : Nat}
    (h : [none, some HaltCode.doubleFault, some HaltCode.stopConflict][n]? = some c) : haltCodeNum c = n := by
  rcases n with _ | _ | _ | n <;> cases h <;> rfl

theorem flagByte_flags (a b c d e f g h : Bool) : flagByte [a, b, c, d, e, f, g, h]
    = bitNat a + 2 * bitNat b + 4 * bitNat c + 8 * bitNat d + 16 * bitNat e + 32 * bitNat f + 64 * bitNat g
      + 128 * bitNat h := by
  simp only [flagByte_cons, flagByte_nil]
  omega

end Codes

section Reads
variable {s : State} {p : Port} {payload : List Byte}

theorem exec_readStatus (h : payload.length ≤ 40) : exec (.readStatus p payload) s = .next (takeReadStatus p s) :=
  congrArg Host.Outcome.next (if_neg (by omega))

theorem exec_readHalt (h : payload.length ≤ 40) : exec (.readHalt p payload) s = .next (takeReadHalt p s) :=
  congrArg Host.Outcome.next (if_neg (by omega))

/-- Two status records show the same where they differ in FRAME_ERROR at most (R188). -/
theorem shown_eq_iff (r x : StatusRecord) : r.shown = x.shown
    ↔ ({ r with frameError := true } : StatusRecord) = { x with frameError := true } := by
  simp [StatusRecord.shown]

theorem attention_iff (s : State) (p : Port) : attention s p = true ↔ (s.port p).tap = .verdictReady
    ∨ (s.port p).snapshot = none ∨ ∃ r, (s.port p).snapshot = some r ∧ ({ r with frameError := true } : StatusRecord)
      ≠ { statusRecord s p with frameError := true } := by
  rw [attention, Bool.or_eq_true, beq_iff_eq]
  refine or_congr_right ?_
  cases (s.port p).snapshot with
  | none => simp
  | some r =>
    rw [bne_iff_ne, Ne, shown_eq_iff]
    refine ⟨fun h => .inr ⟨r, rfl, h⟩, ?_⟩
    rintro (h | ⟨x, hx, h⟩)
    · cases h
    · cases hx
      exact h

/-- Right after READ_STATUS attention shows an unread verdict alone (R188; log 38). -/
theorem attention_takeReadStatus (p : Port) (s : State) :
    attention (takeReadStatus p s) p = true ↔ (s.port p).tap = .verdictReady := by
  have hport : (takeReadStatus p s).port p = { s.port p with
      shiftOut := laneReply (byteOf (lastCode (s.port p).last) :: statusBytes (statusRecord s p))
      snapshot := some (statusRecord s p)
      frameError := false } := setPort_port_same s p _
  have hrecord : { statusRecord (takeReadStatus p s) p with frameError := true }
      = { statusRecord s p with frameError := true } := by
    simp only [statusRecord, hport]
    cases p <;> rfl
  rw [attention_iff, hport, hrecord]
  simp

theorem driveOutputs_eq (l : Leaf) : driveOutputs l
    = (decide (l = .opening), decide (l = .closing), decide (l = .closed ∨ l = .opened)) := by cases l <;> rfl

/-- Settles O27. -/
theorem readStatusAndHalt : Obligations.ReadStatusAndHalt := by
  refine ⟨fun p payload s hlen => ⟨exec_readStatus hlen, exec_readHalt hlen⟩, fun p s => ⟨attention_iff s p,
    fun payload t hlen ht => ?attention, Option.isSome_iff_exists, Option.isSome_iff_exists⟩, driveOutputs_eq, rfl, ?status,
    ?halt⟩
  case attention =>
    rw [exec_readStatus hlen] at ht
    cases ht
    exact attention_takeReadStatus p s
  case status =>
    intro p s leaf dir link viol tap bit hleaf hdir hlink hviol htap
    simp only [statusBytes, statusRecord, leafCode_of_index hleaf, dirCode_of_index hdir, linkCode_of_index hlink,
      violationCode_of_index hviol, tapCode_of_index htap, flagByte_six, flagByte_flags]
    rfl
  case halt =>
    intro h code leaf tgt bit hcode hleaf htgt
    rw [haltBytes, haltCodeNum_of_index hcode, leafCode_of_index hleaf, targetCode_of_index htgt, flagByte_six,
      flagByte_two, beBytes_four]
    rfl

end Reads

end Sys2Proof.Machine
end

