-- ==== Sys2Proof/Proofs/Images.lean ====
section
/-! PROOFS. Numbers and their bytes, most significant first; the fields of a card image and its 32 bytes determine each other,
and an image the part signs verifies under its signing key (R5, R6, R9). -/

namespace Sys2Proof.Machine

/-! ## Numbers and their bytes -/

theorem beNat_append_singleton (bs : List Byte) (b : Byte) : beNat (bs ++ [b]) = beNat bs * 256 + b.toNat := by
  simp [beNat, List.foldl_append]

theorem fieldAt_zero (bs : List Byte) (i : Nat) : fieldAt bs i 0 = 0 := by simp [fieldAt, beNat]

theorem fieldAt_succ {bs : List Byte} {i n : Nat} {b : Byte} (h : bs[i + n]? = some b) :
    fieldAt bs i (n + 1) = fieldAt bs i n * 256 + b.toNat := by
  have hb : (bs.drop i)[n]? = some b := by rw [List.getElem?_drop, h]
  rw [fieldAt, fieldAt, List.take_add_one, hb, Option.toList_some, beNat_append_singleton]

theorem beNat_eq_fieldAt (bs : List Byte) : beNat bs = fieldAt bs 0 bs.length := by simp [fieldAt]

@[simp] theorem beBytes_length (k n : Nat) : (beBytes k n).length = k := by
  induction k with
  | zero => rfl
  | succ k ih => rw [beBytes, List.length_cons, ih]

theorem beNat_append (front back : List Byte) : beNat (front ++ back) = beNat front * 256 ^ back.length + beNat back := by
  induction back using List.reverseRecOn with
  | nil => simp [beNat]
  | append_singleton back b ih =>
    rw [← List.append_assoc, beNat_append_singleton, ih, beNat_append_singleton, List.length_append, List.length_singleton,
      Nat.pow_succ]
    ring

theorem beNat_cons (b : Byte) (bs : List Byte) : beNat (b :: bs) = b.toNat * 256 ^ bs.length + beNat bs := by
  have h := beNat_append [b] bs
  simpa [beNat] using h

theorem beNat_lt (bs : List Byte) : beNat bs < 256 ^ bs.length := by
  induction bs with
  | nil => simp [beNat]
  | cons b bs ih =>
    have hb := b.isLt
    rw [beNat_cons, List.length_cons, Nat.pow_succ]
    nlinarith

theorem beNat_beBytes (k n : Nat) : beNat (beBytes k n) = n % 256 ^ k := by
  induction k with
  | zero => simp [beBytes, beNat, Nat.mod_one]
  | succ k ih =>
    have hp : 256 ^ (k + 1) = 256 ^ k * 256 := Nat.pow_succ 256 k
    rw [beBytes, beNat_cons, ih, beBytes_length, BitVec.toNat_ofNat, hp, Nat.mod_mul, Nat.add_comm, Nat.mul_comm]

/-- Only the low bytes of a number stand in its bytes. -/
theorem beBytes_mod (k n : Nat) : beBytes k (n % 256 ^ k) = beBytes k n := by
  have hone : ∀ (j m : Nat), j ≤ k → beBytes j (m % 256 ^ k) = beBytes j m := by
    intro j
    induction j with
    | zero => intro m _; rfl
    | succ j ih =>
      intro m hj
      have hp : 256 ^ k = 256 ^ j * (256 * 256 ^ (k - (j + 1))) := by
        rw [← Nat.pow_succ', ← Nat.pow_add]
        congr 1
        omega
      rw [beBytes, beBytes, ih m (by omega)]
      congr 1
      refine BitVec.eq_of_toNat_eq ?_
      rw [BitVec.toNat_ofNat, BitVec.toNat_ofNat, hp, Nat.mod_mul_right_div_self, Nat.mod_mul_right_mod]
  exact hone k n (Nat.le_refl k)

theorem beBytes_beNat (bs : List Byte) : beBytes bs.length (beNat bs) = bs := by
  induction bs with
  | nil => rfl
  | cons b bs ih =>
    have hlt := beNat_lt bs
    have hpos : 0 < 256 ^ bs.length := Nat.pos_of_ne_zero (by simp)
    have htop : beNat (b :: bs) / 256 ^ bs.length = b.toNat := by
      rw [beNat_cons, Nat.add_comm, Nat.add_mul_div_right _ _ hpos, Nat.div_eq_of_lt hlt, Nat.zero_add]
    have hlow : beNat (b :: bs) % 256 ^ bs.length = beNat bs := by
      rw [beNat_cons, Nat.add_comm, Nat.add_mul_mod_self_right, Nat.mod_eq_of_lt hlt]
    rw [List.length_cons, beBytes, htop, BitVec.ofNat_toNat, BitVec.setWidth_eq, ← beBytes_mod, hlow, ih]

theorem fieldAt_lt (bs : List Byte) (i k : Nat) : fieldAt bs i k < 256 ^ k :=
  Nat.lt_of_lt_of_le (beNat_lt _) (Nat.pow_le_pow_right (by omega) (List.length_take_le k _))

theorem beBytes_fieldAt {bs : List Byte} {i k : Nat} (h : i + k ≤ bs.length) :
    beBytes k (fieldAt bs i k) = (bs.drop i).take k := by
  have hlen : ((bs.drop i).take k).length = k := by simp; omega
  have h1 := beBytes_beNat ((bs.drop i).take k)
  rwa [hlen] at h1

/-! ## The fields of bytes put one after the other -/

theorem fieldAt_here (k n : Nat) (rest : List Byte) : fieldAt (beBytes k n ++ rest) 0 k = n % 256 ^ k := by
  rw [fieldAt, List.drop_zero, List.take_left' (beBytes_length k n), beNat_beBytes]

theorem fieldAt_last (k n : Nat) : fieldAt (beBytes k n) 0 k = n % 256 ^ k := by
  simpa using fieldAt_here k n []

theorem fieldAt_skip {k i : Nat} (h : k ≤ i) (n len : Nat) (rest : List Byte) :
    fieldAt (beBytes k n ++ rest) i len = fieldAt rest (i - k) len := by
  rw [fieldAt, fieldAt, List.drop_append, List.drop_eq_nil_of_le (by simpa using h), beBytes_length, List.nil_append]

/-! ## Card images (layout table of chapter 11) -/

theorem signed24_emod {i : Int} (hlo : -8388608 ≤ i) (hhi : i < 8388608) : signed24 (i % 16777216).toNat = i := by
  unfold signed24
  split_ifs <;> omega

theorem be24_signed24 {n : Nat} (h : n < 16777216) : be24 (signed24 n) = beBytes 3 n := by
  have hn : (signed24 n % 16777216).toNat = n := by
    unfold signed24
    split_ifs <;> omega
  rw [be24, hn]

theorem bitNat_lt (b : Bool) : bitNat b < 2 := by cases b <;> decide

/-- A bit as a number tells the bit. -/
theorem decide_bitNat {n : Nat} {b : Bool} (h : n = bitNat b) : decide (n = 1) = b := by
  subst h
  cases b <;> rfl

theorem bitNat_decide_mod (n : Nat) : bitNat (decide (n % 2 = 1)) = n % 2 := by
  have h := Nat.mod_two_eq_zero_or_one n
  rcases h with h | h <;> simp [bitNat, h]

theorem parseImage_imageBytes {c : CardImage} (h : ImageInRange c) : parseImage (imageBytes c) = c := by
  obtain ⟨hserial, hformat, hkey, hcls, hseq, ⟨hlo, hhi⟩, hflags, hstation, hzone, hday, hminute, hspare, hexitDay,
    hexitMinute, hspendDay, hspend, hexpiry, hlow, hhigh⟩ := h
  have hpass := bitNat_lt c.pass
  have hbit := bitNat_lt c.spareBit
  have hj := bitNat_lt c.journeyIn
  have ho := bitNat_lt c.overdraft
  have he := bitNat_lt c.exitRecorded
  have hbalance : signed24 ((c.balance % 16777216).toNat % 16777216) = c.balance := by
    rw [Nat.mod_eq_of_lt (by omega), signed24_emod hlo hhi]
  have hcheck : BitVec.ofNat 16 (c.check.toNat % 65536) = c.check := by
    rw [Nat.mod_eq_of_lt c.check.isLt, BitVec.ofNat_toNat, BitVec.setWidth_eq]
  cases c
  simp only [parseImage, imageBytes, imageBody, be24, checkBytes, List.append_assoc, fieldAt_here, fieldAt_last,
    fieldAt_skip, Nat.reduceLeDiff, Nat.reduceSub, Nat.le_refl, Nat.reducePow, CardImage.mk.injEq] at *
  refine ⟨by omega, by omega, by omega, decide_bitNat (by omega), by omega, decide_bitNat (by omega), by omega, hbalance,
    decide_bitNat (by omega), decide_bitNat (by omega), decide_bitNat (by omega), by omega, by omega, by omega, by omega,
    by omega, by omega, by omega, by omega, by omega, by omega, by omega, by omega, by omega, hcheck⟩

theorem imageInRange_parseImage (bs : List Byte) : ImageInRange (parseImage bs) := by
  have h1 (i : Nat) : fieldAt bs i 1 < 256 := fieldAt_lt bs i 1
  have h2 (i : Nat) : fieldAt bs i 2 < 65536 := fieldAt_lt bs i 2
  have hbalance : -8388608 ≤ signed24 (fieldAt bs 8 3) ∧ signed24 (fieldAt bs 8 3) < 8388608 := by
    have := fieldAt_lt bs 8 3
    unfold signed24
    split_ifs <;> omega
  have hkey := h1 5
  have hflags := h1 11
  have hstation := h2 12
  have hzones := h1 29
  exact ⟨fieldAt_lt bs 0 4, h1 4, by simp only [parseImage]; omega, by simp only [parseImage]; omega, h2 6, hbalance,
    by simp only [parseImage]; omega, by simp only [parseImage]; omega, by simp only [parseImage]; omega, h2 14, h2 16,
    h1 18, h2 19, h2 21, h2 23, h2 25, h2 27, by simp only [parseImage]; omega, by simp only [parseImage]; omega⟩

/-- Each byte that the layout packs of several fields is put together from them again. -/
theorem packed_bytes (n : Nat) :
    n / 32 * 32 + bitNat (decide (n / 16 % 2 = 1)) * 16 + n / 2 % 8 * 2 + bitNat (decide (n % 2 = 1)) = n
      ∧ n / 8 * 8 + bitNat (decide (n / 4 % 2 = 1)) * 4 + bitNat (decide (n / 2 % 2 = 1)) * 2
          + bitNat (decide (n % 2 = 1)) = n
      ∧ n / 16 * 16 + n % 16 = n := by
  simp only [bitNat_decide_mod]
  omega

theorem imageBytes_parseImage {bs : List Byte} (h : bs.length = 32) : imageBytes (parseImage bs) = bs := by
  have hcheck : beBytes 2 (BitVec.ofNat 16 (fieldAt bs 30 2)).toNat = beBytes 2 (fieldAt bs 30 2) :=
    beBytes_mod 2 _
  have hpart {i k : Nat} (hik : i + k ≤ 32) : beBytes k (fieldAt bs i k) = (bs.drop i).take k :=
    beBytes_fieldAt (by omega)
  simp only [imageBytes, imageBody, parseImage, packed_bytes, be24_signed24 (fieldAt_lt bs 8 3), checkBytes, hcheck, hpart,
    Nat.reduceAdd, Nat.reduceLeDiff, List.drop_zero, ← List.take_add]
  exact List.take_of_length_le (Nat.le_of_eq h)

theorem imageBytes_length (c : CardImage) : (imageBytes c).length = 32 := by
  simp only [imageBytes, imageBody, be24, checkBytes, List.length_append, beBytes_length]

theorem imageBody_length (c : CardImage) : (imageBody c).length = 30 := by
  simp only [imageBody, be24, List.length_append, beBytes_length]

/-! ## The check generator and a signed image (R5, R6, R9) -/

/-- The bit a register moves out is its top bit, and 1021h is combined exactly where the bit taken in differs from it. -/
theorem crcBit_eq (r : Word16) (bit : Bool) :
    crcBit r bit = if bit = r.getLsbD 15 then r <<< 1 else r <<< 1 ^^^ 0x1021#16 := by
  unfold crcBit
  rw [BitVec.msb_eq_getLsbD_last]
  cases bit <;> cases r.getLsbD 15 <;> simp

theorem checkWord_eq {key : Word16} {body rest : List Byte} (h : body.length = 30) :
    checkWord key (body ++ rest) = crc key body := by
  rw [checkWord, List.take_left' h]

theorem signingPresent_active_iff (su : Screening) (cfg : Settings) :
    signingPresent su cfg = true ↔ ∃ k, su.keys[cfg.signingKey]? = some k ∧ k.state = .active := by
  rw [signingPresent_iff, Option.map_eq_some_iff]

theorem signImage_eq (su : Screening) (signing : Nat) (c : CardImage) :
    ∃ check, signImage su signing c = { c with keyIndex := signing, check := check } := ⟨_, rfl⟩

theorem imageInRange_signImage {su : Screening} {signing : Nat} {c : CardImage} (hkey : signing ≤ 7)
    (h : ImageInRange c) : ImageInRange (signImage su signing c) := by
  obtain ⟨hserial, hformat, -, hrest⟩ := h
  exact ⟨hserial, hformat, Nat.lt_succ_of_le hkey, hrest⟩

theorem parseImage_signedBytes {s : State} {c : CardImage} (hkey : s.cfg.signingKey ≤ 7) (h : ImageInRange c) :
    parseImage (signedBytes s c) = signImage s.su s.cfg.signingKey c :=
  parseImage_imageBytes (imageInRange_signImage hkey h)

/-- The check a signed image carries is the check of its bytes under the signing key's word. -/
theorem checkWord_signedBytes {s : State} {c : CardImage} {k : KeyEntry} (hk : s.su.keys[s.cfg.signingKey]? = some k) :
    checkWord k.word (signedBytes s c) = (signImage s.su s.cfg.signingKey c).check := by
  rw [signedBytes, imageBytes, checkWord_eq (imageBody_length _)]
  simp only [signImage, hk, Option.map_some, Option.getD_some, imageBody]

/-- Settles O18. -/
theorem signedImageVerifies : Obligations.SignedImageVerifies := by
  unfold Obligations.SignedImageVerifies
  refine ⟨?generator, fun _ _ _ h => checkWord_eq h, signingPresent_active_iff, ?fields, ?verifies⟩
  case generator =>
    intro r b bs next hnext
    have hbit : crcBit = next := by
      funext x bit
      rw [crcBit_eq, hnext]
    subst hbit
    exact ⟨rfl, rfl⟩
  case fields =>
    intro s c hkey h
    rw [parseImage_signedBytes hkey h]
    exact ⟨imageBytes_length _, signImage_eq s.su s.cfg.signingKey c⟩
  case verifies =>
    intro s c hpresent hkey h
    obtain ⟨k, hk, hactive⟩ := (signingPresent_active_iff s.su s.cfg).1 hpresent
    rw [parseImage_signedBytes hkey h]
    refine ⟨rfl, k.word, (usableKey_some_iff _ _ _).2 ⟨k, hk, ?_, rfl⟩, checkWord_signedBytes hk⟩
    rw [hactive]
    decide

end Sys2Proof.Machine
end

