-- ==== Sys2Proof/Proofs/Frames.lean ====
section
/-! PROOFS. Lane and station frames: the bytes a command is sent as are decoded as that command, and what a lane selection
shifts out (R185, R186, R190, R192). -/

namespace Sys2Proof.Machine

/-! ## Lane frames (R185, R186) -/

section Lane
variable {c : Instr} {p : Port} {code : Byte} {payload bytes : List Byte}

theorem laneCommand_undefined (h : laneCodeDefined code = false) :
    laneCommand p code payload = .laneUnknownCommand p code payload := by
  have hne (x : Byte) (hx : laneCodeDefined x = true) : code ≠ x := by
    rintro rfl
    rw [h] at hx
    cases hx
  simp (disch := decide) only [laneCommand, hne, if_false]

/-- A lane command that a frame can carry is sent as the frame of a code and a payload which the decoder gives back. -/
theorem laneCommand_sent (hwf : wellFormed c = true) (h : laneCommandBytes c = some (p, bytes)) :
    ∃ code payload, bytes = laneFrameBytes code payload ∧ payload.length ≤ 40 ∧ laneCommand p code payload = c := by
  cases c
  case laneUnknownCommand q code payload =>
    cases h
    obtain ⟨hcode, hlen⟩ := Bool.and_eq_true_iff.1 hwf
    exact ⟨code, payload, rfl, of_decide_eq_true hlen, laneCommand_undefined (by simpa using hcode)⟩
  all_goals cases h
  all_goals exact ⟨_, _, rfl, of_decide_eq_true hwf, rfl⟩

theorem laneCommand_ne_discard (q : Port) : laneCommand p code payload ≠ .laneFrameDiscard q := by
  unfold laneCommand
  split_ifs <;> exact Instr.noConfusion

theorem takenFrame_of_discard (h : decodeSelection p bytes = .laneFrameDiscard p) : takenFrame bytes = none := by
  cases hf : takenFrame bytes with
  | none => rfl
  | some frame =>
    rw [decodeSelection, hf] at h
    exact absurd h (laneCommand_ne_discard p)

theorem laneFrameBytes_length : (laneFrameBytes code payload).length = 4 + payload.length := by
  rw [laneFrameBytes, List.length_append, checkBytes_length, List.length_cons, List.length_cons]
  omega

theorem decodeSelection_sent (hlen : payload.length ≤ 40) (rest : List Byte) :
    decodeSelection p (laneFrameBytes code payload ++ rest) = laneCommand p code payload := by
  rw [decodeSelection, takenFrame_sent code payload rest hlen]

end Lane

/-! ## What a port shifts out after a non-read command (R185) -/

section Silent
variable {s t : State} {c : Instr} {p : Port} {payload bytes : List Byte}

theorem laneAnswer_shiftOut (r : LastResult) : ((laneAnswer p r s).port p).shiftOut = [] := by
  rw [laneAnswer, setPort_port_same]
  rfl

theorem outOfPlace_shiftOut : ((outOfPlace p s).port p).shiftOut = [] := laneAnswer_shiftOut _

theorem laneFrame_shiftOut {act : State → State} (hact : ((act s).port p).shiftOut = []) :
    ((laneFrame p payload act s).port p).shiftOut = [] := by
  obtain ⟨-, h⟩ | ⟨-, h⟩ := laneFrame_eq p payload act s
  · rw [h, discardFrame, setPort_port_same]
  · rw [h, hact]

theorem laneBare_shiftOut {act : State → State} (hact : ((act s).port p).shiftOut = []) :
    ((laneBare p payload act s).port p).shiftOut = [] := by
  refine laneFrame_shiftOut ?_
  by_cases hnil : payload = []
  · rw [if_pos hnil, hact]
  · rw [if_neg hnil, laneAnswer_shiftOut]

theorem beginEvaluation_shiftOut (q : Port) (rest : List Port) :
    ((beginEvaluation q rest s).port p).shiftOut = (s.port p).shiftOut := by
  unfold beginEvaluation
  by_cases hq : p = q
  · rw [hq, setPort_port_same]
  · rw [setPort_port_other _ q p _ hq]
    rfl

theorem engineNext_shiftOut : ((engineNext s).port p).shiftOut = (s.port p).shiftOut := by
  have hwork : ((waitingWork s).port p).shiftOut = (s.port p).shiftOut := congrArg _ waitingWork_port
  unfold engineNext
  split
  · rfl
  · dsimp only
    split
    · exact hwork
    · rw [beginEvaluation_shiftOut, hwork]

theorem takeTap_shiftOut : ((takeTap p payload s).port p).shiftOut = [] := by
  have hjoined : ((joinQueue p (s.setPort p ((s.port p).tapped payload))).port p).shiftOut = [] := by
    rw [joinQueue_setPort, setPort_port_same]
    rfl
  unfold takeTap
  dsimp only
  split_ifs
  · exact laneAnswer_shiftOut _
  · exact laneAnswer_shiftOut _
  · rw [engineNext_shiftOut, hjoined]
  · exact hjoined

theorem takeWritten_shiftOut : ((takeWritten p s).port p).shiftOut = [] := by
  unfold takeWritten
  split_ifs
  · dsimp only
    rw [setPort_port_same]
    rfl
  · exact outOfPlace_shiftOut

theorem takeNotWritten_shiftOut : ((takeNotWritten p s).port p).shiftOut = [] := by
  unfold takeNotWritten
  split_ifs
  · exact laneAnswer_shiftOut _
  · exact outOfPlace_shiftOut

theorem takeUncertain_shiftOut : ((takeUncertain p s).port p).shiftOut = [] := by
  unfold takeUncertain
  split_ifs
  · exact laneAnswer_shiftOut _
  · exact outOfPlace_shiftOut

theorem takeCancel_shiftOut : ((takeCancel p s).port p).shiftOut = [] := by
  unfold takeCancel
  split
  · exact laneAnswer_shiftOut _
  · exact laneAnswer_shiftOut _
  · exact laneAnswer_shiftOut _
  · exact outOfPlace_shiftOut

theorem takeFaultClear_shiftOut : ((takeFaultClear p s).port p).shiftOut = [] := by
  unfold takeFaultClear
  split_ifs
  · exact laneAnswer_shiftOut _
  · exact laneAnswer_shiftOut _

theorem takePortReset_shiftOut : ((takePortReset p s).port p).shiftOut = [] := by
  rw [takePortReset, setPort_port_same]
  rfl

/-- A lane command that reads nothing leaves its own port nothing to shift out. -/
theorem exec_silent (h : laneCommandBytes c = some (p, bytes)) (hverdict : ∀ l, c ≠ .readVerdict p l)
    (hstatus : ∀ l, c ≠ .readStatus p l) (hhalt : ∀ l, c ≠ .readHalt p l) (hexec : exec c s = .next t) :
    (t.port p).shiftOut = [] := by
  cases c
  case readVerdict q l => cases h; exact absurd rfl (hverdict l)
  case readStatus q l => cases h; exact absurd rfl (hstatus l)
  case readHalt q l => cases h; exact absurd rfl (hhalt l)
  all_goals cases h
  all_goals rw [← Host.Outcome.next.inj hexec]
  case tap => exact laneFrame_shiftOut takeTap_shiftOut
  case written => exact laneBare_shiftOut takeWritten_shiftOut
  case notWritten => exact laneBare_shiftOut takeNotWritten_shiftOut
  case uncertain => exact laneBare_shiftOut takeUncertain_shiftOut
  case cancel => exact laneBare_shiftOut takeCancel_shiftOut
  case faultClear => exact laneBare_shiftOut takeFaultClear_shiftOut
  case portReset => exact laneBare_shiftOut takePortReset_shiftOut
  case laneUnknownCommand => exact laneFrame_shiftOut (laneAnswer_shiftOut _)

theorem laneSelection_of_exec {clocked : List Byte} (h : exec (decodeSelection p clocked) s = .next t) :
    laneSelection p clocked s = .next (t, shiftedOut clocked (t.port p)) := by
  rw [laneSelection, h]

end Silent

/-! ## Station frames (R190, R192) -/

section Station
variable {c : Instr} {addr code : Byte} {payload bytes : List Byte}

theorem stationCodeDefined_iff :
    stationCodeDefined code = true ↔ (32 ≤ code.toNat ∧ code.toNat ≤ 41) ∨ (64 ≤ code.toNat ∧ code.toNat ≤ 73) :=
  decide_eq_true_iff

theorem stationCommand_undefined (h : stationCodeDefined code = false) :
    stationCommand addr code payload = .stationUnknownCommand addr code payload := by
  have hne (x : Byte) (hx : stationCodeDefined x = true) : code ≠ x := by
    rintro rfl
    rw [h] at hx
    cases hx
  simp (disch := decide) only [stationCommand, hne, if_false]

theorem stationCommand_maint (h : payload ≠ [0x01#8]) :
    stationCommand addr 0x48#8 payload = .maintUnknownOperation addr payload := if_neg h

/-- A station command that a frame can carry is sent as the frame of an address, a code and a payload which the decoder gives
back. -/
theorem stationCommand_sent (hwf : wellFormed c = true) (h : stationCommandBytes c = some bytes) :
    ∃ addr code payload, bytes = stationFrameBytes addr code payload ∧ payload.length ≤ 96
      ∧ stationCommand addr code payload = c := by
  cases c
  case stationUnknownCommand addr code payload =>
    cases h
    obtain ⟨hcode, hlen⟩ := Bool.and_eq_true_iff.1 hwf
    exact ⟨addr, code, payload, rfl, of_decide_eq_true hlen, stationCommand_undefined (by simpa using hcode)⟩
  case maintUnknownOperation addr payload =>
    cases h
    obtain ⟨hlen, hop⟩ := Bool.and_eq_true_iff.1 hwf
    exact ⟨addr, 0x48#8, payload, rfl, of_decide_eq_true hlen, stationCommand_maint (bne_iff_ne.1 hop)⟩
  case forceCheckFault addr =>
    cases h
    exact ⟨addr, 0x48#8, [0x01#8], rfl, by decide, rfl⟩
  all_goals cases h
  all_goals exact ⟨_, _, _, rfl, of_decide_eq_true hwf, rfl⟩

/-- The characters before the first start marker are not taken. -/
theorem decodeStation_skips {before : List Byte} (h : ∀ b ∈ before, b ≠ 0xA5#8) (rest : List Byte) :
    decodeStation (before ++ rest) = decodeStation rest := by
  unfold decodeStation
  rw [List.dropWhile_append_of_pos fun b hb => by simpa using h b hb]

theorem decodeStation_sent (hlen : payload.length ≤ 96) (rest : List Byte) :
    decodeStation (stationFrameBytes addr code payload ++ rest) = some (stationCommand addr code payload) := by
  have hbody : takeBody 96 (BitVec.ofNat 8 payload.length) (payload ++ checkBytes (frameCheck addr code payload) ++ rest)
      = some (payload, frameCheck addr code payload) := takeBody_sent _ rest (by simp; omega) hlen
  have hframe : stationFrameBytes addr code payload ++ rest = 0xA5#8 :: addr :: code :: BitVec.ofNat 8 payload.length
      :: (payload ++ checkBytes (frameCheck addr code payload) ++ rest) := rfl
  rw [hframe, decodeStation_marked, decodeStationFrame, hbody]
  exact congrArg some (if_pos rfl)

end Station

/-! ## The obligation -/

/-- Settles O17. -/
theorem imageBytesAndFieldsAgree : Obligations.ImageBytesAndFieldsAgree := by
  unfold Obligations.ImageBytesAndFieldsAgree
  refine ⟨fun c => parseImage_imageBytes, fun bs h => ⟨imageBytes_parseImage h, imageInRange_parseImage bs⟩, ?lane, ?station,
    ?places, fun bs i n b => ⟨fieldAt_zero bs i, fieldAt_succ⟩,
    fun bs k n w => ⟨beNat_eq_fieldAt bs, beBytes_length k n, fieldAt_last k n, beBytes_two w.toNat⟩, ?laneCodes,
    fun payload => rfl, ?stationCodes, ?selection, ?shifts, ⟨rfl, fun b bs => rfl⟩, fun code => stationCodeDefined_iff⟩
  case lane =>
    intro c p bytes rest hwf h
    obtain ⟨code, payload, rfl, hlen, hc⟩ := laneCommand_sent hwf h
    rw [decodeSelection_sent hlen, hc]
  case station =>
    intro c bytes before rest hwf h hbefore
    obtain ⟨addr, code, payload, rfl, hlen, hc⟩ := stationCommand_sent hwf h
    rw [List.append_assoc, decodeStation_skips hbefore, decodeStation_sent hlen, hc]
  case places =>
    rintro bs c - rfl
    refine ⟨rfl, rfl, rfl, decide_eq_true_iff, rfl, decide_eq_true_iff, rfl, rfl, decide_eq_true_iff, decide_eq_true_iff,
      decide_eq_true_iff, rfl, rfl, rfl, rfl, rfl, rfl, rfl, rfl, rfl, rfl, rfl, rfl, rfl, rfl⟩
  case laneCodes =>
    rintro p code payload header c rfl hc
    refine ⟨rfl, ?_⟩
    fin_cases hc <;> rfl
  case stationCodes =>
    rintro addr code payload body c rfl (hlisted | ⟨rfl, rfl, rfl⟩ | ⟨rfl, hne, rfl⟩ | ⟨hcode, rfl⟩)
    · refine ⟨rfl, ?_⟩
      fin_cases hlisted <;> exact ⟨rfl, rfl⟩
    · exact ⟨rfl, rfl, rfl⟩
    · exact ⟨rfl, stationCommand_maint hne, rfl⟩
    · exact ⟨rfl, stationCommand_undefined hcode, rfl⟩
  case selection =>
    intro p clocked s
    obtain ⟨t, ht⟩ := exec_goes_on (decodeSelection p clocked) s
    exact ⟨t, _, laneSelection_of_exec ht, ht, shiftedOut_length _ _,
      fun h => shiftedOut_discarded _ _ (takenFrame_of_discard h)⟩
  case shifts =>
    intro c p bytes extra s hwf h
    obtain ⟨t, ht⟩ := exec_goes_on c s
    obtain ⟨code, payload, rfl, hlen, hc⟩ := laneCommand_sent hwf h
    have hselection : exec (decodeSelection p (laneFrameBytes code payload ++ extra)) s = .next t := by
      rw [decodeSelection_sent hlen, hc, ht]
    have hselected := laneSelection_of_exec hselection
    rw [shiftedOut_sent _ _ _ _ hlen, ← laneFrameBytes_length] at hselected
    refine ⟨t, _, ht, hselected, ?_, ?_, ?_⟩
    · intro k hk
      rw [List.getElem?_append_left (by simpa using hk), List.getElem?_replicate, if_pos hk]
    · intro k hk
      rw [List.getElem?_append_right (by simp), List.length_replicate, Nat.add_sub_cancel_left, List.getElem?_map,
        List.getElem?_range hk]
      rfl
    · intro hverdict hstatus hhalt
      rw [exec_silent h hverdict hstatus hhalt ht, List.replicate_add]
      simp

end Sys2Proof.Machine
end

