-- ==== Sys2Proof/Proofs/Fares.lean ====
section
/-! PROOFS. The fare of an entry and of an exit, stage by stage, and the fare stage of an evaluation (R49 to R63, R72, R77). -/

namespace Sys2Proof.Machine

/-! ## Entry (R50 to R52) -/

section Entry
variable {e : FareEnv} {c : CardImage} {k : RecKind} {charge z1 z2 : Nat} {b : Int} {img : CardImage}

theorem entryNeed_eq (e : FareEnv) (c : CardImage) :
    entryNeed e c = if c.pass ∧ c.zoneLow ≤ e.zone ∧ e.zone ≤ c.zoneHigh then 0 else e.bank.entryMinimum := by
  simp only [entryNeed, inPassZones, Bool.and_eq_true, decide_eq_true_eq]

theorem entryFare_expired (hpass : c.pass = true) (h : c.passExpiry < e.day) :
    entryFare e c = .refused .passExpired 0 0 c.balance := if_pos ⟨hpass, h⟩

/-- Past the pass's expiry test the entry goes on to the passback test. -/
theorem entryFare_valid (h : c.pass = false ∨ e.day ≤ c.passExpiry) : entryFare e c =
    if c.journeyIn ∧ c.entryStation = e.station ∧ entryAge e c ≤ e.bank.passback then
      .refused .passback (entryAge e c) 0 c.balance
    else if c.balance - unclosedOf e c < entryNeed e c then
      .refused .insufficient 1 (unclosedOf e c) (c.balance - unclosedOf e c)
    else
      .done .entry (unclosedOf e c) (c.balance - unclosedOf e c) e.zone 0 (entryImage e c (unclosedOf e c)) := by
  refine if_neg ?_
  rintro ⟨hpass, hexpired⟩
  obtain hno | hday := h
  · exact Bool.noConfusion (hno.symm.trans hpass)
  · omega

theorem entryFare_done (h : entryFare e c = .done k charge b z1 z2 img) :
    k = .entry ∧ b = c.balance - charge ∧ 0 ≤ b ∧ img = entryImage e c charge := by
  unfold entryFare at h
  split at h
  · cases h
  split at h
  · cases h
  split at h
  · cases h
  next hneed =>
    cases h
    exact ⟨rfl, rfl, by omega, rfl⟩

end Entry

/-! ## Exit (R53 to R62) -/

section Exit
variable {e : FareEnv} {c : CardImage} {charge z1 z2 : Nat} {spend : CardImage → CardImage}

theorem balanceStage_paid (h : 0 ≤ c.balance - charge) : balanceStage e c charge z1 z2 spend
    = .done .exit charge (c.balance - charge) z1 z2 (spend (exitImage e c (c.balance - charge) c.overdraft)) := if_pos h

theorem balanceStage_used (h : c.balance - charge < 0) (hused : c.overdraft = true) :
    balanceStage e c charge z1 z2 spend = .refused .insufficient 2 charge (c.balance - charge) := by
  rw [balanceStage, if_neg (by omega), if_pos hused]

theorem balanceStage_beyond (h : c.balance - charge < 0) (hused : c.overdraft = false)
    (hlimit : c.balance - charge < -(e.bank.overdraftLimit : Int)) :
    balanceStage e c charge z1 z2 spend = .refused .insufficient 3 charge (c.balance - charge) := by
  rw [balanceStage, if_neg (by omega), if_neg (by simp [hused]), if_pos hlimit]

theorem balanceStage_overdrawn (h : c.balance - charge < 0) (hused : c.overdraft = false)
    (hlimit : -(e.bank.overdraftLimit : Int) ≤ c.balance - charge) : balanceStage e c charge z1 z2 spend
      = .done .exit charge (c.balance - charge) z1 z2 (spend (exitImage e c (c.balance - charge) true)) := by
  rw [balanceStage, if_neg (by omega), if_neg (by simp [hused]), if_neg (by omega)]

theorem balanceStage_done {k : RecKind} {paid y1 y2 : Nat} {b : Int} {img : CardImage}
    (h : balanceStage e c charge z1 z2 spend = .done k paid b y1 y2 img) :
    k = .exit ∧ b = c.balance - paid ∧ -(e.bank.overdraftLimit : Int) ≤ b ∧ ∃ used, img = spend (exitImage e c b used) := by
  unfold balanceStage at h
  dsimp only at h
  split at h
  · cases h
    exact ⟨rfl, rfl, by omega, _, rfl⟩
  split at h
  · cases h
  split at h
  · cases h
  next hlimit =>
    cases h
    exact ⟨rfl, rfl, by omega, _, rfl⟩

theorem covered_eq (e : FareEnv) (c : CardImage) : covered e c
    = (c.pass && decide (e.day ≤ c.passExpiry) && decide (c.zoneLow ≤ c.entryZone ∧ c.entryZone ≤ c.zoneHigh)
        && decide (c.zoneLow ≤ e.zone ∧ e.zone ≤ c.zoneHigh)) := by
  rw [covered, inPassZones, inPassZones, Bool.decide_and, Bool.decide_and]

theorem exitFare_penalty (h : c.journeyIn = false) :
    exitFare e c = balanceStage e c (e.bank.penalty e.zone) 0 e.zone id := by
  rw [exitFare, if_pos (by simp [h])]

theorem exitFare_covered (h : c.journeyIn = true) (hcover : covered e c = true) :
    exitFare e c = balanceStage e c (withOvertime e c 0) c.entryZone e.zone id := by
  rw [exitFare, if_neg (by simp [h]), if_pos hcover]

theorem exitFare_journey (h : c.journeyIn = true) (hcover : covered e c = false) :
    exitFare e c = balanceStage e c (withOvertime e c (journeyFare e c)) c.entryZone e.zone
      (spendFields e.day (spentToday e.day c) (journeyFare e c)) := by
  rw [exitFare, if_neg (by simp [h]), if_neg (by simp [hcover])]

/-- Every exit ends in the balance stage, which sets at most the spend fields beside its own. -/
theorem exitFare_eq (e : FareEnv) (c : CardImage) : ∃ charge z1 spend,
    exitFare e c = balanceStage e c charge z1 e.zone spend ∧ (spend = id ∨ ∃ day spent capped, spend = spendFields day spent capped) := by
  cases hj : c.journeyIn
  · exact ⟨_, _, _, exitFare_penalty hj, .inl rfl⟩
  cases hcover : covered e c
  · exact ⟨_, _, _, exitFare_journey hj hcover, .inr ⟨_, _, _, rfl⟩⟩
  · exact ⟨_, _, _, exitFare_covered hj hcover, .inl rfl⟩

end Exit

/-! ## The stages of an uncovered journey (R55 to R59) -/

section Journey
variable {e : FareEnv} {c : CardImage}

/-- The last number of a range that meets a condition is what the fold over the range keeps. -/
theorem foldl_range_last {n k init : Nat} {q : Nat → Prop} [DecidablePred q] (hk : k < n) (hq : q k)
    (hlast : ∀ j, k < j → j < n → ¬ q j) : (List.range n).foldl (fun acc j => if q j then j else acc) init = k := by
  induction n with
  | zero => omega
  | succ n ih =>
    rw [List.range_succ, List.foldl_append, List.foldl_cons, List.foldl_nil]
    by_cases hn : k = n
    · subst hn
      exact if_pos hq
    · rw [if_neg (hlast n (by omega) (by omega)), ih (by omega) fun j hkj hj => hlast j hkj (by omega)]

theorem bandOf_eq {b : Bank} {minute k : Nat} (hk : k < b.bandCount) (hstart : b.bandStart k ≤ minute)
    (hlast : ∀ j, k < j → j < b.bandCount → minute < b.bandStart j) : bandOf b minute = k :=
  foldl_range_last hk hstart fun j hkj hj => Nat.not_le.2 (hlast j hkj hj)

theorem steppedFare_eq (step x : Nat) : steppedFare step x
    = if (x + step / 2) / step * step ≤ 65535 then (x + step / 2) / step * step else 65535 / step * step := by
  simp only [steppedFare, ← Nat.not_lt, ite_not]

end Journey

/-! ## The fare stage of an evaluation (R49, R63, R72, R77) -/

section Stage
variable {s : State} {e : Evaluation} {b : Bank}

theorem chargingOutcome_eq (e : Evaluation) (b : Bank) (s : State) : chargingOutcome e b s
    = if e.port = .a then entryFare (fareEnv s b) e.card else exitFare (fareEnv s b) e.card := by
  unfold chargingOutcome
  cases e.port <;> rfl

theorem fareStage_free (h : e.freeExit = true) :
    fareStage e s = goOn .reservations { e with fare := some (freeResult e s) } s := if_pos h

theorem fareStage_charges (h : e.freeExit = false) (hb : s.fu.activeBank = some b) :
    fareStage e s = fareEnd e b s (chargingOutcome e b s) := by
  rw [fareStage, if_neg (by simp [h]), hb]

theorem fareEnd_insufficient (detail charge : Nat) (balance : Int) : fareEnd e b s (.refused .insufficient detail charge balance)
    = decided (insufficientVerdict e detail charge balance b.version) e s := by
  rw [fareEnd, if_pos rfl]

theorem fareEnd_refused {code : VCode} (h : code ≠ .insufficient) (detail charge : Nat) (balance : Int) :
    fareEnd e b s (.refused code detail charge balance) = refused code detail e s := if_neg h

end Stage

/-! ## The obligation -/

/-- Settles O19. -/
theorem acceptedFareKeepsItsBounds : Obligations.AcceptedFareKeepsItsBounds := by
  unfold Obligations.AcceptedFareKeepsItsBounds
  refine ⟨?accepted, ?entry, ?exit, ?stage⟩
  case accepted =>
    intro e c img k charge z1 z2 b p h
    cases p with
    | a =>
      obtain ⟨rfl, hb, hpos, rfl⟩ := entryFare_done h
      exact ⟨rfl, rfl, rfl, rfl, rfl, hb.symm, hb, by omega, fun _ => ⟨rfl, rfl⟩, fun hp => Port.noConfusion hp⟩
    | b =>
      obtain ⟨paid, zone, spend, hexit, hspend⟩ := exitFare_eq e c
      obtain ⟨rfl, hb, hlimit, used, rfl⟩ := balanceStage_done (hexit.symm.trans h)
      obtain rfl | ⟨day, spent, capped, rfl⟩ := hspend
      · exact ⟨rfl, rfl, rfl, rfl, rfl, rfl, hb, hlimit, fun hp => Port.noConfusion hp, fun _ => ⟨rfl, rfl⟩⟩
      · exact ⟨rfl, rfl, rfl, rfl, rfl, rfl, hb, hlimit, fun hp => Port.noConfusion hp, fun _ => ⟨rfl, rfl⟩⟩
  case entry =>
    intro e c age u need hage hu hneed
    rw [← entryNeed_eq] at hneed
    have hage' : age = entryAge e c := hage
    have hu' : u = unclosedOf e c := hu
    subst hage' hu' hneed
    refine ⟨entryFare_expired, fun hvalid => ⟨fun hj hstation hage => ?_, fun hpassed => ⟨fun hlow => ?_, fun henough => ?_⟩⟩⟩
    all_goals rw [entryFare_valid hvalid]
    · exact if_pos ⟨hj, hstation, hage⟩
    all_goals
      have hnot : ¬ (c.journeyIn ∧ c.entryStation = e.station ∧ entryAge e c ≤ e.bank.passback) := by
        rintro ⟨hj, hstation, hage⟩
        obtain h | h | h := hpassed
        · simp [h] at hj
        · exact h hstation
        · omega
      rw [if_neg hnot]
    · exact if_pos hlow
    · exact if_neg (by omega)
  case exit =>
    intro e c late cover hlate hcover pays
    have hpays : ∀ charge z1 spend, exitFare e c = balanceStage e c charge z1 e.zone spend → pays charge z1 spend := by
      intro charge z1 spend h
      simp only [pays, h]
      exact ⟨balanceStage_paid, balanceStage_used, balanceStage_beyond, balanceStage_overdrawn⟩
    have hlate' : late = withOvertime e c := funext hlate
    rw [← covered_eq] at hcover
    subst hlate' hcover
    refine ⟨fun hj => hpays _ _ _ (exitFare_penalty hj), fun hj hc => hpays _ _ _ (exitFare_covered hj hc), ?_⟩
    intro k banded conc trans spent stepped capped hj hc ⟨hk, hstart, hlast⟩ hbanded hconc htrans hstepped hspent hcapped
    have hband : bandedFare e.bank c.entryMinute (e.bank.matrix c.entryZone e.zone) = banded := by
      rw [bandedFare, bandOf_eq hk hstart hlast, hbanded]
    have hconcession : concessionFare e.bank c.cls banded = conc := hconc.symm
    have htransfer : transferFare e.bank c conc = trans := htrans.symm
    have hstep : steppedFare e.bank.fareStep trans = stepped := (steppedFare_eq _ _).trans hstepped.symm
    have htoday : spentToday e.day c = spent := hspent.symm
    have hcap : cappedFare (e.bank.dailyCap c.cls) spent stepped = capped := hcapped.symm
    have hfare : journeyFare e c = capped := by
      simp only [journeyFare, hband, hconcession, htransfer, hstep, htoday, hcap]
    have hexit : exitFare e c = balanceStage e c (withOvertime e c capped) c.entryZone e.zone
        (spendFields e.day spent capped) := by rw [exitFare_journey hj hc, hfare, htoday]
    exact hpays _ _ _ hexit
  case stage =>
    intro s e he hv hst card takes refuses
    have hstep : evalStep s = fareStage e s := evalStep_stage he hv hst
    refine ⟨fun hfree => hstep.trans (fareStage_free hfree), fun b result hfree hb hresult => ?_⟩
    have hends : evalStep s = fareEnd e b s result := by
      rw [hstep, fareStage_charges hfree hb, chargingOutcome_eq, hresult]
      rfl
    refine ⟨fun k charge balance z1 z2 img h => ?_, fun detail charge balance h => ?_, fun code detail charge balance h hcode => ?_⟩
    · rw [h] at hends
      exact hends
    · rw [h, fareEnd_insufficient] at hends
      exact ⟨_, rfl, rfl, rfl, rfl, rfl, rfl, rfl, hends⟩
    · rw [h, fareEnd_refused hcode] at hends
      exact ⟨_, rfl, rfl, rfl, rfl, rfl, rfl, rfl, hends⟩

end Sys2Proof.Machine
end

