-- ==== Sys2Proof/Proofs/Resets.lean ====
section
/-! PROOFS. POWER_ON and LINE_RESET: the values each block takes, and the torn records that expire at the reset (R26, R38, R92,
R106, R110, R159, R174, R184, R189, R191). -/

namespace Sys2Proof.Machine

/-! ## What alerts and the activation test leave of the reset values -/

/-- What a request for an alert leaves of a Journal whose arm is not set. -/
def HoldsAfterReset (j j' : Journal) : Prop :=
  j'.held = j.held ∧ j'.durable = j.durable ∧ j'.reserved = j.reserved ∧ (j.armed = false → j'.armed = false)

theorem HoldsAfterReset.trans {j k l : Journal} (h : HoldsAfterReset j k) (g : HoldsAfterReset k l) : HoldsAfterReset j l := by
  obtain ⟨hheld, hdurable, hreserved, harmed⟩ := h
  obtain ⟨gheld, gdurable, greserved, garmed⟩ := g
  exact ⟨gheld.trans hheld, gdurable.trans hdurable, greserved.trans hreserved, fun ha => garmed (harmed ha)⟩

theorem holdsAfterReset_rfl (j : Journal) : HoldsAfterReset j j := ⟨rfl, rfl, rfl, id⟩

theorem requestAlert_holdsAfterReset (t : TimeLink) (c : Content) (j : Journal) : HoldsAfterReset j (requestAlert t c j) := by
  unfold requestAlert
  split_ifs
  · exact ⟨rfl, rfl, rfl, fun _ => rfl⟩
  · exact ⟨rfl, rfl, rfl, id⟩

/-- The banks as a reset leaves them: none LOADING, and no test held. -/
def BanksAfterReset (f : FareUnit) : Prop := f.bank0.state ≠ .loading ∧ f.bank1.state ≠ .loading ∧ f.heldTest = false

theorem bankAfterReset_not_loading (b : Bank) : (bankAfterReset b).state ≠ .loading := by
  unfold bankAfterReset
  split_ifs with h
  · exact BankState.noConfusion
  · exact h

theorem fareAfterReset_banks (f : FareUnit) : BanksAfterReset (fareAfterReset f) :=
  ⟨bankAfterReset_not_loading _, bankAfterReset_not_loading _, rfl⟩

theorem retireBank_not_loading {b : Bank} (h : b.state ≠ .loading) : (retireBank b).state ≠ .loading := by
  unfold retireBank
  split_ifs
  · exact BankState.noConfusion
  · exact h

/-- The activation test makes no bank LOADING, holds no test and requests an alert at most. -/
theorem runActivation_afterReset {s : State} (h : BanksAfterReset s.fu) : ∃ fu jn,
    runActivation s = { s with fu := fu, jn := jn } ∧ BanksAfterReset fu ∧ HoldsAfterReset s.jn jn := by
  obtain ⟨h0, h1, htest⟩ := h
  refine ⟨_, _, rfl, ?_⟩
  unfold activationTest
  split
  · exact ⟨⟨h0, h1, htest⟩, holdsAfterReset_rfl _⟩
  next one _ =>
    split
    · refine ⟨?_, requestAlert_holdsAfterReset _ _ _⟩
      cases one
      · exact ⟨BankState.noConfusion, retireBank_not_loading h1, htest⟩
      · exact ⟨retireBank_not_loading h0, BankState.noConfusion, htest⟩
    · exact ⟨⟨h0, h1, htest⟩, holdsAfterReset_rfl _⟩

/-! ## The expiry of torn records at a reset (R105, R106) -/

section Expiry
variable {s : State} {t : List TornRecord} {r : TornRecord}

/-- The table loses records at most, and the Journal gets alerts at most; nothing else changes. -/
def ExpiredFrom (s t : State) : Prop :=
  ∃ torn jn, t = { s with ve := { s.ve with torn := torn }, jn := jn } ∧ torn ⊆ s.ve.torn ∧ HoldsAfterReset s.jn jn

theorem expireIfDue_expiredFrom (n : Nat) (s : State) : ExpiredFrom s (expireIfDue n s) := by
  unfold expireIfDue
  split
  next r _ =>
    split_ifs
    · exact ⟨_, _, tornReport_eq r .expired s, List.filter_subset_self _, requestAlert_holdsAfterReset _ _ _⟩
    · exact ⟨_, _, rfl, List.Subset.refl _, holdsAfterReset_rfl _⟩
  · exact ⟨_, _, rfl, List.Subset.refl _, holdsAfterReset_rfl _⟩

theorem expireAtReset_expiredFrom (s : State) : ExpiredFrom s (expireAtReset s) := by
  have hfold (serials : List Nat) (u : State) : ExpiredFrom u (serials.foldl (fun acc n => expireIfDue n acc) u) := by
    induction serials generalizing u with
    | nil => exact ⟨_, _, rfl, List.Subset.refl _, holdsAfterReset_rfl _⟩
    | cons n rest ih =>
      obtain ⟨torn, jn, heq, hsub, hheld⟩ := expireIfDue_expiredFrom n u
      obtain ⟨torn', jn', heq', hsub', hheld'⟩ := ih (expireIfDue n u)
      rw [heq] at heq' hsub' hheld'
      refine ⟨torn', jn', ?_, fun x hx => hsub (hsub' hx), hheld.trans hheld'⟩
      rw [List.foldl_cons, heq, heq']
  exact hfold _ s

theorem unresolvedOf_of_mem (hone : (t.map (·.serial)).Nodup) (hr : r ∈ t) (hwindow : r.window.isSome = true) :
    unresolvedOf t r.serial = some r := by
  obtain ⟨x, hx⟩ := Option.isSome_iff_exists.1 ((unresolvedOf_isSome_iff t _).2 ⟨r, hr, rfl, hwindow⟩)
  obtain ⟨hmem, hserial, -⟩ := unresolvedOf_some hx
  rw [hx, List.inj_on_of_nodup_map hone hmem hr hserial]

/-- The records from one on, each in turn: those due leave with their alerts, in the order of the table. -/
theorem expire_records (kept rest : List TornRecord) (s : State) (ht : s.ve.torn = kept ++ rest)
    (hone : (s.ve.torn.map (·.serial)).Nodup) :
    (rest.map (·.serial)).foldl (fun acc n => expireIfDue n acc) s = { s with
      ve := { s.ve with torn := kept ++ rest.filter (fun r => r.state != .unresolved 0) }
      jn := requestAlerts s.tl ((rest.filter (fun r => r.state == .unresolved 0)).map (fun r => tornAlert r .expired)) s.jn } := by
  induction rest generalizing kept s with
  | nil =>
    rw [List.append_nil] at ht
    rw [List.filter_nil, List.append_nil, ← ht]
    rfl
  | cons r rest ih =>
    have hmem : r ∈ s.ve.torn := ht ▸ List.mem_append_right kept List.mem_cons_self
    rw [List.map_cons, List.foldl_cons]
    by_cases hdue : r.state = .unresolved 0
    · have hfound := unresolvedOf_of_mem hone hmem (by simp [(window_zero_iff r).2 hdue])
      have hparts : (r :: (kept ++ rest)).map (·.serial) |>.Nodup := by
        rw [ht] at hone
        exact (List.perm_middle.map _).nodup_iff.1 hone
      obtain ⟨hnew, hrest⟩ := List.nodup_cons.1 hparts
      have hdropped : s.ve.torn.filter (fun x => x.serial != r.serial) = kept ++ rest := by
        rw [ht, List.filter_append, List.filter_cons_of_neg (by simp), ← List.filter_append]
        refine List.filter_eq_self.2 fun x hx => bne_iff_ne.2 fun hserial => hnew ?_
        exact List.mem_map.2 ⟨x, hx, hserial⟩
      rw [expireIfDue_due hfound hdue, tornReport_eq, hdropped, ih kept _ rfl hrest,
        List.filter_cons_of_neg (by simp [hdue]), List.filter_cons_of_pos (by simp [hdue])]
      rfl
    · have hwaits : expireIfDue r.serial s = s := expireIfDue_waits fun x hx => by
        obtain ⟨hxmem, hserial, -⟩ := unresolvedOf_some hx
        rwa [List.inj_on_of_nodup_map hone hxmem hmem hserial]
      rw [hwaits, ih (kept ++ [r]) s (by rw [ht, List.append_assoc]; rfl) hone, List.filter_cons_of_pos (by simp [hdue]),
        List.filter_cons_of_neg (by simp [hdue]), List.append_assoc]
      rfl

theorem expireAtReset_eq (hone : (s.ve.torn.map (·.serial)).Nodup) : expireAtReset s = { s with
    ve := { s.ve with torn := s.ve.torn.filter (fun r => r.state != .unresolved 0) }
    jn := requestAlerts s.tl
      ((s.ve.torn.filter (fun r => r.state == .unresolved 0)).map (fun r => tornAlert r .expired)) s.jn } :=
  expire_records [] s.ve.torn s rfl hone

theorem tornAfterReset_serials (window : Nat) (t : List TornRecord) :
    (tornAfterReset window t).map (·.serial) = t.map (·.serial) := by
  rw [tornAfterReset, List.map_map]
  refine List.map_congr_left fun r _ => ?_
  dsimp only [Function.comp]
  split <;> rfl

theorem tornAfterReset_unresolved {window : Nat} (hr : r ∈ tornAfterReset window t) (p : Port) : r.state ≠ .pending p := by
  obtain ⟨x, -, rfl⟩ := List.mem_map.1 hr
  split
  · exact TornState.noConfusion
  next w hw => rw [hw]; exact TornState.noConfusion

end Expiry

/-! ## The values of the blocks -/

section Blocks
variable {s : State}

theorem denyAfterReset_eq (d : DenyList) : denyAfterReset d
    = { d with entries := if d.loading then d.entries.map clearStale else d.entries, loading := false } := by
  unfold denyAfterReset
  cases hd : d.loading
  · rw [if_neg Bool.false_ne_true, if_neg Bool.false_ne_true, ← hd]
  · rw [if_pos rfl, if_pos rfl]

/-- The part after a reset of a table with one record of a serial, every block written out. -/
def afterReset (now : Nat) (keep : Bool) (j : Journal) (tl : TimeLink) (s : State) : State :=
  let torn := tornAfterReset s.cfg.tornWindow s.ve.torn
  { resetBlocks now keep j tl s with
    ve := { queue := [], eval := none, inFlight := [], torn := torn.filter (fun r => r.state != .unresolved 0) }
    su := { s.su with
      seen := []
      deny := { s.su.deny with
        entries := if s.su.deny.loading then s.su.deny.entries.map clearStale else s.su.deny.entries
        loading := false } }
    jn := requestAlerts tl ((torn.filter (fun r => r.state == .unresolved 0)).map (fun r => tornAlert r .expired)) j }

theorem expireAtReset_resetBlocks (hone : (s.ve.torn.map (·.serial)).Nodup) (now : Nat) (keep : Bool) (j : Journal)
    (tl : TimeLink) : expireAtReset (resetBlocks now keep j tl s) = afterReset now keep j tl s := by
  have hone' : ((resetBlocks now keep j tl s).ve.torn.map (·.serial)).Nodup :=
    (tornAfterReset_serials s.cfg.tornWindow s.ve.torn).symm ▸ hone
  rw [expireAtReset_eq hone', resetBlocks, screeningAfterReset, denyAfterReset_eq]
  rfl

/-- A reset with its expiries and with or without an activation test: the values that hold of every state. -/
theorem reset_values {now : Nat} {keep : Bool} {j : Journal} {tl : TimeLink} {t : State}
    (ht : t = expireAtReset (resetBlocks now keep j tl s)
      ∨ t = runActivation (expireAtReset (resetBlocks now keep j tl s))) :
    ∃ torn fu jn, t = { resetBlocks now keep j tl s with
        ve := { queue := [], eval := none, inFlight := [], torn := torn }, fu := fu, jn := jn }
      ∧ (∀ r ∈ torn, ∀ p, r.state ≠ .pending p) ∧ BanksAfterReset fu ∧ HoldsAfterReset j jn := by
  obtain ⟨torn, jn, heq, hsub, hheld⟩ := expireAtReset_expiredFrom (resetBlocks now keep j tl s)
  have hbanks : BanksAfterReset (resetBlocks now keep j tl s).fu := fareAfterReset_banks s.fu
  have htorn : ∀ r ∈ torn, ∀ p, r.state ≠ .pending p := fun r hr p => tornAfterReset_unresolved (hsub hr) p
  rw [heq] at ht
  obtain rfl | rfl := ht
  · exact ⟨torn, _, jn, rfl, htorn, hbanks, hheld⟩
  · obtain ⟨fu, jn', heq', hbanks', hheld'⟩ := runActivation_afterReset (s := { resetBlocks now keep j tl s with
      ve := { (resetBlocks now keep j tl s).ve with torn := torn }, jn := jn }) hbanks
    exact ⟨torn, fu, jn', heq', htorn, hbanks', hheld.trans hheld'⟩

theorem exec_powerOn (s : State) :
    exec .powerOn s = .next (expireAtReset (resetBlocks 0 false (powerOnJournal s.jn) powerOnTime s)) := rfl

theorem exec_lineReset_held (h : s.fu.heldTest = true) : exec .lineReset s
    = .next (runActivation (expireAtReset (resetBlocks s.now true (lineResetJournal s.jn) s.tl s))) :=
  congrArg Host.Outcome.next (if_pos h)

theorem exec_lineReset_unheld (h : s.fu.heldTest = false) : exec .lineReset s
    = .next (expireAtReset (resetBlocks s.now true (lineResetJournal s.jn) s.tl s)) :=
  congrArg Host.Outcome.next (if_neg (by simp [h]))

theorem exec_lineReset (s : State) : ∃ t, exec .lineReset s = .next t
    ∧ (t = expireAtReset (resetBlocks s.now true (lineResetJournal s.jn) s.tl s)
      ∨ t = runActivation (expireAtReset (resetBlocks s.now true (lineResetJournal s.jn) s.tl s))) := by
  cases htest : s.fu.heldTest
  · exact ⟨_, exec_lineReset_unheld htest, .inl rfl⟩
  · exact ⟨_, exec_lineReset_held htest, .inr rfl⟩

end Blocks

/-! ## The obligation -/

/-- Settles O60. -/
theorem resetsTakeTheirValues : Obligations.ResetsTakeTheirValues := by
  unfold Obligations.ResetsTakeTheirValues
  refine ⟨?values, ?blocks⟩
  case values =>
    have hdeny (d : DenyList) : (denyAfterReset d).loading = false ∧ (denyAfterReset d).version = d.version := by
      rw [denyAfterReset_eq]
      exact ⟨rfl, rfl⟩
    rintro s c (rfl | rfl)
    · obtain ⟨torn, fu, jn, heq, htorn, ⟨h0, h1, htest⟩, hheld, hdurable, hreserved, harmed⟩ :=
        reset_values (s := s) (now := 0) (keep := false) (j := powerOnJournal s.jn) (tl := powerOnTime) (.inl rfl)
      refine ⟨_, (exec_powerOn s).trans (congrArg Host.Outcome.next heq), rfl, rfl, rfl, rfl, rfl, htorn, rfl, rfl,
        (hdeny s.su.deny).1, (hdeny s.su.deny).2, h0, h1, htest, rfl, rfl, rfl, rfl, rfl, rfl, rfl, rfl, rfl, hheld, hdurable,
        hreserved, harmed rfl, rfl, rfl, fun _ => ⟨rfl, rfl, rfl⟩, fun h => Instr.noConfusion h⟩
    · obtain ⟨t, hexec, ht⟩ := exec_lineReset s
      obtain ⟨torn, fu, jn, rfl, htorn, ⟨h0, h1, htest⟩, hheld, hdurable, hreserved, harmed⟩ := reset_values ht
      refine ⟨_, hexec, rfl, rfl, rfl, rfl, rfl, htorn, rfl, rfl, (hdeny s.su.deny).1, (hdeny s.su.deny).2, h0, h1, htest, rfl,
        rfl, rfl, rfl, rfl, rfl, rfl, rfl, rfl, hheld, hdurable, hreserved, harmed rfl, rfl, rfl,
        fun h => Instr.noConfusion h, fun _ => ⟨rfl, rfl, rfl⟩⟩
  case blocks =>
    intro s c hc hone torn deny bank now tl lost jn expired
    obtain rfl | rfl := hc
    · refine ⟨_, afterReset 0 false (powerOnJournal s.jn) powerOnTime s, exec_powerOn s, rfl, fun _ => ?_,
        fun h => Instr.noConfusion h⟩
      exact expireAtReset_resetBlocks hone _ _ _ _
    cases htest : s.fu.heldTest
    · refine ⟨_, afterReset s.now true (lineResetJournal s.jn) s.tl s, exec_lineReset_unheld htest, rfl, fun _ => ?_,
        fun _ h => Bool.noConfusion h⟩
      exact expireAtReset_resetBlocks hone _ _ _ _
    · refine ⟨_, afterReset s.now true (lineResetJournal s.jn) s.tl s, exec_lineReset_held htest, rfl, fun h => ?_,
        fun _ _ => ?_⟩
      · obtain h | h := h
        · exact Instr.noConfusion h
        · exact Bool.noConfusion h
      · rw [expireAtReset_resetBlocks hone]
        exact runActivation_made _

end Sys2Proof.Machine
end
